-- ==== Sys2Proof/Word.lean ====
section
/-! DEFINITION. The words of the PJ612: line levels and the fixed widths of its numbers. -/

namespace Sys2Proof

/-- A byte of the local port (R190). -/
abbrev Byte := BitVec 8

/-- A round code, 0 to 63 (R19, R49). -/
abbrev Code := BitVec 6

/-- A station address, 0 to 31 (R169). -/
abbrev Address := BitVec 5

/-- A 16-bit word: cycle counts, flag words, digests, sequence numbers and the numbers on the line. -/
abbrev Word := BitVec 16

/-- A set of the 32 station addresses: bit n is set when address n is in the set (R190). -/
abbrev AddressSet := BitVec 32

/-- A raw converter code, 0 to 4095 (R71). -/
abbrev Raw := BitVec 12

/-- The level of a wire: the peer line, LTXD, LRXD or a wire of the local port (R1). -/
inductive Level
  | low
  | high
deriving DecidableEq, Repr, Inhabited

/-- The bit a level stands for on the line: HIGH is 1, LOW is 0 (R20). -/
def Level.bit : Level → Bool
  | .low => false
  | .high => true

/-- The level that sends a bit: a 0 is pulled, a 1 is left HIGH (R20). -/
def Level.ofBit : Bool → Level
  | false => .low
  | true => .high

end Sys2Proof
end

