-- ==== Sys2Proof/Syntax.lean ====
section
/-! DEFINITION. The commands and events of the PJ612: one constructor of `Instr` for each row of the
opcode table, with the operands the spec gives it. A port command carries its arguments as they stand on the
port (raw bytes and 16- or 32-bit fields, R190), so that an argument out of range can be written; an event of
the peer line carries the level LRXD has at that moment. -/

namespace Sys2Proof

/-- The levels of the analog pins at one moment (R71, R72). A voltage is an integer number of some common unit;
the raw code depends on ratios alone, so the unit does not matter. -/
structure AnalogLevels where
  inputs : Vector Int 16
  vrefp : Int
  vrefn : Int
deriving DecidableEq, Repr, Inhabited

/-- The payload of WRITE_SETTINGS, field by field (R170, section 11.5). -/
structure SettingsArgs where
  address : Byte
  rate : Byte
  cycleLength : Byte
  missLimit : Byte
  expected : BitVec 32
  ringPolicy : Byte
  ringThreshold : Byte
  alertMask : BitVec 16
  scanMode : Byte
  scanLength : Byte
deriving DecidableEq, Repr

/-- The payload of WRITE_ROUND, field by field (R171, section 11.5). -/
structure RoundArgs where
  index : Byte
  code : Byte
  kind : Byte
  schedule : Byte
  source : Byte
  ring : Byte
deriving DecidableEq, Repr

/-- The payload of WRITE_SLOT, field by field (R173, section 11.5). -/
structure SlotArgs where
  slot : Byte
  plus : Byte
  minus : Byte
  settle : Byte
  offset : BitVec 16
  low : BitVec 16
  high : BitVec 16
  crossingMode : Byte
  band : Byte
  group : Byte
  post : Byte
  skip : Byte
deriving DecidableEq, Repr

/-- The payload of WRITE_TRIP_RULE, field by field (R174, section 11.5). -/
structure TripArgs where
  index : Byte
  enabled : Byte
  watched : Byte
  condition : Byte
  threshold : BitVec 16
  mask : BitVec 16
  persistence : Byte
  blind : Byte
  output : Byte
  post : Byte
deriving DecidableEq, Repr

/-- The commands and events of the opcode table, in the table's order. -/
inductive Instr
  /-- HARD_RESET (R165): RESETN goes low, or power comes on. -/
  | hardReset
  /-- RESET_RELEASE (R165): RESETN rises, or power-on completes. -/
  | resetRelease
  /-- FRAME_OPEN (R180): a falling edge of CSN. -/
  | frameOpen
  /-- FRAME_END (R181): a rising edge of CSN. -/
  | frameEnd
  /-- NOP (R185), taken. -/
  | nop
  /-- READ_STATUS (R164), taken. -/
  | readStatus
  /-- SOFT_RESET (R166), taken. -/
  | softReset
  /-- WRITE_SETTINGS(record) (R170), taken. -/
  | writeSettings (record : SettingsArgs)
  /-- WRITE_ROUND(index, code, kind, schedule, source, ring flag) (R171), taken. -/
  | writeRound (entry : RoundArgs)
  /-- CLEAR_ROUND(index) (R172), taken. -/
  | clearRound (index : Byte)
  /-- WRITE_SLOT(n, configuration) (R173), taken. -/
  | writeSlot (config : SlotArgs)
  /-- WRITE_TRIP_RULE(index, rule) (R174), taken. -/
  | writeTripRule (rule : TripArgs)
  /-- COMMIT (R175), taken. -/
  | commit
  /-- COMMIT_COMPLETE (R151): the digest computation ends. -/
  | commitComplete
  /-- READ_RESULTS(n) (R118), taken. -/
  | readResults (n : Byte)
  /-- READ_LATEST(code) (R109), taken. -/
  | readLatest (code : Byte)
  /-- READ_PEERS(first, count) (R129), taken. -/
  | readPeers (first count : Byte)
  /-- READ_SLOTS(first, count) (R92), taken. -/
  | readSlots (first count : Byte)
  /-- READ_TRIPS (R145), taken. -/
  | readTrips
  /-- POST_ROUND(code) (R60), taken. -/
  | postRound (code : Byte)
  /-- START_SCAN (R88), taken. -/
  | startScan
  /-- STOP_SCAN (R89), taken. -/
  | stopScan
  /-- RESUME_SCAN (R90), taken. -/
  | resumeScan
  /-- INJECT(slot, raw) (R91), taken. -/
  | inject (slot : Byte) (raw : BitVec 16)
  /-- SET_USER_VALUE(value) (R100), taken. -/
  | setUserValue (value : BitVec 16)
  /-- SET_USER_FLAGS(flags) (R104), taken. -/
  | setUserFlags (flags : Byte)
  /-- CLEAR_FLAGS(mask) (R103), taken. -/
  | clearFlags (mask : BitVec 16)
  /-- CLEAR_TRIP(rule) (R143), taken. -/
  | clearTrip (rule : Byte)
  /-- CLEAR_ALERTS(mask) (R162), taken. -/
  | clearAlerts (mask : BitVec 16)
  /-- ENTER_IDLE (R9, R14): the HIGH sample that brings the idle run to 11. -/
  | enterIdle
  /-- ENTER_STUCK (R13): the LOW sample that brings the LOW run to 64. -/
  | enterStuck
  /-- BEGIN_START_MARK (R11): the boundary, with the line HIGH, at which the station pulls a start mark. -/
  | beginStartMark
  /-- SHORT_START (R10): the HIGH sample that follows a first LOW in IDLE. -/
  | shortStart
  /-- START_MARK_DRIVE_FAULT (R16): a bit of the station's own start mark reads HIGH. -/
  | startMarkDriveFault
  /-- START_MARK (R22): the second LOW sample in IDLE. -/
  | startMark
  /-- DRIVE_FAULT (R15): a bit the station pulled in a round reads HIGH. -/
  | driveFault
  /-- CODE_RECOGNITION (R25): the sample of the sixth code bit. -/
  | codeRecognition (bit : Level)
  /-- OUTCOME_DELIVERY (R43): the sample of the objection bit. -/
  | outcomeDelivery (bit : Level)
  /-- ROUND_END (R157): the boundary that ends the objection bit. -/
  | roundEnd (line : Level)
  /-- CYCLE_TIMER_EXPIRY (R51): the cycle timer reaches L × 1000 µs. -/
  | cycleTimerExpiry
  /-- SETTLE_END (R73): the converter takes the input level, with the analog pins at these levels. -/
  | settleEnd (levels : AnalogLevels)
  /-- CONVERSION_COMPLETE (R80). -/
  | conversionComplete
  /-- SAMPLE_POINT (R7): the LIF reads LRXD at this level. -/
  | samplePoint (level : Level)
  /-- BIT_BOUNDARY (R6): a boundary placed by the bit timer, LRXD at this level. -/
  | bitBoundary (line : Level)
  /-- LRXD_FALLING_EDGE (R4): a HIGH-to-LOW edge on LRXD. -/
  | lrxdFallingEdge
  /-- SCK_EDGE (R180): SCK takes a level, with MOSI at a level. -/
  | sckEdge (sck mosi : Level)
deriving DecidableEq, Repr

end Sys2Proof
end

