-- ==== Sys2Proof/Config.lean ====
section
/-! DEFINITION. The free values of the model (nothing in Lean can evaluate one), and the types of the
configuration image (R168 to R174): what a controller fixes for the station by a commit. -/

namespace Sys2Proof

/-- The nonce generator's low four bits at its `n`-th position (R29): a free value, log entry 1. -/
opaque Config.nonce : Nat → BitVec 4

/-- How long the digest computation of the `n`-th commit takes (R179 bounds it by 1 ms): a free value, log entry 2. -/
opaque Config.commitDelay : Nat → Nat

/-- The raw code of a conversion for which R71 and R72 state none, at the `n`-th draw: a free value, log entry 3. -/
opaque Config.rawWithoutSpan : Nat → Raw

/-- The level the outside world makes on LRXD at the `n`-th clock period in which no command waits: a free value,
log entry 4. -/
opaque Config.lineLevel : Nat → Level

/-- The analog pins at the `n`-th clock period in which no command waits: a free value, log entry 4. -/
opaque Config.analogLevels : Nat → AnalogLevels

/-- The item index byte of an IMAGE_INVALID response whose item class is NONE: R192 gives such a field a fixed filler and
no rule gives its value; a free value, log entry 26. -/
opaque Config.noItemIndex : BitVec 8

/-- What a round computes (R49). -/
inductive Kind
  | anchor
  | roster
  | max
  | min
  | any
  | all
  | digest
deriving DecidableEq, Repr, Inhabited

/-- When a round is due (R49): a cycle divisor, or posted only. -/
inductive Schedule
  | onRequest
  | div1
  | div2
  | div4
  | div8
  | div16
deriving DecidableEq, Repr, Inhabited

/-- Where a contributed value comes from (R95, R171). -/
inductive Source
  | none
  | slot (n : Fin 16)
  | groupMax (g : Fin 4)
  | groupMin (g : Fin 4)
  | userValue
  | flags
deriving DecidableEq, Repr, Inhabited

/-- A round table entry (R49). -/
structure RoundEntry where
  code : Code
  kind : Kind
  schedule : Schedule
  source : Source
  ring : Bool
deriving DecidableEq, Repr, Inhabited

/-- Which events start a scan (R75). -/
inductive ScanMode
  | anchored
  | command
  | continuous
deriving DecidableEq, Repr, Inhabited

/-- What a full ring loses (R114, R115). -/
inductive RingPolicy
  | keepOldest
  | keepNewest
deriving DecidableEq, Repr, Inhabited

/-- Which changes of the crossing side are events (R87). -/
inductive CrossingMode
  | none
  | rise
  | fall
  | both
deriving DecidableEq, Repr, Inhabited

/-- What a trip rule looks for (R132). -/
inductive Condition
  | above
  | below
  | maskSet
  | maskClear
  | rosterShort
  | disagree
deriving DecidableEq, Repr, Inhabited

/-- The pin a trip rule asserts (R142). -/
inductive TripOutput
  | trip0
  | trip1
deriving DecidableEq, Repr, Inhabited

/-- The settings record (R169). -/
structure Settings where
  address : Address
  /-- Rate code, 0 to 3 (R2). -/
  rate : Fin 4
  /-- Cycle length L in ms, 1 to 250. -/
  cycleLength : Nat
  /-- 1 to 15. -/
  missLimit : Nat
  expected : AddressSet
  ringPolicy : RingPolicy
  /-- 1 to 32. -/
  ringThreshold : Nat
  /-- One position for each of the twelve causes. -/
  alertMask : BitVec 12
  scanMode : ScanMode
  /-- Scan length N, 1 to 16. -/
  scanLength : Nat
deriving DecidableEq, Repr

/-- A slot's configuration (R74). -/
structure SlotConfig where
  plus : Fin 16
  /-- `none` is GND: a single-ended slot. -/
  minus : Option (Fin 16)
  settle : Fin 4
  /-- −4096 to +4095, like the two limits. -/
  offset : Int
  low : Int
  high : Int
  crossing : CrossingMode
  /-- 0 to 255. -/
  band : Nat
  group : Option (Fin 4)
  post : Option Code
  skip : Bool
deriving DecidableEq, Repr

/-- A trip rule's configuration (R131). -/
structure TripRule where
  enabled : Bool
  watched : Code
  condition : Condition
  /-- −32768 to 32767. -/
  threshold : Int
  mask : Word
  /-- Persistence P, 1 to 8. -/
  persistence : Nat
  /-- Blind limit B, 0 to 15. -/
  blind : Nat
  output : TripOutput
  post : Option Code
deriving DecidableEq, Repr

/-- The configuration image (R168). -/
structure Image where
  settings : Settings
  rounds : Vector (Option RoundEntry) 24
  slots : Vector SlotConfig 16
  rules : Vector TripRule 8
deriving DecidableEq, Repr

end Sys2Proof
end

