-- ==== Sys2Proof/Machine/Image.lean ====
section
/-! DEFINITION. The configuration image: its defaults (R168, R169), the round table as the blocks read it (R49),
the lengths and times that follow from it (R2, R19, R68, R73), and the digest over its shared part (R177, R178). -/

namespace Sys2Proof.Machine

/-- The default settings record (R169). -/
def defaultSettings : Settings :=
  { address := 0, rate := 2, cycleLength := 10, missLimit := 3, expected := 0, ringPolicy := .keepNewest,
    ringThreshold := 24, alertMask := 0xFFF, scanMode := .anchored, scanLength := 16 }

/-- The default configuration of slot n (R168). -/
def defaultSlot (n : Fin 16) : SlotConfig :=
  { plus := n, minus := none, settle := 1, offset := 0, low := -4096, high := 4095, crossing := .none, band := 0,
    group := none, post := none, skip := false }

/-- The default trip rule (R168): disabled. -/
def defaultRule : TripRule :=
  { enabled := false, watched := 0, condition := .above, threshold := 0, mask := 0, persistence := 1, blind := 0,
    output := .trip0, post := none }

/-- The image a hard reset restores (R168). -/
def defaultImage : Image :=
  { settings := defaultSettings, rounds := Vector.replicate 24 none, slots := Vector.ofFn defaultSlot,
    rules := Vector.replicate 8 defaultRule }

/-- The entries of the round table, in ascending index (R49). -/
def imageEntries (im : Image) : List RoundEntry := im.rounds.toList.filterMap id

/-- The entry of a code (R49): a committed table holds at most one (R176). -/
def findRound (im : Image) (c : Code) : Option RoundEntry := (imageEntries im).find? fun e => e.code == c

/-- The kind of a code's round table entry, which a lapse record carries (R65). A pending code always has an entry
(R58, R59). -/
def kindOfCode (im : Image) (c : Code) : Kind := ((findRound im c).map RoundEntry.kind).getD .anchor

/-- The cycle divisor of a schedule, or `none` for ON_REQUEST (R49). -/
def divisor : Schedule → Option Nat
  | .onRequest => none
  | .div1 => some 1
  | .div2 => some 2
  | .div4 => some 4
  | .div8 => some 8
  | .div16 => some 16

/-- Whether an entry has a cycle divisor (R49). -/
def isScheduled (e : RoundEntry) : Bool := (divisor e.schedule).isSome

/-- Whether an entry is due in a cycle: its divisor divides the count (R55). -/
def dueIn (e : RoundEntry) (cycle : Word) : Bool :=
  match divisor e.schedule with
  | some d => cycle.toNat % d == 0
  | none => false

/-- Whether a code is an ON_REQUEST code of the table (R60, R176). -/
def isOnRequest (im : Image) (c : Code) : Bool :=
  match findRound im c with
  | some e => e.schedule == .onRequest
  | none => false

/-- The body bits of a kind (R19). -/
def bodyBits : Kind → Nat
  | .anchor => 17
  | .any => 17
  | .all => 17
  | .max => 26
  | .min => 26
  | .roster => 32
  | .digest => 34

/-- The round bits of a kind: start mark, code, check and objection take 17 bits (R19). -/
def roundBits (k : Kind) : Nat := 17 + bodyBits k

/-- The bit time in crystal periods (R2). -/
def bitPeriods (rate : Fin 4) : Nat := 128 / 2 ^ rate.val

/-- The sample point in crystal periods after the boundary: 5/8 of the bit time (R3). -/
def samplePeriods (rate : Fin 4) : Nat := bitPeriods rate * 5 / 8

/-- The bit time in µs (R2). -/
def bitMicros (rate : Fin 4) : Nat := 16 / 2 ^ rate.val

/-- The settle time of a settle code in µs (R73). -/
def settleMicros (c : Fin 4) : Nat := 2 * 4 ^ c.val

/-- The time that resolving a level takes after the settle time, in µs (R73). -/
def resolveMicros : Nat := 14

/-- The schedule time in µs (R68): the round bits and the idle spacing of every scheduled entry. -/
def scheduleMicros (im : Image) : Nat :=
  (((imageEntries im).filter isScheduled).map fun e => roundBits e.kind + 11).sum * bitMicros im.settings.rate

/-- The byte of a kind on the port and in the digest (R177, section 11.2). -/
def kindNumber : Kind → Nat
  | .anchor => 0
  | .roster => 1
  | .max => 2
  | .min => 3
  | .any => 4
  | .all => 5
  | .digest => 6

/-- The byte of a schedule on the port and in the digest (R177, section 11.2). -/
def scheduleNumber : Schedule → Nat
  | .onRequest => 0
  | .div1 => 1
  | .div2 => 2
  | .div4 => 4
  | .div8 => 8
  | .div16 => 16

/-- A list with an element put in its place by ascending code. -/
def insertByCode {α : Type} (key : α → Code) (x : α) : List α → List α
  | [] => [x]
  | y :: ys => if key x < key y then x :: y :: ys else y :: insertByCode key x ys

/-- A list in ascending order of code. -/
def sortByCode {α : Type} (key : α → Code) (l : List α) : List α := l.foldr (insertByCode key) []

/-- The bits of a byte, most significant first. -/
def byteBits (b : Byte) : List Bool := (List.range 8).map fun k => b.getMsbD k

/-- The bytes the digest is computed over (R177). -/
def digestBytes (im : Image) : List Byte :=
  BitVec.ofNat 8 im.settings.rate.val :: BitVec.ofNat 8 im.settings.cycleLength ::
    (sortByCode RoundEntry.code (imageEntries im)).flatMap fun e =>
      [e.code.setWidth 8, BitVec.ofNat 8 (kindNumber e.kind), BitVec.ofNat 8 (scheduleNumber e.schedule)]

/-- One bit of the 16-bit check of polynomial x^16 + x^12 + x^5 + 1 (R178). -/
def crc16Bit (acc : Word) (b : Bool) : Word :=
  if acc.msb != b then (acc <<< 1) ^^^ 0x1021 else acc <<< 1

/-- The configuration digest of an image (R178). -/
def digestOf (im : Image) : Word := ((digestBytes im).flatMap byteBits).foldl crc16Bit 0xFFFF

end Sys2Proof.Machine
end

