-- ==== Sys2Proof/Machine/Operands.lean ====
section
/-! DEFINITION. The operand forms of the port commands: splitting a payload into the fields of its layout
(section 11.5) and the argument checks of R188. Every check answers the argument in range, or `none`. -/

namespace Sys2Proof.Machine

/-- A payload of no byte (R188). -/
def noPayload : List Byte → Option Unit
  | [] => some ()
  | _ => none

/-- A payload of one byte. -/
def oneByte : List Byte → Option Byte
  | [a] => some a
  | _ => none

/-- A payload of two bytes. -/
def twoBytes : List Byte → Option (Byte × Byte)
  | [a, b] => some (a, b)
  | _ => none

/-- A payload of one 16-bit field, most significant byte first (R190). -/
def oneWord : List Byte → Option Word
  | [a, b] => some (a ++ b)
  | _ => none

/-- The payload of INJECT: slot, raw (section 11.4). -/
def slotAndWord : List Byte → Option (Byte × Word)
  | [n, a, b] => some (n, a ++ b)
  | _ => none

/-- The payload of WRITE_SETTINGS (section 11.5). -/
def splitSettings : List Byte → Option SettingsArgs
  | [a, r, l, m, e0, e1, e2, e3, p, t, k0, k1, sm, sl] =>
    some { address := a, rate := r, cycleLength := l, missLimit := m, expected := e0 ++ e1 ++ e2 ++ e3, ringPolicy := p,
           ringThreshold := t, alertMask := k0 ++ k1, scanMode := sm, scanLength := sl }
  | _ => none

/-- The payload of WRITE_ROUND (section 11.5). -/
def splitRound : List Byte → Option RoundArgs
  | [n, c, k, sch, src, f] => some { index := n, code := c, kind := k, schedule := sch, source := src, ring := f }
  | _ => none

/-- The payload of WRITE_SLOT (section 11.5). -/
def splitSlot : List Byte → Option SlotArgs
  | [n, p, m, st, o0, o1, l0, l1, h0, h1, x, b, g, c, sk] =>
    some { slot := n, plus := p, minus := m, settle := st, offset := o0 ++ o1, low := l0 ++ l1, high := h0 ++ h1,
           crossingMode := x, band := b, group := g, post := c, skip := sk }
  | _ => none

/-- The payload of WRITE_TRIP_RULE (section 11.5). -/
def splitTrip : List Byte → Option TripArgs
  | [n, e, w, c, t0, t1, m0, m1, p, b, o, pc] =>
    some { index := n, enabled := e, watched := w, condition := c, threshold := t0 ++ t1, mask := m0 ++ m1,
           persistence := p, blind := b, output := o, post := pc }
  | _ => none

/-- A byte below n. -/
def indexBelow (n : Nat) (b : Byte) : Option (Fin n) := if h : b.toNat < n then some ⟨b.toNat, h⟩ else none

/-- A byte from lo to hi. -/
def numberIn (lo hi : Nat) (b : Byte) : Option Nat := if lo ≤ b.toNat ∧ b.toNat ≤ hi then some b.toNat else none

/-- A yes/no byte (R190). -/
def yesNo (b : Byte) : Option Bool := if b = 0 then some false else if b = 1 then some true else none

/-- A code byte, 0 to 63. -/
def codeByte (b : Byte) : Option Code := if b.toNat < 64 then some (b.setWidth 6) else none

/-- A post code byte: a code, or 0xFF for NONE (section 11.2). -/
def postByte (b : Byte) : Option (Option Code) := if b = 0xFF then some none else (codeByte b).map some

/-- A station address byte, 0 to 31. -/
def addressByte (b : Byte) : Option Address := if b.toNat < 32 then some (b.setWidth 5) else none

/-- A kind byte (section 11.2). -/
def kindByte (b : Byte) : Option Kind :=
  match b.toNat with
  | 0 => some .anchor
  | 1 => some .roster
  | 2 => some .max
  | 3 => some .min
  | 4 => some .any
  | 5 => some .all
  | 6 => some .digest
  | _ => none

/-- A schedule byte (section 11.2). -/
def scheduleByte (b : Byte) : Option Schedule :=
  match b.toNat with
  | 0 => some .onRequest
  | 1 => some .div1
  | 2 => some .div2
  | 4 => some .div4
  | 8 => some .div8
  | 16 => some .div16
  | _ => none

/-- A source byte (section 11.2). -/
def sourceByte (b : Byte) : Option Source :=
  match (b.extractLsb' 4 4).toNat with
  | 0 => if b = 0x00 then some .none else none
  | 1 => (indexBelow 16 (b &&& 0x0F)).map .slot
  | 2 => (indexBelow 4 (b &&& 0x0F)).map .groupMax
  | 3 => (indexBelow 4 (b &&& 0x0F)).map .groupMin
  | 4 => if b = 0x40 then some .userValue else none
  | 5 => if b = 0x50 then some .flags else none
  | _ => none

/-- A ring policy byte (section 11.2). -/
def policyByte (b : Byte) : Option RingPolicy :=
  if b = 0 then some .keepOldest else if b = 1 then some .keepNewest else none

/-- A scan mode byte (section 11.2). -/
def scanModeByte (b : Byte) : Option ScanMode :=
  match b.toNat with
  | 0 => some .anchored
  | 1 => some .command
  | 2 => some .continuous
  | _ => none

/-- A crossing mode byte (section 11.2). -/
def crossingByte (b : Byte) : Option CrossingMode :=
  match b.toNat with
  | 0 => some .none
  | 1 => some .rise
  | 2 => some .fall
  | 3 => some .both
  | _ => none

/-- A trip condition byte (section 11.2). -/
def conditionByte (b : Byte) : Option Condition :=
  match b.toNat with
  | 0 => some .above
  | 1 => some .below
  | 2 => some .maskSet
  | 3 => some .maskClear
  | 4 => some .rosterShort
  | 5 => some .disagree
  | _ => none

/-- A trip output byte (section 11.2). -/
def outputByte (b : Byte) : Option TripOutput := if b = 0 then some .trip0 else if b = 1 then some .trip1 else none

/-- A group byte: 0 to 3, or 0xFF for NONE (section 11.2). -/
def groupByte (b : Byte) : Option (Option (Fin 4)) := if b = 0xFF then some none else (indexBelow 4 b).map some

/-- A minus input byte: 0x10 for GND, or 0 to 15 and not the plus input (R173). -/
def minusByte (plus : Fin 16) (b : Byte) : Option (Option (Fin 16)) :=
  if b = 0x10 then some none
  else match indexBelow 16 b with
    | some m => if m = plus then none else some (some m)
    | none => none

/-- A signed slot field, −4096 to +4095 (R173). -/
def slotNumber (w : Word) : Option Int := if -4096 ≤ w.toInt ∧ w.toInt ≤ 4095 then some w.toInt else none

/-- A mask of the twelve causes: the bits that name no cause are clear (R188, section 11.2). -/
def causeMask (w : Word) : Option (BitVec 12) := if w.toNat < 4096 then some (w.setWidth 12) else none

/-- The checks of WRITE_SETTINGS (R169, R170). -/
def checkSettings (a : SettingsArgs) : Option Settings := do
  let address ← addressByte a.address
  let rate ← indexBelow 4 a.rate
  let cycleLength ← numberIn 1 250 a.cycleLength
  let missLimit ← numberIn 1 15 a.missLimit
  let ringPolicy ← policyByte a.ringPolicy
  let ringThreshold ← numberIn 1 32 a.ringThreshold
  let alertMask ← causeMask a.alertMask
  let scanMode ← scanModeByte a.scanMode
  let scanLength ← numberIn 1 16 a.scanLength
  some { address, rate, cycleLength, missLimit, expected := a.expected, ringPolicy, ringThreshold, alertMask, scanMode,
         scanLength }

/-- The checks of WRITE_ROUND (R171). -/
def checkRound (a : RoundArgs) : Option (Fin 24 × RoundEntry) := do
  let index ← indexBelow 24 a.index
  let code ← codeByte a.code
  let kind ← kindByte a.kind
  let schedule ← scheduleByte a.schedule
  let source ← sourceByte a.source
  let ring ← yesNo a.ring
  some (index, { code, kind, schedule, source, ring })

/-- The checks of WRITE_SLOT (R173). -/
def checkSlot (a : SlotArgs) : Option (Fin 16 × SlotConfig) := do
  let slot ← indexBelow 16 a.slot
  let plus ← indexBelow 16 a.plus
  let minus ← minusByte plus a.minus
  let settle ← indexBelow 4 a.settle
  let offset ← slotNumber a.offset
  let low ← slotNumber a.low
  let high ← slotNumber a.high
  let crossing ← crossingByte a.crossingMode
  let group ← groupByte a.group
  let post ← postByte a.post
  let skip ← yesNo a.skip
  some (slot, { plus, minus, settle, offset, low, high, crossing, band := a.band.toNat, group, post, skip })

/-- The checks of WRITE_TRIP_RULE (R174). -/
def checkTrip (a : TripArgs) : Option (Fin 8 × TripRule) := do
  let index ← indexBelow 8 a.index
  let enabled ← yesNo a.enabled
  let watched ← codeByte a.watched
  let condition ← conditionByte a.condition
  let persistence ← numberIn 1 8 a.persistence
  let blind ← numberIn 0 15 a.blind
  let output ← outputByte a.output
  let post ← postByte a.post
  some (index, { enabled, watched, condition, threshold := a.threshold.toInt, mask := a.mask, persistence, blind, output,
                 post })

/-- The check of READ_RESULTS: n 1 to 8 (R188). -/
def checkResults (n : Byte) : Option Nat := numberIn 1 8 n

/-- The check of a range of entries: first below the size, count 1 to 8, first + count not above the size (R188). -/
def checkRange (size : Nat) (first count : Byte) : Option (Nat × Nat) :=
  if first.toNat < size ∧ 1 ≤ count.toNat ∧ count.toNat ≤ 8 ∧ first.toNat + count.toNat ≤ size then
    some (first.toNat, count.toNat)
  else none

/-- The check of READ_PEERS (R188). -/
def checkPeers (first count : Byte) : Option (Nat × Nat) := checkRange 32 first count

/-- The check of READ_SLOTS (R188). -/
def checkSlots (first count : Byte) : Option (Nat × Nat) := checkRange 16 first count

/-- The check of INJECT: slot 0 to 15, raw 0 to 4095 (R188). -/
def checkInject (slot : Byte) (raw : Word) : Option (Fin 16 × Raw) :=
  match indexBelow 16 slot with
  | some n => if raw.toNat < 4096 then some (n, raw.setWidth 12) else none
  | none => none

/-- The check of CLEAR_TRIP: rule 0 to 7 (R188). -/
def checkRule (rule : Byte) : Option (Fin 8) := indexBelow 8 rule

/-- The check of CLEAR_ROUND: index 0 to 23 (R188). -/
def checkIndex (index : Byte) : Option (Fin 24) := indexBelow 24 index

end Sys2Proof.Machine
end

