-- ==== Sys2Proof/Machine/State.lean ====
section
/-! DEFINITION. The state of the PJ612 as plain data, block by block as the spec divides it, the reasons a step can
stop, and the state right after reset. A value the spec makes a function of other state (TRIP0, TRIP1, ALERTN,
RING_LEVEL, the live bits of the flag word, the FAULT count) has no home of its own: `Machine/Flags.lean` computes it. -/

namespace Sys2Proof.Machine

/-- The state of the whole station (R149). -/
inductive StationState
  | config
  | committing
  | joining
  | active
  | silent
deriving DecidableEq, Repr, Inhabited

/-- Whether the line engine, the scheduler and the trip rules run (R149): JOINING, ACTIVE and SILENT. -/
def StationState.running : StationState → Bool
  | .config => false
  | .committing => false
  | .joining => true
  | .active => true
  | .silent => true

/-- The state of the line engine (section 1.5). -/
inductive LineEngine
  | off
  | recover
  | idle
  | round
  | stuck
deriving DecidableEq, Repr, Inhabited

/-- The station's own start mark: none, begun with the code it will send (R11), or failed at its first bit, so that
the second bit is not pulled (R16). -/
inductive OwnMark
  | none
  | own (code : Code)
  | failed
deriving DecidableEq, Repr, Inhabited

/-- The Line Interface (chapter 1). -/
structure Lif where
  engine : LineEngine := .off
  /-- LTXD (R1). -/
  ltxd : Level := .high
  /-- LRXD as last told to the station. -/
  lrxd : Level := .high
  /-- A first LOW is noted in IDLE (R10). -/
  firstLow : Bool := false
  ownMark : OwnMark := .none
  /-- 0 to 11 (R7). -/
  idleRun : Nat := 0
  /-- 0 to 64 (R7). -/
  lowRun : Nat := 0
  /-- Suppression after a drive fault, to the end of the round (R15). -/
  suppressed : Bool := false
  /-- Crystal periods since the last bit boundary (R3); it counts in every engine state except OFF. -/
  bitTimer : Nat := 0
deriving DecidableEq, Repr

/-- The phase of the round in progress (R21). -/
inductive Phase
  | none
  | code
  | body
  | check
  | objection
deriving DecidableEq, Repr, Inhabited

/-- The station's role in a round (R22). -/
inductive Role
  | starter
  | joiner
  | observer
deriving DecidableEq, Repr, Inhabited

/-- Why a participant objects (R21). -/
inductive ObjectionCause
  | none
  | driveFault
  | checkDisagreement
deriving DecidableEq, Repr, Inhabited

/-- What a participant contributes (R25): a signed value, a word (a cycle count, a flag word or a digest), or a
position of the ROSTER. -/
inductive Snapshot
  | number (v : Int)
  | word (w : Word)
  | position (a : Address)
deriving DecidableEq, Repr, Inhabited

/-- The round in progress (R21). -/
structure Round where
  phase : Phase := .none
  /-- How many bits of the phase's fields have been read. -/
  pos : Nat := 0
  role : Role := .observer
  ownCode : Code := 0
  codeRead : Code := 0
  kind : Kind := .anchor
  /-- The cycle count at the start mark (R22). -/
  cycle : Word := 0
  /-- `none`: the station abstains, or takes no snapshot (R25). -/
  snapshot : Option Snapshot := none
  nonce : BitVec 4 := 0
  /-- A contributor whose presence bit read LOW (R26). -/
  sender : Bool := false
  contender : Bool := false
  differs : Bool := false
  lostInNonce : Bool := false
  /-- The presence bit read LOW. -/
  presence : Bool := false
  /-- The field at positions 10 to 25 as read: the value, count, word or digest, as the kind has it (R19). -/
  number : Word := 0
  address : Address := 0
  nonceRead : BitVec 4 := 0
  inverted : Word := 0
  set : AddressSet := 0
  /-- The dissent bit read LOW. -/
  dissent : Bool := false
  check : Byte := 0xFF
  cause : ObjectionCause := .none
  mismatch : Bool := false
deriving DecidableEq, Repr

/-- What a scheduled entry stands for (R58). -/
inductive Part
  | current
  | old
  | both
deriving DecidableEq, Repr, Inhabited

/-- An entry of the scheduled pending set (R58). -/
structure SchedEntry where
  code : Code
  retries : Nat
  part : Part
deriving DecidableEq, Repr

/-- Where a post came from (R59). -/
inductive Origin
  | command
  | slot
  | trip
deriving DecidableEq, Repr, Inhabited

/-- An entry of the ad hoc pending set (R59). -/
structure AdhocEntry where
  code : Code
  origin : Origin
  retries : Nat
  age : Nat
deriving DecidableEq, Repr

/-- The Round Scheduler (chapter 3). Both pending sets stand in ascending code. -/
structure Scheduler where
  /-- µs since the cycle opened, 0 to L × 1000 − 1 (R51). -/
  timer : Nat := 0
  /-- The cycle count C. -/
  cycle : Word := 0
  anchorDone : Bool := false
  expiries : Byte := 0
  scheduled : List SchedEntry := []
  adhoc : List AdhocEntry := []
deriving DecidableEq, Repr

/-- The limit state of a slot (R85). -/
inductive LimitState
  | within
  | below
  | above
deriving DecidableEq, Repr, Inhabited

/-- The crossing side of a slot (R86). -/
inductive Side
  | none
  | pos
  | neg
deriving DecidableEq, Repr, Inhabited

/-- A slot result (R76), with the values an invalid one has (R93). -/
structure SlotResult where
  valid : Bool := false
  raw : Raw := 0
  /-- −4096 to +4095 (R83). -/
  corrected : Int := 0
  /-- The produced-in cycle. -/
  cycle : Word := 0
  limit : LimitState := .within
  side : Side := .none
  ready : Bool := false
  limitEvent : Bool := false
  crossing : Bool := false
  saturated : Bool := false
  injected : Bool := false
deriving DecidableEq, Repr, Inhabited

/-- The state of the scan engine (R77). -/
inductive ScanState
  | stopped
  | idle
  | scanning
deriving DecidableEq, Repr, Inhabited

/-- The Measurement Engine (chapter 4). -/
structure Measurement where
  results : Vector SlotResult 16 := Vector.replicate 16 {}
  scan : ScanState := .stopped
  /-- The scan position: the slot being converted (R77). -/
  position : Option (Fin 16) := none
  counter : Word := 0
  /-- µs since the conversion in progress began (R73). -/
  timer : Nat := 0
  /-- The raw code of the level taken at the end of the settle time (R73). -/
  held : Option Raw := none
deriving DecidableEq, Repr

/-- The user value with its write cycle (R100). -/
structure UserValue where
  value : Int
  cycle : Word
deriving DecidableEq, Repr

/-- The Source Unit (chapter 5). -/
structure SourceUnit where
  /-- The sticky and user bits of the local flag word at their positions (R102); the live bits have no memory. -/
  flags : Word := 0
  /-- `none` is never-written. -/
  userValue : Option UserValue := none
deriving DecidableEq, Repr

/-- The outcome of a round or of a due code (R40, R65). -/
inductive RoundOutcome
  | valid
  | empty
  | agree
  | disagree
  | void
  | lapsed
deriving DecidableEq, Repr, Inhabited

/-- Why a due code lapsed (R65). -/
inductive LapseReason
  | cycleEnd
  | retries
  | age
deriving DecidableEq, Repr, Inhabited

/-- The further content of a record (R42, R111). -/
inductive Content
  | none
  | extreme (value : Int) (holder : Address) (heldBySelf duplicate : Bool)
  | count (n : Word)
  | word (w : Word)
  | set (s : AddressSet)
  | digest (d : Word) (differs : Bool)
  | reason (r : LapseReason)
deriving DecidableEq, Repr, Inhabited

/-- An outcome or lapse record (R42, R65). -/
structure Record where
  code : Code
  kind : Kind
  outcome : RoundOutcome
  cycle : Word
  content : Content
deriving DecidableEq, Repr

/-- A record in the result ring, with its sequence number (R111). -/
structure RingRecord where
  seq : Word
  record : Record
deriving DecidableEq, Repr

/-- An entry of the latest table (R107). -/
structure LatestEntry where
  code : Code
  kind : Kind
  /-- `none` is the last outcome NONE. -/
  last : Option RoundOutcome := none
  content : Content := .none
  cycle : Word := 0
  updates : Word := 0
deriving DecidableEq, Repr

/-- The Result Store (chapter 6). The ring stands oldest first. -/
structure ResultStore where
  latest : List LatestEntry := []
  ring : List RingRecord := []
  seq : Word := 0
  lost : Byte := 0
deriving DecidableEq, Repr

/-- The state of a peer entry (R122). -/
inductive PeerState
  | unknown
  | present
  | missing
  | lost
deriving DecidableEq, Repr, Inhabited

/-- A peer entry (R122). -/
structure Peer where
  state : PeerState := .unknown
  /-- 0 to 15. -/
  absence : Nat := 0
  lastSeen : Word := 0
  extremes : Word := 0
  expected : Bool := false
deriving DecidableEq, Repr, Inhabited

/-- The Peer Table (chapter 7). -/
structure PeerTable where
  entries : Vector Peer 32 := Vector.replicate 32 {}
  losses : Byte := 0
deriving DecidableEq, Repr

/-- The state of a trip rule (R133). -/
inductive RuleStatus
  | clear
  | counting
  | tripped
deriving DecidableEq, Repr, Inhabited

/-- Why a rule latched (R141). -/
inductive TripReason
  | condition
  | blind
deriving DecidableEq, Repr, Inhabited

/-- The trip value (R141). -/
inductive TripValue
  | none
  | extreme (value : Int) (holder : Address)
  | word (w : Word)
  | absent (s : AddressSet)
  | digest (d : Word)
deriving DecidableEq, Repr, Inhabited

/-- The trip data of a TRIPPED rule (R141). -/
structure TripData where
  reason : TripReason
  cycle : Word
  value : TripValue
deriving DecidableEq, Repr

/-- The run-time state of a trip rule (R133). -/
structure RuleState where
  status : RuleStatus := .clear
  persistence : Nat := 0
  blind : Nat := 0
  data : Option TripData := none
deriving DecidableEq, Repr, Inhabited

/-- What the last reset was (R165, R166). -/
inductive ResetCause
  | hard
  | soft
deriving DecidableEq, Repr, Inhabited

/-- The diagnostic counters (R163). -/
structure Counters where
  voids : Byte := 0
  unknownCodes : Byte := 0
  shortStarts : Byte := 0
  driveFaults : Byte := 0
  overruns : Byte := 0
  postsLost : Byte := 0
  dupAddresses : Byte := 0
deriving DecidableEq, Repr

/-- Station Control (chapter 9). -/
structure Control where
  station : StationState := .config
  anchorObserved : Bool := false
  /-- Bit n is set when the entry at age n + 1 is FAULT; bit 0 is the newest (R156, section 11.8). -/
  window : BitVec 32 := 0
  /-- The sticky alert causes at their positions (R160); RING_LEVEL is live and has no memory. -/
  alerts : BitVec 12 := 0
  resetCause : ResetCause := .hard
  digest : Word := 0
  counters : Counters := {}
  /-- An objection bit has been sampled and the boundary that ends it has not come (R157). -/
  roundEnding : Bool := false
  /-- The round that is ending was a VALID anchor delivered in JOINING (R153, R157). -/
  anchorNoted : Bool := false
  /-- µs since the digest computation began (R179). -/
  commitTimer : Nat := 0
deriving DecidableEq, Repr

/-- The status of a response (section 11.4). -/
inductive Status
  | ok
  | merged
  | resetDone
  | badFrame
  | unknownCommand
  | badArgument
  | wrongState
  | busy
  | full
  | conditionHolds
  | imageInvalid
deriving DecidableEq, Repr, Inhabited

/-- A response (R183); its length and check byte follow from it. -/
structure Response where
  status : Status
  payload : List Byte := []
deriving DecidableEq, Repr

/-- The Local Port (chapter 10). -/
structure Port where
  csn : Level := .high
  sck : Level := .low
  mosi : Level := .low
  miso : Level := .low
  /-- A frame of the port is open (R180, R184). -/
  frameOpen : Bool := false
  /-- The request buffer: the whole bytes of the frame in progress. -/
  buffer : List Byte := []
  /-- The bits of the incomplete byte on MOSI, in the order taken. -/
  bits : List Bool := []
  /-- Which bit of the response, counted from 0 at the first bit of the status byte, MISO presents. -/
  shifted : Nat := 0
  slot : Response := { status := .resetDone, payload := [0] }
deriving DecidableEq, Repr

/-- The timebase: ticks of the 8 MHz crystal (R2, R29). -/
structure Clock where
  /-- Crystal periods into the present µs, 0 to 7. -/
  phase : Nat := 0
  /-- Crystal periods passed with no command waiting: the model's own counter for the free line and pin levels. -/
  periods : Nat := 0
  /-- Draws made from the free values of nonces, of digest times and of raw codes without a span: the model's own. -/
  draws : Nat := 0
deriving DecidableEq, Repr

/-- The machine. -/
structure State where
  /-- RESETN; LOW while power-on has not completed too (R165). -/
  resetn : Level := .high
  clock : Clock := {}
  line : Lif := {}
  round : Round := {}
  sched : Scheduler := {}
  meas : Measurement := {}
  source : SourceUnit := {}
  store : ResultStore := {}
  peers : PeerTable := {}
  trip : Vector RuleState 8 := Vector.replicate 8 {}
  control : Control := {}
  port : Port := {}
  /-- The configuration image. It is the committed image whenever the station runs (R168). -/
  image : Image := defaultImage
  /-- The settings record as the last reset left it: what the blocks hold of it until a commit (R121, R164, R166; log
  entry 10). -/
  kept : Settings := defaultSettings
  /-- The commands that wait, first in, first out. -/
  pending : List Instr := []
deriving DecidableEq, Repr

/-- Why the machine stops with a fault: the spec gives every command an effect in every state, so there is no reason
and no fault. -/
inductive Fault
deriving DecidableEq, Repr

/-- Why a command is refused. -/
inductive Refusal
  /-- Raised by an arm of `exec` for a command that has no meaning yet, and by nothing else; safe. -/
  | notModelled (mnemonic : String)
deriving DecidableEq, Repr

/-- The machine right after a hard reset: CONFIG, cause HARD, the default image and RESET_DONE in the response
slot (R165, R168, R184), with the reset values each chapter gives its block. -/
def State.reset : State := {}

end Sys2Proof.Machine
end

