-- ==== Sys2Proof/Machine/Flags.lean ====
section
/-! DEFINITION. The values the spec makes functions of other state: freshness (R97), the TRIP outputs (R142), the local
flag word (R102), the alert causes with the live RING_LEVEL (R117, R160), ALERTN (R161) and the FAULT count (R156). -/

namespace Sys2Proof.Machine

/-- Whether the station is held in reset (R165). -/
def State.held (s : State) : Bool := s.resetn == .low

/-- A cycle is fresh for a reference cycle k when it is k or k − 1, modulo 65536 (R97). -/
def freshFor (ref cycle : Word) : Bool := cycle == ref || cycle == ref - 1

/-- A slot result is fresh when it is valid and its produced-in cycle is (R97). -/
def resultFresh (ref : Word) (r : SlotResult) : Bool := r.valid && freshFor ref r.cycle

/-- Whether some slot result, of the sixteen, is fresh and has a limit state (R102). -/
def State.someFresh (s : State) (ref : Word) (l : LimitState) : Bool :=
  (List.finRange 16).any fun n => resultFresh ref s.meas.results[n] && s.meas.results[n].limit == l

/-- Whether a TRIP output is asserted: an enabled rule assigned to it is TRIPPED (R142). -/
def State.tripOutput (s : State) (o : TripOutput) : Bool :=
  (List.finRange 8).any fun n =>
    s.image.rules[n].enabled && s.image.rules[n].output == o && s.trip[n].status == .tripped

/-- The positions of the flag word that hold sticky and user bits (R102). -/
def heldFlags : Word := 0xFFCC

/-- The positions of the sticky bits: LIMIT_EVENT, CROSSING_EVENT, SCAN_OVERRUN, SATURATED (R102). -/
def stickyFlags : Word := 0x00CC

/-- The live bits of the flag word, its limit bits judged against a reference cycle (R101, R102). -/
def State.liveFlags (s : State) (ref : Word) : Word :=
  (if s.someFresh ref .above then 0x0001 else 0) ||| (if s.someFresh ref .below then 0x0002 else 0) |||
  (if s.tripOutput .trip0 then 0x0010 else 0) ||| (if s.tripOutput .trip1 then 0x0020 else 0)

/-- The local flag word, its limit bits judged against a reference cycle (R101). -/
def State.flagWordFor (s : State) (ref : Word) : Word := (s.source.flags &&& heldFlags) ||| s.liveFlags ref

/-- The local flag word as it stands: judged against C (R102). -/
def State.flagWord (s : State) : Word := s.flagWordFor s.sched.cycle

/-- The sticky alert causes (R160). -/
inductive Cause
  | trip
  | peerLost
  | digestDisagree
  | dupAddress
  | lineStuck
  | silentEntered
  | scanOverrun
  | ringLost
  | postLost
  | lapse
  | limit
deriving DecidableEq, Repr

/-- The position of a sticky cause (section 11.2). -/
def Cause.position : Cause → Nat
  | .trip => 0
  | .peerLost => 1
  | .digestDisagree => 2
  | .dupAddress => 3
  | .lineStuck => 4
  | .silentEntered => 5
  | .scanOverrun => 6
  | .ringLost => 8
  | .postLost => 9
  | .lapse => 10
  | .limit => 11

/-- The position of RING_LEVEL as a mask (section 11.2). -/
def ringLevelMask : BitVec 12 := 0x080

/-- The settings the blocks hold: the committed ones, or, where none are committed, those the last reset left them with
(R121, R166; log entry 10). The station address reads 0 there (R164). -/
def State.settings (s : State) : Settings :=
  if s.control.station.running then s.image.settings else { s.kept with address := 0 }

/-- RING_LEVEL: the fill is at or above the committed threshold (R117). -/
def State.ringLevel (s : State) : Bool :=
  s.control.station.running && decide (s.image.settings.ringThreshold ≤ s.store.ring.length)

/-- The twelve alert causes (R160). -/
def State.alertCauses (s : State) : BitVec 12 :=
  (s.control.alerts &&& ~~~ringLevelMask) ||| (if s.ringLevel then ringLevelMask else 0)

/-- Whether a sticky cause is set (R160). -/
def State.causeSet (s : State) (c : Cause) : Bool := s.alertCauses.getLsbD c.position

/-- ALERTN: LOW while a cause that is set is enabled in the mask (R161). -/
def State.alertn (s : State) : Level := if s.alertCauses &&& s.settings.alertMask = 0 then .high else .low

/-- The number of FAULT entries in the fault window (R156). -/
def State.faultCount (s : State) : Nat := (List.range 32).countP fun n => s.control.window.getLsbD n

/-- The FAULT count at or above which a station is confined to SILENT (R153, R154, R158). -/
def silentFaults : Nat := 6

/-- The user status of the status record (section 11.8): never-written, written and not fresh, written and fresh. -/
def State.userStatus (s : State) : Nat :=
  match s.source.userValue with
  | none => 0
  | some u => if freshFor s.sched.cycle u.cycle then 2 else 1

end Sys2Proof.Machine
end

