-- ==== Sys2Proof/Machine/Ops.lean ====
section
/-! DEFINITION. The operations the blocks share: the 8-bit check (R37, R182), saturating counters, the reports to
Station Control (R160, R163), posts (R60, R61), answering a request (R183, R186) and gating it (R187). -/

namespace Sys2Proof.Machine

/-- A counter of 8 bits that stops at 255. -/
def satInc (b : Byte) : Byte := if b = 255 then 255 else b + 1

/-- One bit of the 8-bit check of polynomial x^8 + x^2 + x + 1 (R37). -/
def crc8Bit (acc : Byte) (b : Bool) : Byte := if acc.msb != b then (acc <<< 1) ^^^ 0x07 else acc <<< 1

/-- The check value over a byte sequence (R182). -/
def crc8 (bytes : List Byte) : Byte := (bytes.flatMap byteBits).foldl crc8Bit 0xFF

/-- A report that sets a sticky alert cause (R160). -/
def State.setCause (s : State) (c : Cause) : State :=
  { s with control.alerts := s.control.alerts ||| (1#12 <<< c.position) }

/-- The diagnostic counters by name (R163). -/
inductive Counter
  | voids
  | unknownCodes
  | shortStarts
  | driveFaults
  | overruns
  | postsLost
  | dupAddresses
deriving DecidableEq, Repr

/-- One of the counters one higher, saturating at 255 (R163). -/
def Counters.bump (k : Counters) : Counter → Counters
  | .voids => { k with voids := satInc k.voids }
  | .unknownCodes => { k with unknownCodes := satInc k.unknownCodes }
  | .shortStarts => { k with shortStarts := satInc k.shortStarts }
  | .driveFaults => { k with driveFaults := satInc k.driveFaults }
  | .overruns => { k with overruns := satInc k.overruns }
  | .postsLost => { k with postsLost := satInc k.postsLost }
  | .dupAddresses => { k with dupAddresses := satInc k.dupAddresses }

/-- A report that a diagnostic counter counts (R163). -/
def State.bump (s : State) (c : Counter) : State := { s with control.counters := s.control.counters.bump c }

/-- Bits of the flag word set by the Measurement Engine (R103). -/
def State.setFlags (s : State) (bits : Word) : State := { s with source.flags := s.source.flags ||| bits }

/-- The most entries the ad hoc pending set holds (R59). -/
def adhocCapacity : Nat := 8

/-- Whether the ad hoc pending set holds a code. -/
def holdsAdhoc (l : List AdhocEntry) (c : Code) : Bool := l.any fun e => e.code == c

/-- A new ad hoc entry: retries 0, age 0 (R60, R61). -/
def newAdhoc (origin : Origin) (c : Code) : AdhocEntry := { code := c, origin, retries := 0, age := 0 }

/-- A post with no response: merged, added, or dropped with POST_LOST (R61). -/
def State.post (s : State) (origin : Origin) (c : Code) : State :=
  if holdsAdhoc s.sched.adhoc c then s
  else if s.sched.adhoc.length < adhocCapacity then
    { s with sched.adhoc := insertByCode AdhocEntry.code (newAdhoc origin c) s.sched.adhoc }
  else (s.setCause .postLost).bump .postsLost

/-- A post of a code that may be NONE. -/
def State.postIf (s : State) (origin : Origin) : Option Code → State
  | some c => s.post origin c
  | none => s

/-- The response slot receives a response (R183). -/
def State.respond (s : State) (status : Status) (payload : List Byte := []) : State :=
  { s with port.slot := { status, payload } }

/-- The three rows of commands that the station state gates alike (R187), COMMIT among the writes. -/
inductive Gate
  | always
  | config
  | run
deriving DecidableEq, Repr

/-- What the station state answers a command with, or `none` where the command is taken (R187). -/
def Gate.refusal : Gate → StationState → Option Status
  | .always, _ => none
  | .config, .config => none
  | .config, .committing => some .busy
  | .config, .joining => some .wrongState
  | .config, .active => some .wrongState
  | .config, .silent => some .wrongState
  | .run, .config => some .wrongState
  | .run, .committing => some .busy
  | .run, .joining => none
  | .run, .active => none
  | .run, .silent => none

/-- Taking a request whose command is known (R186): the station state gates it, its arguments are checked (`none`: of
the wrong length or out of range), and then it acts. While RESETN is low the port takes no frame (R165). -/
def State.take {α : Type} (s : State) (gate : Gate) (arg : Option α) (act : α → State → State) : State :=
  if s.held then s
  else match gate.refusal s.control.station, arg with
    | some status, _ => s.respond status
    | none, none => s.respond .badArgument
    | none, some a => act a s

/-- Two bytes of a word, most significant first (R190). -/
def wordBytes (w : Word) : List Byte := [w.extractLsb' 8 8, w.extractLsb' 0 8]

/-- Four bytes of a set of addresses, most significant first (R190). -/
def setBytes (a : AddressSet) : List Byte :=
  [a.extractLsb' 24 8, a.extractLsb' 16 8, a.extractLsb' 8 8, a.extractLsb' 0 8]

/-- A signed quantity as a 16-bit field (R190). -/
def intBytes (v : Int) : List Byte := wordBytes (BitVec.ofInt 16 v)

/-- A number as one byte. -/
def numByte (n : Nat) : Byte := BitVec.ofNat 8 n

/-- A yes/no field (R190). -/
def boolByte (b : Bool) : Byte := if b then 1 else 0

end Sys2Proof.Machine
end

