-- ==== Sys2Proof/Machine/Store.lean ====
section
/-! DEFINITION. The Result Store (chapter 6): the latest table, the result ring, and READ_RESULTS and READ_LATEST with
the record layouts of R191. -/

namespace Sys2Proof.Machine

/-- The most records the ring holds (R110). -/
def ringCapacity : Nat := 32

/-- A record lost under either policy: counted, and RING_LOST set (R116). -/
def State.countLoss (s : State) : State := { (s.setCause .ringLost) with store.lost := satInc s.store.lost }

/-- A record offered to the ring takes the next sequence number and is appended, or one is lost by the policy
(R112 to R115). -/
def State.offerRing (s : State) (r : Record) : State :=
  let seq := s.store.seq + 1
  if s.store.ring.length < ringCapacity then
    { s with store.seq := seq, store.ring := s.store.ring ++ [{ seq, record := r }] }
  else match s.image.settings.ringPolicy with
    | .keepOldest => { s.countLoss with store.seq := seq }
    | .keepNewest => { s.countLoss with store.seq := seq, store.ring := s.store.ring.drop 1 ++ [{ seq, record := r }] }

/-- Whether the records of a code are appended: its entry's ring flag is ON (R110). -/
def ringFlagOn (im : Image) (c : Code) : Bool :=
  match findRound im c with
  | some e => e.ring
  | none => false

/-- A record reaches the ring (R110). -/
def State.appendRecord (s : State) (r : Record) : State :=
  if ringFlagOn s.image r.code then s.offerRing r else s

/-- Whether an outcome changes the latest entry: VALID, EMPTY, AGREE and DISAGREE (R108). -/
def RoundOutcome.completes : RoundOutcome → Bool
  | .valid => true
  | .empty => true
  | .agree => true
  | .disagree => true
  | .void => false
  | .lapsed => false

/-- A latest entry after a record of its code that changes it (R108). -/
def LatestEntry.take (e : LatestEntry) (r : Record) : LatestEntry :=
  { e with last := some r.outcome, content := r.content, cycle := r.cycle, updates := e.updates + 1 }

/-- The latest table after an outcome record (R108). -/
def latestAfter (l : List LatestEntry) (r : Record) : List LatestEntry :=
  if r.outcome.completes then l.map fun e => if e.code == r.code then e.take r else e else l

/-- An outcome record delivered to the Result Store (R108, R110). -/
def State.storeOutcome (s : State) (r : Record) : State :=
  ({ s with store.latest := latestAfter s.store.latest r }).appendRecord r

/-- The latest entry of a code (R107). -/
def State.latestOf (s : State) (c : Code) : Option LatestEntry := s.store.latest.find? fun e => e.code == c

/-- The latest table at the end of a commit (R121). -/
def latestAtCommit (im : Image) : List LatestEntry :=
  (imageEntries im).map fun e => { code := e.code, kind := e.kind }

/-- The number of an outcome on the port (section 11.2). -/
def outcomeNumber : RoundOutcome → Nat
  | .valid => 1
  | .empty => 2
  | .agree => 3
  | .disagree => 4
  | .void => 5
  | .lapsed => 6

/-- The number of a lapse reason on the port (section 11.2). -/
def lapseNumber : LapseReason → Nat
  | .cycleEnd => 0
  | .retries => 1
  | .age => 2

/-- The holder byte (R191). -/
def holderByte (holder : Address) (heldBySelf duplicate : Bool) : Byte :=
  numByte ((if duplicate then 64 else 0) + (if heldBySelf then 32 else 0) + holder.toNat)

/-- The tail of a record or latest entry (R191): absent where the content is. -/
def contentBytes : Content → List Byte
  | .none => []
  | .extreme v h self dup => intBytes v ++ [holderByte h self dup]
  | .count n => wordBytes n
  | .word w => wordBytes w
  | .set a => setBytes a
  | .digest d differs => wordBytes d ++ [boolByte differs]
  | .reason r => [numByte (lapseNumber r)]

/-- The byte with the kind in bits 7 to 4 and the outcome in bits 3 to 0 (R191). -/
def kindOutcomeByte (k : Kind) (outcome : Nat) : Byte := numByte (16 * kindNumber k + outcome)

/-- A ring record on the port (R191). -/
def ringRecordBytes (r : RingRecord) : List Byte :=
  wordBytes r.seq ++ [r.record.code.setWidth 8, kindOutcomeByte r.record.kind (outcomeNumber r.record.outcome)] ++
    wordBytes r.record.cycle ++ contentBytes r.record.content

/-- The payload of READ_RESULTS: the records returned, the fill left, the lost counter (R118, R191). -/
def resultsPayload (s : State) (n : Nat) : List Byte :=
  [numByte (s.store.ring.take n).length, numByte (s.store.ring.drop n).length, s.store.lost] ++
    (s.store.ring.take n).flatMap ringRecordBytes

/-- READ_RESULTS(n) with n in range removes the oldest records, clears the lost counter and answers (R118). -/
def State.readResults (n : Nat) (s : State) : State :=
  ({ s with store.ring := s.store.ring.drop n, store.lost := 0 }).respond .ok (resultsPayload s n)

/-- The payload of READ_LATEST (R191). -/
def latestPayload (e : LatestEntry) : List Byte :=
  [e.code.setWidth 8, kindOutcomeByte e.kind ((e.last.map outcomeNumber).getD 0)] ++ wordBytes e.cycle ++
    wordBytes e.updates ++ [0] ++ contentBytes e.content

/-- READ_LATEST of a code that has an entry answers it (R109). -/
def State.readLatest (e : LatestEntry) (s : State) : State := s.respond .ok (latestPayload e)

/-- The argument check of READ_LATEST: a code held by an entry of the round table (R188). Its latest entry exists then
(R107). -/
def State.checkLatest (s : State) (code : Byte) : Option LatestEntry := (codeByte code).bind s.latestOf

/-- READ_RESULTS taken, its payload split (R118, R186). -/
def State.takeReadResults (s : State) (n : Option Byte) : State := s.take .run (n.bind checkResults) State.readResults

/-- READ_LATEST taken, its payload split (R109, R186). -/
def State.takeReadLatest (s : State) (code : Option Byte) : State := s.take .run (code.bind s.checkLatest) State.readLatest

/-- READ_RESULTS (R118). -/
def execReadResults (n : Byte) (s : State) : Host.Outcome State Fault Refusal := .next (s.takeReadResults (some n))

/-- READ_LATEST (R109). -/
def execReadLatest (code : Byte) (s : State) : Host.Outcome State Fault Refusal := .next (s.takeReadLatest (some code))

end Sys2Proof.Machine
end

