-- ==== Sys2Proof/Machine/Peers.lean ====
section
/-! DEFINITION. The Peer Table (chapter 7): roster updates, extremes held, and READ_PEERS. -/

namespace Sys2Proof.Machine

/-- A peer entry whose address is in a VALID roster's set (R124). -/
def Peer.seen (p : Peer) (cycle : Word) : Peer := { p with state := .present, absence := 0, lastSeen := cycle }

/-- A peer entry with an absence count, judged against the miss limit (R125). -/
def Peer.absentAt (p : Peer) (count missLimit : Nat) : Peer :=
  { p with absence := count, state := if missLimit ≤ count then .lost else .missing }

/-- A peer entry whose address is not in a VALID roster's set (R125). -/
def Peer.missed (p : Peer) (missLimit : Nat) : Peer :=
  match p.state with
  | .unknown => if p.expected then p.absentAt 1 missLimit else p
  | .present => p.absentAt 1 missLimit
  | .missing => p.absentAt (p.absence + 1) missLimit
  | .lost => { p with absence := min 15 (p.absence + 1) }

/-- A peer entry after a VALID roster (R124, R125). -/
def Peer.afterRoster (p : Peer) (inSet : Bool) (cycle : Word) (missLimit : Nat) : Peer :=
  if inSet then p.seen cycle else p.missed missLimit

/-- An entry that enters LOST (R126). -/
def entersLost (old new : Peer) : Bool := old.state != .lost && new.state == .lost

/-- A report of PEER_LOST with its count (R126). -/
def State.reportPeerLost (s : State) : State :=
  { (s.setCause .peerLost) with peers.losses := satInc s.peers.losses }

/-- A VALID roster applied to all 32 entries (R123 to R126). -/
def State.applyRoster (s : State) (set : AddressSet) (cycle : Word) : State :=
  let old := s.peers.entries
  let new : Vector Peer 32 :=
    Vector.ofFn fun a => old[a].afterRoster (set.getLsbD a.val) cycle s.image.settings.missLimit
  let lost := (List.finRange 32).filter fun a => entersLost old[a] new[a]
  lost.foldl (fun t _ => t.reportPeerLost) { s with peers.entries := new }

/-- A counter of 16 bits that stops at 65535 (R128). -/
def satInc16 (w : Word) : Word := if w = 0xFFFF then 0xFFFF else w + 1

/-- The holder of a VALID MIN or MAX record (R128). -/
def State.applyHolder (s : State) (holder : Address) : State :=
  let a : Fin 32 := holder.toFin
  { s with peers.entries := s.peers.entries.set a { s.peers.entries[a] with extremes := satInc16 s.peers.entries[a].extremes } }

/-- An outcome record delivered to the Peer Table (R123): only VALID records carry a set or a holder (R42). -/
def State.peersTake (s : State) (r : Record) : State :=
  match r.outcome, r.content with
  | .valid, .set a => s.applyRoster a r.cycle
  | .valid, .extreme _ holder _ _ => s.applyHolder holder
  | _, _ => s

/-- The entries at the end of a commit (R130). -/
def peersAtCommit (expected : AddressSet) : PeerTable :=
  { entries := Vector.ofFn fun a => { expected := expected.getLsbD a.val }, losses := 0 }

/-- The number of a peer state on the port (section 11.2). -/
def peerStateNumber : PeerState → Nat
  | .unknown => 0
  | .present => 1
  | .missing => 2
  | .lost => 3

/-- A peer record on the port (section 11.7). -/
def peerBytes (address : Nat) (p : Peer) : List Byte :=
  [numByte address, numByte ((if p.expected then 128 else 0) + peerStateNumber p.state), numByte p.absence] ++
    wordBytes p.lastSeen ++ wordBytes p.extremes

/-- The payload of READ_PEERS (R129, section 11.7). -/
def peersPayload (s : State) (first count : Nat) : List Byte :=
  [numByte s.image.settings.missLimit, s.peers.losses] ++
    ((List.finRange 32).filter fun a => first ≤ a.val ∧ a.val < first + count).flatMap fun a =>
      peerBytes a.val s.peers.entries[a]

/-- READ_PEERS with its range checked answers the entries (R129). -/
def State.readPeers (range : Nat × Nat) (s : State) : State := s.respond .ok (peersPayload s range.1 range.2)

/-- READ_PEERS taken, its payload split (R129, R186). -/
def State.takeReadPeers (s : State) (arg : Option (Byte × Byte)) : State :=
  s.take .run (arg.bind fun a => checkPeers a.1 a.2) State.readPeers

/-- READ_PEERS (R129). -/
def execReadPeers (first count : Byte) (s : State) : Host.Outcome State Fault Refusal :=
  .next (s.takeReadPeers (some (first, count)))

end Sys2Proof.Machine
end

