-- ==== Sys2Proof/Machine/Trips.lean ====
section
/-! DEFINITION. The Trip Unit (chapter 8): conditions, outcomes and boundaries at a rule, latching, CLEAR_TRIP and
READ_TRIPS. -/

namespace Sys2Proof.Machine

/-- Whether an outcome is qualifying (R132). -/
def RoundOutcome.qualifies : RoundOutcome → Bool
  | .valid => true
  | .agree => true
  | .disagree => true
  | .empty => false
  | .void => false
  | .lapsed => false

/-- Whether a rule's condition holds on a qualifying outcome with its content (R132). -/
def conditionHolds (rule : TripRule) (expected : AddressSet) (outcome : RoundOutcome) (content : Content) : Bool :=
  match rule.condition, content with
  | .above, .extreme v _ _ _ => decide (rule.threshold < v)
  | .below, .extreme v _ _ _ => decide (v < rule.threshold)
  | .maskSet, .word w => w &&& rule.mask != 0
  | .maskClear, .word w => ~~~w &&& rule.mask != 0
  | .rosterShort, .set a => expected &&& ~~~a != 0
  | .disagree, .digest _ _ => outcome == .disagree
  | _, _ => false

/-- The trip value of a latching by condition (R141). -/
def tripValueOf (expected : AddressSet) : Content → TripValue
  | .extreme v h _ _ => .extreme v h
  | .word w => .word w
  | .set a => .absent (expected &&& ~~~a)
  | .digest d _ => .digest d
  | _ => .none

/-- A rule that a qualifying outcome reaches while it is CLEAR or COUNTING (R135). -/
def RuleState.judge (r : RuleState) (rule : TripRule) (expected : AddressSet) (rec : Record) : RuleState :=
  if conditionHolds rule expected rec.outcome rec.content then
    if r.persistence + 1 = rule.persistence then
      { status := .tripped, persistence := r.persistence + 1, blind := 0,
        data := some { reason := .condition, cycle := rec.cycle, value := tripValueOf expected rec.content } }
    else { status := .counting, persistence := r.persistence + 1, blind := 0, data := none }
  else { status := .clear, persistence := 0, blind := 0, data := none }

/-- A rule after an outcome record (R134 to R138). -/
def RuleState.takeOutcome (r : RuleState) (rule : TripRule) (expected : AddressSet) (rec : Record) : RuleState :=
  if rule.enabled && rule.watched == rec.code then
    match rec.outcome with
    | .valid | .agree | .disagree => if r.status = .tripped then { r with blind := 0 } else r.judge rule expected rec
    | .empty => if r.status = .tripped then r else { r with status := .clear, persistence := 0 }
    | .void | .lapsed => r
  else r

/-- A rule after the boundary notice of a new cycle (R139). -/
def RuleState.takeBoundary (r : RuleState) (rule : TripRule) (cycle : Word) : RuleState :=
  if rule.enabled && rule.blind != 0 then
    let n := min 15 (r.blind + 1)
    if r.status ≠ .tripped ∧ n = rule.blind then
      { r with status := .tripped, blind := n, data := some { reason := .blind, cycle, value := .none } }
    else { r with blind := n }
  else r

/-- A rule that enters TRIPPED (R140). -/
def latches (old new : RuleState) : Bool := old.status != .tripped && new.status == .tripped

/-- Every rule changed at one moment; the rules that latch report TRIP and post in ascending index (R140). -/
def State.changeRules (s : State) (f : TripRule → RuleState → RuleState) : State :=
  let old := s.trip
  let new : Vector RuleState 8 := Vector.ofFn fun n => f s.image.rules[n] old[n]
  let latched := (List.finRange 8).filter fun n => latches old[n] new[n]
  latched.foldl (fun t n => (t.setCause .trip).postIf .trip s.image.rules[n].post) { s with trip := new }

/-- An outcome record delivered to the Trip Unit (R134). A lapse record leaves every rule as it stands (R137, R138). -/
def State.tripTake (s : State) (rec : Record) : State :=
  s.changeRules fun rule r => r.takeOutcome rule s.image.settings.expected rec

/-- The boundary notice to the Trip Unit (R139), given with the new count. -/
def State.tripBoundary (s : State) : State := s.changeRules fun rule r => r.takeBoundary rule s.sched.cycle

/-- Whether the reason of a TRIPPED rule still stands: its condition holds on the latest entry of its watched code, or
it is blind (R143). -/
def State.reasonStands (s : State) (n : Fin 8) : Bool :=
  let rule := s.image.rules[n]
  let onLatest :=
    match s.latestOf rule.watched with
    | some e =>
      match e.last with
      | some o => o.qualifies && conditionHolds rule s.image.settings.expected o e.content
      | none => false
    | none => false
  onLatest || (rule.blind != 0 && decide (rule.blind ≤ s.trip[n].blind))

/-- A rule unlatched (R143): its blind count stays. -/
def RuleState.unlatched (r : RuleState) : RuleState := { r with status := .clear, persistence := 0, data := none }

/-- CLEAR_TRIP of a rule index in range (R143). -/
def State.clearTrip (n : Fin 8) (s : State) : State :=
  if s.trip[n].status = .tripped ∧ s.image.rules[n].enabled then
    if s.reasonStands n then s.respond .conditionHolds
    else ({ s with trip := s.trip.set n s.trip[n].unlatched }).respond .ok
  else s.respond .ok

/-- The number of a rule state on the port (section 11.2). -/
def ruleStatusNumber : RuleStatus → Nat
  | .clear => 0
  | .counting => 1
  | .tripped => 2

/-- The number of a trip reason on the port; no trip data is 0 (section 11.2, R192). -/
def tripReasonNumber : TripReason → Nat
  | .condition => 1
  | .blind => 2

/-- The number of a trip output on the port (section 11.2). -/
def outputNumber : TripOutput → Nat
  | .trip0 => 0
  | .trip1 => 1

/-- Trip value bytes (section 11.7). -/
def tripValueBytes : TripValue → List Byte
  | .none => [0, 0, 0, 0]
  | .extreme v h => intBytes v ++ [h.setWidth 8, 0]
  | .word w => wordBytes w ++ [0, 0]
  | .absent a => setBytes a
  | .digest d => wordBytes d ++ [0, 0]

/-- Trip data bytes: reason, trip cycle and trip value, zeros where there is none (section 11.7, R192). -/
def tripDataBytes : Option TripData → List Byte
  | some d => [numByte (tripReasonNumber d.reason)] ++ wordBytes d.cycle ++ tripValueBytes d.value
  | none => [0, 0, 0, 0, 0, 0, 0]

/-- A rule record on the port (section 11.7). -/
def ruleBytes (rule : TripRule) (r : RuleState) : List Byte :=
  [numByte ((if rule.enabled then 128 else 0) + 16 * outputNumber rule.output + ruleStatusNumber r.status),
   rule.watched.setWidth 8, numByte rule.persistence, numByte rule.blind, numByte r.persistence, numByte r.blind] ++
    tripDataBytes r.data

/-- The payload of READ_TRIPS (R145, section 11.7). -/
def tripsPayload (s : State) : List Byte :=
  [numByte ((if s.tripOutput .trip1 then 2 else 0) + (if s.tripOutput .trip0 then 1 else 0))] ++
    (List.finRange 8).flatMap fun n => ruleBytes s.image.rules[n] s.trip[n]

/-- READ_TRIPS answers (R145). -/
def State.readTrips (_ : Unit) (s : State) : State := s.respond .ok (tripsPayload s)

/-- CLEAR_TRIP taken, its payload split (R143, R186). -/
def State.takeClearTrip (s : State) (rule : Option Byte) : State := s.take .run (rule.bind checkRule) State.clearTrip

/-- READ_TRIPS taken, its payload checked for its length (R145, R186). -/
def State.takeReadTrips (s : State) (arg : Option Unit) : State := s.take .run arg State.readTrips

/-- CLEAR_TRIP (R143). -/
def execClearTrip (rule : Byte) (s : State) : Host.Outcome State Fault Refusal := .next (s.takeClearTrip (some rule))

/-- READ_TRIPS (R145). -/
def execReadTrips (s : State) : Host.Outcome State Fault Refusal := .next (s.takeReadTrips (some ()))

end Sys2Proof.Machine
end

