-- ==== Sys2Proof/Machine/Schedule.lean ====
section
/-! DEFINITION. The Round Scheduler (chapter 3): lapses, the cycle boundary, outcomes at the pending sets, adoption of
the cycle count, the offered code, the expiry of the cycle timer and POST_ROUND. -/

namespace Sys2Proof.Machine

/-- The round in flight: its code and kind, from recognition to delivery (R25, R54). -/
def Round.inFlight (r : Round) : Option (Code × Kind) :=
  match r.phase with
  | .body => some (r.codeRead, r.kind)
  | .check => some (r.codeRead, r.kind)
  | .objection => some (r.codeRead, r.kind)
  | .none => none
  | .code => none

/-- Whether a code is the code in flight. -/
def isInFlight (fl : Option (Code × Kind)) (c : Code) : Bool :=
  match fl with
  | some (f, _) => f == c
  | none => false

/-- A lapse record (R65). -/
def lapseRecord (im : Image) (cycle : Word) (reason : LapseReason) (c : Code) : Record :=
  { code := c, kind := kindOfCode im c, outcome := .lapsed, cycle, content := .reason reason }

/-- A lapse delivered: to the Result Store, and LAPSE set (R65). At the Trip Unit it leaves every rule as it stands
(R137, R138). -/
def State.deliverLapse (s : State) (r : Record) : State := (s.appendRecord r).setCause .lapse

/-- A fresh entry for a due round (R55, R69). -/
def currentEntry (c : Code) : SchedEntry := { code := c, retries := 0, part := .current }

/-- The scheduled entry of a round table entry after a boundary into a new cycle (R55). -/
def entryAfter (fl : Option (Code × Kind)) (old : List SchedEntry) (cycle : Word) (e : RoundEntry) : Option SchedEntry :=
  if isInFlight fl e.code then
    match old.find? fun x => x.code == e.code with
    | some x =>
      if e.kind = .anchor then some { x with part := .old }
      else if dueIn e cycle then some { x with part := .both, retries := 0 }
      else some { x with part := .old }
    | none => if e.kind ≠ .anchor ∧ dueIn e cycle then some (currentEntry e.code) else none
  else if dueIn e cycle then some (currentEntry e.code) else none

/-- The scheduled pending set after a boundary (R55), in ascending code. -/
def scheduledAfter (im : Image) (fl : Option (Code × Kind)) (old : List SchedEntry) (cycle : Word) : List SchedEntry :=
  sortByCode SchedEntry.code (((imageEntries im).filter isScheduled).filterMap (entryAfter fl old cycle))

/-- The scheduled entries that lapse with CYCLE_END at a boundary (R55). -/
def lapsingScheduled (fl : Option (Code × Kind)) (l : List SchedEntry) : List SchedEntry :=
  l.filter fun e => !isInFlight fl e.code

/-- The age at which an ad hoc entry lapses at a boundary (R56). -/
def lastAge : Nat := 3

/-- Whether an ad hoc entry lapses with AGE at a boundary (R56). -/
def lapsesByAge (fl : Option (Code × Kind)) (e : AdhocEntry) : Bool := !isInFlight fl e.code && decide (lastAge ≤ e.age)

/-- The ad hoc pending set after a boundary (R56). -/
def adhocAfter (fl : Option (Code × Kind)) (l : List AdhocEntry) : List AdhocEntry :=
  (l.filter fun e => !lapsesByAge fl e).map fun e => if isInFlight fl e.code then e else { e with age := e.age + 1 }

/-- The lapse records of a boundary, in the order they are delivered (R54 step 5). -/
def boundaryLapses (s : State) : List Record :=
  let fl := s.round.inFlight
  (lapsingScheduled fl s.sched.scheduled).map (fun e => lapseRecord s.image s.sched.cycle .cycleEnd e.code) ++
    (s.sched.adhoc.filter (lapsesByAge fl)).map fun e => lapseRecord s.image s.sched.cycle .age e.code

/-- Whether the anchor round is in flight (R54 step 3). -/
def anchorInFlight (fl : Option (Code × Kind)) : Bool :=
  match fl with
  | some (_, k) => k == .anchor
  | none => false

/-- The Scheduler's own part of a boundary: steps 1 to 4 of R54. -/
def State.rollCycle (s : State) : State :=
  let fl := s.round.inFlight
  let cycle := s.sched.cycle + 1
  { s with sched := { s.sched with
      cycle
      anchorDone := anchorInFlight fl
      scheduled := scheduledAfter s.image fl s.sched.scheduled cycle
      adhoc := adhocAfter fl s.sched.adhoc } }

/-- A cycle boundary (R54). Step 6's notice to the Source Unit changes no stored state: the live bits are computed
(R105). -/
def State.cycleBoundary (s : State) : State :=
  ((boundaryLapses s).foldl State.deliverLapse s.rollCycle).tripBoundary

/-- The part of a completed scheduled entry that stays (R63): a BOTH entry becomes CURRENT. -/
def SchedEntry.completed (e : SchedEntry) : Option SchedEntry :=
  match e.part with
  | .current => none
  | .old => none
  | .both => some { e with part := .current }

/-- A scheduled entry after a VOID outcome, and the reason of the lapse it makes (R64). -/
def SchedEntry.voided (e : SchedEntry) : Option SchedEntry × Option LapseReason :=
  match e.part with
  | .current => if e.retries < 2 then (some { e with retries := e.retries + 1 }, none) else (none, some .retries)
  | .old => (none, some .cycleEnd)
  | .both => (some { e with part := .current }, some .cycleEnd)

/-- An ad hoc entry after a VOID outcome, and the reason of the lapse it makes (R64). -/
def AdhocEntry.voided (e : AdhocEntry) : Option AdhocEntry × Option LapseReason :=
  if e.retries < 2 then (some { e with retries := e.retries + 1 }, none) else (none, some .retries)

/-- A set with the entry of one code replaced or removed. -/
def replaceCode {α : Type} (key : α → Code) (c : Code) (f : α → Option α) (l : List α) : List α :=
  l.filterMap fun e => if key e == c then f e else some e

/-- The scheduled set after an outcome record (R62 to R64). -/
def scheduledTake (l : List SchedEntry) (c : Code) (o : RoundOutcome) : List SchedEntry :=
  match o with
  | .valid | .empty | .agree | .disagree => replaceCode SchedEntry.code c SchedEntry.completed l
  | .void => replaceCode SchedEntry.code c (fun e => e.voided.1) l
  | .lapsed => l

/-- The ad hoc set after an outcome record (R62 to R64). -/
def adhocTake (l : List AdhocEntry) (c : Code) (o : RoundOutcome) : List AdhocEntry :=
  match o with
  | .valid | .empty | .agree | .disagree => replaceCode AdhocEntry.code c (fun _ => none) l
  | .void => replaceCode AdhocEntry.code c (fun e => e.voided.1) l
  | .lapsed => l

/-- The reason of the lapse that a VOID of a code makes (R64): at most one set holds the code (R58). -/
def voidLapse (q : Scheduler) (c : Code) : Option LapseReason :=
  match q.scheduled.find? fun e => e.code == c with
  | some e => e.voided.2
  | none =>
    match q.adhoc.find? fun e => e.code == c with
    | some e => e.voided.2
    | none => none

/-- Whether a count is ahead of another: by 1 to 32767, modulo 65536 (R57). -/
def aheadOf (r c : Word) : Bool := decide (1 ≤ (r - c).toNat ∧ (r - c).toNat ≤ 32767)

/-- The count adopted from a VALID anchor (R57). -/
def adoptedCount (st : StationState) (c r : Word) : Word :=
  match st with
  | .joining => r
  | _ => if aheadOf r c then r else c

/-- The pending sets take an outcome record, and the lapse that a VOID causes is delivered (R62 to R65). -/
def State.pendingTake (s : State) (r : Record) : State :=
  let t := { s with sched := { s.sched with
      scheduled := scheduledTake s.sched.scheduled r.code r.outcome
      adhoc := adhocTake s.sched.adhoc r.code r.outcome } }
  match r.outcome, voidLapse s.sched r.code with
  | .void, some reason => t.deliverLapse (lapseRecord s.image r.cycle reason r.code)
  | _, _ => t

/-- The cycle count adopted at the delivery of a VALID anchor (R57): only an ANCHOR's content is a count (R42). -/
def State.adopt (s : State) (r : Record) : State :=
  match r.outcome, r.content with
  | .valid, .count n => { s with sched.cycle := adoptedCount s.control.station s.sched.cycle n }
  | _, _ => s

/-- An outcome record delivered to the Round Scheduler (R57, R62). -/
def State.schedTake (s : State) (r : Record) : State := (s.pendingTake r).adopt r

/-- The codes the station may start: CURRENT scheduled entries and all ad hoc entries (R66). -/
def startable (q : Scheduler) : List Code :=
  (q.scheduled.filter fun e => e.part == .current).map SchedEntry.code ++ q.adhoc.map AdhocEntry.code

/-- The lower of two codes. -/
def lowerCode (a b : Code) : Code := if a ≤ b then a else b

/-- The lowest code of a list. -/
def lowestCode : List Code → Option Code
  | [] => none
  | c :: cs => some (cs.foldl lowerCode c)

/-- The code offered to the Line Interface (R66). -/
def offered (q : Scheduler) : Option Code := lowestCode (startable q)

/-- The station enters SILENT (R153, R154, R158): LTXD is HIGH there (R1), and SILENT_ENTERED is set. -/
def State.enterSilent (s : State) : State :=
  ({ s with control.station := .silent, line.ltxd := .high }).setCause .silentEntered

/-- The station enters ACTIVE (R153, R154, R159). -/
def State.enterActive (s : State) : State := { s with control.station := .active }

/-- The station leaves JOINING, judged on the fault window (R153, R154). -/
def State.leaveJoining (s : State) : State := if s.faultCount < silentFaults then s.enterActive else s.enterSilent

/-- Station Control at a boundary caused by an expiry (R154). -/
def State.judgeExpiry (s : State) : State :=
  if s.control.station = .joining then
    let t := if 2 ≤ s.sched.expiries.toNat ∧ s.control.anchorObserved = false then s.leaveJoining else s
    { t with control.anchorObserved := false }
  else s

/-- The timer restarts from 0 and the expiry counter rises (R51). -/
def State.restartTimer (s : State) : State :=
  { s with sched.timer := 0, sched.expiries := satInc s.sched.expiries }

/-- The cycle timer expires (R51, R54, R154). The Scheduler is halted outside JOINING, ACTIVE and SILENT (R50). -/
def State.expire (s : State) : State :=
  if !s.held && s.control.station.running then s.cycleBoundary.restartTimer.judgeExpiry else s

/-- The check of POST_ROUND: an ON_REQUEST code of the round table (R188). -/
def State.checkPost (s : State) (code : Byte) : Option Code :=
  (codeByte code).bind fun c => if isOnRequest s.image c then some c else none

/-- POST_ROUND of an ON_REQUEST code (R60). -/
def State.postRound (c : Code) (s : State) : State :=
  if holdsAdhoc s.sched.adhoc c then s.respond .merged
  else if s.sched.adhoc.length < adhocCapacity then (s.post .command c).respond .ok
  else s.respond .full

/-- POST_ROUND taken, its payload split (R60, R186). -/
def State.takePostRound (s : State) (code : Option Byte) : State := s.take .run (code.bind s.checkPost) State.postRound

/-- POST_ROUND (R60). -/
def execPostRound (code : Byte) (s : State) : Host.Outcome State Fault Refusal := .next (s.takePostRound (some code))

/-- CYCLE_TIMER_EXPIRY (R51). -/
def execCycleTimerExpiry (s : State) : Host.Outcome State Fault Refusal := .next s.expire

end Sys2Proof.Machine
end

