-- ==== Sys2Proof/Machine/Scan.lean ====
section
/-! DEFINITION. The Measurement Engine (chapter 4): raw codes, the processing of a sample, the scan engine and its
commands. -/

namespace Sys2Proof.Machine

/-- A number clamped to the raw codes 0 to 4095 (R71, R72). -/
def clampRaw (v : Int) : Raw := BitVec.ofInt 12 (max 0 (min 4095 v))

/-- `num / den` rounded to the nearest whole number with a half rounding upward, for a positive `den` (R71, R72). -/
def roundHalfUp (num den : Int) : Int := (2 * num + den) / (2 * den)

/-- The raw code of a single-ended slot (R71). -/
def rawSingle (plus vrefn span : Int) : Raw := clampRaw (roundHalfUp ((plus - vrefn) * 4095) span)

/-- The raw code of a differential slot, by R72's formula: a difference that rounds to no code gives 2048, though R72 also
says that a plus input above or below the minus input gives a code above or below 2048 (log entry 28). -/
def rawDifferential (plus minus span : Int) : Raw := clampRaw (2048 + roundHalfUp ((plus - minus) * 2048) span)

/-- The raw code of a single-ended slot without a positive reference span: what the two clamp sentences of R71 state, or
`none` where both of them apply (log entry 3). -/
def rawSingleNoSpan (plus vrefn vrefp : Int) : Option Raw :=
  if plus < vrefp then some 0 else if vrefn < plus then some 4095 else none

/-- The raw code of a differential slot without a positive reference span: equal inputs give 2048, and a difference of a
whole span of 0 gives an end of the range (R72), or `none` where R72's sentences disagree (log entry 3). -/
def rawDifferentialNoSpan (plus minus span : Int) : Option Raw :=
  if plus = minus then some 2048
  else if span = 0 then some (if minus < plus then 4095 else 0)
  else none

/-- The raw code of a slot with the analog pins at these levels (R71, R72), or `none` where the spec states none. -/
def rawOf (cfg : SlotConfig) (a : AnalogLevels) : Option Raw :=
  let span := a.vrefp - a.vrefn
  match cfg.minus with
  | none =>
    if 0 < span then some (rawSingle a.inputs[cfg.plus] a.vrefn span)
    else rawSingleNoSpan a.inputs[cfg.plus] a.vrefn a.vrefp
  | some m =>
    if 0 < span then some (rawDifferential a.inputs[cfg.plus] a.inputs[m] span)
    else rawDifferentialNoSpan a.inputs[cfg.plus] a.inputs[m] span

/-- The corrected value of a raw code (R83). -/
def correctedOf (cfg : SlotConfig) (raw : Raw) : Int := max (-4096) (min 4095 ((raw.toNat : Int) - cfg.offset))

/-- Whether a raw code saturates (R83). -/
def saturates (cfg : SlotConfig) (raw : Raw) : Bool := decide (4095 < (raw.toNat : Int) - cfg.offset)

/-- The limit state of a corrected value (R85). -/
def limitOf (cfg : SlotConfig) (v : Int) : LimitState :=
  if v < cfg.low then .below else if cfg.high < v then .above else .within

/-- The limit state a write is compared with: an invalid record counts as WITHIN (R85). -/
def SlotResult.previousLimit (r : SlotResult) : LimitState := if r.valid then r.limit else .within

/-- Whether a new limit state is a limit event (R85). -/
def isLimitEvent (old new : LimitState) : Bool := new != .within && new != old

/-- The crossing side after a corrected value (R86). -/
def sideAfter (cfg : SlotConfig) (old : Side) (v : Int) : Side :=
  if (cfg.band : Int) < v then .pos else if v < -(cfg.band : Int) then .neg else old

/-- Whether a change of side is a crossing event (R87). -/
def isCrossing (mode : CrossingMode) (old new : Side) : Bool :=
  match old, new, mode with
  | .neg, .pos, .rise => true
  | .neg, .pos, .both => true
  | .pos, .neg, .fall => true
  | .pos, .neg, .both => true
  | _, _, _ => false

/-- A slot result after a sample (R83 to R87). -/
def SlotResult.write (r : SlotResult) (cfg : SlotConfig) (raw : Raw) (cycle : Word) (injected : Bool) : SlotResult :=
  let v := correctedOf cfg raw
  let limit := limitOf cfg v
  let side := sideAfter cfg r.side v
  { valid := true, raw, corrected := v, cycle, limit, side, ready := true,
    limitEvent := isLimitEvent r.previousLimit limit
    crossing := r.crossing || isCrossing cfg.crossing r.side side
    saturated := saturates cfg raw
    injected }

/-- The sticky bit of an event, as a mask (R102, R103). -/
def flagIf (event : Bool) (bit : Word) : Word := if event then bit else 0

/-- A limit event's hand-offs: LIMIT, and the slot's post (R85). -/
def State.limitEvent (s : State) (post : Option Code) : State := (s.setCause .limit).postIf .slot post

/-- A sample written into a slot result, with its hand-offs (R83 to R87). -/
def State.writeSample (s : State) (n : Fin 16) (raw : Raw) (injected : Bool) : State :=
  let cfg := s.image.slots[n]
  let old := s.meas.results[n]
  let new := old.write cfg raw s.sched.cycle injected
  let bits := flagIf new.limitEvent 0x0004 ||| flagIf (isCrossing cfg.crossing old.side new.side) 0x0008 |||
    flagIf new.saturated 0x0080
  let t := ({ s with meas.results := s.meas.results.set n new }).setFlags bits
  if new.limitEvent then t.limitEvent cfg.post else t

/-- The first slot at or after a number that a scan takes (R80). -/
def nextTaken (im : Image) (start : Nat) : Option (Fin 16) :=
  (List.finRange 16).find? fun n =>
    decide (start ≤ n.val) && decide (n.val < im.settings.scanLength) && !im.slots[n].skip

/-- The conversion of a slot starts (R73, R80). -/
def State.convert (s : State) (n : Fin 16) : State :=
  { s with meas.scan := .scanning, meas.position := some n, meas.timer := 0, meas.held := none }

/-- The scan engine at rest in a state: no position, no conversion (R77). -/
def State.restScan (s : State) (st : ScanState) : State :=
  { s with meas.scan := st, meas.position := none, meas.timer := 0, meas.held := none }

/-- A scan is counted (R81). -/
def State.countScan (s : State) : State := { s with meas.counter := s.meas.counter + 1 }

/-- A scan begins (R80); one that takes no slot ends at once, counted, in IDLE (R81). -/
def State.beginScan (s : State) : State :=
  match nextTaken s.image 0 with
  | some n => s.convert n
  | none => s.countScan.restScan .idle

/-- A scan ends: counted, then IDLE, or the next scan at once in CONTINUOUS mode (R81). -/
def State.endScan (s : State) : State :=
  match s.image.settings.scanMode with
  | .continuous => s.countScan.beginScan
  | .anchored => s.countScan.restScan .idle
  | .command => s.countScan.restScan .idle

/-- An anchor notice that finds the engine SCANNING (R79). -/
def State.overrun (s : State) : State := ((s.setFlags 0x0040).setCause .scanOverrun).bump .overruns

/-- The anchor notice as a trigger (R78, R79). -/
def State.anchorTrigger (s : State) : State :=
  match s.image.settings.scanMode, s.meas.scan with
  | .anchored, .idle => s.beginScan
  | .anchored, .scanning => s.overrun
  | .anchored, .stopped => s
  | .command, _ => s
  | .continuous, _ => s

/-- The settle time ends: the converter takes the input level (R73). A code that the spec does not state is the next free
value (log entry 3). There is such an end only in a conversion whose level has not been taken (log entry 5). -/
def State.settle (s : State) (a : AnalogLevels) : State :=
  match s.meas.scan, s.meas.position, s.meas.held with
  | .scanning, some n, none =>
    { s with
      meas.held := some ((rawOf s.image.slots[n] a).getD (Config.rawWithoutSpan s.clock.draws))
      meas.timer := settleMicros s.image.slots[n].settle
      clock.draws := s.clock.draws + (if (rawOf s.image.slots[n] a).isNone then 1 else 0) }
  | _, _, _ => s

/-- A conversion completes: its result is written, then the next conversion starts or the scan ends (R80, R81). There
is such a completion only after the level has been taken; commanded before R73's 14 µs have passed, it comes at once (log
entry 5). -/
def State.completeConversion (s : State) : State :=
  match s.meas.scan, s.meas.position, s.meas.held with
  | .scanning, some n, some raw =>
    let t := s.writeSample n raw false
    match nextTaken s.image (n.val + 1) with
    | some m => t.convert m
    | none => t.endScan
  | _, _, _ => s

/-- START_SCAN (R88). -/
def State.startScan (_ : Unit) (s : State) : State :=
  match s.meas.scan with
  | .idle => s.beginScan.respond .ok
  | .scanning => s.respond .busy
  | .stopped => s.respond .wrongState

/-- STOP_SCAN (R89). -/
def State.stopScan (_ : Unit) (s : State) : State := (s.restScan .stopped).respond .ok

/-- A STOPPED engine resumes (R90). -/
def State.resume (s : State) : State :=
  match s.image.settings.scanMode with
  | .continuous => s.beginScan
  | .anchored => s.restScan .idle
  | .command => s.restScan .idle

/-- RESUME_SCAN (R90). -/
def State.resumeScan (_ : Unit) (s : State) : State :=
  match s.meas.scan with
  | .stopped => s.resume.respond .ok
  | .idle => s.respond .ok
  | .scanning => s.respond .ok

/-- INJECT with its arguments in range (R91). -/
def State.inject (arg : Fin 16 × Raw) (s : State) : State :=
  match s.meas.scan with
  | .stopped => (s.writeSample arg.1 arg.2 true).respond .ok
  | .idle => s.respond .wrongState
  | .scanning => s.respond .wrongState

/-- A slot result after READ_SLOTS returned it (R92). -/
def SlotResult.read (r : SlotResult) : SlotResult := { r with ready := false, crossing := false }

/-- The number of a scan engine state on the port (section 11.2). -/
def scanStateNumber : ScanState → Nat
  | .stopped => 0
  | .idle => 1
  | .scanning => 2

/-- The number of a limit state on the port (section 11.2). -/
def limitNumber : LimitState → Nat
  | .within => 0
  | .below => 1
  | .above => 2

/-- The number of a crossing side on the port (section 11.2). -/
def sideNumber : Side → Nat
  | .none => 0
  | .pos => 1
  | .neg => 2

/-- A yes/no bit at a weight. -/
def weighted (b : Bool) (weight : Nat) : Nat := if b then weight else 0

/-- A slot record on the port (section 11.7). -/
def slotBytes (n : Nat) (r : SlotResult) : List Byte :=
  [numByte n] ++ wordBytes (r.raw.setWidth 16) ++ intBytes r.corrected ++ wordBytes r.cycle ++
    [numByte (4 * sideNumber r.side + limitNumber r.limit),
     numByte (weighted r.injected 32 + weighted r.saturated 16 + weighted r.crossing 8 + weighted r.limitEvent 4 +
       weighted r.ready 2 + weighted r.valid 1)]

/-- The scan position byte: 0xFF for none (section 11.2). -/
def positionByte : Option (Fin 16) → Byte
  | some n => numByte n.val
  | none => 0xFF

/-- Whether a slot is among those a range returns. -/
def inRange (first count : Nat) (n : Fin 16) : Bool := decide (first ≤ n.val) && decide (n.val < first + count)

/-- The payload of READ_SLOTS (R92, section 11.7). -/
def slotsPayload (s : State) (first count : Nat) : List Byte :=
  [numByte (scanStateNumber s.meas.scan), positionByte s.meas.position] ++ wordBytes s.meas.counter ++
    ((List.finRange 16).filter (inRange first count)).flatMap fun n => slotBytes n.val s.meas.results[n]

/-- READ_SLOTS with its range checked: the records are returned as found, then ready and the crossing flag of each are
cleared (R92). -/
def State.readSlots (range : Nat × Nat) (s : State) : State :=
  let cleared : Vector SlotResult 16 := Vector.ofFn fun n =>
    if inRange range.1 range.2 n then s.meas.results[n].read else s.meas.results[n]
  ({ s with meas.results := cleared }).respond .ok (slotsPayload s range.1 range.2)

/-- START_SCAN taken (R88, R186). -/
def State.takeStartScan (s : State) (arg : Option Unit) : State := s.take .run arg State.startScan

/-- STOP_SCAN taken (R89, R186). -/
def State.takeStopScan (s : State) (arg : Option Unit) : State := s.take .run arg State.stopScan

/-- RESUME_SCAN taken (R90, R186). -/
def State.takeResumeScan (s : State) (arg : Option Unit) : State := s.take .run arg State.resumeScan

/-- INJECT taken, its payload split (R91, R186). -/
def State.takeInject (s : State) (arg : Option (Byte × Word)) : State :=
  s.take .run (arg.bind fun a => checkInject a.1 a.2) State.inject

/-- READ_SLOTS taken, its payload split (R92, R186). -/
def State.takeReadSlots (s : State) (arg : Option (Byte × Byte)) : State :=
  s.take .run (arg.bind fun a => checkSlots a.1 a.2) State.readSlots

/-- START_SCAN (R88). -/
def execStartScan (s : State) : Host.Outcome State Fault Refusal := .next (s.takeStartScan (some ()))

/-- STOP_SCAN (R89). -/
def execStopScan (s : State) : Host.Outcome State Fault Refusal := .next (s.takeStopScan (some ()))

/-- RESUME_SCAN (R90). -/
def execResumeScan (s : State) : Host.Outcome State Fault Refusal := .next (s.takeResumeScan (some ()))

/-- INJECT (R91). -/
def execInject (slot : Byte) (raw : Word) (s : State) : Host.Outcome State Fault Refusal :=
  .next (s.takeInject (some (slot, raw)))

/-- READ_SLOTS (R92). -/
def execReadSlots (first count : Byte) (s : State) : Host.Outcome State Fault Refusal :=
  .next (s.takeReadSlots (some (first, count)))

/-- SETTLE_END (R73). -/
def execSettleEnd (levels : AnalogLevels) (s : State) : Host.Outcome State Fault Refusal :=
  .next (if s.held then s else s.settle levels)

/-- CONVERSION_COMPLETE (R80). -/
def execConversionComplete (s : State) : Host.Outcome State Fault Refusal :=
  .next (if s.held then s else s.completeConversion)

end Sys2Proof.Machine
end

