-- ==== Sys2Proof/Machine/Sources.lean ====
section
/-! DEFINITION. The Source Unit (chapter 5): the snapshot from each source, and SET_USER_VALUE, SET_USER_FLAGS and
CLEAR_FLAGS. -/

namespace Sys2Proof.Machine

/-- The corrected values of the fresh slots of a group, across all sixteen slots (R99). -/
def State.groupValues (s : State) (ref : Word) (g : Fin 4) : List Int :=
  ((List.finRange 16).filter fun n => s.image.slots[n].group == some g && resultFresh ref s.meas.results[n]).map
    fun n => s.meas.results[n].corrected

/-- The largest value of a list, or none of an empty one. -/
def largest : List Int → Option Int
  | [] => none
  | v :: vs => some (vs.foldl max v)

/-- The smallest value of a list, or none of an empty one. -/
def smallest : List Int → Option Int
  | [] => none
  | v :: vs => some (vs.foldl min v)

/-- The snapshot a source gives, judged for a round cycle, or `none` for an abstention (R96 to R101). A committed
entry of kind MIN, MAX, ANY or ALL names a source (R95). -/
def State.sourceValue (s : State) (ref : Word) : Source → Option Snapshot
  | .none => none
  | .slot n => if resultFresh ref s.meas.results[n] then some (.number s.meas.results[n].corrected) else none
  | .groupMax g => (largest (s.groupValues ref g)).map .number
  | .groupMin g => (smallest (s.groupValues ref g)).map .number
  | .userValue =>
    match s.source.userValue with
    | some u => if freshFor ref u.cycle then some (.number u.value) else none
    | none => none
  | .flags => some (.word (s.flagWordFor ref))

/-- SET_USER_VALUE (R100). -/
def State.setUserValue (value : Word) (s : State) : State :=
  ({ s with source.userValue := some { value := value.toInt, cycle := s.sched.cycle } }).respond .ok

/-- SET_USER_FLAGS (R104): bits 8 to 15 of the flag word. -/
def State.setUserFlags (flags : Byte) (s : State) : State :=
  ({ s with source.flags := (s.source.flags &&& 0x00FF#16) ||| (flags.setWidth 16 <<< 8) }).respond .ok

/-- CLEAR_FLAGS (R103): the sticky bits named in the mask. -/
def State.clearFlags (mask : Word) (s : State) : State :=
  ({ s with source.flags := s.source.flags &&& ~~~(mask &&& stickyFlags) }).respond .ok

/-- SET_USER_VALUE taken, its payload split (R100, R186). -/
def State.takeSetUserValue (s : State) (arg : Option Word) : State := s.take .run arg State.setUserValue

/-- SET_USER_FLAGS taken, its payload split (R104, R186). -/
def State.takeSetUserFlags (s : State) (arg : Option Byte) : State := s.take .run arg State.setUserFlags

/-- CLEAR_FLAGS taken, its payload split (R103, R186). -/
def State.takeClearFlags (s : State) (arg : Option Word) : State := s.take .run arg State.clearFlags

/-- SET_USER_VALUE (R100). -/
def execSetUserValue (value : Word) (s : State) : Host.Outcome State Fault Refusal :=
  .next (s.takeSetUserValue (some value))

/-- SET_USER_FLAGS (R104). -/
def execSetUserFlags (flags : Byte) (s : State) : Host.Outcome State Fault Refusal :=
  .next (s.takeSetUserFlags (some flags))

/-- CLEAR_FLAGS (R103). -/
def execClearFlags (mask : Word) (s : State) : Host.Outcome State Fault Refusal := .next (s.takeClearFlags (some mask))

end Sys2Proof.Machine
end

