-- ==== Sys2Proof/Machine/Rounds.lean ====
section
/-! DEFINITION. The Round Engine (chapter 2): the fields of a round, what the station asks to send in each, what a bit
read does, recognition of the code, and the outcome with its delivery. -/

namespace Sys2Proof.Machine

/-- A bit of a round by its field and its place in the field, counted from 0 at the most significant bit (R19). -/
inductive Field
  | code (k : Nat)
  | presence
  /-- The 16 bits at positions 10 to 25: value, count, word or digest. -/
  | number (k : Nat)
  | address (k : Nat)
  | nonce (k : Nat)
  | position (k : Nat)
  | inverted (k : Nat)
  | dissent
  | check (k : Nat)
  | objection
deriving DecidableEq, Repr

/-- The field of a body bit (R19). -/
def bodyField (k : Kind) (n : Nat) : Field :=
  match k with
  | .roster => .position n
  | .anchor | .any | .all => if n = 0 then .presence else .number (n - 1)
  | .max | .min =>
    if n = 0 then .presence else if n ≤ 16 then .number (n - 1) else if n ≤ 21 then .address (n - 17) else .nonce (n - 22)
  | .digest =>
    if n = 0 then .presence else if n ≤ 16 then .number (n - 1) else if n ≤ 32 then .inverted (n - 17) else .dissent

/-- The field of the next bit of a round, or `none` with no round (R19, R21). -/
def Round.field (r : Round) : Option Field :=
  match r.phase with
  | .none => none
  | .code => some (.code r.pos)
  | .body => some (bodyField r.kind r.pos)
  | .check => some (.check r.pos)
  | .objection => some .objection

/-- Whether the station takes part in the round: STARTER or JOINER (R22). -/
def Round.participant (r : Round) : Bool := r.role != .observer

/-- Whether the kind has contention in its body (R27). -/
def contends : Kind → Bool
  | .min => true
  | .max => true
  | .anchor => true
  | _ => false

/-- The number sent at positions 10 to 25 (R27, R32, R34). -/
def encodeNumber : Kind → Snapshot → Word
  | .min, .number v => BitVec.ofInt 16 (v + 32768)
  | .max, .number v => BitVec.ofInt 16 (32767 - v)
  | .anchor, .word c => ~~~c
  | .any, .word w => ~~~w
  | .all, .word w => w
  | .digest, .word d => d
  | _, _ => 0xFFFF

/-- The value decoded from the number read in a MIN round (R27). -/
def decodeMin (n : Word) : Int := (n.toNat : Int) - 32768

/-- The value decoded from the number read in a MAX round (R27). -/
def decodeMax (n : Word) : Int := 32767 - (n.toNat : Int)

/-- The number the station sends at positions 10 to 25, if it has a snapshot. -/
def Round.numberSent (r : Round) : Word :=
  match r.snapshot with
  | some x => encodeNumber r.kind x
  | none => 0xFFFF

/-- Whether the station sends the field at positions 10 to 25: a contender where there is contention, a sender
elsewhere (R28, R32, R34). -/
def Round.sendsNumber (r : Round) : Bool := if contends r.kind then r.contender else r.sender

/-- The bit a station that sends a field sends in it: its own code, number, address, nonce, inverse or check value. The
station address comes from the committed settings (R29). -/
def Round.bitOf (r : Round) (address : Address) : Field → Bool
  | .code k => r.ownCode.getMsbD k
  | .number k => r.numberSent.getMsbD k
  | .address k => address.getMsbD k
  | .nonce k => r.nonce.getMsbD k
  | .inverted k => (~~~r.numberSent).getMsbD k
  | .check k => r.check.getMsbD k
  | _ => true

/-- Whether the ROSTER position of a bit is the station's own (R33). -/
def Round.ownPosition (r : Round) (k : Nat) : Bool :=
  match r.snapshot with
  | some (.position a) => a.toNat == k
  | _ => false

/-- Whether the Round Engine asks for a pull in a field (the summary of what each role drives, R23 to R40). -/
def Round.asksPull (r : Round) (address : Address) (f : Field) : Bool :=
  r.participant && match f with
    | .code _ => r.role == .starter && !r.bitOf address f
    | .presence => r.snapshot.isSome
    | .number _ => r.sendsNumber && !r.bitOf address f
    | .address _ => r.contender && !r.bitOf address f
    | .nonce _ => r.contender && !r.bitOf address f
    | .position k => r.ownPosition k
    | .inverted _ => r.sender && !r.bitOf address f
    | .dissent => r.sender && r.differs
    | .check _ => !r.bitOf address f
    | .objection => r.cause != .none

/-- An objection cause found: the first one found is kept (R21). -/
def ObjectionCause.found (old new : ObjectionCause) : ObjectionCause :=
  match old with
  | .none => new
  | .driveFault => .driveFault
  | .checkDisagreement => .checkDisagreement

/-- A drive fault as an objection cause (R15). -/
def Round.noteFault (r : Round) (fault : Bool) : Round :=
  if fault && r.participant then { r with cause := r.cause.found .driveFault } else r

/-- A field with the next bit read shifted in, most significant first (R20). -/
def shiftIn {w : Nat} (x : BitVec w) (b : Bool) : BitVec w := (x <<< 1) ||| (BitVec.ofBool b).setWidth w

/-- A starter at a code bit: it sent 1 and read LOW, and joins (R23). -/
def Round.codeContention (r : Round) (f : Field) (bit : Level) (suppressed : Bool) (address : Address) : Round :=
  if r.role = .starter ∧ suppressed = false ∧ r.bitOf address f = true ∧ bit = .low then { r with role := .joiner } else r

/-- The presence bit (R26). A participant that an earlier drive fault keeps from sending is no contender
(log entry 13). -/
def Round.takePresence (r : Round) (bit : Level) (suppressed : Bool) : Round :=
  if bit = .low then
    let contributes := r.participant && r.snapshot.isSome
    { r with presence := true, sender := contributes, contender := contributes && contends r.kind && !suppressed }
  else r

/-- A contender at a bit of a contention field: it drops out, or leaves through a drive fault (R28). -/
def Round.contention (r : Round) (f : Field) (bit : Level) (fault : Bool) (address : Address) : Round :=
  if r.contender && (fault || (r.bitOf address f && bit == .low)) then { r with contender := false } else r

/-- A drop-out in the nonce field is lost in nonce; a drive fault is not (R31). -/
def Round.nonceLoss (r : Round) (f : Field) (bit : Level) (fault : Bool) (address : Address) : Round :=
  if r.contender && !fault && r.bitOf address f && bit == .low then { r with lostInNonce := true } else r

/-- A DIGEST bit at which a sender, or an observer against its own digest, finds a difference (R34, R36). -/
def Round.digestBit (r : Round) (own : Bool) (bit : Level) : Round :=
  if (r.sender || r.role == .observer) && own && bit == .low then { r with differs := true } else r

/-- A bit of the check field (R38, R39). -/
def Round.checkBit (r : Round) (f : Field) (bit : Level) (address : Address) : Round :=
  if r.participant then
    if r.bitOf address f && bit == .low then { r with cause := r.cause.found .checkDisagreement } else r
  else if bit ≠ Level.ofBit (r.bitOf address f) then { r with mismatch := true } else r

/-- A ROSTER position read (R33): the set holds the addresses whose positions read LOW. -/
def Round.positionBit (r : Round) (k : Nat) (bit : Level) : Round :=
  if bit = .low then { r with set := r.set ||| (1#32 <<< k) } else r

/-- What a bit read does in its field, apart from the check accumulator and the count of bits (R23 to R39). -/
def Round.takeField (r : Round) (f : Field) (bit : Level) (fault suppressed : Bool) (address : Address) (digest : Word) :
    Round :=
  match f with
  | .code _ => { r.codeContention f bit suppressed address with codeRead := shiftIn r.codeRead bit.bit }
  | .presence => r.takePresence bit suppressed
  | .number k =>
    let t := { r.contention f bit fault address with number := shiftIn r.number bit.bit }
    if r.kind = .digest then t.digestBit (digest.getMsbD k) bit else t
  | .address _ => { r.contention f bit fault address with address := shiftIn r.address bit.bit }
  | .nonce _ =>
    { (r.nonceLoss f bit fault address).contention f bit fault address with nonceRead := shiftIn r.nonceRead bit.bit }
  | .position k => r.positionBit k bit
  | .inverted k => { r.digestBit ((~~~digest).getMsbD k) bit with inverted := shiftIn r.inverted bit.bit }
  | .dissent => { r with dissent := bit == .low }
  | .check _ => r.checkBit f bit address
  | .objection => r

/-- Whether a field is taken into the check accumulator: code and body (R37). -/
def Field.accumulated : Field → Bool
  | .check _ => false
  | .objection => false
  | _ => true

/-- The check accumulator after a bit (R37). -/
def Round.accumulate (r : Round) (f : Field) (bit : Level) : Round :=
  if f.accumulated then { r with check := crc8Bit r.check bit.bit } else r

/-- The count of bits and the phase after a bit of BODY or CHECK (R21). The ends of CODE and OBJECTION are
recognition (R25) and delivery (R43). -/
def Round.advance (r : Round) : Round :=
  match r.phase with
  | .body => if r.pos + 1 = bodyBits r.kind then { r with phase := .check, pos := 0 } else { r with pos := r.pos + 1 }
  | .check => if r.pos + 1 = 8 then { r with phase := .objection, pos := 0 } else { r with pos := r.pos + 1 }
  | .code => { r with pos := r.pos + 1 }
  | .none => r
  | .objection => r

/-- A bit of a round taken by the Round Engine: its field, the check accumulator and the count (R21 to R39). The drive
fault, if it is one, is an objection cause before the objection bit (R15, R40). -/
def Round.takeBit (r : Round) (f : Field) (bit : Level) (fault suppressed : Bool) (address : Address) (digest : Word) :
    Round :=
  (((r.noteFault fault).takeField f bit fault suppressed address digest).accumulate f bit).advance

/-- The level at which the Round Engine's ask and the LIF's suppression leave LTXD for the next bit (R6, R15). -/
def roundDrive (r : Round) (suppressed : Bool) (address : Address) : Level :=
  match r.field with
  | none => .high
  | some f =>
    if suppressed && f != .objection then .high
    else if r.asksPull address f then .low else .high

/-- A round opened by a start mark (R22). -/
def openRound (station : StationState) (starter : Bool) (ownCode : Code) (cycle : Word) : Round :=
  { phase := .code, cycle, ownCode,
    role := if station = .active then (if starter then .starter else .joiner) else .observer }

/-- A participant's snapshot (R25, R95). -/
def State.snapshotFor (s : State) (e : RoundEntry) : Option Snapshot :=
  match e.kind with
  | .anchor => some (.word s.sched.cycle)
  | .roster => some (.position s.image.settings.address)
  | .digest => some (.word s.control.digest)
  | .min | .max | .any | .all => s.sourceValue s.round.cycle e.source

/-- A MIN or MAX participant draws its nonce (R29): a free value (log entry 1). -/
def State.drawNonce (s : State) (k : Kind) : State :=
  match k with
  | .min | .max => { s with round.nonce := Config.nonce s.clock.draws, clock.draws := s.clock.draws + 1 }
  | _ => s

/-- A participant takes its snapshot and draws its nonce; an observer does neither (R25 step 4). -/
def State.takeSnapshot (s : State) (e : RoundEntry) : State :=
  if s.round.participant then ({ s with round.snapshot := s.snapshotFor e }).drawNonce e.kind else s

/-- The cycle timer set to eight bit times by an anchor notice (R52, R53). -/
def eightBitTimes (rate : Fin 4) : Nat := 8 * bitMicros rate

/-- The anchor notice at the Scheduler (R52, R53): it opens a new cycle when the anchor is already done. -/
def State.schedNotice (s : State) : State :=
  let t := if s.sched.anchorDone then s.cycleBoundary else s
  { t with sched.timer := eightBitTimes s.image.settings.rate, sched.anchorDone := true }

/-- The anchor notice at Station Control (R152). -/
def State.controlNotice (s : State) : State :=
  if s.control.station = .joining then { s with control.anchorObserved := true } else s

/-- The anchor notice (R25 step 3): to the Scheduler, the Measurement Engine and Station Control. -/
def State.anchorNotice (s : State) : State := s.schedNotice.anchorTrigger.controlNotice

/-- The line engine and the Round Engine leave a round (R12, R43): RECOVER with idle run 0, NONE, no suppression. -/
def State.leaveRound (s : State) : State :=
  { s with line := { s.line with engine := .recover, idleRun := 0, suppressed := false }, round := {} }

/-- A known code (R25). -/
def State.recogniseKnown (s : State) (e : RoundEntry) : State :=
  let t := { s with round.kind := e.kind, round.phase := .body, round.pos := 0 }
  (if e.kind = .anchor then t.anchorNotice else t).takeSnapshot e

/-- The code read is looked up in the round table (R25). -/
def State.recognise (s : State) : State :=
  match findRound s.image s.round.codeRead with
  | some e => s.recogniseKnown e
  | none => (s.bump .unknownCodes).leaveRound

/-- The outcome at the objection bit (R40). -/
def Round.outcome (r : Round) (bit : Level) : RoundOutcome :=
  if bit = .low then .void
  else if r.role = .observer ∧ r.mismatch = true then .void
  else match r.kind with
    | .roster => if r.set = 0 then .empty else .valid
    | .digest => if r.presence then (if r.dissent then .disagree else .agree) else .empty
    | .anchor | .min | .max | .any | .all => if r.presence then .valid else .empty

/-- Whether the round enters FAULT in the fault window (R41). -/
def Round.isFault (r : Round) : Bool := if r.participant then r.cause != .none else r.mismatch

/-- The content of the outcome record (R42). -/
def Round.content (r : Round) (o : RoundOutcome) : Content :=
  match o with
  | .valid =>
    match r.kind with
    | .min => .extreme (decodeMin r.number) r.address r.contender r.lostInNonce
    | .max => .extreme (decodeMax r.number) r.address r.contender r.lostInNonce
    | .anchor => .count (~~~r.number)
    | .any => .word (~~~r.number)
    | .all => .word r.number
    | .roster => .set r.set
    | .digest => .none
  | .agree => .digest r.number r.differs
  | .disagree => .digest r.number r.differs
  | .empty => .none
  | .void => .none
  | .lapsed => .none

/-- The outcome record (R42). -/
def Round.recordOf (r : Round) (bit : Level) : Record :=
  { code := r.codeRead, kind := r.kind, outcome := r.outcome bit, cycle := r.cycle, content := r.content (r.outcome bit) }

/-- The fault window with a new entry shifted in as the newest (R156). -/
def windowAfter (w : BitVec 32) (fault : Bool) : BitVec 32 := shiftIn w fault

/-- A VOID record is counted (R157 step 2). -/
def State.countVoid (s : State) (r : Record) : State := if r.outcome = .void then s.bump .voids else s

/-- A DISAGREE sets DIGEST_DISAGREE (R157 step 3). -/
def State.noteDisagree (s : State) (r : Record) : State :=
  if r.outcome = .disagree then s.setCause .digestDisagree else s

/-- The duplicate flag sets DUP_ADDRESS and counts it (R157 step 4). -/
def State.noteDuplicate (s : State) (r : Record) : State :=
  match r.outcome, r.content with
  | .valid, .extreme _ _ _ true => (s.setCause .dupAddress).bump .dupAddresses
  | _, _ => s

/-- Station Control takes an outcome record with its fault window entry (R157). -/
def State.controlTake (s : State) (r : Record) (fault : Bool) : State :=
  let t := ((({ s with control.window := windowAfter s.control.window fault }).countVoid r).noteDisagree r).noteDuplicate r
  { t with
    control.roundEnding := true
    control.anchorNoted := s.control.station == .joining && r.kind == .anchor && r.outcome == .valid }

/-- The outcome record delivered to every consuming block (R43). The Scheduler comes before the Trip Unit, so that a
trip post is applied after the record (R61), and after the Result Store, so that a lapse follows its VOID (R65). -/
def State.deliverRecord (s : State) (r : Record) (fault : Bool) : State :=
  ((((s.storeOutcome r).peersTake r).schedTake r).tripTake r).controlTake r fault

/-- The sample of the objection bit: the outcome is determined and delivered (R40 to R43). -/
def State.deliver (s : State) (bit : Level) : State :=
  s.leaveRound.deliverRecord (s.round.recordOf bit) s.round.isFault

/-- A bit of a round at the Round Engine, with the suppression that stood before it (R12, R21). -/
def State.roundBit (s : State) (bit : Level) (fault suppressed : Bool) : State :=
  match s.round.field with
  | none => s
  | some f =>
    let t := { s with round := s.round.takeBit f bit fault suppressed s.image.settings.address s.control.digest }
    match f with
    | .code k => if k = 5 then t.recognise else t
    | .objection => s.deliver bit
    | _ => t

end Sys2Proof.Machine
end

