-- ==== Sys2Proof/Machine/Line.lean ====
section
/-! DEFINITION. The Line Interface (chapter 1): sample points, bit boundaries, and the events of the peer line, each of
which is a sample point or a boundary seen by what it brings about (log entry 6); and the end of a round at Station
Control (R157 to R159). -/

namespace Sys2Proof.Machine

/-- Whether the line engine runs: it is not held in reset and not OFF (R8). -/
def State.listens (s : State) : Bool := !s.held && s.line.engine != .off

/-- The run counters after a sample (R7), with LRXD at its level and the bit timer at the sample point (R3; log
entry 25). -/
def State.counted (s : State) (lv : Level) : State :=
  { s with line := { s.line with
      lrxd := lv
      bitTimer := samplePeriods s.image.settings.rate
      idleRun := if lv = .high then min 11 (s.line.idleRun + 1) else 0
      lowRun := if lv = .low then min 64 (s.line.lowRun + 1) else 0 } }

/-- Whether a sample is a drive fault: the station pulls and reads HIGH (R15). -/
def State.isDriveFault (s : State) (lv : Level) : Bool := s.line.ltxd == .low && lv == .high

/-- A drive fault is counted (R15, R16). -/
def State.countFault (s : State) (fault : Bool) : State := if fault then s.bump .driveFaults else s

/-- The engine enters IDLE (R9, R14). -/
def State.toIdle (s : State) : State := { s with line.engine := .idle, line.firstLow := false, line.ownMark := .none }

/-- The engine enters STUCK: LTXD goes HIGH and LINE_STUCK is set (R13). -/
def State.toStuck (s : State) : State := ({ s with line.engine := .stuck, line.ltxd := .high }).setCause .lineStuck

/-- A sample in RECOVER, its runs counted (R9, R13). -/
def State.sampleRecover (s : State) : State :=
  if s.line.idleRun = 11 then s.toIdle else if s.line.lowRun = 64 then s.toStuck else s

/-- A sample in STUCK, its runs counted (R14). -/
def State.sampleStuck (s : State) : State := if s.line.idleRun = 11 then s.toIdle else s

/-- The code that the station's own start mark sends, where it pulls the mark's second bit (R10, R11). -/
def Lif.ownCode (l : Lif) : Option Code :=
  match l.ownMark with
  | .own c => if l.ltxd = .low then some c else none
  | .none => none
  | .failed => none

/-- A start mark: the engine enters ROUND and the Round Engine opens a round (R10, R22). -/
def State.openMark (s : State) : State :=
  { s with
    line.engine := .round
    line.firstLow := false
    line.ownMark := .none
    line.suppressed := false
    round := openRound s.control.station s.line.ownCode.isSome (s.line.ownCode.getD 0) s.sched.cycle }

/-- A short start: the engine enters RECOVER and the short start is counted (R10). -/
def State.shortStart (s : State) : State :=
  ({ s with line.engine := .recover, line.firstLow := false, line.ownMark := .none }).bump .shortStarts

/-- The second sample of a start mark check (R10, R16). -/
def State.sampleSecond (s : State) (lv : Level) : State :=
  match lv with
  | .low => s.openMark
  | .high => (s.countFault (s.isDriveFault lv)).shortStart

/-- A sample in IDLE with no first LOW noted (R10, R16). -/
def State.sampleFirst (s : State) (lv : Level) : State :=
  match lv with
  | .low => { s with line.firstLow := true }
  | .high =>
    if s.isDriveFault lv then { s.countFault true with line.ownMark := .failed } else s

/-- A sample in IDLE, its runs counted (R10, R16). -/
def State.sampleIdle (s : State) (lv : Level) : State :=
  if s.line.firstLow then s.sampleSecond lv else s.sampleFirst lv

/-- A sample in ROUND, its runs counted (R12, R15): a drive fault suppresses from this bit on, and the Round Engine is
told of it. -/
def State.sampleRound (s : State) (lv : Level) : State :=
  let fault := s.isDriveFault lv
  let t := s.countFault fault
  ({ t with line.suppressed := s.line.suppressed || fault }).roundBit lv fault s.line.suppressed

/-- A sample point (R3, R7). In OFF none is taken (R8). -/
def State.sample (s : State) (lv : Level) : State :=
  if s.listens then
    match s.line.engine with
    | .off => s
    | .recover => (s.counted lv).sampleRecover
    | .stuck => (s.counted lv).sampleStuck
    | .idle => (s.counted lv).sampleIdle lv
    | .round => (s.counted lv).sampleRound lv
  else s

/-- The state change a round calls for at the end of its objection bit (R157 to R159, R153). -/
def State.judgeRound (s : State) (anchorNoted : Bool) : State :=
  match s.control.station with
  | .joining => if anchorNoted then s.leaveJoining else s
  | .active => if silentFaults ≤ s.faultCount then s.enterSilent else s
  | .silent => if s.faultCount ≤ 1 then s.enterActive else s
  | .config => s
  | .committing => s

/-- The boundary that ends an objection bit, at Station Control (R157). -/
def State.endRound (s : State) : State :=
  if s.control.roundEnding then
    ({ s with control.roundEnding := false, control.anchorNoted := false }).judgeRound s.control.anchorNoted
  else s

/-- The level LTXD takes at a boundary (R1, R6, R11, R13, R15). -/
def State.driveLevel (s : State) : Level :=
  match s.control.station, s.line.engine with
  | .active, .idle =>
    match s.line.ownMark with
    | .own _ => .low
    | .none => .high
    | .failed => .high
  | .active, .round => roundDrive s.round s.line.suppressed s.image.settings.address
  | .active, .off => .high
  | .active, .recover => .high
  | .active, .stuck => .high
  | .config, _ => .high
  | .committing, _ => .high
  | .joining, _ => .high
  | .silent, _ => .high

/-- The code with which the station begins a start mark at a boundary, if it begins one (R11). -/
def State.startCode (s : State) (line : Level) : Option Code :=
  if s.control.station = .active ∧ s.line.engine = .idle ∧ s.line.firstLow = false ∧ s.line.ownMark = .none ∧ line = .high
  then offered s.sched else none

/-- What the station drives from a boundary on (R6, R11). After a failed first bit of its own start mark it pulls
nothing at the next boundary (R16; log entry 12). -/
def State.driveNext (s : State) (line : Level) : State :=
  match s.line.ownMark, s.startCode line with
  | .failed, _ => { s with line.ownMark := .none, line.ltxd := .high }
  | _, some c => { s with line.ownMark := .own c, line.ltxd := .low }
  | _, none => { s with line.ltxd := s.driveLevel }

/-- A bit boundary, by the bit timer or by a falling edge (R3, R4, R6). In OFF none is taken (R8). -/
def State.boundary (s : State) (line : Level) : State :=
  if s.listens then
    (({ s with line := { s.line with lrxd := line, bitTimer := 0 } }).endRound).driveNext line
  else s

/-- An event of the line where its condition holds; elsewhere there is no such event and nothing changes (log
entry 5). -/
def State.onlyIf (s : State) (condition : Bool) (act : State → State) : State := if condition then act s else s

/-- Whether a HIGH sample brings the idle run to 11 in RECOVER or STUCK (R9, R14). -/
def State.aboutToIdle (s : State) : Bool :=
  (s.line.engine == .recover || s.line.engine == .stuck) && decide (10 ≤ s.line.idleRun)

/-- Whether a LOW sample brings the LOW run to 64 in RECOVER (R13). -/
def State.aboutToStick (s : State) : Bool := s.line.engine == .recover && decide (63 ≤ s.line.lowRun)

/-- Whether the next sample decides a start mark check (R10). -/
def State.deciding (s : State) : Bool := s.line.engine == .idle && s.line.firstLow

/-- Whether the station pulls a bit of its own start mark (R16). -/
def State.pullsMark (s : State) : Bool := s.line.engine == .idle && s.line.ownMark != .none && s.line.ltxd == .low

/-- Whether the station pulls a bit of a round (R15). -/
def State.pullsRound (s : State) : Bool := s.line.engine == .round && s.line.ltxd == .low

/-- Whether the next sample is that of the sixth code bit (R25). -/
def State.atCodeEnd (s : State) : Bool := s.line.engine == .round && s.round.phase == .code && s.round.pos == 5

/-- Whether the next sample is that of the objection bit (R40). -/
def State.atObjection (s : State) : Bool := s.line.engine == .round && s.round.phase == .objection

/-- ENTER_IDLE (R9, R14). -/
def execEnterIdle (s : State) : Host.Outcome State Fault Refusal := .next (s.onlyIf s.aboutToIdle (·.sample .high))

/-- ENTER_STUCK (R13). -/
def execEnterStuck (s : State) : Host.Outcome State Fault Refusal := .next (s.onlyIf s.aboutToStick (·.sample .low))

/-- BEGIN_START_MARK (R11). -/
def execBeginStartMark (s : State) : Host.Outcome State Fault Refusal :=
  .next (s.onlyIf (s.startCode .high).isSome (·.boundary .high))

/-- SHORT_START (R10). -/
def execShortStart (s : State) : Host.Outcome State Fault Refusal := .next (s.onlyIf s.deciding (·.sample .high))

/-- START_MARK_DRIVE_FAULT (R16). -/
def execStartMarkDriveFault (s : State) : Host.Outcome State Fault Refusal :=
  .next (s.onlyIf s.pullsMark (·.sample .high))

/-- START_MARK (R10, R22). -/
def execStartMark (s : State) : Host.Outcome State Fault Refusal := .next (s.onlyIf s.deciding (·.sample .low))

/-- DRIVE_FAULT (R15). -/
def execDriveFault (s : State) : Host.Outcome State Fault Refusal := .next (s.onlyIf s.pullsRound (·.sample .high))

/-- CODE_RECOGNITION (R25). -/
def execCodeRecognition (bit : Level) (s : State) : Host.Outcome State Fault Refusal :=
  .next (s.onlyIf s.atCodeEnd (·.sample bit))

/-- OUTCOME_DELIVERY (R43). -/
def execOutcomeDelivery (bit : Level) (s : State) : Host.Outcome State Fault Refusal :=
  .next (s.onlyIf s.atObjection (·.sample bit))

/-- ROUND_END (R157). -/
def execRoundEnd (line : Level) (s : State) : Host.Outcome State Fault Refusal :=
  .next (s.onlyIf s.control.roundEnding (·.boundary line))

/-- SAMPLE_POINT (R7). -/
def execSamplePoint (lv : Level) (s : State) : Host.Outcome State Fault Refusal := .next (s.sample lv)

/-- BIT_BOUNDARY (R6). -/
def execBitBoundary (line : Level) (s : State) : Host.Outcome State Fault Refusal := .next (s.boundary line)

/-- LRXD_FALLING_EDGE (R4): a boundary with the line LOW. -/
def execLrxdFallingEdge (s : State) : Host.Outcome State Fault Refusal := .next (s.boundary .low)

end Sys2Proof.Machine
end

