-- ==== Sys2Proof/Machine/Control.lean ====
section
/-! DEFINITION. Station Control (chapter 9): READ_STATUS, CLEAR_ALERTS, the resets, and the configuration image with its
writes, the validation of a COMMIT and its completion (chapter 10). -/

namespace Sys2Proof.Machine

/-- The number of a station state on the port (section 11.2). -/
def stationNumber : StationState → Nat
  | .config => 0
  | .committing => 1
  | .joining => 2
  | .active => 3
  | .silent => 4

/-- The number of a line engine state on the port (section 11.2). -/
def engineNumber : LineEngine → Nat
  | .off => 0
  | .recover => 1
  | .idle => 2
  | .round => 3
  | .stuck => 4

/-- The number of a reset cause on the port (section 11.2). -/
def causeNumber : ResetCause → Nat
  | .hard => 0
  | .soft => 1

/-- The number of a ring policy on the port (section 11.2). -/
def policyNumber : RingPolicy → Nat
  | .keepOldest => 0
  | .keepNewest => 1

/-- The number of a pending part on the port (section 11.2). -/
def partNumber : Part → Nat
  | .current => 0
  | .old => 1
  | .both => 2

/-- The number of a pending origin on the port (section 11.2). -/
def originNumber : Origin → Nat
  | .command => 0
  | .slot => 1
  | .trip => 2

/-- A scheduled entry of the status record (section 11.8). -/
def schedEntryBytes (e : SchedEntry) : List Byte := [e.code.setWidth 8, numByte (16 * partNumber e.part + e.retries)]

/-- An ad hoc entry of the status record (section 11.8). -/
def adhocEntryBytes (e : AdhocEntry) : List Byte :=
  [e.code.setWidth 8, numByte (64 * originNumber e.origin + 16 * e.age + e.retries)]

/-- The diagnostic counters of the status record, in their order (section 11.8). -/
def counterBytes (k : Counters) : List Byte :=
  [k.voids, k.unknownCodes, k.shortStarts, k.driveFaults, k.overruns, k.postsLost, k.dupAddresses]

/-- Bytes 0 to 13 of the status record: Station Control (section 11.8). -/
def controlBytes (s : State) : List Byte :=
  [numByte (stationNumber s.control.station), numByte (causeNumber s.control.resetCause)] ++ wordBytes s.control.digest ++
    [numByte s.faultCount] ++ setBytes s.control.window ++ wordBytes (s.alertCauses.setWidth 16) ++
    wordBytes (s.settings.alertMask.setWidth 16) ++ [boolByte (s.alertn == .low)]

/-- Bytes 21 to 32 of the status record: line engine, Round Scheduler and Source Unit (section 11.8). -/
def runBytes (s : State) : List Byte :=
  [numByte (engineNumber s.line.engine)] ++ wordBytes s.sched.cycle ++ [boolByte s.sched.anchorDone, s.sched.expiries] ++
    wordBytes s.flagWord ++ intBytes ((s.source.userValue.map UserValue.value).getD 0) ++
    wordBytes ((s.source.userValue.map UserValue.cycle).getD 0) ++ [numByte s.userStatus]

/-- Bytes 33 to 39 of the status record: Result Store and station address (section 11.8). -/
def storeBytes (s : State) : List Byte :=
  [numByte s.store.ring.length] ++ wordBytes s.store.seq ++
    [s.store.lost, numByte (policyNumber s.settings.ringPolicy), numByte s.settings.ringThreshold,
     s.settings.address.setWidth 8]

/-- The pending sets of the status record, in ascending code (R70, section 11.8). -/
def pendingBytes (q : Scheduler) : List Byte :=
  [numByte q.scheduled.length] ++ q.scheduled.flatMap schedEntryBytes ++
    [numByte q.adhoc.length] ++ q.adhoc.flatMap adhocEntryBytes

/-- The status record (section 11.8). -/
def statusPayload (s : State) : List Byte :=
  controlBytes s ++ counterBytes s.control.counters ++ runBytes s ++ storeBytes s ++ pendingBytes s.sched

/-- NOP answers OK (R185). -/
def State.nop (_ : Unit) (s : State) : State := s.respond .ok

/-- READ_STATUS answers the status record (R164). -/
def State.readStatus (_ : Unit) (s : State) : State := s.respond .ok (statusPayload s)

/-- CLEAR_ALERTS of a mask (R162): the sticky causes named; RING_LEVEL has no memory to clear. -/
def State.clearAlerts (mask : BitVec 12) (s : State) : State :=
  ({ s with control.alerts := s.control.alerts &&& ~~~mask }).respond .ok

/-- The settings that a reset leaves the blocks with: the defaults, or the record as written (R121, R130, R166, R167). -/
def keptBy (cause : ResetCause) (im : Image) : Settings :=
  match cause with
  | .hard => defaultSettings
  | .soft => im.settings

/-- Every block at the values a reset gives it (R18, R46, R50, R93, R106, R121, R130, R147, R165, R166). -/
def State.resetBlocks (s : State) (cause : ResetCause) : State :=
  { s with
    line := { lrxd := s.line.lrxd }, round := {}, sched := {}, meas := {}, source := {}, store := {}, peers := {}
    trip := Vector.replicate 8 {}, control := { resetCause := cause }
    kept := keptBy cause s.image }

/-- The Local Port after a hard reset: any frame in progress is cut, and the slot holds RESET_DONE with cause HARD
(R184); MISO reads 0x00 (R165). The input wires stay as they are. -/
def Port.hardReset (p : Port) : Port := { csn := p.csn, sck := p.sck, mosi := p.mosi }

/-- RESETN low, or power-on (R165): the station is held at its reset values, with the default image (R168). -/
def State.hardReset (s : State) : State :=
  { s.resetBlocks .hard with resetn := .low, image := defaultImage, port := s.port.hardReset }

/-- RESETN rises, or power-on completes (R165): the station stands in CONFIG at its reset values. With RESETN high
already there is no such event (log entry 5). -/
def State.releaseReset (s : State) : State := if s.held then { s.hardReset with resetn := .high } else s

/-- SOFT_RESET (R166): every block at its reset values, the image kept, RESET_DONE with cause SOFT in the slot and the
request buffer empty (R184). -/
def State.softReset (_ : Unit) (s : State) : State :=
  ({ s.resetBlocks .soft with port.buffer := [], port.bits := [] }).respond .resetDone [numByte (causeNumber .soft)]

/-- The settings record replaced (R170). -/
def State.writeSettings (r : Settings) (s : State) : State := ({ s with image.settings := r }).respond .ok

/-- A round table entry written (R171). -/
def State.writeRound (a : Fin 24 × RoundEntry) (s : State) : State :=
  ({ s with image.rounds := s.image.rounds.set a.1 (some a.2) }).respond .ok

/-- A round table entry removed (R172). -/
def State.clearRound (n : Fin 24) (s : State) : State :=
  ({ s with image.rounds := s.image.rounds.set n none }).respond .ok

/-- A slot's configuration written (R173). -/
def State.writeSlot (a : Fin 16 × SlotConfig) (s : State) : State :=
  ({ s with image.slots := s.image.slots.set a.1 a.2 }).respond .ok

/-- A trip rule written (R174). -/
def State.writeTripRule (a : Fin 8 × TripRule) (s : State) : State :=
  ({ s with image.rules := s.image.rules.set a.1 a.2 }).respond .ok

/-- Why a commit fails (R176). -/
inductive CommitReason
  | noAnchor
  | twoAnchors
  | anchorDivisor
  | twoDigests
  | duplicateCode
  | badSource
  | badPostCode
  | badTrip
  | badLimits
  | scheduleTooLong
deriving DecidableEq, Repr

/-- The item a failed check reports (R176). -/
inductive Item
  | none
  | round (n : Fin 24)
  | slot (n : Fin 16)
  | trip (n : Fin 8)
deriving DecidableEq, Repr

/-- A failed validation (R176). -/
structure CommitFailure where
  reason : CommitReason
  item : Item
deriving DecidableEq, Repr

/-- The entries of the round table with their indices, ascending (R176). -/
def indexedEntries (im : Image) : List (Fin 24 × RoundEntry) :=
  (List.finRange 24).filterMap fun n => im.rounds[n].map fun e => (n, e)

/-- The entries of a kind with their indices (R176). -/
def entriesOfKind (im : Image) (k : Kind) : List (Fin 24 × RoundEntry) := (indexedEntries im).filter fun p => p.2.kind == k

/-- The failure at the first entry that a check finds. -/
def failRound (reason : CommitReason) (p : Option (Fin 24 × RoundEntry)) : Option CommitFailure :=
  p.map fun q => { reason, item := .round q.1 }

/-- Whether a code is held at a lower index too (R176, order 5). -/
def heldLower (im : Image) (p : Fin 24 × RoundEntry) : Bool :=
  (indexedEntries im).any fun q => decide (q.1 < p.1) && q.2.code == p.2.code

/-- Whether a source is a value (R176, order 6). -/
def isValueSource : Source → Bool
  | .none => false
  | .flags => false
  | .slot _ => true
  | .groupMax _ => true
  | .groupMin _ => true
  | .userValue => true

/-- Whether an entry's source fits its kind (R176, order 6). -/
def sourceFits (e : RoundEntry) : Bool :=
  match e.kind with
  | .min | .max => isValueSource e.source
  | .any | .all => e.source == .flags
  | .anchor | .roster | .digest => e.source == .none

/-- Whether a post code may be committed: NONE, or an ON_REQUEST code of the table (R176, order 7). -/
def postFits (im : Image) : Option Code → Bool
  | none => true
  | some c => isOnRequest im c

/-- Whether a condition fits a kind (R132). -/
def conditionFits : Condition → Kind → Bool
  | .above, k => k == .min || k == .max
  | .below, k => k == .min || k == .max
  | .maskSet, k => k == .any || k == .all
  | .maskClear, k => k == .any || k == .all
  | .rosterShort, k => k == .roster
  | .disagree, k => k == .digest

/-- Whether a trip rule may be committed, its post code apart: disabled, or watching a code of a fitting kind (R176,
order 8). -/
def watchFits (im : Image) (r : TripRule) : Bool :=
  !r.enabled || match findRound im r.watched with
    | some e => conditionFits r.condition e.kind
    | none => false

/-- Order 1 of R176. -/
def checkNoAnchor (im : Image) : Option CommitFailure :=
  if (entriesOfKind im .anchor).isEmpty then some { reason := .noAnchor, item := .none } else none

/-- Order 2 of R176. -/
def checkTwoAnchors (im : Image) : Option CommitFailure := failRound .twoAnchors (entriesOfKind im .anchor)[1]?

/-- Order 3 of R176. -/
def checkAnchorDivisor (im : Image) : Option CommitFailure :=
  failRound .anchorDivisor ((entriesOfKind im .anchor).find? fun p => p.2.schedule != .div1)

/-- Order 4 of R176. -/
def checkTwoDigests (im : Image) : Option CommitFailure := failRound .twoDigests (entriesOfKind im .digest)[1]?

/-- Order 5 of R176. -/
def checkDuplicateCode (im : Image) : Option CommitFailure :=
  failRound .duplicateCode ((indexedEntries im).find? (heldLower im))

/-- Order 6 of R176. -/
def checkBadSource (im : Image) : Option CommitFailure :=
  failRound .badSource ((indexedEntries im).find? fun p => !sourceFits p.2)

/-- The slots of order 7 of R176. -/
def checkSlotPosts (im : Image) : Option CommitFailure :=
  ((List.finRange 16).find? fun n => !postFits im im.slots[n].post).map fun n => { reason := .badPostCode, item := .slot n }

/-- The trip rules of order 7 of R176. -/
def checkTripPosts (im : Image) : Option CommitFailure :=
  ((List.finRange 8).find? fun n => im.rules[n].enabled && !postFits im im.rules[n].post).map
    fun n => { reason := .badPostCode, item := .trip n }

/-- Order 8 of R176. -/
def checkBadTrip (im : Image) : Option CommitFailure :=
  ((List.finRange 8).find? fun n => !watchFits im im.rules[n]).map fun n => { reason := .badTrip, item := .trip n }

/-- Order 9 of R176. -/
def checkBadLimits (im : Image) : Option CommitFailure :=
  ((List.finRange 16).find? fun n => decide (im.slots[n].high < im.slots[n].low)).map
    fun n => { reason := .badLimits, item := .slot n }

/-- Order 10 of R176. -/
def checkScheduleLength (im : Image) : Option CommitFailure :=
  if im.settings.cycleLength * 1000 < scheduleMicros im then some { reason := .scheduleTooLong, item := .none } else none

/-- The checks of R176, in order. -/
def commitChecks : List (Image → Option CommitFailure) :=
  [checkNoAnchor, checkTwoAnchors, checkAnchorDivisor, checkTwoDigests, checkDuplicateCode, checkBadSource, checkSlotPosts,
   checkTripPosts, checkBadTrip, checkBadLimits, checkScheduleLength]

/-- The first failure that validation finds, or `none` where every check passes (R176). -/
def validate (im : Image) : Option CommitFailure := commitChecks.findSome? fun check => check im

/-- The number of a commit reason on the port (section 11.2). -/
def reasonNumber : CommitReason → Nat
  | .noAnchor => 1
  | .twoAnchors => 2
  | .anchorDivisor => 3
  | .twoDigests => 4
  | .duplicateCode => 5
  | .badSource => 6
  | .badPostCode => 7
  | .badTrip => 8
  | .badLimits => 9
  | .scheduleTooLong => 10

/-- The item class and item index bytes (section 11.2): the index of class NONE is a free value (log entry 26). -/
def itemBytes : Item → List Byte
  | .none => [0, Config.noItemIndex]
  | .round n => [1, numByte n.val]
  | .slot n => [2, numByte n.val]
  | .trip n => [3, numByte n.val]

/-- The payload of IMAGE_INVALID (R176, section 11.4). -/
def failurePayload (im : Image) (f : CommitFailure) : List Byte :=
  [numByte (reasonNumber f.reason)] ++ itemBytes f.item ++
    if f.reason = .scheduleTooLong then wordBytes (BitVec.ofNat 16 (scheduleMicros im)) else []

/-- An accepted COMMIT: the digest computation begins, its length drawn (R151, R179; log entry 2). -/
def State.beginCommit (s : State) : State :=
  { s with control.station := .committing, control.commitTimer := 0, clock.draws := s.clock.draws + 1 }

/-- COMMIT in CONFIG (R175). -/
def State.commit (_ : Unit) (s : State) : State :=
  match validate s.image with
  | some f => s.respond .imageInvalid (failurePayload s.image f)
  | none => s.beginCommit.respond .ok

/-- The scheduled pending set at the end of a commit (R69), in ascending code. -/
def scheduledAtCommit (im : Image) : List SchedEntry :=
  sortByCode SchedEntry.code (((imageEntries im).filter isScheduled).map fun e => currentEntry e.code)

/-- Every block with its starting values under the committed image (R8, R69, R94, R106, R121, R130, R148, R167), the scan
engine not yet started. -/
def State.blocksAtCommit (s : State) : State :=
  { s with
    line := { lrxd := s.line.lrxd, engine := .recover }
    round := {}
    sched := { scheduled := scheduledAtCommit s.image }
    meas := {}
    source := {}
    store := { latest := latestAtCommit s.image }
    peers := peersAtCommit s.image.settings.expected
    trip := Vector.replicate 8 {}
    control := { station := .joining, resetCause := s.control.resetCause, digest := digestOf s.image } }

/-- The end of the digest computation (R151): the commit completes. Outside COMMITTING no computation ends (log
entry 5). The scan engine starts as after STOPPED (R94). -/
def State.completeCommit (s : State) : State := if s.control.station = .committing then s.blocksAtCommit.resume else s

/-- NOP taken, its payload checked for its length (R185, R186). -/
def State.takeNop (s : State) (arg : Option Unit) : State := s.take .always arg State.nop

/-- READ_STATUS taken (R164, R186). -/
def State.takeReadStatus (s : State) (arg : Option Unit) : State := s.take .always arg State.readStatus

/-- SOFT_RESET taken (R166, R186). -/
def State.takeSoftReset (s : State) (arg : Option Unit) : State := s.take .always arg State.softReset

/-- WRITE_SETTINGS taken, its payload split (R170, R186). -/
def State.takeWriteSettings (s : State) (arg : Option SettingsArgs) : State :=
  s.take .config (arg.bind checkSettings) State.writeSettings

/-- WRITE_ROUND taken, its payload split (R171, R186). -/
def State.takeWriteRound (s : State) (arg : Option RoundArgs) : State := s.take .config (arg.bind checkRound) State.writeRound

/-- CLEAR_ROUND taken, its payload split (R172, R186). -/
def State.takeClearRound (s : State) (arg : Option Byte) : State := s.take .config (arg.bind checkIndex) State.clearRound

/-- WRITE_SLOT taken, its payload split (R173, R186). -/
def State.takeWriteSlot (s : State) (arg : Option SlotArgs) : State := s.take .config (arg.bind checkSlot) State.writeSlot

/-- WRITE_TRIP_RULE taken, its payload split (R174, R186). -/
def State.takeWriteTripRule (s : State) (arg : Option TripArgs) : State :=
  s.take .config (arg.bind checkTrip) State.writeTripRule

/-- COMMIT taken (R175, R186). -/
def State.takeCommit (s : State) (arg : Option Unit) : State := s.take .config arg State.commit

/-- CLEAR_ALERTS taken, its payload split (R162, R186). -/
def State.takeClearAlerts (s : State) (arg : Option Word) : State := s.take .run (arg.bind causeMask) State.clearAlerts

/-- NOP (R185). -/
def execNop (s : State) : Host.Outcome State Fault Refusal := .next (s.takeNop (some ()))

/-- READ_STATUS (R164). -/
def execReadStatus (s : State) : Host.Outcome State Fault Refusal := .next (s.takeReadStatus (some ()))

/-- SOFT_RESET (R166). -/
def execSoftReset (s : State) : Host.Outcome State Fault Refusal := .next (s.takeSoftReset (some ()))

/-- HARD_RESET (R165). -/
def execHardReset (s : State) : Host.Outcome State Fault Refusal := .next s.hardReset

/-- RESET_RELEASE (R165). -/
def execResetRelease (s : State) : Host.Outcome State Fault Refusal := .next s.releaseReset

/-- WRITE_SETTINGS (R170). -/
def execWriteSettings (record : SettingsArgs) (s : State) : Host.Outcome State Fault Refusal :=
  .next (s.takeWriteSettings (some record))

/-- WRITE_ROUND (R171). -/
def execWriteRound (entry : RoundArgs) (s : State) : Host.Outcome State Fault Refusal :=
  .next (s.takeWriteRound (some entry))

/-- CLEAR_ROUND (R172). -/
def execClearRound (index : Byte) (s : State) : Host.Outcome State Fault Refusal := .next (s.takeClearRound (some index))

/-- WRITE_SLOT (R173). -/
def execWriteSlot (config : SlotArgs) (s : State) : Host.Outcome State Fault Refusal :=
  .next (s.takeWriteSlot (some config))

/-- WRITE_TRIP_RULE (R174). -/
def execWriteTripRule (rule : TripArgs) (s : State) : Host.Outcome State Fault Refusal :=
  .next (s.takeWriteTripRule (some rule))

/-- COMMIT (R175). -/
def execCommit (s : State) : Host.Outcome State Fault Refusal := .next (s.takeCommit (some ()))

/-- COMMIT_COMPLETE (R151). -/
def execCommitComplete (s : State) : Host.Outcome State Fault Refusal := .next (if s.held then s else s.completeCommit)

/-- CLEAR_ALERTS (R162). -/
def execClearAlerts (mask : Word) (s : State) : Host.Outcome State Fault Refusal := .next (s.takeClearAlerts (some mask))

end Sys2Proof.Machine
end

