-- ==== Sys2Proof/Machine/Port.lean ====
section
/-! DEFINITION. The Local Port (chapter 10): frames on its wires, the judgement of a request and its decoding. -/

namespace Sys2Proof.Machine

/-- The status byte (section 11.4). -/
def statusByte : Status → Byte
  | .ok => 0x00
  | .merged => 0x01
  | .resetDone => 0x02
  | .badFrame => 0x80
  | .unknownCommand => 0x81
  | .badArgument => 0x82
  | .wrongState => 0x83
  | .busy => 0x84
  | .full => 0x85
  | .conditionHolds => 0x86
  | .imageInvalid => 0x87

/-- The bytes of a response that its check byte covers: status, length and payload (R182, R183). -/
def Response.body (r : Response) : List Byte := statusByte r.status :: numByte r.payload.length :: r.payload

/-- The bytes of a response as they are shifted out (R183). -/
def Response.bytes (r : Response) : List Byte := r.body ++ [crc8 r.body]

/-- The k-th bit that MISO presents in a frame: the response, then zeros (R183). -/
def Response.bit (r : Response) (k : Nat) : Bool := (r.bytes.getD (k / 8) 0).getMsbD (k % 8)

/-- A frame opened (R180): the request buffer is emptied and the first bit of the response stands on MISO. -/
def Port.openFrame (p : Port) : Port :=
  { p with frameOpen := true, buffer := [], bits := [], shifted := 0, miso := Level.ofBit (p.slot.bit 0) }

/-- A falling edge of CSN (R180). While RESETN is low it opens no frame (R184). -/
def State.frameOpen (s : State) : State :=
  if s.port.csn = .high then
    let t := { s with port.csn := .low }
    if s.held then t else { t with port := t.port.openFrame }
  else s

/-- Eight bits as a byte, most significant first. -/
def byteOfBits (bits : List Bool) : Byte := bits.foldl (fun b x => (b <<< 1) ||| (BitVec.ofBool x).setWidth 8) 0

/-- A bit taken from MOSI: every eighth completes a byte of the request buffer (R180). -/
def Port.takeBit (p : Port) (bit : Bool) : Port :=
  if p.bits.length = 7 then { p with buffer := p.buffer ++ [byteOfBits (p.bits ++ [bit])], bits := [] }
  else { p with bits := p.bits ++ [bit] }

/-- The next bit of the response on MISO. -/
def Port.shift (p : Port) : Port := { p with shifted := p.shifted + 1, miso := Level.ofBit (p.slot.bit (p.shifted + 1)) }

/-- An edge of SCK in an open frame: a rising one takes MOSI, a falling one changes MISO (R180). -/
def Port.clockEdge (p : Port) (sck mosi : Level) : Port :=
  match sck with
  | .high => p.takeBit mosi.bit
  | .low => p.shift

/-- SCK at a level, MOSI at a level. Where SCK does not change, and outside a frame, the wires alone change (log
entry 24). -/
def State.sckEdge (s : State) (sck mosi : Level) : State :=
  let t := { s with port.sck := sck, port.mosi := mosi }
  if s.port.sck ≠ sck ∧ s.port.frameOpen = true ∧ s.held = false then { t with port := t.port.clockEdge sck mosi } else t

/-- The most payload bytes of a request (R180). -/
def requestCapacity : Nat := 120

/-- The command byte and payload of a request buffer that is complete and good, or `none` for BAD_FRAME (R181). -/
def judgeRequest : List Byte → Option (Byte × List Byte)
  | command :: len :: rest =>
    if len.toNat ≤ requestCapacity ∧ rest[len.toNat]? = some (crc8 (command :: len :: rest.take len.toNat)) then
      some (command, rest.take len.toNat)
    else none
  | _ => none

/-- A taken request decoded by its command byte (R186, section 11.4) and handed on with its payload split. -/
def State.takeRequest (s : State) (command : Byte) (p : List Byte) : State :=
  match command.toNat with
  | 0x00 => s.takeNop (noPayload p)
  | 0x01 => s.takeReadStatus (noPayload p)
  | 0x02 => s.takeSoftReset (noPayload p)
  | 0x10 => s.takeWriteSettings (splitSettings p)
  | 0x11 => s.takeWriteRound (splitRound p)
  | 0x12 => s.takeClearRound (oneByte p)
  | 0x13 => s.takeWriteSlot (splitSlot p)
  | 0x14 => s.takeWriteTripRule (splitTrip p)
  | 0x1F => s.takeCommit (noPayload p)
  | 0x20 => s.takeReadResults (oneByte p)
  | 0x21 => s.takeReadLatest (oneByte p)
  | 0x22 => s.takeReadPeers (twoBytes p)
  | 0x23 => s.takeReadSlots (twoBytes p)
  | 0x24 => s.takeReadTrips (noPayload p)
  | 0x30 => s.takePostRound (oneByte p)
  | 0x31 => s.takeStartScan (noPayload p)
  | 0x32 => s.takeStopScan (noPayload p)
  | 0x33 => s.takeResumeScan (noPayload p)
  | 0x34 => s.takeInject (slotAndWord p)
  | 0x40 => s.takeSetUserValue (oneWord p)
  | 0x41 => s.takeSetUserFlags (oneByte p)
  | 0x42 => s.takeClearFlags (oneWord p)
  | 0x43 => s.takeClearTrip (oneByte p)
  | 0x44 => s.takeClearAlerts (oneWord p)
  | _ => s.respond .unknownCommand

/-- The frame ends: CSN is HIGH, no frame is open and the request buffer is empty. -/
def State.closeFrame (s : State) : State :=
  { s with port.csn := .high, port.frameOpen := false, port.buffer := [], port.bits := [] }

/-- The request buffer judged at the end of its frame; the slot receives the response (R181). -/
def State.judgeFrame (s : State) (buffer : List Byte) : State :=
  match judgeRequest buffer with
  | some (command, p) => s.takeRequest command p
  | none => s.respond .badFrame

/-- A rising edge of CSN (R181). A frame that is no frame of the port is ignored (R184). -/
def State.frameEnd (s : State) : State :=
  if s.port.csn = .low then
    if s.port.frameOpen = true ∧ s.held = false then s.closeFrame.judgeFrame s.port.buffer else s.closeFrame
  else s

/-- FRAME_OPEN (R180). -/
def execFrameOpen (s : State) : Host.Outcome State Fault Refusal := .next s.frameOpen

/-- FRAME_END (R181). -/
def execFrameEnd (s : State) : Host.Outcome State Fault Refusal := .next s.frameEnd

/-- SCK_EDGE (R180). -/
def execSckEdge (sck mosi : Level) (s : State) : Host.Outcome State Fault Refusal := .next (s.sckEdge sck mosi)

end Sys2Proof.Machine
end

