-- ==== Sys2Proof/Machine/Dispatch.lean ====
section
/-! DEFINITION. One arm per command: each calls its meaning. -/

namespace Sys2Proof.Machine

def exec (i : Instr) (s : State) : Host.Outcome State Fault Refusal :=
  match i with
  | .hardReset => Sys2Proof.Machine.execHardReset s
  | .resetRelease => Sys2Proof.Machine.execResetRelease s
  | .frameOpen => Sys2Proof.Machine.execFrameOpen s
  | .frameEnd => Sys2Proof.Machine.execFrameEnd s
  | .nop => Sys2Proof.Machine.execNop s
  | .readStatus => Sys2Proof.Machine.execReadStatus s
  | .softReset => Sys2Proof.Machine.execSoftReset s
  | .writeSettings record => Sys2Proof.Machine.execWriteSettings record s
  | .writeRound entry => Sys2Proof.Machine.execWriteRound entry s
  | .clearRound index => Sys2Proof.Machine.execClearRound index s
  | .writeSlot config => Sys2Proof.Machine.execWriteSlot config s
  | .writeTripRule rule => Sys2Proof.Machine.execWriteTripRule rule s
  | .commit => Sys2Proof.Machine.execCommit s
  | .commitComplete => Sys2Proof.Machine.execCommitComplete s
  | .readResults n => Sys2Proof.Machine.execReadResults n s
  | .readLatest code => Sys2Proof.Machine.execReadLatest code s
  | .readPeers first count => Sys2Proof.Machine.execReadPeers first count s
  | .readSlots first count => Sys2Proof.Machine.execReadSlots first count s
  | .readTrips => Sys2Proof.Machine.execReadTrips s
  | .postRound code => Sys2Proof.Machine.execPostRound code s
  | .startScan => Sys2Proof.Machine.execStartScan s
  | .stopScan => Sys2Proof.Machine.execStopScan s
  | .resumeScan => Sys2Proof.Machine.execResumeScan s
  | .inject slot raw => Sys2Proof.Machine.execInject slot raw s
  | .setUserValue value => Sys2Proof.Machine.execSetUserValue value s
  | .setUserFlags flags => Sys2Proof.Machine.execSetUserFlags flags s
  | .clearFlags mask => Sys2Proof.Machine.execClearFlags mask s
  | .clearTrip rule => Sys2Proof.Machine.execClearTrip rule s
  | .clearAlerts mask => Sys2Proof.Machine.execClearAlerts mask s
  | .enterIdle => Sys2Proof.Machine.execEnterIdle s
  | .enterStuck => Sys2Proof.Machine.execEnterStuck s
  | .beginStartMark => Sys2Proof.Machine.execBeginStartMark s
  | .shortStart => Sys2Proof.Machine.execShortStart s
  | .startMarkDriveFault => Sys2Proof.Machine.execStartMarkDriveFault s
  | .startMark => Sys2Proof.Machine.execStartMark s
  | .driveFault => Sys2Proof.Machine.execDriveFault s
  | .codeRecognition bit => Sys2Proof.Machine.execCodeRecognition bit s
  | .outcomeDelivery bit => Sys2Proof.Machine.execOutcomeDelivery bit s
  | .roundEnd line => Sys2Proof.Machine.execRoundEnd line s
  | .cycleTimerExpiry => Sys2Proof.Machine.execCycleTimerExpiry s
  | .settleEnd levels => Sys2Proof.Machine.execSettleEnd levels s
  | .conversionComplete => Sys2Proof.Machine.execConversionComplete s
  | .samplePoint level => Sys2Proof.Machine.execSamplePoint level s
  | .bitBoundary line => Sys2Proof.Machine.execBitBoundary line s
  | .lrxdFallingEdge => Sys2Proof.Machine.execLrxdFallingEdge s
  | .sckEdge sck mosi => Sys2Proof.Machine.execSckEdge sck mosi s

end Sys2Proof.Machine
end

