-- ==== Sys2Proof/Machine/Tick.lean ====
section
/-! DEFINITION. The passing of one crystal period (125 ns, R2) in which no command waits (log entry 4): the timers advance,
and the events that fall due join the queue. The level on LRXD and the analog pins are free values. -/

namespace Sys2Proof.Machine

/-- What one timer does in a period: the state with the timer advanced, and the event that falls due. -/
abbrev Due := State × List Instr

/-- The bit timer (R3, R4) with the line at a level. In OFF it is stopped and edges are not taken (R8). An event that
falls due sets the timer itself (log entry 25). The edge of the station's own pull is no exception: R4 puts it at the
boundary itself, and where the free level of the line shows it a period or more later, the boundary is placed again there
(the model's choice, log entry 14). -/
def State.tickLine (s : State) (lv : Level) : Due :=
  let t := { s with line.lrxd := lv }
  let rate := s.image.settings.rate
  if s.line.engine = .off then (t, [])
  else if s.line.lrxd = .high ∧ lv = .low then (t, [.lrxdFallingEdge])
  else if s.line.bitTimer + 1 = samplePeriods rate then (t, [.samplePoint lv])
  else if bitPeriods rate ≤ s.line.bitTimer + 1 then (t, [.bitBoundary lv])
  else ({ t with line.bitTimer := s.line.bitTimer + 1 }, [])

/-- The conversion timer, at a tick of the µs (R73), with the analog pins at these levels. -/
def State.tickConversion (s : State) (a : AnalogLevels) : Due :=
  match s.meas.scan, s.meas.position, s.meas.held with
  | .scanning, some n, none =>
    if settleMicros s.image.slots[n].settle ≤ s.meas.timer + 1 then (s, [.settleEnd a])
    else ({ s with meas.timer := s.meas.timer + 1 }, [])
  | .scanning, some n, some _ =>
    if settleMicros s.image.slots[n].settle + resolveMicros ≤ s.meas.timer + 1 then (s, [.conversionComplete])
    else ({ s with meas.timer := s.meas.timer + 1 }, [])
  | _, _, _ => (s, [])

/-- The cycle timer, at a tick of the µs (R51). -/
def State.tickCycle (s : State) : Due :=
  if s.control.station.running then
    if s.image.settings.cycleLength * 1000 ≤ s.sched.timer + 1 then (s, [.cycleTimerExpiry])
    else ({ s with sched.timer := s.sched.timer + 1 }, [])
  else (s, [])

/-- The digest computation, at a tick of the µs (R179): it ends after 1 to 1000 µs, how many is free (log entry 2). -/
def State.tickCommit (s : State) : Due :=
  if s.control.station = .committing then
    if Config.commitDelay s.clock.draws % 1000 + 1 ≤ s.control.commitTimer + 1 then (s, [.commitComplete])
    else ({ s with control.commitTimer := s.control.commitTimer + 1 }, [])
  else (s, [])

/-- One timer after another, the events in their order (log entry 4). -/
def Due.andThen (d : Due) (f : State → Due) : Due := let e := f d.1; (e.1, d.2 ++ e.2)

/-- The timers of a period that ends a µs. An expiry comes before a sample of the same period: an anchor that the sample
recognises is then the anchor of the cycle just opened, and one boundary is made (R52, R53; log entry 4). -/
def State.tickMicro (s : State) (lv : Level) (a : AnalogLevels) : Due :=
  ((s.tickCycle.andThen (·.tickLine lv)).andThen (·.tickConversion a)).andThen State.tickCommit

/-- The timers of one period. -/
def State.tickTimers (s : State) (lv : Level) (a : AnalogLevels) : Due :=
  if s.clock.phase = 7 then ({ s with clock.phase := 0 }).tickMicro lv a
  else ({ s with clock.phase := s.clock.phase + 1 }).tickLine lv

/-- A period passes with the line and the analog pins at these levels. Held in reset, no timer runs (R165). -/
def State.tickWith (s : State) (lv : Level) (a : AnalogLevels) : State :=
  if s.held then { s with line.lrxd := lv }
  else
    let d := s.tickTimers lv a
    { d.1 with pending := d.1.pending ++ d.2 }

/-- One crystal period (log entry 4). -/
def State.tick (s : State) : State :=
  let t := s.tickWith (Config.lineLevel s.clock.periods) (Config.analogLevels s.clock.periods)
  { t with clock.periods := s.clock.periods + 1 }

end Sys2Proof.Machine
end

