-- ==== Sys2Proof/Machine/Encode.lean ====
section
/-! DEFINITION. How a controller writes a request: the configuration records as the fields of the write commands (sections
11.2 and 11.5), each port command as a command byte with its payload (section 11.4), and the wires of a frame. -/

namespace Sys2Proof.Machine

/-- The scan mode's byte (section 11.2). -/
def scanModeNumber : ScanMode → Nat
  | .anchored => 0
  | .command => 1
  | .continuous => 2

/-- The crossing mode's byte (section 11.2). -/
def crossingNumber : CrossingMode → Nat
  | .none => 0
  | .rise => 1
  | .fall => 2
  | .both => 3

/-- The trip condition's byte (section 11.2). -/
def conditionCode : Condition → Nat
  | .above => 0
  | .below => 1
  | .maskSet => 2
  | .maskClear => 3
  | .rosterShort => 4
  | .disagree => 5

/-- The source byte (section 11.2). -/
def sourceNumber : Source → Nat
  | .none => 0x00
  | .slot n => 0x10 + n.val
  | .groupMax g => 0x20 + g.val
  | .groupMin g => 0x30 + g.val
  | .userValue => 0x40
  | .flags => 0x50

/-- A post code byte: 0xFF for NONE (section 11.2). -/
def postNumber : Option Code → Byte
  | none => 0xFF
  | some c => c.setWidth 8

/-- A minus input byte: 0x10 for GND (section 11.2). -/
def minusNumber : Option (Fin 16) → Byte
  | none => 0x10
  | some n => numByte n.val

/-- A group byte: 0xFF for NONE (section 11.2). -/
def groupNumber : Option (Fin 4) → Byte
  | none => 0xFF
  | some g => numByte g.val

/-- A trip output byte (section 11.2). -/
def outputCode : TripOutput → Byte
  | .trip0 => 0
  | .trip1 => 1

/-- A settings record as the fields of WRITE_SETTINGS (section 11.5). -/
def settingsFields (r : Settings) : SettingsArgs :=
  { address := r.address.setWidth 8, rate := numByte r.rate.val, cycleLength := numByte r.cycleLength,
    missLimit := numByte r.missLimit, expected := r.expected, ringPolicy := numByte (policyNumber r.ringPolicy),
    ringThreshold := numByte r.ringThreshold, alertMask := r.alertMask.setWidth 16,
    scanMode := numByte (scanModeNumber r.scanMode), scanLength := numByte r.scanLength }

/-- A round table entry at an index as the fields of WRITE_ROUND (section 11.5). -/
def roundFields (n : Fin 24) (e : RoundEntry) : RoundArgs :=
  { index := numByte n.val, code := e.code.setWidth 8, kind := numByte (kindNumber e.kind),
    schedule := numByte (scheduleNumber e.schedule), source := numByte (sourceNumber e.source), ring := boolByte e.ring }

/-- A slot's configuration as the fields of WRITE_SLOT (section 11.5). -/
def slotFields (n : Fin 16) (c : SlotConfig) : SlotArgs :=
  { slot := numByte n.val, plus := numByte c.plus.val, minus := minusNumber c.minus, settle := numByte c.settle.val,
    offset := BitVec.ofInt 16 c.offset, low := BitVec.ofInt 16 c.low, high := BitVec.ofInt 16 c.high,
    crossingMode := numByte (crossingNumber c.crossing), band := numByte c.band, group := groupNumber c.group,
    post := postNumber c.post, skip := boolByte c.skip }

/-- A trip rule as the fields of WRITE_TRIP_RULE (section 11.5). -/
def tripFields (n : Fin 8) (r : TripRule) : TripArgs :=
  { index := numByte n.val, enabled := boolByte r.enabled, watched := r.watched.setWidth 8,
    condition := numByte (conditionCode r.condition), threshold := BitVec.ofInt 16 r.threshold, mask := r.mask,
    persistence := numByte r.persistence, blind := numByte r.blind, output := outputCode r.output, post := postNumber r.post }

/-- The payload of WRITE_SETTINGS (section 11.5). -/
def settingsBytes (a : SettingsArgs) : List Byte :=
  [a.address, a.rate, a.cycleLength, a.missLimit] ++ setBytes a.expected ++ [a.ringPolicy, a.ringThreshold] ++
    wordBytes a.alertMask ++ [a.scanMode, a.scanLength]

/-- The payload of WRITE_ROUND (section 11.5). -/
def roundBytes (a : RoundArgs) : List Byte := [a.index, a.code, a.kind, a.schedule, a.source, a.ring]

/-- The payload of WRITE_SLOT (section 11.5). -/
def slotConfigBytes (a : SlotArgs) : List Byte :=
  [a.slot, a.plus, a.minus, a.settle] ++ wordBytes a.offset ++ wordBytes a.low ++ wordBytes a.high ++
    [a.crossingMode, a.band, a.group, a.post, a.skip]

/-- The payload of WRITE_TRIP_RULE (section 11.5). -/
def tripRuleBytes (a : TripArgs) : List Byte :=
  [a.index, a.enabled, a.watched, a.condition] ++ wordBytes a.threshold ++ wordBytes a.mask ++
    [a.persistence, a.blind, a.output, a.post]

/-- The command byte and payload of a port command; `none` for an event (section 11.4). -/
def requestOf : Instr → Option (Byte × List Byte)
  | .nop => some (0x00, [])
  | .readStatus => some (0x01, [])
  | .softReset => some (0x02, [])
  | .writeSettings r => some (0x10, settingsBytes r)
  | .writeRound e => some (0x11, roundBytes e)
  | .clearRound n => some (0x12, [n])
  | .writeSlot c => some (0x13, slotConfigBytes c)
  | .writeTripRule r => some (0x14, tripRuleBytes r)
  | .commit => some (0x1F, [])
  | .readResults n => some (0x20, [n])
  | .readLatest c => some (0x21, [c])
  | .readPeers a n => some (0x22, [a, n])
  | .readSlots a n => some (0x23, [a, n])
  | .readTrips => some (0x24, [])
  | .postRound c => some (0x30, [c])
  | .startScan => some (0x31, [])
  | .stopScan => some (0x32, [])
  | .resumeScan => some (0x33, [])
  | .inject n raw => some (0x34, n :: wordBytes raw)
  | .setUserValue v => some (0x40, wordBytes v)
  | .setUserFlags f => some (0x41, [f])
  | .clearFlags m => some (0x42, wordBytes m)
  | .clearTrip n => some (0x43, [n])
  | .clearAlerts m => some (0x44, wordBytes m)
  | .hardReset | .resetRelease | .frameOpen | .frameEnd | .commitComplete | .enterIdle | .enterStuck | .beginStartMark
  | .shortStart | .startMarkDriveFault | .startMark | .driveFault | .codeRecognition _ | .outcomeDelivery _ | .roundEnd _
  | .cycleTimerExpiry | .settleEnd _ | .conversionComplete | .samplePoint _ | .bitBoundary _ | .lrxdFallingEdge
  | .sckEdge _ _ => none

/-- The bytes of a request frame: command, length, payload, check byte (R180, R182, section 11.4). -/
def frameBytes (command : Byte) (payload : List Byte) : List Byte :=
  let body := command :: numByte payload.length :: payload
  body ++ [crc8 body]

/-- The edges of SCK that clock bytes in, most significant bit first (R180). -/
def byteEdges (bytes : List Byte) : List Instr :=
  (bytes.flatMap byteBits).flatMap fun b => [.sckEdge .high (Level.ofBit b), .sckEdge .low (Level.ofBit b)]

/-- A whole frame on the wires (R180, R181). -/
def frameEvents (bytes : List Byte) : List Instr := [.frameOpen] ++ byteEdges bytes ++ [.frameEnd]

end Sys2Proof.Machine
end

