-- ==== Sys2Proof/Safety.lean ====
section
/-! DEFINITION. The safety properties of a state that every step keeps: what the spec says is so at every moment. -/

namespace Sys2Proof.Machine

/-- The station pulls the line only while it is ACTIVE (R1). -/
def State.DrivesOnlyActive (s : State) : Prop := s.line.ltxd = .low → s.control.station = .active

/-- In CONFIG and COMMITTING every block stands at its reset values (R150, R151), and in the other states the line engine is
not OFF (R8). -/
def State.BlocksFollowStation (s : State) : Prop :=
  (s.control.station.running = false →
    s.line = { lrxd := s.line.lrxd } ∧ s.round = {} ∧ s.sched = {} ∧ s.meas = {} ∧ s.source = {} ∧ s.store = {} ∧
    s.peers = {} ∧ s.trip = Vector.replicate 8 {} ∧
    s.control = { station := s.control.station, resetCause := s.control.resetCause, commitTimer := s.control.commitTimer }) ∧
  (s.control.station.running = true → s.line.engine ≠ .off)

/-- While RESETN is low the station stands at the values of a hard reset (R165, R184). -/
def State.HeldAtReset (s : State) : Prop :=
  s.held = true →
    s.control.station = .config ∧ s.control.resetCause = .hard ∧ s.image = defaultImage ∧ s.kept = defaultSettings ∧
    s.port.slot = { status := .resetDone, payload := [0] } ∧ s.port.frameOpen = false ∧ s.port.miso = .low

/-- A settings record in the ranges of R169. -/
def settingsInRange (r : Settings) : Prop :=
  1 ≤ r.cycleLength ∧ r.cycleLength ≤ 250 ∧ 1 ≤ r.missLimit ∧ r.missLimit ≤ 15 ∧ 1 ≤ r.ringThreshold ∧ r.ringThreshold ≤ 32 ∧
  1 ≤ r.scanLength ∧ r.scanLength ≤ 16

/-- A number in the range of the signed slot fields (R173). -/
def slotNumberInRange (v : Int) : Prop := -4096 ≤ v ∧ v ≤ 4095

/-- A slot configuration in the ranges of R173. -/
def slotInRange (c : SlotConfig) : Prop :=
  c.minus ≠ some c.plus ∧ slotNumberInRange c.offset ∧ slotNumberInRange c.low ∧ slotNumberInRange c.high ∧ c.band ≤ 255

/-- A trip rule in the ranges of R174. -/
def ruleInRange (r : TripRule) : Prop :=
  -32768 ≤ r.threshold ∧ r.threshold ≤ 32767 ∧ 1 ≤ r.persistence ∧ r.persistence ≤ 8 ∧ r.blind ≤ 15

/-- An image whose every part lies in its ranges (R169, R173, R174). -/
def imageInRange (im : Image) : Prop :=
  settingsInRange im.settings ∧ (∀ n : Fin 16, slotInRange im.slots[n]) ∧ ∀ n : Fin 8, ruleInRange im.rules[n]

/-- The image holds only values in range (R170, R171, R173, R174); outside CONFIG it has passed validation (R175, R176), and
while the station runs the digest is the image's (R178). -/
def State.ImageSound (s : State) : Prop :=
  imageInRange s.image ∧ (s.control.station ≠ .config → validate s.image = none) ∧
  (s.control.station.running = true → s.control.digest = digestOf s.image)

/-- An entry of the scheduled set (R58): a code with a cycle divisor, 0 to 2 retries, and OLD or BOTH only for the code in
flight (R66). -/
def schedEntryWf (s : State) (e : SchedEntry) : Prop :=
  e.retries ≤ 2 ∧ (∃ r ∈ imageEntries s.image, r.code = e.code ∧ isScheduled r = true) ∧
  (e.part ≠ .current → isInFlight s.round.inFlight e.code = true)

/-- An entry of the ad hoc set (R59): an ON_REQUEST code, 0 to 2 retries, age 0 to 3. -/
def adhocEntryWf (s : State) (e : AdhocEntry) : Prop :=
  e.retries ≤ 2 ∧ e.age ≤ 3 ∧ isOnRequest s.image e.code = true

/-- The pending sets (R58, R59): each code at most once, in ascending order, and at most eight ad hoc entries. -/
def State.PendingSound (s : State) : Prop :=
  (s.sched.scheduled.map SchedEntry.code).Pairwise (· < ·) ∧ (s.sched.adhoc.map AdhocEntry.code).Pairwise (· < ·) ∧
  s.sched.adhoc.length ≤ 8 ∧ (∀ e ∈ s.sched.scheduled, schedEntryWf s e) ∧ ∀ e ∈ s.sched.adhoc, adhocEntryWf s e

/-- How many bits of a round have been read since its start mark (R19). -/
def Round.bitsRead (r : Round) : Nat :=
  match r.phase with
  | .none => 0
  | .code => r.pos
  | .body => 6 + r.pos
  | .check => 6 + bodyBits r.kind + r.pos
  | .objection => 14 + bodyBits r.kind

/-- The place of a round's next bit lies in its phase (R19, R21). -/
def Round.PlaceSound (r : Round) : Prop :=
  match r.phase with
  | .none => True
  | .code => r.pos < 6
  | .body => r.pos < bodyBits r.kind
  | .check => r.pos < 8
  | .objection => True

/-- The line engine and its run counters (R7, R9, R10, R13, R15): a round stands exactly in ROUND, a waiting engine has not
reached the run it waits for, and in a round the LOW run counts no more than the round's own bits. -/
def State.LineSound (s : State) : Prop :=
  s.line.idleRun ≤ 11 ∧ s.line.lowRun ≤ 64 ∧
  (s.line.engine = .round ↔ s.round.phase ≠ .none) ∧ s.round.PlaceSound ∧
  (s.line.engine = .recover → s.line.idleRun < 11 ∧ s.line.lowRun < 64) ∧
  (s.line.engine = .stuck → s.line.idleRun < 11) ∧
  (s.line.engine = .idle → s.line.lowRun = if s.line.firstLow then 1 else 0) ∧
  (s.line.engine = .round → s.line.lowRun ≤ 2 + s.round.bitsRead) ∧
  (s.line.firstLow = true → s.line.engine = .idle ∧ s.line.idleRun = 0) ∧
  (s.line.ownMark ≠ .none → s.line.engine = .idle) ∧
  (s.line.suppressed = true → s.line.engine = .round) ∧
  s.line.bitTimer < bitPeriods s.image.settings.rate

/-- A trip rule's state (R133, R135, R139, R141): a disabled rule stands at its start, the counts and the trip data agree with
the state, a rule at or above its blind limit is TRIPPED, and without a limit the blind count stays 0. -/
def ruleStateWf (rule : TripRule) (r : RuleState) : Prop :=
  (rule.enabled = false → r = {}) ∧ r.blind ≤ 15 ∧ (rule.blind = 0 → r.blind = 0) ∧
  (rule.blind ≠ 0 → rule.blind ≤ r.blind → r.status = .tripped) ∧
  match r.status with
  | .clear => r.persistence = 0 ∧ r.data = none
  | .counting => 1 ≤ r.persistence ∧ r.persistence < rule.persistence ∧ r.data = none
  | .tripped => r.persistence ≤ rule.persistence ∧ r.data.isSome = true

/-- The eight trip rules (R133). -/
def State.TripsSound (s : State) : Prop := ∀ n : Fin 8, ruleStateWf s.image.rules[n] s.trip[n]

/-- A peer entry's absence count agrees with its state (R122, R124, R125). -/
def peerWf (missLimit : Nat) (p : Peer) : Prop :=
  match p.state with
  | .unknown => p.absence = 0 ∧ p.lastSeen = 0
  | .present => p.absence = 0
  | .missing => 1 ≤ p.absence ∧ p.absence < missLimit
  | .lost => missLimit ≤ p.absence ∧ p.absence ≤ 15

/-- The 32 peer entries (R122, R125). -/
def State.PeersSound (s : State) : Prop := ∀ a : Fin 32, peerWf s.image.settings.missLimit s.peers.entries[a]

/-- A slot result (R83, R85, R93): an invalid one holds the values of R93, and a valid one those its raw code gives. -/
def slotResultWf (c : SlotConfig) (r : SlotResult) : Prop :=
  (r.valid = false → r = {}) ∧
  (r.valid = true → r.corrected = correctedOf c r.raw ∧ r.limit = limitOf c r.corrected ∧ r.saturated = saturates c r.raw)

/-- The slot results and the scan engine (R77, R82, R83): a conversion is of a slot that scans take, and outside SCANNING
there is none. -/
def State.SlotsSound (s : State) : Prop :=
  (∀ n : Fin 16, slotResultWf s.image.slots[n] s.meas.results[n]) ∧
  match s.meas.scan with
  | .scanning =>
    ∃ n : Fin 16, s.meas.position = some n ∧ n.val < s.image.settings.scanLength ∧ s.image.slots[n].skip = false
  | .idle => s.meas.position = none ∧ s.meas.held = none ∧ s.meas.timer = 0
  | .stopped => s.meas.position = none ∧ s.meas.held = none ∧ s.meas.timer = 0

/-- Confinement (R158, R159): but for the time from an objection bit's sample to its end, an ACTIVE station's fault window
holds fewer than 6 FAULT entries, and a SILENT station's at least 2. -/
def State.ConfinementSound (s : State) : Prop :=
  (s.control.station = .active → s.faultCount < silentFaults ∨ s.control.roundEnding = true) ∧
  (s.control.station = .silent → 2 ≤ s.faultCount ∨ s.control.roundEnding = true)

/-- The Result Store (R107, R108, R110): at most 32 records; the latest table has the round table's entries, and no VOID or
LAPSED outcome. -/
def State.StoreSound (s : State) : Prop :=
  s.store.ring.length ≤ 32 ∧
  (s.control.station.running = true →
    s.store.latest.map (fun e => (e.code, e.kind)) = (imageEntries s.image).map fun e => (e.code, e.kind)) ∧
  ∀ e ∈ s.store.latest, e.last ≠ some .void ∧ e.last ≠ some .lapsed

/-- The timers of the µs tick (R51, R179) and the port's frame (R180, R184). -/
def State.TimersSound (s : State) : Prop :=
  (s.control.station.running = true → s.sched.timer < s.image.settings.cycleLength * 1000) ∧
  s.control.commitTimer < 1000 ∧ s.clock.phase < 8 ∧ s.port.bits.length < 8 ∧
  (s.port.frameOpen = true → s.port.csn = .low)

end Sys2Proof.Machine
end

