-- ==== Sys2Proof/WellFormed.lean ====
section
/-! DEFINITION. A command is well formed when every operand lies in the range that the spec checks without looking at the
station (R188). An ill-formed port command is still a command: the station answers it BAD_ARGUMENT (R186). The pin levels of
SETTLE_END are well formed with a positive reference span, as R71 and R72 take it; without one the command runs too (log
entry 3). -/

namespace Sys2Proof

open Machine

/-- Whether a command's operands lie in their ranges. -/
def Instr.wellFormed : Instr → Bool
  | .writeSettings r => (checkSettings r).isSome
  | .writeRound e => (checkRound e).isSome
  | .clearRound n => (checkIndex n).isSome
  | .writeSlot c => (checkSlot c).isSome
  | .writeTripRule r => (checkTrip r).isSome
  | .readResults n => (checkResults n).isSome
  | .readLatest c => (codeByte c).isSome
  | .readPeers a n => (checkPeers a n).isSome
  | .readSlots a n => (checkSlots a n).isSome
  | .postRound c => (codeByte c).isSome
  | .inject n raw => (checkInject n raw).isSome
  | .clearTrip n => (checkRule n).isSome
  | .clearAlerts m => (causeMask m).isSome
  | .settleEnd a => decide (a.vrefn < a.vrefp)
  | .hardReset | .resetRelease | .frameOpen | .frameEnd | .nop | .readStatus | .softReset | .commit | .commitComplete
  | .readTrips | .startScan | .stopScan | .resumeScan | .setUserValue _ | .setUserFlags _ | .clearFlags _ | .enterIdle
  | .enterStuck | .beginStartMark | .shortStart | .startMarkDriveFault | .startMark | .driveFault | .codeRecognition _
  | .outcomeDelivery _ | .roundEnd _ | .cycleTimerExpiry | .conversionComplete | .samplePoint _ | .bitBoundary _
  | .lrxdFallingEdge | .sckEdge _ _ => true

end Sys2Proof
end

