-- ==== Sys2Proof/Certificates/Slice0/Obligations.lean ====
section
/-! DEFINITION. The statements for the provers: what the spec's rules say of the PJ612, each as a proposition about `exec`,
`step` or one named operation. -/

namespace Sys2Proof.Machine

/-- The commands that R187 takes in CONFIG alone. -/
def configCommand : Instr → Bool
  | .commit | .writeSettings _ | .writeRound _ | .clearRound _ | .writeSlot _ | .writeTripRule _ => true
  | _ => false

/-- The commands that R187 takes in JOINING, ACTIVE and SILENT alone. -/
def runCommand : Instr → Bool
  | .readResults _ | .readLatest _ | .readPeers _ _ | .readSlots _ _ | .readTrips | .postRound _ | .startScan | .stopScan
  | .resumeScan | .inject _ _ | .setUserValue _ | .setUserFlags _ | .clearFlags _ | .clearTrip _ | .clearAlerts _ => true
  | _ => false

/-- The commands that R187 takes in every station state. -/
def everyStateCommand : Instr → Bool
  | .nop | .readStatus | .softReset => true
  | _ => false

/-- The station runs and is not held in reset: the states in which run commands are taken (R187). -/
def State.runs (s : State) : Prop := s.held = false ∧ s.control.station.running = true

/-- The station stands in CONFIG and is not held in reset (R150). -/
def State.configuring (s : State) : Prop := s.held = false ∧ s.control.station = .config

/-- A slot is the first, at or after a number, that a scan takes (R80). -/
def firstTaken (im : Image) (start : Nat) (n : Fin 16) : Prop :=
  start ≤ n.val ∧ n.val < im.settings.scanLength ∧ im.slots[n].skip = false ∧
  ∀ m : Fin 16, start ≤ m.val → m < n → im.slots[m].skip = true

/-- Every slot, at or after a number, is passed over by scans (R80). -/
def noneTaken (im : Image) (start : Nat) : Prop :=
  ∀ m : Fin 16, start ≤ m.val → m.val < im.settings.scanLength → im.slots[m].skip = true

/-- A scan begins in a state of the Measurement Engine (R80, R81). -/
def scanBegun (im : Image) (old new : Measurement) : Prop :=
  (∀ n, firstTaken im 0 n → new = { old with scan := .scanning, position := some n, timer := 0, held := none }) ∧
  (noneTaken im 0 →
    new = { old with scan := .idle, position := none, timer := 0, held := none, counter := old.counter + 1 })

/-- A change of crossing side that the mode selects (R87). -/
def crossingEvent (mode : CrossingMode) (old new : Side) : Prop :=
  (old = .neg ∧ new = .pos ∧ (mode = .rise ∨ mode = .both)) ∨ (old = .pos ∧ new = .neg ∧ (mode = .fall ∨ mode = .both))

/-- A slot result after a sample of a raw code in cycle C (R83 to R87). -/
def sampleResult (cfg : SlotConfig) (old new : SlotResult) (raw : Raw) (cycle : Word) (injected : Bool) : Prop :=
  let v : Int := (raw.toNat : Int) - cfg.offset
  new.valid = true ∧ new.raw = raw ∧ new.cycle = cycle ∧ new.ready = true ∧ new.injected = injected ∧
  new.corrected = max (-4096) (min 4095 v) ∧ (new.saturated = true ↔ 4095 < v) ∧
  new.limit = (if new.corrected < cfg.low then .below else if cfg.high < new.corrected then .above else .within) ∧
  (new.limitEvent = true ↔ new.limit ≠ .within ∧ new.limit ≠ if old.valid then old.limit else .within) ∧
  new.side = (if (cfg.band : Int) < new.corrected then .pos else if new.corrected < -(cfg.band : Int) then .neg else old.side) ∧
  (new.crossing = true ↔ old.crossing = true ∨ crossingEvent cfg.crossing old.side new.side)

/-- A sample written into slot n, with its hand-offs, and nothing else in the named blocks (R83 to R87, R61). A limit event sets
LIMIT, and POST_LOST, counted, exactly where its post meets a full set; the other causes stand. -/
def sampleWritten (s t : State) (n : Fin 16) (raw : Raw) (injected : Bool) : Prop :=
  let new := t.meas.results[n]
  let dropped : Prop := new.limitEvent = true ∧
    ∃ c, s.image.slots[n].post = some c ∧ holdsAdhoc s.sched.adhoc c = false ∧ 8 ≤ s.sched.adhoc.length
  sampleResult s.image.slots[n] s.meas.results[n] new raw s.sched.cycle injected ∧
  (∀ m : Fin 16, m ≠ n → t.meas.results[m] = s.meas.results[m]) ∧
  t.source.userValue = s.source.userValue ∧
  t.source.flags.getLsbD 2 = (s.source.flags.getLsbD 2 || new.limitEvent) ∧
  (t.source.flags.getLsbD 3 = true ↔
    s.source.flags.getLsbD 3 = true ∨ crossingEvent s.image.slots[n].crossing s.meas.results[n].side new.side) ∧
  t.source.flags.getLsbD 7 = (s.source.flags.getLsbD 7 || new.saturated) ∧
  (∀ k, k ≠ 2 → k ≠ 3 → k ≠ 7 → t.source.flags.getLsbD k = s.source.flags.getLsbD k) ∧
  (new.limitEvent = false → t.sched = s.sched ∧ t.control = s.control) ∧
  (new.limitEvent = true → t.control.alerts.getLsbD 11 = true ∧
    match s.image.slots[n].post with
    | none => t.sched = s.sched
    | some c =>
      (holdsAdhoc s.sched.adhoc c = true → t.sched = s.sched) ∧
      (holdsAdhoc s.sched.adhoc c = false → s.sched.adhoc.length < 8 →
        t.sched = { s.sched with adhoc := t.sched.adhoc } ∧
        ∀ e, e ∈ t.sched.adhoc ↔ e ∈ s.sched.adhoc ∨ e = { code := c, origin := .slot, retries := 0, age := 0 }) ∧
      (holdsAdhoc s.sched.adhoc c = false → 8 ≤ s.sched.adhoc.length →
        t.sched = s.sched)) ∧
  (t.control.alerts.getLsbD 9 = true ↔ s.control.alerts.getLsbD 9 = true ∨ dropped) ∧
  (dropped → t.control.counters.postsLost = satInc s.control.counters.postsLost) ∧
  (¬ dropped → t.control.counters.postsLost = s.control.counters.postsLost) ∧
  (∀ k, k ≠ 9 → k ≠ 11 → t.control.alerts.getLsbD k = s.control.alerts.getLsbD k) ∧
  t = { s with
    meas := t.meas, source := t.source, sched := t.sched, control.alerts := t.control.alerts
    control.counters.postsLost := t.control.counters.postsLost, port := t.port }

/-- The lowest index of those that satisfy a predicate. -/
def lowestAt {k : Nat} (p : Fin k → Prop) (n : Fin k) : Prop := p n ∧ ∀ m, m < n → ¬ p m

/-- The index holds an entry of a kind (R176). -/
def kindAt (im : Image) (k : Kind) (n : Fin 24) : Prop := ∃ e, im.rounds[n] = some e ∧ e.kind = k

/-- The second of the indices that satisfy a predicate, in ascending order. -/
def secondAt {k : Nat} (p : Fin k → Prop) (n : Fin k) : Prop := p n ∧ ∃ m, m < n ∧ p m ∧ ∀ j, j < n → p j → j = m

/-- A post code that names no ON_REQUEST entry of the table (R176, order 7). -/
def badPost (im : Image) (post : Option Code) : Prop :=
  ∃ c, post = some c ∧ ∀ e ∈ imageEntries im, e.code = c → e.schedule ≠ .onRequest

/-- A condition fits a kind (R132). -/
def fits : Condition → Kind → Prop
  | .above, k | .below, k => k = .min ∨ k = .max
  | .maskSet, k | .maskClear, k => k = .any ∨ k = .all
  | .rosterShort, k => k = .roster
  | .disagree, k => k = .digest

/-- The schedule time in µs (R68). -/
def scheduleTime (im : Image) : Nat :=
  (((imageEntries im).filter fun e => e.schedule != .onRequest).map fun e =>
    match e.kind with
    | .anchor | .any | .all => 45
    | .max | .min => 54
    | .roster => 60
    | .digest => 62).sum * (16 / 2 ^ im.settings.rate.val)

/-- The rows of R176's table: a check fails, and the item it reports. -/
def checkFails (im : Image) : CommitReason → Item → Prop
  | .noAnchor, .none => ∀ n, ¬ kindAt im .anchor n
  | .twoAnchors, .round n => secondAt (kindAt im .anchor) n
  | .anchorDivisor, .round n => lowestAt (fun m => ∃ e, im.rounds[m] = some e ∧ e.kind = .anchor ∧ e.schedule ≠ .div1) n
  | .twoDigests, .round n => secondAt (kindAt im .digest) n
  | .duplicateCode, .round n => lowestAt (fun m => ∃ e, im.rounds[m] = some e ∧
      ∃ j, j < m ∧ ∃ f, im.rounds[j] = some f ∧ f.code = e.code) n
  | .badSource, .round n => lowestAt (fun m => ∃ e, im.rounds[m] = some e ∧
      match e.kind with
      | .min | .max => e.source = .none ∨ e.source = .flags
      | .any | .all => e.source ≠ .flags
      | .anchor | .roster | .digest => e.source ≠ .none) n
  | .badPostCode, .slot n => lowestAt (fun m : Fin 16 => badPost im im.slots[m].post) n
  | .badPostCode, .trip n => (∀ m : Fin 16, ¬ badPost im im.slots[m].post) ∧
      lowestAt (fun m : Fin 8 => im.rules[m].enabled = true ∧ badPost im im.rules[m].post) n
  | .badTrip, .trip n => lowestAt (fun m : Fin 8 => im.rules[m].enabled = true ∧
      ∀ e ∈ imageEntries im, e.code = im.rules[m].watched → ¬ fits im.rules[m].condition e.kind) n
  | .badLimits, .slot n => lowestAt (fun m : Fin 16 => im.slots[m].high < im.slots[m].low) n
  | .scheduleTooLong, .none => im.settings.cycleLength * 1000 < scheduleTime im
  | _, _ => False

/-- A rule enters TRIPPED between two states (R140). -/
def latchedBetween (s t : State) (n : Fin 8) : Bool := s.trip[n].status != .tripped && t.trip[n].status == .tripped

/-- The trip posts of the rules that latch between two states, made in ascending index on a state (R140). -/
def tripPosted (s t u : State) : State :=
  ((List.finRange 8).filter (latchedBetween s t)).foldl
    (fun x n => match s.image.rules[n].post with
      | some c => x.post .trip c
      | none => x) u

/-- A code is startable: a CURRENT scheduled entry or an ad hoc entry has it (R66). -/
def mayStart (q : Scheduler) (c : Code) : Prop :=
  (∃ e ∈ q.scheduled, e.part = .current ∧ e.code = c) ∨ ∃ e ∈ q.adhoc, e.code = c

/-- The state in which R11 lets the station begin a start mark at a boundary with the line at a level, a code apart. Its own
start mark is not running and did not fail in the last bit (R16, log entry 12). -/
def State.mayBegin (s : State) (line : Level) : Prop :=
  s.control.station = .active ∧ s.line.engine = .idle ∧ s.line.firstLow = false ∧ s.line.ownMark = .none ∧ line = .high

/-- The raw codes that R71 and R72 give without a positive reference span; all others are free (log entry 3). -/
def statedWithoutSpan (cfg : SlotConfig) (a : AnalogLevels) (raw : Raw) : Prop :=
  match cfg.minus with
  | none =>
    (a.inputs[cfg.plus] < a.vrefp → raw.toNat = 0) ∧ (a.vrefn < a.inputs[cfg.plus] → raw.toNat = 4095)
  | some m =>
    (a.inputs[cfg.plus] = a.inputs[m] → raw.toNat = 2048) ∧
    (a.vrefp = a.vrefn → a.inputs[m] < a.inputs[cfg.plus] → raw.toNat = 4095) ∧
    (a.vrefp = a.vrefn → a.inputs[cfg.plus] < a.inputs[m] → raw.toNat = 0)

end Sys2Proof.Machine

section Statements

open Sys2Proof Sys2Proof.Machine

/-- Step runs the front command: with a command at the front of the queue, a step is that command's effect on the state
with the rest of the queue. -/
def Obligations.StepRunsFrontCommand : Prop :=
  ∀ (c : Instr) (rest : List Instr) (s : State),
    step { s with pending := c :: rest } = exec c { s with pending := rest }

/-- With no command waiting, one crystal period passes (the model's choice, log entry 4): the phase and each running timer
advance by one, a timer that reaches an event leaves it to the queue, and nothing else changes but the level of LRXD, which is
free. An expiry comes before the other events of its period. While RESETN is low no timer runs. -/
def Obligations.IdleStepPassesOnePeriod : Prop :=
  ∀ s : State, s.pending = [] → ∃ t, step s = .next t ∧
    t = { s with
      clock.phase := t.clock.phase, clock.periods := s.clock.periods + 1
      line.lrxd := t.line.lrxd, line.bitTimer := t.line.bitTimer
      meas.timer := t.meas.timer, sched.timer := t.sched.timer, control.commitTimer := t.control.commitTimer
      pending := t.pending } ∧
    (s.held = true → t.pending = [] ∧ t.clock.phase = s.clock.phase ∧ t.line.bitTimer = s.line.bitTimer ∧
      t.meas.timer = s.meas.timer ∧ t.sched.timer = s.sched.timer ∧ t.control.commitTimer = s.control.commitTimer) ∧
    (Instr.cycleTimerExpiry ∈ t.pending ↔
      s.held = false ∧ s.clock.phase = 7 ∧ s.control.station.running = true ∧
      s.image.settings.cycleLength * 1000 ≤ s.sched.timer + 1) ∧
    (∀ c ∈ t.pending, c = .lrxdFallingEdge ∨ (∃ lv, c = .samplePoint lv) ∨ (∃ lv, c = .bitBoundary lv) ∨
      (∃ a, c = .settleEnd a) ∨ c = .conversionComplete ∨ c = .cycleTimerExpiry ∨ c = .commitComplete) ∧
    (s.held = false →
      let edge : Prop := s.line.engine ≠ .off ∧ s.line.lrxd = .high ∧ t.line.lrxd = .low
      let sample : Prop := s.line.engine ≠ .off ∧ ¬ edge ∧ s.line.bitTimer + 1 = samplePeriods s.image.settings.rate
      let boundary : Prop := s.line.engine ≠ .off ∧ ¬ edge ∧ ¬ sample ∧
        bitPeriods s.image.settings.rate ≤ s.line.bitTimer + 1
      let settled (n : Fin 16) : Prop := s.meas.scan = .scanning ∧ s.meas.position = some n ∧ s.meas.held = none ∧
        2 * 4 ^ s.image.slots[n].settle.val ≤ s.meas.timer + 1
      let converted (n : Fin 16) : Prop := s.meas.scan = .scanning ∧ s.meas.position = some n ∧ s.meas.held ≠ none ∧
        2 * 4 ^ s.image.slots[n].settle.val + 14 ≤ s.meas.timer + 1
      t.clock.phase = (if s.clock.phase = 7 then 0 else s.clock.phase + 1) ∧
      (Instr.cycleTimerExpiry ∈ t.pending → t.pending.head? = some .cycleTimerExpiry) ∧
      (Instr.lrxdFallingEdge ∈ t.pending ↔ edge) ∧
      (∀ lv, Instr.samplePoint lv ∈ t.pending ↔ sample ∧ lv = t.line.lrxd) ∧
      (∀ lv, Instr.bitBoundary lv ∈ t.pending ↔ boundary ∧ lv = t.line.lrxd) ∧
      (s.line.engine = .off ∨ edge ∨ sample ∨ boundary → t.line.bitTimer = s.line.bitTimer) ∧
      (s.line.engine ≠ .off → ¬ edge → ¬ sample → ¬ boundary → t.line.bitTimer = s.line.bitTimer + 1) ∧
      ((∃ a, Instr.settleEnd a ∈ t.pending) ↔ s.clock.phase = 7 ∧ ∃ n, settled n) ∧
      (Instr.conversionComplete ∈ t.pending ↔ s.clock.phase = 7 ∧ ∃ n, converted n) ∧
      (s.clock.phase = 7 → s.meas.scan = .scanning → s.meas.position ≠ none → (∀ n, ¬ settled n) → (∀ n, ¬ converted n) →
        t.meas.timer = s.meas.timer + 1) ∧
      (s.clock.phase ≠ 7 ∨ s.meas.scan ≠ .scanning ∨ s.meas.position = none ∨ (∃ n, settled n) ∨ (∃ n, converted n) →
        t.meas.timer = s.meas.timer) ∧
      t.sched.timer = (if s.clock.phase = 7 ∧ s.control.station.running = true ∧
        s.sched.timer + 1 < s.image.settings.cycleLength * 1000 then s.sched.timer + 1 else s.sched.timer) ∧
      (Instr.commitComplete ∈ t.pending → s.clock.phase = 7 ∧ s.control.station = .committing) ∧
      (s.clock.phase = 7 → s.control.station = .committing → 999 ≤ s.control.commitTimer →
        Instr.commitComplete ∈ t.pending) ∧
      (s.clock.phase = 7 → s.control.station = .committing → Instr.commitComplete ∉ t.pending →
        t.control.commitTimer = s.control.commitTimer + 1) ∧
      (s.clock.phase ≠ 7 ∨ s.control.station ≠ .committing ∨ Instr.commitComplete ∈ t.pending →
        t.control.commitTimer = s.control.commitTimer))

/-- No command touches the queue. -/
def Obligations.ExecKeepsTheQueue : Prop :=
  ∀ (c : Instr) (s t : State), exec c s = .next t → t.pending = s.pending

/-- HARD_RESET, RESET_RELEASE with RESETN low, and SOFT_RESET put every block at its reset values; a hard reset restores the
default image and cuts the frame in progress, a soft one keeps the image and answers RESET_DONE with cause SOFT. The model's
choices here: the input wires and the crystal's phase stay as they are (log entry 8), and RESET_RELEASE with RESETN high changes
nothing (log entry 5). -/
def Obligations.ResetsSetEveryBlock : Prop :=
  ∀ s : State,
    exec .hardReset s = .next { State.reset with
      resetn := .low, clock := s.clock, line := { lrxd := s.line.lrxd }
      port := { csn := s.port.csn, sck := s.port.sck, mosi := s.port.mosi }, pending := s.pending } ∧
    (s.held = true → exec .resetRelease s = .next { State.reset with
      clock := s.clock, line := { lrxd := s.line.lrxd }
      port := { csn := s.port.csn, sck := s.port.sck, mosi := s.port.mosi }, pending := s.pending }) ∧
    (s.held = false → exec .resetRelease s = .next s) ∧
    (s.held = false → exec .softReset s = .next { State.reset with
      resetn := s.resetn, clock := s.clock, line := { lrxd := s.line.lrxd }, control.resetCause := .soft, image := s.image
      kept := s.image.settings
      port := { s.port with buffer := [], bits := [], slot := { status := .resetDone, payload := [1] } }
      pending := s.pending })

/-- NOP and READ_STATUS are answered in every station state and change nothing but the response slot; the status record has
the fields of section 11.8 at their offsets, with the numbers of section 11.2. Where no settings are committed it shows the enable mask, the ring policy and the
ring threshold as the last reset left them (the model's reading, log entry 10), and the station address as 0. -/
def Obligations.NopAndStatusAnswer : Prop :=
  ∀ s : State, s.held = false →
    exec .nop s = .next { s with port.slot := { status := .ok, payload := [] } } ∧
    ∃ p : List Byte, exec .readStatus s = .next { s with port.slot := { status := .ok, payload := p } } ∧
      p.length = 42 + 2 * (s.sched.scheduled.length + s.sched.adhoc.length) ∧
      p.take 5 = [numByte (stationNumber s.control.station), numByte (causeNumber s.control.resetCause)] ++
        wordBytes s.control.digest ++ [numByte s.faultCount] ∧
      (p.drop 5).take 4 = setBytes s.control.window ∧
      (p.drop 9).take 2 = wordBytes (s.alertCauses.setWidth 16) ∧
      (s.control.station.running = true → (p.drop 11).take 2 = wordBytes (s.image.settings.alertMask.setWidth 16)) ∧
      (s.control.station.running = false → (p.drop 11).take 2 = wordBytes (s.kept.alertMask.setWidth 16)) ∧
      (p.drop 13).take 8 = [boolByte (s.alertn == .low), s.control.counters.voids, s.control.counters.unknownCodes,
        s.control.counters.shortStarts, s.control.counters.driveFaults, s.control.counters.overruns,
        s.control.counters.postsLost, s.control.counters.dupAddresses] ∧
      (p.drop 21).take 5 = [numByte (engineNumber s.line.engine)] ++ wordBytes s.sched.cycle ++
        [boolByte s.sched.anchorDone, s.sched.expiries] ∧
      (p.drop 26).take 2 = wordBytes s.flagWord ∧
      (s.source.userValue = none → (p.drop 28).take 5 = [0, 0, 0, 0, 0]) ∧
      (∀ u, s.source.userValue = some u → (p.drop 28).take 5 = intBytes u.value ++ wordBytes u.cycle ++
        [if u.cycle = s.sched.cycle ∨ u.cycle = s.sched.cycle - 1 then 2 else 1]) ∧
      (p.drop 33).take 4 = [numByte s.store.ring.length] ++ wordBytes s.store.seq ++ [s.store.lost] ∧
      (s.control.station.running = true → (p.drop 37).take 3 = [numByte (policyNumber s.image.settings.ringPolicy),
        numByte s.image.settings.ringThreshold, s.image.settings.address.setWidth 8]) ∧
      (s.control.station.running = false →
        (p.drop 37).take 3 = [numByte (policyNumber s.kept.ringPolicy), numByte s.kept.ringThreshold, 0]) ∧
      p.drop 40 = [numByte s.sched.scheduled.length] ++
        s.sched.scheduled.flatMap (fun e => [e.code.setWidth 8, numByte (16 * partNumber e.part + e.retries)]) ++
        [numByte s.sched.adhoc.length] ++ s.sched.adhoc.flatMap (fun e =>
          [e.code.setWidth 8, numByte (64 * originNumber e.origin + 16 * e.age + e.retries)]) ∧
      [StationState.config, .committing, .joining, .active, .silent].map stationNumber = [0, 1, 2, 3, 4] ∧
      [ResetCause.hard, .soft].map causeNumber = [0, 1] ∧
      [LineEngine.off, .recover, .idle, .round, .stuck].map engineNumber = [0, 1, 2, 3, 4] ∧
      [RingPolicy.keepOldest, .keepNewest].map policyNumber = [0, 1] ∧
      [Part.current, .old, .both].map partNumber = [0, 1, 2] ∧ [Origin.command, .slot, .trip].map originNumber = [0, 1, 2]

/-- The station state gates the port's commands: a gated command changes only the response slot, and a station held in reset
takes none. -/
def Obligations.StationGatesCommands : Prop :=
  ∀ (c : Instr) (s : State),
    (s.held = true → configCommand c = true ∨ runCommand c = true ∨ everyStateCommand c = true → exec c s = .next s) ∧
    (s.held = false → configCommand c = true ∨ runCommand c = true → s.control.station = .committing →
      exec c s = .next { s with port.slot := { status := .busy, payload := [] } }) ∧
    (s.held = false → configCommand c = true → s.control.station.running = true →
      exec c s = .next { s with port.slot := { status := .wrongState, payload := [] } }) ∧
    (s.held = false → runCommand c = true → s.control.station = .config →
      exec c s = .next { s with port.slot := { status := .wrongState, payload := [] } })

/-- A command that the station state lets through and whose argument is out of range answers BAD_ARGUMENT and changes
nothing else; the ranges of the read, clear, post and inject commands, in numbers. -/
def Obligations.IllFormedIsBadArgument : Prop :=
  (∀ (c : Instr) (s : State), c.wellFormed = false →
    (configCommand c = true ∧ s.configuring) ∨ (runCommand c = true ∧ s.runs) →
    exec c s = .next { s with port.slot := { status := .badArgument, payload := [] } }) ∧
  (∀ n : Byte, ((Instr.clearRound n).wellFormed = true ↔ n.toNat ≤ 23) ∧
    ((Instr.readResults n).wellFormed = true ↔ 1 ≤ n.toNat ∧ n.toNat ≤ 8) ∧
    ((Instr.readLatest n).wellFormed = true ↔ n.toNat ≤ 63) ∧ ((Instr.postRound n).wellFormed = true ↔ n.toNat ≤ 63) ∧
    ((Instr.clearTrip n).wellFormed = true ↔ n.toNat ≤ 7)) ∧
  (∀ first count : Byte,
    ((Instr.readPeers first count).wellFormed = true ↔
      first.toNat ≤ 31 ∧ 1 ≤ count.toNat ∧ count.toNat ≤ 8 ∧ first.toNat + count.toNat ≤ 32) ∧
    ((Instr.readSlots first count).wellFormed = true ↔
      first.toNat ≤ 15 ∧ 1 ≤ count.toNat ∧ count.toNat ≤ 8 ∧ first.toNat + count.toNat ≤ 16)) ∧
  (∀ (n : Byte) (raw : Word), (Instr.inject n raw).wellFormed = true ↔ n.toNat ≤ 15 ∧ raw.toNat ≤ 4095) ∧
  ∀ m : Word, (Instr.clearAlerts m).wellFormed = true ↔ ∀ k : Nat, 12 ≤ k → m.getLsbD k = false

/-- WRITE_SETTINGS replaces the settings record as a whole with a record in range, and takes no field of any other. -/
def Obligations.WriteSettingsReplacesTheRecord : Prop :=
  ∀ s : State, s.configuring →
    (∀ r, settingsInRange r → exec (.writeSettings (settingsFields r)) s =
      .next { s with image.settings := r, port.slot := { status := .ok, payload := [] } }) ∧
    ∀ a, (∀ r, settingsInRange r → settingsFields r ≠ a) → exec (.writeSettings a) s =
      .next { s with port.slot := { status := .badArgument, payload := [] } }

/-- WRITE_ROUND, WRITE_SLOT and WRITE_TRIP_RULE each replace one entry of the image with any entry in range and change nothing
else; fields that spell no entry in range answer BAD_ARGUMENT. The fields of these commands and of WRITE_SETTINGS spell what
sections 11.2 and 11.5 give. -/
def Obligations.EntryWritesReplaceOneEntry : Prop :=
  (∀ r : Settings, settingsFields r = {
    address := r.address.setWidth 8, rate := numByte r.rate.val, cycleLength := numByte r.cycleLength
    missLimit := numByte r.missLimit, expected := r.expected
    ringPolicy := match r.ringPolicy with
      | .keepOldest => 0
      | .keepNewest => 1
    ringThreshold := numByte r.ringThreshold, alertMask := r.alertMask.setWidth 16
    scanMode := match r.scanMode with
      | .anchored => 0
      | .command => 1
      | .continuous => 2
    scanLength := numByte r.scanLength }) ∧
  (∀ n e, roundFields n e = {
    index := numByte n.val, code := e.code.setWidth 8
    kind := match e.kind with
      | .anchor => 0
      | .roster => 1
      | .max => 2
      | .min => 3
      | .any => 4
      | .all => 5
      | .digest => 6
    schedule := match e.schedule with
      | .onRequest => 0
      | .div1 => 1
      | .div2 => 2
      | .div4 => 4
      | .div8 => 8
      | .div16 => 16
    source := match e.source with
      | .none => 0x00
      | .slot m => numByte (0x10 + m.val)
      | .groupMax g => numByte (0x20 + g.val)
      | .groupMin g => numByte (0x30 + g.val)
      | .userValue => 0x40
      | .flags => 0x50
    ring := if e.ring then 1 else 0 }) ∧
  (∀ n c, slotFields n c = {
    slot := numByte n.val, plus := numByte c.plus.val
    minus := match c.minus with
      | none => 0x10
      | some m => numByte m.val
    settle := numByte c.settle.val, offset := BitVec.ofInt 16 c.offset, low := BitVec.ofInt 16 c.low
    high := BitVec.ofInt 16 c.high
    crossingMode := match c.crossing with
      | .none => 0
      | .rise => 1
      | .fall => 2
      | .both => 3
    band := numByte c.band
    group := match c.group with
      | none => 0xFF
      | some g => numByte g.val
    post := match c.post with
      | none => 0xFF
      | some d => d.setWidth 8
    skip := if c.skip then 1 else 0 }) ∧
  (∀ n r, tripFields n r = {
    index := numByte n.val, enabled := if r.enabled then 1 else 0, watched := r.watched.setWidth 8
    condition := match r.condition with
      | .above => 0
      | .below => 1
      | .maskSet => 2
      | .maskClear => 3
      | .rosterShort => 4
      | .disagree => 5
    threshold := BitVec.ofInt 16 r.threshold, mask := r.mask, persistence := numByte r.persistence, blind := numByte r.blind
    output := match r.output with
      | .trip0 => 0
      | .trip1 => 1
    post := match r.post with
      | none => 0xFF
      | some d => d.setWidth 8 }) ∧
  ∀ s : State, s.configuring →
    (∀ n e, exec (.writeRound (roundFields n e)) s =
      .next { s with image.rounds := s.image.rounds.set n (some e), port.slot := { status := .ok, payload := [] } }) ∧
    (∀ a, (∀ n e, roundFields n e ≠ a) → exec (.writeRound a) s =
      .next { s with port.slot := { status := .badArgument, payload := [] } }) ∧
    (∀ n c, slotInRange c → exec (.writeSlot (slotFields n c)) s =
      .next { s with image.slots := s.image.slots.set n c, port.slot := { status := .ok, payload := [] } }) ∧
    (∀ a, (∀ n c, slotInRange c → slotFields n c ≠ a) → exec (.writeSlot a) s =
      .next { s with port.slot := { status := .badArgument, payload := [] } }) ∧
    (∀ n r, ruleInRange r → exec (.writeTripRule (tripFields n r)) s =
      .next { s with image.rules := s.image.rules.set n r, port.slot := { status := .ok, payload := [] } }) ∧
    (∀ a, (∀ n r, ruleInRange r → tripFields n r ≠ a) → exec (.writeTripRule a) s =
      .next { s with port.slot := { status := .badArgument, payload := [] } })

/-- CLEAR_ROUND removes the entry at an index of 0 to 23; an index with no entry stays as it is, and another index answers
BAD_ARGUMENT. -/
def Obligations.ClearRoundRemovesTheEntry : Prop :=
  ∀ s : State, s.configuring → ∀ n : Byte,
    (∀ h : n.toNat < 24, exec (.clearRound n) s =
      .next { s with image.rounds := s.image.rounds.set n.toNat none h, port.slot := { status := .ok, payload := [] } }) ∧
    (∀ h : n.toNat < 24, s.image.rounds[n.toNat] = none → s.image.rounds.set n.toNat none h = s.image.rounds) ∧
    (24 ≤ n.toNat → exec (.clearRound n) s = .next { s with port.slot := { status := .badArgument, payload := [] } })

/-- COMMIT in CONFIG enters COMMITTING where validation finds no failure, and otherwise answers the first failure with its
reason, item class and item index and changes nothing else. -/
def Obligations.CommitEntersCommitting : Prop :=
  ∀ s : State, s.configuring →
    (validate s.image = none → exec .commit s = .next { s with
      control.station := .committing, control.commitTimer := 0, clock.draws := s.clock.draws + 1
      port.slot := { status := .ok, payload := [] } }) ∧
    ∀ f, validate s.image = some f → ∃ p : List Byte,
      exec .commit s = .next { s with port.slot := { status := .imageInvalid, payload := p } } ∧
      p.take 1 = [numByte (reasonNumber f.reason)] ∧
      (match f.item with
        | .none => (p.drop 1).take 1 = [0]
        | .round n => (p.drop 1).take 2 = [1, numByte n.val]
        | .slot n => (p.drop 1).take 2 = [2, numByte n.val]
        | .trip n => (p.drop 1).take 2 = [3, numByte n.val]) ∧
      p.drop 3 = if f.reason = .scheduleTooLong then wordBytes (BitVec.ofNat 16 (scheduleMicros s.image)) else []

/-- Validation passes exactly the images that meet every row of R176's table, and otherwise it finds the first check in the
table's order that fails, with the item that the table reports. -/
def Obligations.ValidationAcceptsExactly : Prop :=
  (∀ (im : Image) (f : CommitFailure), validate im = some f ↔
    checkFails im f.reason f.item ∧ ∀ r i, reasonNumber r < reasonNumber f.reason → ¬ checkFails im r i) ∧
  [CommitReason.noAnchor, .twoAnchors, .anchorDivisor, .twoDigests, .duplicateCode, .badSource, .badPostCode, .badTrip,
    .badLimits, .scheduleTooLong].map reasonNumber = [1, 2, 3, 4, 5, 6, 7, 8, 9, 10] ∧
  ∀ im : Image, validate im = none ↔
    ((imageEntries im).filter fun e => e.kind == .anchor).length = 1 ∧
    (∀ e ∈ imageEntries im, e.kind = .anchor → e.schedule = .div1) ∧
    ((imageEntries im).filter fun e => e.kind == .digest).length ≤ 1 ∧
    ((imageEntries im).map RoundEntry.code).Nodup ∧
    (∀ e ∈ imageEntries im,
      (e.kind = .min ∨ e.kind = .max → e.source ≠ .none ∧ e.source ≠ .flags) ∧
      (e.kind = .any ∨ e.kind = .all → e.source = .flags) ∧
      (e.kind = .anchor ∨ e.kind = .roster ∨ e.kind = .digest → e.source = .none)) ∧
    (∀ n : Fin 16, ∀ c, im.slots[n].post = some c → ∃ e ∈ imageEntries im, e.code = c ∧ e.schedule = .onRequest) ∧
    (∀ n : Fin 8, im.rules[n].enabled = true →
      (∀ c, im.rules[n].post = some c → ∃ e ∈ imageEntries im, e.code = c ∧ e.schedule = .onRequest) ∧
      ∃ e ∈ imageEntries im, e.code = im.rules[n].watched ∧
        match im.rules[n].condition with
        | .above | .below => e.kind = .min ∨ e.kind = .max
        | .maskSet | .maskClear => e.kind = .any ∨ e.kind = .all
        | .rosterShort => e.kind = .roster
        | .disagree => e.kind = .digest) ∧
    (∀ n : Fin 16, im.slots[n].low ≤ im.slots[n].high) ∧
    (((imageEntries im).filter fun e => e.schedule != .onRequest).map fun e =>
      match e.kind with
      | .anchor | .any | .all => 45
      | .max | .min => 54
      | .roster => 60
      | .digest => 62).sum * bitMicros im.settings.rate ≤ im.settings.cycleLength * 1000

/-- COMMIT_COMPLETE in COMMITTING: the station enters JOINING and every block takes its starting values under the committed
image. In another state there is no such event and nothing changes (the model's choice, log entry 5). -/
def Obligations.CommitCompleteStartsTheBlocks : Prop :=
  ∀ s : State, s.held = false →
    (s.control.station ≠ .committing → exec .commitComplete s = .next s) ∧
    (s.control.station = .committing → ∃ t, exec .commitComplete s = .next t ∧
      t = { s with
        line := { lrxd := s.line.lrxd, engine := .recover }, round := {}, sched := { scheduled := t.sched.scheduled }
        meas := t.meas, source := {}
        store := { latest := (imageEntries s.image).map fun e => { code := e.code, kind := e.kind } }
        peers := { entries := t.peers.entries }, trip := Vector.replicate 8 {}
        control := { station := .joining, resetCause := s.control.resetCause, digest := digestOf s.image } } ∧
      (∀ e, e ∈ t.sched.scheduled ↔ e.retries = 0 ∧ e.part = .current ∧
        ∃ r ∈ imageEntries s.image, r.code = e.code ∧ r.schedule ≠ .onRequest) ∧
      (∀ a : Fin 32, t.peers.entries[a] = { expected := s.image.settings.expected.getLsbD a.val }) ∧
      (s.image.settings.scanMode ≠ .continuous → t.meas = { scan := .idle }) ∧
      (s.image.settings.scanMode = .continuous → scanBegun s.image {} t.meas))

/-- The digest is the 16-bit check, from all ones and most significant bit first, over the rate code, the cycle length and
then, for each entry in ascending code, its code, its kind and its schedule. So it takes in these and nothing else: images that
agree in them have one digest, whatever the indices of their entries. -/
def Obligations.DigestTakesTheSharedPart : Prop :=
  (∀ (im : Image) (entries : List RoundEntry), entries.Perm (imageEntries im) →
    (entries.map RoundEntry.code).Pairwise (· < ·) →
    let bytes : List Byte :=
      [BitVec.ofNat 8 im.settings.rate.val, BitVec.ofNat 8 im.settings.cycleLength] ++ entries.flatMap fun e =>
        [e.code.setWidth 8,
         match e.kind with
         | .anchor => 0
         | .roster => 1
         | .max => 2
         | .min => 3
         | .any => 4
         | .all => 5
         | .digest => 6,
         match e.schedule with
         | .onRequest => 0
         | .div1 => 1
         | .div2 => 2
         | .div4 => 4
         | .div8 => 8
         | .div16 => 16]
    let bits : List Bool := bytes.flatMap fun b => [7, 6, 5, 4, 3, 2, 1, 0].map fun k => b.getLsbD k
    digestOf im = bits.foldl (fun (acc : Word) b => (acc <<< 1) ^^^ (if acc.getLsbD 15 = b then 0 else 0x1021)) 0xFFFF) ∧
  ∀ a b : Image, a.settings.rate = b.settings.rate → a.settings.cycleLength = b.settings.cycleLength →
    ((imageEntries a).map RoundEntry.code).Nodup →
    ((imageEntries a).map fun e => (e.code, e.kind, e.schedule)).Perm
      ((imageEntries b).map fun e => (e.code, e.kind, e.schedule)) →
    digestOf a = digestOf b

/-- READ_RESULTS(n) removes up to n of the oldest records and clears the lost counter; the response holds the number
returned, the number left and the lost count, then the records, oldest first, each with the layout of R191 and the numbers of
section 11.2. -/
def Obligations.ReadResultsRemovesTheOldest : Prop :=
  [Kind.anchor, .roster, .max, .min, .any, .all, .digest].map kindNumber = [0, 1, 2, 3, 4, 5, 6] ∧
  [RoundOutcome.valid, .empty, .agree, .disagree, .void, .lapsed].map outcomeNumber = [1, 2, 3, 4, 5, 6] ∧
  ∀ s : State, s.runs → ∀ n : Byte, 1 ≤ n.toNat → n.toNat ≤ 8 →
    exec (.readResults n) s = .next { s with
      store.ring := s.store.ring.drop n.toNat, store.lost := 0
      port.slot := { status := .ok
                     payload := [numByte (min n.toNat s.store.ring.length), numByte (s.store.ring.length - n.toNat), s.store.lost] ++
                       (s.store.ring.take n.toNat).flatMap ringRecordBytes } } ∧
    ∀ r : RingRecord, (ringRecordBytes r).take 6 =
        wordBytes r.seq ++ [r.record.code.setWidth 8,
          numByte (16 * kindNumber r.record.kind + outcomeNumber r.record.outcome)] ++ wordBytes r.record.cycle ∧
      (ringRecordBytes r).drop 6 = match r.record.content with
        | .none => []
        | .extreme v h self dup => intBytes v ++
            [numByte ((if dup then 64 else 0) + (if self then 32 else 0) + h.toNat)]
        | .count w => wordBytes w
        | .word w => wordBytes w
        | .set a => setBytes a
        | .digest d differs => wordBytes d ++ [if differs then 1 else 0]
        | .reason q => [match q with | .cycleEnd => 0 | .retries => 1 | .age => 2]

/-- A record offered to the ring: appended while it holds fewer than 32, and at 32 dropped under KEEP_OLDEST or the oldest
discarded under KEEP_NEWEST, the loss counted; it takes the next sequence number in every case. -/
def Obligations.RingTakesOffers : Prop :=
  ∀ (s : State) (r : Record),
    (s.store.ring.length < 32 →
      s.offerRing r = { s with
        store.seq := s.store.seq + 1
        store.ring := s.store.ring ++ [{ seq := s.store.seq + 1, record := r }] } ∧
      (s.control.station.running = true → s.store.ring.length + 1 = s.image.settings.ringThreshold →
        (s.offerRing r).ringLevel = true)) ∧
    (s.store.ring.length = 32 → s.image.settings.ringPolicy = .keepOldest →
      s.offerRing r = { s with
        store.seq := s.store.seq + 1, store.lost := satInc s.store.lost
        control.alerts := s.control.alerts ||| 0x100 }) ∧
    (s.store.ring.length = 32 → s.image.settings.ringPolicy = .keepNewest →
      s.offerRing r = { s with
        store.seq := s.store.seq + 1, store.lost := satInc s.store.lost
        store.ring := s.store.ring.tail ++ [{ seq := s.store.seq + 1, record := r }]
        control.alerts := s.control.alerts ||| 0x100 })

/-- READ_LATEST answers the latest entry of a code of the table and changes nothing; an outcome record that completes a round
replaces the latest entry of its code as a whole and counts it, and a VOID or LAPSED record leaves the table. -/
def Obligations.LatestTableFollowsOutcomes : Prop :=
  ∀ s : State,
    (s.runs → ∀ e : LatestEntry, s.latestOf e.code = some e → exec (.readLatest (e.code.setWidth 8)) s =
      .next { s with port.slot := { status := .ok
                                    payload := [e.code.setWidth 8, numByte (16 * kindNumber e.kind + (e.last.map outcomeNumber).getD 0)] ++
                                      wordBytes e.cycle ++ wordBytes e.updates ++ [0] ++ contentBytes e.content } }) ∧
    (s.runs → ∀ c : Byte, (∀ e ∈ s.store.latest, e.code.setWidth 8 ≠ c) → exec (.readLatest c) s =
      .next { s with port.slot := { status := .badArgument, payload := [] } }) ∧
    ∀ r : Record, (s.storeOutcome r).store.latest = s.store.latest.map fun e =>
      if e.code = r.code ∧ r.outcome ≠ .void ∧ r.outcome ≠ .lapsed then
        { e with last := some r.outcome, content := r.content, cycle := r.cycle, updates := e.updates + 1 }
      else e

/-- READ_PEERS, READ_SLOTS and READ_TRIPS answer the layouts of section 11.7, a rule with no trip data filled with zeros;
READ_SLOTS then clears ready and the crossing flag of the slots it returned, and nothing else changes. -/
def Obligations.TableReadsAnswer : Prop :=
  ∀ s : State, s.runs →
    (∀ first count : Byte, 1 ≤ count.toNat → count.toNat ≤ 8 → first.toNat + count.toNat ≤ 32 →
      ∃ p : List Byte, exec (.readPeers first count) s = .next { s with port.slot := { status := .ok, payload := p } } ∧
        p.length = 2 + 7 * count.toNat ∧ p.take 2 = [numByte s.image.settings.missLimit, s.peers.losses] ∧
        ∀ a : Fin 32, ∀ i < count.toNat, a.val = first.toNat + i →
          let e := s.peers.entries[a]
          (p.drop (2 + 7 * i)).take 7 =
            [numByte a.val,
             numByte ((if e.expected then 128 else 0) +
               match e.state with
               | .unknown => 0
               | .present => 1
               | .missing => 2
               | .lost => 3),
             numByte e.absence] ++ wordBytes e.lastSeen ++ wordBytes e.extremes) ∧
    (∀ first count : Byte, 1 ≤ count.toNat → count.toNat ≤ 8 → first.toNat + count.toNat ≤ 16 →
      ∃ (t : State) (p : List Byte), exec (.readSlots first count) s = .next t ∧
        t = { s with meas.results := t.meas.results, port.slot := { status := .ok, payload := p } } ∧
        p.length = 4 + 9 * count.toNat ∧
        p.take 4 =
          ([match s.meas.scan with
            | .stopped => 0
            | .idle => 1
            | .scanning => 2,
            match s.meas.position with
            | some n => numByte n.val
            | none => 0xFF] : List Byte) ++ wordBytes s.meas.counter ∧
        ∀ n : Fin 16,
          let r := s.meas.results[n]
          (∀ i < count.toNat, n.val = first.toNat + i →
            (p.drop (4 + 9 * i)).take 9 =
              [numByte n.val] ++ wordBytes (r.raw.setWidth 16) ++ wordBytes (BitVec.ofInt 16 r.corrected) ++ wordBytes r.cycle ++
                [numByte (4 * (match r.side with
                    | .none => 0
                    | .pos => 1
                    | .neg => 2) +
                  match r.limit with
                  | .within => 0
                  | .below => 1
                  | .above => 2),
                 numByte ((if r.injected then 32 else 0) + (if r.saturated then 16 else 0) + (if r.crossing then 8 else 0) +
                   (if r.limitEvent then 4 else 0) + (if r.ready then 2 else 0) + (if r.valid then 1 else 0))] ∧
            t.meas.results[n] = { r with ready := false, crossing := false }) ∧
          (n.val < first.toNat ∨ first.toNat + count.toNat ≤ n.val → t.meas.results[n] = r)) ∧
    (∃ p : List Byte, exec .readTrips s = .next { s with port.slot := { status := .ok, payload := p } } ∧
      p.length = 105 ∧
      p.take 1 = [numByte ((if s.tripOutput .trip1 then 2 else 0) + (if s.tripOutput .trip0 then 1 else 0))] ∧
      ∀ n : Fin 8,
        let rule := s.image.rules[n]
        let r := s.trip[n]
        (p.drop (1 + 13 * n.val)).take 6 =
          [numByte ((if rule.enabled then 128 else 0) + (if rule.output = .trip1 then 16 else 0) +
             match r.status with
             | .clear => 0
             | .counting => 1
             | .tripped => 2),
           rule.watched.setWidth 8, numByte rule.persistence, numByte rule.blind, numByte r.persistence, numByte r.blind] ∧
        (r.data = none → (p.drop (7 + 13 * n.val)).take 7 = [0, 0, 0, 0, 0, 0, 0]) ∧
        (s.TripsSound → r.status ≠ .tripped → (p.drop (7 + 13 * n.val)).take 7 = [0, 0, 0, 0, 0, 0, 0]) ∧
        ∀ d, r.data = some d → (p.drop (7 + 13 * n.val)).take 7 =
          ([match d.reason with
            | .condition => 1
            | .blind => 2] : List Byte) ++ wordBytes d.cycle ++
            match d.value with
            | .none => [0, 0, 0, 0]
            | .extreme v h => wordBytes (BitVec.ofInt 16 v) ++ [h.setWidth 8, 0]
            | .word w => wordBytes w ++ [0, 0]
            | .absent a => setBytes a
            | .digest g => wordBytes g ++ [0, 0]) ∧
    (∀ w : Word, wordBytes w = [w.extractLsb' 8 8, w.extractLsb' 0 8]) ∧
    ∀ a : AddressSet, setBytes a = [a.extractLsb' 24 8, a.extractLsb' 16 8, a.extractLsb' 8 8, a.extractLsb' 0 8]

/-- A VALID roster moves every peer entry by R124 and R125, each entry that enters LOST is reported and counted, and a VALID
MIN or MAX record counts for its holder alone. A record of another outcome, and a record of an ANCHOR, ANY, ALL or DIGEST round,
leaves the table. -/
def Obligations.PeerTableFollowsRecords : Prop :=
  (∀ (s : State) (r : Record), r.outcome ≠ .valid → s.peersTake r = s) ∧
  (∀ (s : State) (q : Round) (bit : Level), q.kind = .anchor ∨ q.kind = .any ∨ q.kind = .all ∨ q.kind = .digest →
    s.peersTake (q.recordOf bit) = s) ∧
  ∀ (s : State) (r : Record), r.outcome = .valid →
    (∀ w, r.content = .count w ∨ r.content = .word w → s.peersTake r = s) ∧
    (∀ set, r.content = .set set → ∃ t, s.peersTake r = t ∧
      t = { s with peers := t.peers, control.alerts := t.control.alerts } ∧
      (∀ a : Fin 32, set.getLsbD a.val = true →
        t.peers.entries[a] = { s.peers.entries[a] with state := .present, absence := 0, lastSeen := r.cycle }) ∧
      (∀ a : Fin 32, set.getLsbD a.val = false →
        (s.peers.entries[a].state = .unknown → s.peers.entries[a].expected = false →
          t.peers.entries[a] = s.peers.entries[a]) ∧
        (s.peers.entries[a].state = .present ∨ s.peers.entries[a].state = .unknown ∧ s.peers.entries[a].expected = true →
          t.peers.entries[a] = { s.peers.entries[a] with
            absence := 1, state := if s.image.settings.missLimit ≤ 1 then .lost else .missing }) ∧
        (s.peers.entries[a].state = .missing → t.peers.entries[a] = { s.peers.entries[a] with
          absence := s.peers.entries[a].absence + 1
          state := if s.image.settings.missLimit ≤ s.peers.entries[a].absence + 1 then .lost else .missing }) ∧
        (s.peers.entries[a].state = .lost → t.peers.entries[a] = { s.peers.entries[a] with
          absence := min 15 (s.peers.entries[a].absence + 1) })) ∧
      t.peers.losses.toNat = min 255 (s.peers.losses.toNat + (List.finRange 32).countP fun a =>
        s.peers.entries[a].state != .lost && t.peers.entries[a].state == .lost) ∧
      (t.control.alerts.getLsbD 1 = true ↔ s.control.alerts.getLsbD 1 = true ∨
        ∃ a : Fin 32, s.peers.entries[a].state ≠ .lost ∧ t.peers.entries[a].state = .lost)) ∧
    (∀ v h self dup, r.content = .extreme v h self dup → s.peersTake r = { s with
      peers.entries := Vector.ofFn fun a : Fin 32 =>
        if a.val = h.toNat then
          { s.peers.entries[a] with
            extremes := if s.peers.entries[a].extremes = 0xFFFF then 0xFFFF else s.peers.entries[a].extremes + 1 }
        else s.peers.entries[a] })

/-- POST_ROUND of an ON_REQUEST code merges with the pending entry, adds one, or is refused FULL, and of another code answers
BAD_ARGUMENT; a post of a slot or of a trip rule merges, adds, or is dropped with POST_LOST. -/
def Obligations.PostsReachTheAdHocSet : Prop :=
  ∀ (s : State) (c : Code),
    (s.runs → isOnRequest s.image c = true →
      (holdsAdhoc s.sched.adhoc c = true →
        exec (.postRound (c.setWidth 8)) s = .next { s with port.slot := { status := .merged, payload := [] } }) ∧
      (holdsAdhoc s.sched.adhoc c = false → s.sched.adhoc.length < 8 → ∃ t,
        exec (.postRound (c.setWidth 8)) s = .next t ∧
        t = { s with sched.adhoc := t.sched.adhoc, port.slot := { status := .ok, payload := [] } } ∧
        t.sched.adhoc.length = s.sched.adhoc.length + 1 ∧
        ∀ e, e ∈ t.sched.adhoc ↔ e ∈ s.sched.adhoc ∨ e = { code := c, origin := .command, retries := 0, age := 0 }) ∧
      (holdsAdhoc s.sched.adhoc c = false → 8 ≤ s.sched.adhoc.length →
        exec (.postRound (c.setWidth 8)) s = .next { s with port.slot := { status := .full, payload := [] } })) ∧
    (s.runs → ∀ b : Byte, (∀ d : Code, isOnRequest s.image d = true → d.setWidth 8 ≠ b) →
      exec (.postRound b) s = .next { s with port.slot := { status := .badArgument, payload := [] } }) ∧
    ∀ o : Origin,
      (holdsAdhoc s.sched.adhoc c = true → s.post o c = s) ∧
      (holdsAdhoc s.sched.adhoc c = false → s.sched.adhoc.length < 8 →
        s.post o c = { s with sched.adhoc := (s.post o c).sched.adhoc } ∧
        ∀ e, e ∈ (s.post o c).sched.adhoc ↔ e ∈ s.sched.adhoc ∨ e = { code := c, origin := o, retries := 0, age := 0 }) ∧
      (holdsAdhoc s.sched.adhoc c = false → 8 ≤ s.sched.adhoc.length →
        s.post o c = { s with
          control.alerts := s.control.alerts ||| 0x200
          control.counters.postsLost := satInc s.control.counters.postsLost })

/-- START_SCAN, STOP_SCAN and RESUME_SCAN move the scan engine, answer, and change nothing else. -/
def Obligations.ScanCommandsMoveTheEngine : Prop :=
  ∀ s : State, s.runs →
    (s.meas.scan = .idle → ∃ t, exec .startScan s = .next t ∧ scanBegun s.image s.meas t.meas ∧
      t = { s with meas := t.meas, port.slot := { status := .ok, payload := [] } }) ∧
    (s.meas.scan = .scanning → exec .startScan s = .next { s with port.slot := { status := .busy, payload := [] } }) ∧
    (s.meas.scan = .stopped → exec .startScan s = .next { s with port.slot := { status := .wrongState, payload := [] } }) ∧
    exec .stopScan s = .next { s with
      meas := { s.meas with scan := .stopped, position := none, timer := 0, held := none }
      port.slot := { status := .ok, payload := [] } } ∧
    (s.meas.scan ≠ .stopped → exec .resumeScan s = .next { s with port.slot := { status := .ok, payload := [] } }) ∧
    (s.meas.scan = .stopped → ∃ t, exec .resumeScan s = .next t ∧
      t = { s with meas := t.meas, port.slot := { status := .ok, payload := [] } } ∧
      (s.image.settings.scanMode ≠ .continuous →
        t.meas = { s.meas with scan := .idle, position := none, timer := 0, held := none }) ∧
      (s.image.settings.scanMode = .continuous → scanBegun s.image s.meas t.meas))

/-- INJECT writes a sample in STOPPED as a conversion would and marks it injected; in IDLE and SCANNING it is refused. -/
def Obligations.InjectWritesASample : Prop :=
  ∀ s : State, s.runs → ∀ (n : Fin 16) (raw : Raw),
    (s.meas.scan = .stopped → ∃ t, exec (.inject (numByte n.val) (raw.setWidth 16)) s = .next t ∧
      sampleWritten s t n raw true ∧ t.meas = { s.meas with results := t.meas.results } ∧
      t.port = { s.port with slot := { status := .ok, payload := [] } }) ∧
    (s.meas.scan ≠ .stopped → exec (.inject (numByte n.val) (raw.setWidth 16)) s =
      .next { s with port.slot := { status := .wrongState, payload := [] } })

/-- SETTLE_END takes the level of the slot in conversion: the held code is the nearest whole code, a half rounding upward,
clamped to 0 to 4095. Without a positive reference span it takes a code too, as far as R71 and R72 state it (the model's
reading, log entry 3). With no conversion waiting for its level nothing changes (the model's choice, log entry 5), and a
difference of less than half a code gives 2048 (the model's choice, log entry 28). -/
def Obligations.SettleEndTakesTheLevel : Prop :=
  ∀ (s : State) (a : AnalogLevels), s.held = false →
    (s.meas.scan ≠ .scanning ∨ s.meas.position = none ∨ s.meas.held ≠ none → exec (.settleEnd a) s = .next s) ∧
    (a.vrefn < a.vrefp → s.meas.scan = .scanning → ∀ n, s.meas.position = some n → s.meas.held = none →
      ∃ raw : Raw, exec (.settleEnd a) s = .next { s with
          meas.held := some raw, meas.timer := 2 * 4 ^ s.image.slots[n].settle.val } ∧
        (s.image.slots[n].minus = none →
          (a.inputs[s.image.slots[n].plus] ≤ a.vrefn → raw.toNat = 0) ∧
          (a.vrefp ≤ a.inputs[s.image.slots[n].plus] → raw.toNat = 4095) ∧
          (a.vrefn ≤ a.inputs[s.image.slots[n].plus] → a.inputs[s.image.slots[n].plus] ≤ a.vrefp →
            2 * (a.vrefp - a.vrefn) * raw.toNat ≤
              2 * 4095 * (a.inputs[s.image.slots[n].plus] - a.vrefn) + (a.vrefp - a.vrefn) ∧
            2 * 4095 * (a.inputs[s.image.slots[n].plus] - a.vrefn) + (a.vrefp - a.vrefn) <
              2 * (a.vrefp - a.vrefn) * (raw.toNat + 1))) ∧
        (∀ m, s.image.slots[n].minus = some m → ∀ q : Int,
          2 * (a.vrefp - a.vrefn) * q ≤
            2 * 2048 * (a.inputs[s.image.slots[n].plus] - a.inputs[m]) + (a.vrefp - a.vrefn) →
          2 * 2048 * (a.inputs[s.image.slots[n].plus] - a.inputs[m]) + (a.vrefp - a.vrefn) <
            2 * (a.vrefp - a.vrefn) * (q + 1) →
          (raw.toNat : Int) = max 0 (min 4095 (2048 + q)))) ∧
    (a.vrefp ≤ a.vrefn → s.meas.scan = .scanning → ∀ n, s.meas.position = some n → s.meas.held = none →
      ∃ (raw : Raw) (draws : Nat), exec (.settleEnd a) s = .next { s with
          meas.held := some raw, meas.timer := 2 * 4 ^ s.image.slots[n].settle.val, clock.draws := draws } ∧
        statedWithoutSpan s.image.slots[n] a raw)

/-- CONVERSION_COMPLETE writes the sample and starts the next conversion, or ends the scan: counted, and begun again in
CONTINUOUS mode. With no level taken there is no completion and nothing changes, and with a level taken the completion comes
when it is commanded (the model's choices, log entry 5). -/
def Obligations.ConversionCompleteWritesAndMovesOn : Prop :=
  ∀ s : State, s.held = false →
    (s.meas.scan ≠ .scanning ∨ s.meas.position = none ∨ s.meas.held = none → exec .conversionComplete s = .next s) ∧
    (s.meas.scan = .scanning → ∀ n, s.meas.position = some n → ∀ raw, s.meas.held = some raw →
      ∃ t, exec .conversionComplete s = .next t ∧ sampleWritten s t n raw false ∧ t.port = s.port ∧
        (∀ m, firstTaken s.image (n.val + 1) m → t.meas = { s.meas with
          results := t.meas.results, position := some m, timer := 0, held := none }) ∧
        (noneTaken s.image (n.val + 1) → s.image.settings.scanMode ≠ .continuous → t.meas = { s.meas with
          results := t.meas.results, scan := .idle, position := none, timer := 0, held := none
          counter := s.meas.counter + 1 }) ∧
        (noneTaken s.image (n.val + 1) → s.image.settings.scanMode = .continuous →
          scanBegun s.image { s.meas with results := t.meas.results, counter := s.meas.counter + 1 } t.meas))

/-- SET_USER_VALUE, SET_USER_FLAGS and CLEAR_FLAGS write their own part of the Source Unit, answer OK and change nothing
else; no live bit of the flag word can be written. -/
def Obligations.SourceCommandsWriteTheirPart : Prop :=
  ∀ s : State, s.runs →
    (∀ v : Word, exec (.setUserValue v) s = .next { s with
      source.userValue := some { value := v.toInt, cycle := s.sched.cycle }
      port.slot := { status := .ok, payload := [] } }) ∧
    (∀ f : Byte, ∃ t, exec (.setUserFlags f) s = .next t ∧
      t = { s with source.flags := t.source.flags, port.slot := { status := .ok, payload := [] } } ∧
      ∀ k < 16, t.flagWord.getLsbD k = if k < 8 then s.flagWord.getLsbD k else f.getLsbD (k - 8)) ∧
    (∀ m : Word, ∃ t, exec (.clearFlags m) s = .next t ∧
      t = { s with source.flags := t.source.flags, port.slot := { status := .ok, payload := [] } } ∧
      ∀ k < 16, t.flagWord.getLsbD k =
        (s.flagWord.getLsbD k && !(m.getLsbD k && (k == 2 || k == 3 || k == 6 || k == 7))))

/-- The value each source gives at a snapshot judged for cycle k: a fresh slot's corrected value, the largest or smallest
over a group's fresh slots, a fresh user value, or the flag word; otherwise the station abstains. -/
def Obligations.SourcesGiveFreshValues : Prop :=
  ∀ (s : State) (k : Word),
    let fresh (r : SlotResult) : Prop := r.valid = true ∧ (r.cycle = k ∨ r.cycle = k - 1)
    let member (g : Fin 4) (n : Fin 16) : Prop := s.image.slots[n].group = some g ∧ fresh s.meas.results[n]
    (∀ n : Fin 16,
      (fresh s.meas.results[n] → s.sourceValue k (.slot n) = some (.number s.meas.results[n].corrected)) ∧
      (¬ fresh s.meas.results[n] → s.sourceValue k (.slot n) = none)) ∧
    (∀ g : Fin 4, (∀ n, ¬ member g n) → s.sourceValue k (.groupMax g) = none ∧ s.sourceValue k (.groupMin g) = none) ∧
    (∀ g : Fin 4, (∃ n, member g n) →
      (∃ n, member g n ∧ s.sourceValue k (.groupMax g) = some (.number s.meas.results[n].corrected) ∧
        ∀ m, member g m → s.meas.results[m].corrected ≤ s.meas.results[n].corrected) ∧
      (∃ n, member g n ∧ s.sourceValue k (.groupMin g) = some (.number s.meas.results[n].corrected) ∧
        ∀ m, member g m → s.meas.results[n].corrected ≤ s.meas.results[m].corrected)) ∧
    (s.source.userValue = none → s.sourceValue k .userValue = none) ∧
    (∀ u, s.source.userValue = some u → s.sourceValue k .userValue =
      if u.cycle = k ∨ u.cycle = k - 1 then some (.number u.value) else none) ∧
    (∃ w, s.sourceValue k .flags = some (.word w) ∧
      (w.getLsbD 0 = true ↔ ∃ n : Fin 16, fresh s.meas.results[n] ∧ s.meas.results[n].limit = .above) ∧
      (w.getLsbD 1 = true ↔ ∃ n : Fin 16, fresh s.meas.results[n] ∧ s.meas.results[n].limit = .below) ∧
      w.getLsbD 4 = s.tripOutput .trip0 ∧ w.getLsbD 5 = s.tripOutput .trip1 ∧
      ∀ i < 16, i ≠ 0 → i ≠ 1 → i ≠ 4 → i ≠ 5 → w.getLsbD i = s.source.flags.getLsbD i)

/-- CLEAR_TRIP unlatches a TRIPPED rule whose reason no longer stands, keeping its blind count; it is refused while the
condition holds on the latest result or the rule is blind, and does nothing to a rule that is not TRIPPED. -/
def Obligations.ClearTripUnlatches : Prop :=
  ∀ s : State, s.runs → s.TripsSound → ∀ n : Fin 8,
    let stands : Prop :=
      (∃ e o, s.latestOf s.image.rules[n].watched = some e ∧ e.last = some o ∧ o.qualifies = true ∧
        conditionHolds s.image.rules[n] s.image.settings.expected o e.content = true) ∨
      (s.image.rules[n].blind ≠ 0 ∧ s.image.rules[n].blind ≤ s.trip[n].blind)
    (s.trip[n].status ≠ .tripped → exec (.clearTrip (numByte n.val)) s =
      .next { s with port.slot := { status := .ok, payload := [] } }) ∧
    (s.trip[n].status = .tripped → stands → exec (.clearTrip (numByte n.val)) s =
      .next { s with port.slot := { status := .conditionHolds, payload := [] } }) ∧
    (s.trip[n].status = .tripped → ¬ stands → exec (.clearTrip (numByte n.val)) s = .next { s with
      trip := s.trip.set n { s.trip[n] with status := .clear, persistence := 0, data := none }
      port.slot := { status := .ok, payload := [] } })

/-- An enabled rule through the records of its watched code: EMPTY clears a run of outcomes but not the blind count, VOID and
LAPSED leave the rule, and a TRIPPED rule keeps its state, with a qualifying outcome setting its blind count to 0. A record of a code that the rule does not watch, and any record or
boundary at a disabled rule, leaves the rule as it stands. -/
def Obligations.TripRulesThroughRecords : Prop :=
  (∀ (rule : TripRule) (expected : AddressSet) (r : RuleState) (rec : Record),
    rule.enabled = false ∨ rule.watched ≠ rec.code → r.takeOutcome rule expected rec = r) ∧
  (∀ (rule : TripRule) (r : RuleState) (cycle : Word), rule.enabled = false → r.takeBoundary rule cycle = r) ∧
  ∀ (rule : TripRule) (expected : AddressSet) (r : RuleState) (rec : Record),
    rule.enabled = true → rule.watched = rec.code →
    (rec.outcome = .empty → r.status ≠ .tripped →
      r.takeOutcome rule expected rec = { r with status := .clear, persistence := 0 }) ∧
    (rec.outcome = .void ∨ rec.outcome = .lapsed → r.takeOutcome rule expected rec = r) ∧
    (r.status = .tripped → rec.outcome = .valid ∨ rec.outcome = .agree ∨ rec.outcome = .disagree →
      r.takeOutcome rule expected rec = { r with blind := 0 }) ∧
    (r.status = .tripped → rec.outcome = .empty → r.takeOutcome rule expected rec = r)

/-- A qualifying record at an enabled rule that is CLEAR or COUNTING: with the condition met the persistence count rises,
and reaching P trips the rule with its trip data; otherwise the rule is CLEAR. The blind count becomes 0. A boundary raises
the blind count, saturating at 15, and reaching B trips the rule. The six conditions, each judged on the content of its kinds,
and the trip value of a latching by condition. -/
def Obligations.TripRulesLatch : Prop :=
  (∀ (rule : TripRule) (expected : AddressSet) (o : RoundOutcome),
    (∀ v h self dup,
      (rule.condition = .above → (conditionHolds rule expected o (.extreme v h self dup) = true ↔ rule.threshold < v)) ∧
      (rule.condition = .below → (conditionHolds rule expected o (.extreme v h self dup) = true ↔ v < rule.threshold)) ∧
      tripValueOf expected (.extreme v h self dup) = .extreme v h) ∧
    (∀ w : Word,
      (rule.condition = .maskSet → (conditionHolds rule expected o (.word w) = true ↔
        ∃ k < 16, rule.mask.getLsbD k = true ∧ w.getLsbD k = true)) ∧
      (rule.condition = .maskClear → (conditionHolds rule expected o (.word w) = true ↔
        ∃ k < 16, rule.mask.getLsbD k = true ∧ w.getLsbD k = false)) ∧
      tripValueOf expected (.word w) = .word w) ∧
    (∀ a : AddressSet,
      (rule.condition = .rosterShort → (conditionHolds rule expected o (.set a) = true ↔
        ∃ k < 32, expected.getLsbD k = true ∧ a.getLsbD k = false)) ∧
      tripValueOf expected (.set a) = .absent (expected &&& ~~~a)) ∧
    (∀ g differs,
      (rule.condition = .disagree → (conditionHolds rule expected o (.digest g differs) = true ↔ o = .disagree)) ∧
      tripValueOf expected (.digest g differs) = .digest g) ∧
    (∀ n, conditionHolds rule expected o (.count n) = false) ∧ conditionHolds rule expected o .none = false) ∧
  ∀ (rule : TripRule) (expected : AddressSet) (r : RuleState) (rec : Record) (cycle : Word), rule.enabled = true →
    (rule.watched = rec.code → r.status ≠ .tripped →
      rec.outcome = .valid ∨ rec.outcome = .agree ∨ rec.outcome = .disagree →
      let holds := conditionHolds rule expected rec.outcome rec.content
      (holds = false → r.takeOutcome rule expected rec = {}) ∧
      (holds = true → r.persistence + 1 ≠ rule.persistence → r.takeOutcome rule expected rec =
        { status := .counting, persistence := r.persistence + 1, blind := 0, data := none }) ∧
      (holds = true → r.persistence + 1 = rule.persistence → r.takeOutcome rule expected rec =
        { status := .tripped, persistence := rule.persistence, blind := 0
          data := some { reason := .condition, cycle := rec.cycle, value := tripValueOf expected rec.content } })) ∧
    (rule.blind = 0 → r.takeBoundary rule cycle = r) ∧
    (rule.blind ≠ 0 → (r.status = .tripped ∨ min 15 (r.blind + 1) ≠ rule.blind) →
      r.takeBoundary rule cycle = { r with blind := min 15 (r.blind + 1) }) ∧
    (rule.blind ≠ 0 → r.status ≠ .tripped → min 15 (r.blind + 1) = rule.blind →
      r.takeBoundary rule cycle = { r with
        status := .tripped, blind := rule.blind, data := some { reason := .blind, cycle := cycle, value := .none } })

/-- TRIPn is asserted exactly while an enabled rule assigned to it is TRIPPED, in CONFIG and COMMITTING neither is, and each
stands at its bit of the flag word. -/
def Obligations.TripOutputsFollowTheRules : Prop :=
  ∀ s : State, s.BlocksFollowStation →
    (∀ o, s.tripOutput o = true ↔
      ∃ n : Fin 8, s.image.rules[n].enabled = true ∧ s.image.rules[n].output = o ∧ s.trip[n].status = .tripped) ∧
    (s.control.station.running = false → (∀ n : Fin 8, s.trip[n].status ≠ .tripped) ∧ ∀ o, s.tripOutput o = false) ∧
    s.flagWord.getLsbD 4 = s.tripOutput .trip0 ∧ s.flagWord.getLsbD 5 = s.tripOutput .trip1

/-- CLEAR_ALERTS clears the sticky causes of its mask and nothing else, RING_LEVEL follows the ring, and ALERTN is LOW exactly
while a cause that is set is enabled. -/
def Obligations.ClearAlertsAndAlertn : Prop :=
  ∀ s : State,
    (s.runs → ∀ m : BitVec 12, ∃ t, exec (.clearAlerts (m.setWidth 16)) s = .next t ∧
      t = { s with control.alerts := t.control.alerts, port.slot := { status := .ok, payload := [] } } ∧
      ∀ k < 12, t.alertCauses.getLsbD k = (s.alertCauses.getLsbD k && (k == 7 || !m.getLsbD k))) ∧
    (s.control.station.running = true →
      (s.alertCauses.getLsbD 7 = true ↔ s.image.settings.ringThreshold ≤ s.store.ring.length) ∧
      (s.alertn = .low ↔ ∃ k < 12, s.alertCauses.getLsbD k = true ∧ s.image.settings.alertMask.getLsbD k = true))

/-- CYCLE_TIMER_EXPIRY: the cycle count rises by one, the timer restarts, the expiry counter rises, the entries that are not in
flight lapse or age, the code in flight is carried by R55's table, the due codes become pending, the lapse records are delivered
in their order (scheduled ones as the set stands, in ascending code, then those by age), the rules that trip post in ascending
index, and a JOINING station is judged; what no rule names stands. -/
def Obligations.ExpiryOpensANewCycle : Prop :=
  ∀ s : State, s.runs →
    let flying (c : Code) : Prop := (s.round.phase = .body ∨ s.round.phase = .check ∨ s.round.phase = .objection) ∧ s.round.codeRead = c
    let cycle : Word := s.sched.cycle + 1
    let due (e : RoundEntry) : Prop :=
      match e.schedule with
      | .onRequest => False
      | .div1 => True
      | .div2 => cycle.toNat % 2 = 0
      | .div4 => cycle.toNat % 4 = 0
      | .div8 => cycle.toNat % 8 = 0
      | .div16 => cycle.toNat % 16 = 0
    let lapse (reason : LapseReason) (c : Code) : Record :=
      { code := c, kind := kindOfCode s.image c, outcome := .lapsed, cycle := s.sched.cycle, content := .reason reason }
    let lapses : List Record :=
      (s.sched.scheduled.filter fun e => !isInFlight s.round.inFlight e.code).map (fun e => lapse .cycleEnd e.code) ++
        (s.sched.adhoc.filter fun e => !isInFlight s.round.inFlight e.code && decide (3 ≤ e.age)).map fun e => lapse .age e.code
    let aged : List AdhocEntry :=
      (s.sched.adhoc.filter fun e => isInFlight s.round.inFlight e.code || decide (e.age < 3)).map
        fun e => if isInFlight s.round.inFlight e.code then e else { e with age := e.age + 1 }
    (∀ c, isInFlight s.round.inFlight c = true ↔ flying c) ∧
    ∃ t, exec .cycleTimerExpiry s = .next t ∧
    t = { s with
      line.ltxd := t.line.ltxd, sched := t.sched, store := { t.store with latest := s.store.latest }, trip := t.trip
      control := { s.control with
        station := t.control.station, anchorObserved := t.control.anchorObserved, alerts := t.control.alerts
        counters.postsLost := t.control.counters.postsLost } } ∧
    t.sched.cycle = cycle ∧ t.sched.timer = 0 ∧ t.sched.expiries = satInc s.sched.expiries ∧
    (t.sched.anchorDone = true ↔ flying s.round.codeRead ∧ s.round.kind = .anchor) ∧
    (∀ n : Fin 8, t.trip[n] = s.trip[n].takeBoundary s.image.rules[n] cycle) ∧
    (∀ e, ¬ flying e.code → (e ∈ t.sched.scheduled ↔
      e.retries = 0 ∧ e.part = .current ∧ ∃ r ∈ imageEntries s.image, r.code = e.code ∧ due r)) ∧
    (∀ e, flying e.code → (e ∈ t.sched.scheduled ↔
      ∃ r ∈ imageEntries s.image, r.code = e.code ∧ r.schedule ≠ .onRequest ∧
        match s.sched.scheduled.find? fun x => x.code == e.code with
        | some x =>
          (r.kind = .anchor → e = { x with part := .old }) ∧
          (r.kind ≠ .anchor → due r → e = { x with part := .both, retries := 0 }) ∧
          (r.kind ≠ .anchor → ¬ due r → e = { x with part := .old })
        | none => r.kind ≠ .anchor ∧ due r ∧ e.retries = 0 ∧ e.part = .current)) ∧
    t.sched.adhoc = (tripPosted s t { s with sched.adhoc := aged }).sched.adhoc ∧
    t.control.counters.postsLost = (tripPosted s t { s with sched.adhoc := aged }).control.counters.postsLost ∧
    t.store = (lapses.foldl State.deliverLapse s).store ∧
    (∀ k : Nat, t.control.alerts.getLsbD k = (s.control.alerts.getLsbD k ||
      (k == 0 && (List.finRange 8).any (latchedBetween s t)) ||
      (k == 5 && t.control.station == .silent && s.control.station != .silent) ||
      (k == 8 && (lapses.foldl State.deliverLapse s).control.alerts.getLsbD 8) ||
      (k == 9 && (tripPosted s t { s with sched.adhoc := aged }).control.alerts.getLsbD 9) ||
      (k == 10 && !lapses.isEmpty))) ∧
    (s.control.station ≠ .joining → t.control.station = s.control.station ∧ t.line = s.line ∧
      t.control.anchorObserved = s.control.anchorObserved) ∧
    (s.control.station = .joining → t.control.anchorObserved = false ∧
      t.line.ltxd = (if t.control.station = .silent then .high else s.line.ltxd) ∧
      t.control.station =
        if 2 ≤ (satInc s.sched.expiries).toNat ∧ s.control.anchorObserved = false then
          (if s.faultCount < 6 then .active else .silent)
        else .joining)

/-- A VALID, EMPTY, AGREE or DISAGREE outcome completes the part it reaches: CURRENT, OLD and ad hoc entries leave, a BOTH
entry becomes CURRENT with its retries, every other entry stands, and no lapse is made. -/
def Obligations.CompletingOutcomeClearsThePart : Prop :=
  ∀ (s : State) (r : Record),
    r.outcome = .valid ∨ r.outcome = .empty ∨ r.outcome = .agree ∨ r.outcome = .disagree →
    s.pendingTake r = { s with
      sched.scheduled := s.sched.scheduled.filterMap fun e =>
        if e.code = r.code then (if e.part = .both then some { e with part := .current } else none) else some e
      sched.adhoc := s.sched.adhoc.filter fun e => e.code != r.code }

/-- A VOID outcome adds a retry to the CURRENT or ad hoc entry it reaches, and lapses it at the third; an OLD part is not
retried and lapses with CYCLE_END. A VALID anchor's count is adopted when it is ahead of C, and as it stands in JOINING. -/
def Obligations.VoidRetriesAndAnchorAdoption : Prop :=
  (∀ (s : State) (r : Record), r.outcome = .void →
    let t := s.pendingTake r
    t.sched = { s.sched with
      scheduled := s.sched.scheduled.filterMap fun e =>
        if e.code = r.code then
          match e.part with
          | .current => if e.retries < 2 then some { e with retries := e.retries + 1 } else none
          | .old => none
          | .both => some { e with part := .current }
        else some e
      adhoc := s.sched.adhoc.filterMap fun e =>
        if e.code = r.code then (if e.retries < 2 then some { e with retries := e.retries + 1 } else none) else some e } ∧
    ((∀ e ∈ s.sched.scheduled, e.code ≠ r.code) → (∀ e ∈ s.sched.adhoc, e.code ≠ r.code) → t = s) ∧
    (∀ e, s.sched.scheduled.find? (fun x => x.code == r.code) = some e →
      (e.part = .current → e.retries < 2 → t = { s with sched := t.sched }) ∧
      (e.part = .current → 2 ≤ e.retries → t = { s with sched := t.sched }.deliverLapse
        { code := r.code, kind := kindOfCode s.image r.code, outcome := .lapsed, cycle := r.cycle, content := .reason .retries }) ∧
      (e.part ≠ .current → t = { s with sched := t.sched }.deliverLapse
        { code := r.code, kind := kindOfCode s.image r.code, outcome := .lapsed, cycle := r.cycle
          content := .reason .cycleEnd })) ∧
    (∀ e, (∀ x ∈ s.sched.scheduled, x.code ≠ r.code) → s.sched.adhoc.find? (fun x => x.code == r.code) = some e →
      (e.retries < 2 → t = { s with sched := t.sched }) ∧
      (2 ≤ e.retries → t = { s with sched := t.sched }.deliverLapse
        { code := r.code, kind := kindOfCode s.image r.code, outcome := .lapsed, cycle := r.cycle
          content := .reason .retries }))) ∧
  ∀ (s : State) (r : Record) (n : Word), r.outcome = .valid → r.content = .count n →
    s.adopt r = { s with sched.cycle :=
      if s.control.station = .joining then n
      else if 1 ≤ (n - s.sched.cycle).toNat ∧ (n - s.sched.cycle).toNat ≤ 32767 then n else s.sched.cycle }

/-- SAMPLE_POINT keeps the two run counters in every line engine state but OFF, where nothing is sampled; the sample that ends
a round here leaves the idle run at 0. A sample that makes no transition changes nothing but the counters, LRXD and the bit
timer, and the first LOW in IDLE is noted. An ordinary bit of a round is taken by the Round Engine, a drive fault counted,
suppressing from here and handed on. Where one of the named events of the line applies, the sample is that event (the model's
reading, log entry 6). -/
def Obligations.SamplesKeepTheRuns : Prop :=
  ∀ (s : State) (lv : Level),
    let fault : Bool := decide (s.line.ltxd = .low ∧ lv = .high)
    let counted : Lif := { s.line with
      lrxd := lv, bitTimer := samplePeriods s.image.settings.rate
      idleRun := if lv = .high then min 11 (s.line.idleRun + 1) else 0
      lowRun := if lv = .low then min 64 (s.line.lowRun + 1) else 0 }
    (s.held = true ∨ s.line.engine = .off → exec (.samplePoint lv) s = .next s) ∧
    (s.held = false → s.line.engine ≠ .off → ∃ t, exec (.samplePoint lv) s = .next t ∧
      t.line.lrxd = lv ∧ t.line.lowRun = (if lv = .low then min 64 (s.line.lowRun + 1) else 0) ∧
      t.line.bitTimer = samplePeriods s.image.settings.rate ∧
      (s.line.engine ≠ .round ∨ t.line.engine = .round →
        t.line.idleRun = if lv = .high then min 11 (s.line.idleRun + 1) else 0) ∧
      (s.line.engine = .round → t.line.engine ≠ .round → t.line.engine = .recover ∧ t.line.idleRun = 0) ∧
      t.image = s.image ∧ t.port = s.port ∧ t.resetn = s.resetn ∧ t.control.station = s.control.station ∧
      t.control.window.getLsbD 0 = (if s.line.engine = .round ∧ s.round.phase = .objection then s.round.isFault
        else s.control.window.getLsbD 0)) ∧
    (s.held = false →
      (s.line.engine = .recover → (lv = .high → s.line.idleRun < 10) → (lv = .low → s.line.lowRun < 63) →
        exec (.samplePoint lv) s = .next { s with line := counted }) ∧
      (s.line.engine = .stuck → (lv = .high → s.line.idleRun < 10) →
        exec (.samplePoint lv) s = .next { s with line := counted }) ∧
      (s.line.engine = .idle → s.line.firstLow = false →
        (lv = .low → exec (.samplePoint lv) s = .next { s with line := { counted with firstLow := true } }) ∧
        (lv = .high → s.line.ltxd = .high → exec (.samplePoint lv) s = .next { s with line := counted })) ∧
      (s.line.engine = .round → ∀ f, s.round.field = some f → f ≠ .code 5 → f ≠ .objection →
        exec (.samplePoint lv) s = .next { s with
          line := { counted with suppressed := s.line.suppressed || fault }
          round := s.round.takeBit f lv fault s.line.suppressed s.image.settings.address s.control.digest
          control.counters.driveFaults := if fault then satInc s.control.counters.driveFaults
            else s.control.counters.driveFaults })) ∧
    (lv = .high → s.line.engine = .recover ∨ s.line.engine = .stuck → 10 ≤ s.line.idleRun →
      exec (.samplePoint lv) s = exec .enterIdle s) ∧
    (lv = .low → s.line.engine = .recover → 63 ≤ s.line.lowRun → exec (.samplePoint lv) s = exec .enterStuck s) ∧
    (s.line.engine = .idle → s.line.firstLow = true →
      (lv = .high → exec (.samplePoint lv) s = exec .shortStart s) ∧
      (lv = .low → exec (.samplePoint lv) s = exec .startMark s)) ∧
    (lv = .high → s.line.engine = .idle → s.line.ownMark ≠ .none → s.line.ltxd = .low →
      exec (.samplePoint lv) s = exec .startMarkDriveFault s) ∧
    (lv = .high → s.line.engine = .round → s.line.ltxd = .low → exec (.samplePoint lv) s = exec .driveFault s) ∧
    (s.line.engine = .round → s.round.phase = .code → s.round.pos = 5 →
      exec (.samplePoint lv) s = exec (.codeRecognition lv) s) ∧
    (s.line.engine = .round → s.round.phase = .objection → exec (.samplePoint lv) s = exec (.outcomeDelivery lv) s)

/-- The transitions of the line engine outside a round: ENTER_IDLE, ENTER_STUCK, SHORT_START, START_MARK and
START_MARK_DRIVE_FAULT at either bit of the mark, each with what it leaves standing. A drive fault at the second bit is a short
start as well. -/
def Obligations.LineEngineTransitions : Prop :=
  ∀ s : State, s.held = false →
    (s.line.engine = .recover ∨ s.line.engine = .stuck → s.line.idleRun = 10 → exec .enterIdle s = .next { s with
      line := { s.line with
        engine := .idle, firstLow := false, ownMark := .none, lrxd := .high, idleRun := 11, lowRun := 0
        bitTimer := samplePeriods s.image.settings.rate } }) ∧
    (s.line.engine = .recover → s.line.lowRun = 63 → exec .enterStuck s = .next { s with
      line := { s.line with
        engine := .stuck, ltxd := .high, lrxd := .low, idleRun := 0, lowRun := 64
        bitTimer := samplePeriods s.image.settings.rate }
      control.alerts := s.control.alerts ||| 0x010 }) ∧
    (s.line.engine = .idle → s.line.firstLow = true →
      exec .shortStart s = .next { s with
        line := { s.line with
          engine := .recover, firstLow := false, ownMark := .none, lrxd := .high, idleRun := min 11 (s.line.idleRun + 1)
          lowRun := 0, bitTimer := samplePeriods s.image.settings.rate }
        control.counters := { s.control.counters with
          shortStarts := satInc s.control.counters.shortStarts
          driveFaults := if s.line.ltxd = .low then satInc s.control.counters.driveFaults else s.control.counters.driveFaults } } ∧
      exec .startMark s = .next { s with
        line := { s.line with
          engine := .round, firstLow := false, ownMark := .none, suppressed := false, lrxd := .low, idleRun := 0
          lowRun := min 64 (s.line.lowRun + 1), bitTimer := samplePeriods s.image.settings.rate }
        round := {
          phase := .code, cycle := s.sched.cycle, check := 0xFF
          role := match s.control.station, s.line.ltxd, s.line.ownMark with
            | .active, .low, .own _ => .starter
            | .active, _, _ => .joiner
            | _, _, _ => .observer
          ownCode := match s.line.ltxd, s.line.ownMark with
            | .low, .own c => c
            | _, _ => 0 } }) ∧
    (s.line.engine = .idle → s.line.firstLow = true → s.line.ownMark ≠ .none → s.line.ltxd = .low →
      exec .startMarkDriveFault s = .next { s with
        line := { s.line with
          engine := .recover, firstLow := false, ownMark := .none, lrxd := .high, idleRun := min 11 (s.line.idleRun + 1)
          lowRun := 0, bitTimer := samplePeriods s.image.settings.rate }
        control.counters := { s.control.counters with
          shortStarts := satInc s.control.counters.shortStarts
          driveFaults := satInc s.control.counters.driveFaults } }) ∧
    (s.line.engine = .idle → s.line.firstLow = false → s.line.ownMark ≠ .none → s.line.ltxd = .low →
      exec .startMarkDriveFault s = .next { s with
        line := { s.line with
          ownMark := .failed, lrxd := .high, idleRun := min 11 (s.line.idleRun + 1), lowRun := 0
          bitTimer := samplePeriods s.image.settings.rate }
        control.counters.driveFaults := satInc s.control.counters.driveFaults })

/-- DRIVE_FAULT, before the sixth code bit and the objection bit: the fault is counted, suppression lasts from here, a
participant holds an objection cause, and the round goes on. At the sixth code bit the same holds of a known code, beside its
recognition. -/
def Obligations.DriveFaultSuppresses : Prop :=
  ∀ s : State, s.held = false → s.line.engine = .round → s.line.ltxd = .low →
    (s.round.phase = .code → s.round.pos = 5 → exec .driveFault s = exec (.codeRecognition .high) s ∧
      ∀ e, findRound s.image ((s.round.codeRead <<< 1) ||| 1) = some e → ∃ t, exec .driveFault s = .next t ∧
        t.line.suppressed = true ∧ t.control.counters.driveFaults = satInc s.control.counters.driveFaults ∧
        (s.round.role ≠ .observer → s.round.cause = .none → t.round.cause = .driveFault) ∧
        (s.round.role = .observer ∨ s.round.cause ≠ .none → t.round.cause = s.round.cause)) ∧
    (s.round.phase = .objection → exec .driveFault s = exec (.outcomeDelivery .high) s) ∧
    ((s.round.phase = .code ∧ s.round.pos < 5) ∨ s.round.phase = .body ∨ s.round.phase = .check →
    ∃ t, exec .driveFault s = .next t ∧
      t = { s with
        line := { s.line with
          suppressed := true, lrxd := .high, idleRun := min 11 (s.line.idleRun + 1), lowRun := 0
          bitTimer := samplePeriods s.image.settings.rate }
        round := t.round
        control.counters.driveFaults := satInc s.control.counters.driveFaults } ∧
      t.round.role = s.round.role ∧ t.round.phase ≠ .none ∧
      (s.round.role ≠ .observer → s.round.cause = .none → t.round.cause = .driveFault) ∧
      (s.round.cause ≠ .none → t.round.cause = s.round.cause))

/-- CODE_RECOGNITION: the sixth code bit is taken as every bit is, a drive fault counted, suppressing from here and held as an
objection cause. An unknown code is counted and the round left without a trace; a known one opens the body, and the
anchor's aligns a cycle or opens one, as an expiry with the anchor in flight would, and is a trigger of the scan engine. A
participant takes its snapshot. -/
def Obligations.RecognitionOpensTheBody : Prop :=
  ∀ (s : State) (bit : Level), s.held = false → s.line.engine = .round → s.round.phase = .code → s.round.pos = 5 →
    let code : Code := (s.round.codeRead <<< 1) ||| (if bit = .high then 1 else 0)
    let fault : Bool := decide (s.line.ltxd = .low ∧ bit = .high)
    let taken := s.round.takeBit (.code 5) bit fault s.line.suppressed s.image.settings.address s.control.digest
    let counted : Lif := { s.line with
      lrxd := bit, bitTimer := samplePeriods s.image.settings.rate
      idleRun := if bit = .high then min 11 (s.line.idleRun + 1) else 0
      lowRun := if bit = .low then min 64 (s.line.lowRun + 1) else 0 }
    (findRound s.image code = none → exec (.codeRecognition bit) s = .next { s with
      line := { counted with engine := .recover, idleRun := 0, suppressed := false }
      round := {}
      control.counters.unknownCodes := satInc s.control.counters.unknownCodes
      control.counters.driveFaults := if fault then satInc s.control.counters.driveFaults
        else s.control.counters.driveFaults }) ∧
    ∀ e, findRound s.image code = some e → ∃ t, exec (.codeRecognition bit) s = .next t ∧
      t.round = { taken with
        phase := .body, pos := 0, codeRead := code, kind := e.kind, snapshot := t.round.snapshot, nonce := t.round.nonce } ∧
      t.round.cycle = s.round.cycle ∧
      (s.round.role = .observer → t.round.cause = s.round.cause) ∧
      (s.round.role ≠ .observer →
        t.round.cause = if s.round.cause ≠ .none then s.round.cause else if fault then .driveFault else .none) ∧
      (s.round.role = .observer ∨ (e.kind ≠ .min ∧ e.kind ≠ .max) →
        t.round.nonce = s.round.nonce ∧ t.clock.draws = s.clock.draws) ∧
      (s.round.role ≠ .observer → e.kind = .min ∨ e.kind = .max → t.clock.draws = s.clock.draws + 1) ∧
      t = { s with
        line := { counted with suppressed := s.line.suppressed || fault }, round := t.round, clock.draws := t.clock.draws, sched := t.sched, meas := t.meas, source := t.source
        store := t.store, trip := t.trip
        control := { s.control with
          alerts := t.control.alerts, anchorObserved := t.control.anchorObserved
          counters := { s.control.counters with
            driveFaults := if fault then satInc s.control.counters.driveFaults else s.control.counters.driveFaults
            overruns := t.control.counters.overruns, postsLost := t.control.counters.postsLost } } } ∧
      (e.kind ≠ .anchor →
        t.sched = s.sched ∧ t.meas = s.meas ∧ t.source = s.source ∧ t.store = s.store ∧ t.trip = s.trip ∧
        t.control.alerts = s.control.alerts ∧ t.control.anchorObserved = s.control.anchorObserved ∧
        t.control.counters.overruns = s.control.counters.overruns ∧
        t.control.counters.postsLost = s.control.counters.postsLost) ∧
      (e.kind = .anchor → t.sched.anchorDone = true ∧ t.sched.timer = 8 * (16 / 2 ^ s.image.settings.rate.val) ∧
        t.sched.expiries = s.sched.expiries ∧
        t.control.anchorObserved = if s.control.station = .joining then true else s.control.anchorObserved) ∧
      (e.kind = .anchor → s.sched.anchorDone = false →
        t.sched.cycle = s.sched.cycle ∧ t.sched.scheduled = s.sched.scheduled ∧ t.sched.adhoc = s.sched.adhoc ∧
        t.store = s.store ∧ t.trip = s.trip ∧ t.control.counters.postsLost = s.control.counters.postsLost ∧
        ∀ k, k ≠ 6 → t.control.alerts.getLsbD k = s.control.alerts.getLsbD k) ∧
      (e.kind = .anchor → s.sched.anchorDone = true → s.control.station.running = true → ∀ b,
        exec .cycleTimerExpiry { s with round := { s.round with phase := .body, codeRead := code, kind := .anchor } } = .next b →
        t.sched.cycle = b.sched.cycle ∧ t.sched.scheduled = b.sched.scheduled ∧ t.sched.adhoc = b.sched.adhoc ∧
        t.store = b.store ∧ t.trip = b.trip ∧ t.control.counters.postsLost = b.control.counters.postsLost ∧
        ∀ k, k ≠ 5 → k ≠ 6 → t.control.alerts.getLsbD k = b.control.alerts.getLsbD k) ∧
      (e.kind = .anchor →
        (s.image.settings.scanMode = .anchored → s.meas.scan = .idle →
          scanBegun s.image s.meas t.meas ∧ t.source = s.source ∧
          t.control.counters.overruns = s.control.counters.overruns ∧
          t.control.alerts.getLsbD 6 = s.control.alerts.getLsbD 6) ∧
        (s.image.settings.scanMode = .anchored → s.meas.scan = .scanning →
          t.meas = s.meas ∧ t.source = { s.source with flags := s.source.flags ||| 0x0040 } ∧
          t.control.counters.overruns = satInc s.control.counters.overruns ∧ t.control.alerts.getLsbD 6 = true) ∧
        (s.image.settings.scanMode ≠ .anchored ∨ s.meas.scan = .stopped →
          t.meas = s.meas ∧ t.source = s.source ∧ t.control.counters.overruns = s.control.counters.overruns ∧
          t.control.alerts.getLsbD 6 = s.control.alerts.getLsbD 6)) ∧
      (e.kind = .anchor → s.sched.anchorDone = true → t.sched.cycle = s.sched.cycle + 1 ∧
        (((imageEntries s.image).map RoundEntry.code).Nodup → ∀ x ∈ t.sched.scheduled, x.code = code → x.part = .old)) ∧
      (s.round.role ≠ .observer →
        (e.kind = .anchor → t.round.snapshot = some (.word t.sched.cycle)) ∧
        (e.kind = .roster → t.round.snapshot = some (.position s.image.settings.address)) ∧
        (e.kind = .digest → t.round.snapshot = some (.word s.control.digest)) ∧
        (e.kind = .min ∨ e.kind = .max ∨ e.kind = .any ∨ e.kind = .all →
          t.round.snapshot = s.sourceValue s.round.cycle e.source)) ∧
      (s.round.role = .observer → t.round.snapshot = s.round.snapshot)

/-- OUTCOME_DELIVERY: the round ends at this sample, and its record reaches the Result Store, the Peer Table, the Round
Scheduler, the Trip Unit and Station Control; the fault window takes its entry. What reaches the ring, an outcome or a lapse, is
offered to it exactly with the ring flag of its code's entry ON. -/
def Obligations.DeliveryReachesEveryBlock : Prop :=
  (∀ (s : State) (bit : Level), s.held = false → s.line.engine = .round → s.round.phase = .objection →
    let r := s.round.recordOf bit
    let duplicate : Prop := r.outcome = .valid ∧ ∃ v h self, r.content = .extreme v h self true
    ∃ t, exec (.outcomeDelivery bit) s = .next t ∧
      t = { s with
        line := { s.line with
          engine := .recover, suppressed := false, lrxd := bit, idleRun := 0
          lowRun := if bit = .low then min 64 (s.line.lowRun + 1) else 0
          bitTimer := samplePeriods s.image.settings.rate }
        round := {}
        sched := { (s.pendingTake r).sched with
          adhoc := (tripPosted s t (s.pendingTake r)).sched.adhoc, cycle := t.sched.cycle }
        store := ((s.storeOutcome r).pendingTake r).store
        peers := (s.peersTake r).peers
        trip := t.trip
        control := { s.control with
          window := (s.control.window <<< 1) ||| (if s.round.isFault then 1 else 0)
          alerts := t.control.alerts
          counters := { s.control.counters with
            voids := if r.outcome = .void then satInc s.control.counters.voids else s.control.counters.voids
            driveFaults := if s.line.ltxd = .low ∧ bit = .high then satInc s.control.counters.driveFaults
              else s.control.counters.driveFaults
            postsLost := (tripPosted s t (s.pendingTake r)).control.counters.postsLost
            dupAddresses := t.control.counters.dupAddresses }
          roundEnding := true
          anchorNoted := decide (s.control.station = .joining ∧ r.kind = .anchor ∧ r.outcome = .valid) } } ∧
      t.store.latest = latestAfter s.store.latest r ∧
      t.sched.scheduled = scheduledTake s.sched.scheduled r.code r.outcome ∧
      t.sched.timer = s.sched.timer ∧ t.sched.anchorDone = s.sched.anchorDone ∧ t.sched.expiries = s.sched.expiries ∧
      (r.outcome ≠ .valid ∨ r.kind ≠ .anchor → t.sched.cycle = s.sched.cycle) ∧
      (r.outcome = .valid → r.kind = .anchor → ∃ n, r.content = .count n ∧ t.sched.cycle =
        if s.control.station = .joining then n
        else if 1 ≤ (n - s.sched.cycle).toNat ∧ (n - s.sched.cycle).toNat ≤ 32767 then n else s.sched.cycle) ∧
      (∀ n : Fin 8, t.trip[n] = s.trip[n].takeOutcome s.image.rules[n] s.image.settings.expected r) ∧
      (r.outcome ≠ .valid → t.peers = s.peers) ∧
      (duplicate → t.control.counters.dupAddresses = satInc s.control.counters.dupAddresses) ∧
      (¬ duplicate → t.control.counters.dupAddresses = s.control.counters.dupAddresses) ∧
      (t.control.alerts.getLsbD 0 = true ↔ s.control.alerts.getLsbD 0 = true ∨ ∃ n, latchedBetween s t n = true) ∧
      t.control.alerts.getLsbD 1 = (s.peersTake r).control.alerts.getLsbD 1 ∧
      (t.control.alerts.getLsbD 2 = true ↔ s.control.alerts.getLsbD 2 = true ∨ r.outcome = .disagree) ∧
      (t.control.alerts.getLsbD 3 = true ↔ s.control.alerts.getLsbD 3 = true ∨ duplicate) ∧
      t.control.alerts.getLsbD 8 = ((s.storeOutcome r).pendingTake r).control.alerts.getLsbD 8 ∧
      t.control.alerts.getLsbD 9 = (tripPosted s t (s.pendingTake r)).control.alerts.getLsbD 9 ∧
      t.control.alerts.getLsbD 10 = (s.pendingTake r).control.alerts.getLsbD 10 ∧
      ∀ k, k = 4 ∨ k = 5 ∨ k = 6 ∨ k = 7 ∨ k = 11 → t.control.alerts.getLsbD k = s.control.alerts.getLsbD k) ∧
  ∀ (s : State) (r : Record),
    let ringOn : Prop := ∃ e, findRound s.image r.code = some e ∧ e.ring = true
    let replaced : State := { s with store.latest := s.store.latest.map fun e =>
      if e.code = r.code ∧ r.outcome ≠ .void ∧ r.outcome ≠ .lapsed then
        { e with last := some r.outcome, content := r.content, cycle := r.cycle, updates := e.updates + 1 }
      else e }
    (ringOn → s.storeOutcome r = replaced.offerRing r) ∧ (¬ ringOn → s.storeOutcome r = replaced) ∧
    (ringOn → s.deliverLapse r =
      { s.offerRing r with control.alerts := (s.offerRing r).control.alerts ||| 0x400 }) ∧
    (¬ ringOn → s.deliverLapse r = { s with control.alerts := s.control.alerts ||| 0x400 })

/-- ROUND_END: the one state change the round calls for, judged on the fault window; LTXD is HIGH from this boundary. -/
def Obligations.RoundEndJudgesTheWindow : Prop :=
  ∀ (s : State) (line : Level), s.held = false → s.line.engine = .recover → s.control.roundEnding = true →
    s.line.ownMark = .none → s.control.station.running = true → ∃ t, exec (.roundEnd line) s = .next t ∧
      t = { s with
        line := { s.line with ltxd := .high, lrxd := line, bitTimer := 0 }
        control := { s.control with
          roundEnding := false, anchorNoted := false, station := t.control.station, alerts := t.control.alerts } } ∧
      t.control.station = (match s.control.station with
        | .joining => if s.control.anchorNoted then (if s.faultCount < 6 then .active else .silent) else .joining
        | .active => if 6 ≤ s.faultCount then .silent else .active
        | .silent => if s.faultCount ≤ 1 then .active else .silent
        | x => x) ∧
      t.control.alerts = (if t.control.station = .silent ∧ s.control.station ≠ .silent then s.control.alerts ||| 0x020
        else s.control.alerts)

/-- BIT_BOUNDARY, LRXD_FALLING_EDGE and BEGIN_START_MARK: a boundary restarts the bit timer and LTXD takes its level. The
station begins a start mark at a boundary exactly where R11's conditions hold, with the lowest startable code, and pulls the
mark's second bit at the next; after a failed first bit the next boundary pulls nothing (R16; the model's reading, log entry
12). A falling edge is a boundary with the line LOW. Where no start mark may begin, BEGIN_START_MARK changes nothing (the model's
choice, log entry 5). -/
def Obligations.BoundariesDriveTheLine : Prop :=
  ∀ (s : State) (line : Level),
    let placed (lv : Level) (mark : OwnMark) (level : Level) : State :=
      { s with line := { s.line with lrxd := lv, bitTimer := 0, ownMark := mark, ltxd := level } }
    let driven : Level := match s.control.station, s.line.engine, s.line.ownMark with
      | .active, .idle, .own _ => .low
      | .active, .round, _ => roundDrive s.round s.line.suppressed s.image.settings.address
      | _, _, _ => .high
    (s.held = true ∨ s.line.engine = .off → exec (.bitBoundary line) s = .next s ∧ exec .lrxdFallingEdge s = .next s) ∧
    (s.control.roundEnding = true → exec (.bitBoundary line) s = exec (.roundEnd line) s) ∧
    (s.held = false → s.line.engine ≠ .off → s.control.roundEnding = false →
      (s.line.ownMark = .failed → exec (.bitBoundary line) s = .next (placed line .none .high) ∧
        exec .lrxdFallingEdge s = .next (placed .low .none .high)) ∧
      (s.mayBegin line → ∀ c, mayStart s.sched c → (∀ d, mayStart s.sched d → c ≤ d) →
        exec (.bitBoundary line) s = .next (placed line (.own c) .low)) ∧
      (s.line.ownMark ≠ .failed → ¬ (s.mayBegin line ∧ ∃ c, mayStart s.sched c) →
        exec (.bitBoundary line) s = .next (placed line s.line.ownMark driven)) ∧
      (s.line.ownMark ≠ .failed → exec .lrxdFallingEdge s = .next (placed .low s.line.ownMark driven))) ∧
    (line = .low → exec .lrxdFallingEdge s = exec (.bitBoundary line) s) ∧
    (s.mayBegin .high → (∃ c, mayStart s.sched c) → exec .beginStartMark s = exec (.bitBoundary .high) s) ∧
    (¬ (s.mayBegin .high ∧ ∃ c, mayStart s.sched c) → exec .beginStartMark s = .next s) ∧
    (s.held = false → s.control.roundEnding = false → s.mayBegin .high → ∀ c, offered s.sched = some c →
      exec .beginStartMark s = .next { s with
        line := { s.line with lrxd := .high, bitTimer := 0, ownMark := .own c, ltxd := .low } } ∧
      mayStart s.sched c ∧ ∀ d, mayStart s.sched d → c ≤ d) ∧
    (offered s.sched = none ↔ ¬ ∃ c, mayStart s.sched c)

/-- FRAME_OPEN, SCK_EDGE and FRAME_END on the wires: opening empties the request buffer and presents the response's first
bit, a rising SCK takes MOSI, a falling one presents the next bit, and a frame that is none of the port's is ignored. The bits
presented are those of the status byte, the length, the payload and their check byte, then zeros. The model's choices and readings:
outside the port's frames MISO keeps its last level (log entry 9), an SCK_EDGE outside a frame or without a change of SCK moves
the wires SCK and MOSI alone (log entry 24), and a FRAME_OPEN with CSN LOW or a FRAME_END with CSN HIGH changes nothing (log
entry 5). -/
def Obligations.FrameWiresMoveBits : Prop :=
  (∀ (r : Response) (k : Nat),
    let body : List Byte := statusByte r.status :: BitVec.ofNat 8 r.payload.length :: r.payload
    r.bit k = ((body ++ [crc8 body]).getD (k / 8) 0).getMsbD (k % 8)) ∧
  [Status.ok, .merged, .resetDone, .badFrame, .unknownCommand, .badArgument, .wrongState, .busy, .full, .conditionHolds,
    .imageInvalid].map statusByte = [0x00, 0x01, 0x02, 0x80, 0x81, 0x82, 0x83, 0x84, 0x85, 0x86, 0x87] ∧
  ∀ s : State,
    (s.held = false → s.port.csn = .high → exec .frameOpen s = .next { s with port := { s.port with
      csn := .low, frameOpen := true, buffer := [], bits := [], shifted := 0
      miso := Level.ofBit ((statusByte s.port.slot.status).getMsbD 0) } }) ∧
    (s.held = true → s.port.csn = .high → exec .frameOpen s = .next { s with port.csn := .low }) ∧
    (s.held = false → s.port.frameOpen = true → s.port.sck = .low → ∀ mosi,
      (s.port.bits.length < 7 → exec (.sckEdge .high mosi) s = .next { s with port := { s.port with
        sck := .high, mosi := mosi, bits := s.port.bits ++ [mosi.bit] } }) ∧
      (s.port.bits.length = 7 → exec (.sckEdge .high mosi) s = .next { s with port := { s.port with
        sck := .high, mosi := mosi, bits := [], buffer := s.port.buffer ++ [byteOfBits (s.port.bits ++ [mosi.bit])] } })) ∧
    (s.held = false → s.port.frameOpen = true → s.port.sck = .high → ∀ mosi,
      exec (.sckEdge .low mosi) s = .next { s with port := { s.port with
        sck := .low, mosi := mosi, shifted := s.port.shifted + 1
        miso := Level.ofBit (s.port.slot.bit (s.port.shifted + 1)) } }) ∧
    (∀ sck mosi, s.port.frameOpen = false ∨ s.held = true ∨ s.port.sck = sck →
      exec (.sckEdge sck mosi) s = .next { s with port := { s.port with sck := sck, mosi := mosi } }) ∧
    (s.port.frameOpen = false ∨ s.held = true → s.port.csn = .low →
      exec .frameEnd s = .next { s with port := { s.port with csn := .high, frameOpen := false, buffer := [], bits := [] } }) ∧
    (s.port.csn = .low → exec .frameOpen s = .next s) ∧ (s.port.csn = .high → exec .frameEnd s = .next s)

/-- FRAME_END of a frame whose buffer holds a command's bytes, whatever follows its check byte, is that command taken; a
buffer too short, with a length above 120, or with a wrong check byte leaves BAD_FRAME and nothing else; a command byte that
names no command leaves UNKNOWN_COMMAND, and a payload that is not as long as its command's leaves BAD_ARGUMENT, or WRONG_STATE or BUSY where the
station state gates the command. MISO keeps its last level once the frame is closed (the model's choice, log entry 9). -/
def Obligations.FrameEndTakesTheRequest : Prop :=
  ∀ s : State, s.held = false → s.port.csn = .low → s.port.frameOpen = true →
    let closed := { s with port := { s.port with csn := .high, frameOpen := false, buffer := [], bits := [] } }
    (∀ c command payload extra, requestOf c = some (command, payload) →
      s.port.buffer = frameBytes command payload ++ extra → exec .frameEnd s = exec c closed) ∧
    ((∀ command payload extra, payload.length ≤ 120 → s.port.buffer ≠ frameBytes command payload ++ extra) →
      exec .frameEnd s = .next { closed with port.slot := { status := .badFrame, payload := [] } }) ∧
    (∀ command payload extra, payload.length ≤ 120 → s.port.buffer = frameBytes command payload ++ extra →
      (∀ c p, requestOf c ≠ some (command, p)) →
      exec .frameEnd s = .next { closed with port.slot := { status := .unknownCommand, payload := [] } }) ∧
    (∀ c command p payload extra, requestOf c = some (command, p) → payload.length ≠ p.length → payload.length ≤ 120 →
      s.port.buffer = frameBytes command payload ++ extra →
      (everyStateCommand c = true ∨ (configCommand c = true ∧ s.control.station = .config) ∨
          (runCommand c = true ∧ s.control.station.running = true) →
        exec .frameEnd s = .next { closed with port.slot := { status := .badArgument, payload := [] } }) ∧
      ((configCommand c = true ∧ s.control.station.running = true) ∨ (runCommand c = true ∧ s.control.station = .config) →
        exec .frameEnd s = .next { closed with port.slot := { status := .wrongState, payload := [] } }) ∧
      (configCommand c = true ∨ runCommand c = true → s.control.station = .committing →
        exec .frameEnd s = .next { closed with port.slot := { status := .busy, payload := [] } }))

/-- A whole frame on the wires carries a command: from CSN HIGH and SCK LOW, the edges that clock in a command's bytes and the
rising edge of CSN come to exactly that command, taken by a port whose wires stand where the frame left them. -/
def Obligations.WholeFrameTakesTheCommand : Prop :=
  ∀ (s : State) (c : Instr) (command : Byte) (payload : List Byte), s.held = false → s.port.csn = .high → s.port.sck = .low →
    requestOf c = some (command, payload) →
    ∃ mosi miso shifted,
      (frameEvents (frameBytes command payload)).foldl
        (fun o e => match o with | .next t => exec e t | x => x) (Host.Outcome.next s : Host.Outcome State Fault Refusal) =
      exec c { s with port := { s.port with
        mosi := mosi, miso := miso, shifted := shifted, frameOpen := false, buffer := [], bits := [] } }

/-- The numbers sent in MIN, MAX and ANCHOR rounds decode to what was sent, and the smaller number on the line is the extreme
that the kind seeks. -/
def Obligations.NumbersOnTheLine : Prop :=
  (∀ v : Int, -32768 ≤ v → v ≤ 32767 →
    decodeMin (encodeNumber .min (.number v)) = v ∧ decodeMax (encodeNumber .max (.number v)) = v ∧
    (encodeNumber .min (.number v)).toNat = v + 32768 ∧ (encodeNumber .max (.number v)).toNat = 32767 - v ∧
    encodeNumber .max (.number v) = ~~~ encodeNumber .min (.number v)) ∧
  (∀ v w : Int, -32768 ≤ v → v < w → w ≤ 32767 →
    encodeNumber .min (.number v) < encodeNumber .min (.number w) ∧
    encodeNumber .max (.number w) < encodeNumber .max (.number v)) ∧
  ∀ c : Word, ~~~ encodeNumber .anchor (.word c) = c ∧ (encodeNumber .anchor (.word c)).toNat = 65535 - c.toNat ∧
    ~~~ encodeNumber .any (.word c) = c ∧ encodeNumber .all (.word c) = c

/-- What each role drives: an observer and a suppressed station leave every bit HIGH, but for a suppressed participant's
objection; a starter pulls the 0 bits of its code and a joiner none; in the body a contributor pulls the presence bit, a
contender the 0 bits of its number, its address and its nonce, a sender those of its word, of its digest and of the inverse of
its digest, and the dissent bit with a difference; a participant pulls the 0 bits of its check value, and the objection bit
exactly with an objection cause. Body bits are counted from 0. -/
def Obligations.RolesDriveTheirFields : Prop :=
  ∀ (r : Round) (suppressed : Bool) (address : Address),
    (r.role = .observer → roundDrive r suppressed address = .high) ∧
    (r.phase ≠ .objection → roundDrive r true address = .high) ∧
    (r.phase = .objection → r.role ≠ .observer →
      (roundDrive r suppressed address = .low ↔ r.cause ≠ .none)) ∧
    (r.phase = .code → r.role = .joiner → roundDrive r suppressed address = .high) ∧
    (r.phase = .code → r.role = .starter → (roundDrive r false address = .low ↔ r.ownCode.getMsbD r.pos = false)) ∧
    (r.phase = .check → r.role ≠ .observer → (roundDrive r false address = .low ↔ r.check.getMsbD r.pos = false)) ∧
    (r.phase = .body → r.pos = 0 → r.kind ≠ .roster → r.role ≠ .observer →
      (roundDrive r false address = .low ↔ r.snapshot ≠ none)) ∧
    (r.phase = .body → r.role ≠ .observer → 1 ≤ r.pos → r.pos ≤ 16 →
      (r.kind = .min ∨ r.kind = .max ∨ r.kind = .anchor →
        (r.contender = false → roundDrive r false address = .high) ∧
        ∀ x, r.snapshot = some x → r.contender = true →
          (roundDrive r false address = .low ↔ (encodeNumber r.kind x).getMsbD (r.pos - 1) = false)) ∧
      (r.kind = .any ∨ r.kind = .all ∨ r.kind = .digest →
        (r.sender = false → roundDrive r false address = .high) ∧
        ∀ w, r.snapshot = some (.word w) → r.sender = true →
          (roundDrive r false address = .low ↔ w.getMsbD (r.pos - 1) = decide (r.kind = .any)))) ∧
    (r.phase = .body → r.role ≠ .observer → r.kind = .min ∨ r.kind = .max →
      (17 ≤ r.pos → r.pos ≤ 21 →
        (roundDrive r false address = .low ↔ r.contender = true ∧ address.getMsbD (r.pos - 17) = false)) ∧
      (22 ≤ r.pos → r.pos ≤ 25 →
        (roundDrive r false address = .low ↔ r.contender = true ∧ r.nonce.getMsbD (r.pos - 22) = false))) ∧
    (r.phase = .body → r.role ≠ .observer → r.kind = .digest →
      (17 ≤ r.pos → r.pos ≤ 32 → (r.sender = false → roundDrive r false address = .high) ∧
        ∀ w, r.snapshot = some (.word w) → r.sender = true →
          (roundDrive r false address = .low ↔ w.getMsbD (r.pos - 17) = true)) ∧
      (r.pos = 33 → (roundDrive r false address = .low ↔ r.sender = true ∧ r.differs = true))) ∧
    (r.phase = .body → r.kind = .roster → r.role ≠ .observer → r.pos < 32 → ∀ a, r.snapshot = some (.position a) →
      (roundDrive r false address = .low ↔ r.pos = a.toNat))

/-- The check accumulator takes in every code and body bit, most significant first, by the polynomial x^8 + x^2 + x + 1, and
no bit of the check field or the objection; a request's check byte is formed in the same way. -/
def Obligations.CheckTakesCodeAndBody : Prop :=
  (∀ (acc : Byte) (b : Bool), crc8Bit acc b =
    (acc <<< 1) ^^^ (if acc.getLsbD 7 = b then 0 else 0x07)) ∧
  (∀ (r : Round) (f : Field) (bit : Level) (fault suppressed : Bool) (address : Address) (digest : Word),
    r.field = some f → (r.takeBit f bit fault suppressed address digest).check =
      if r.phase = .code ∨ r.phase = .body then crc8Bit r.check (bit == .high) else r.check) ∧
  ∀ bytes : List Byte, crc8 bytes = bytes.foldl (fun acc b => (List.range 8).foldl (fun a k => crc8Bit a (b.getMsbD k)) acc) 0xFF

/-- The outcome at the objection bit, case by case, with the fault window entry and the content of the record. -/
def Obligations.OutcomeByCases : Prop :=
  ∀ (r : Round) (bit : Level),
    (bit = .low → r.outcome bit = .void) ∧
    (bit = .high → r.role = .observer → r.mismatch = true → r.outcome bit = .void) ∧
    (bit = .high → r.role ≠ .observer ∨ r.mismatch = false →
      (r.kind = .roster → r.outcome bit = if r.set = 0 then .empty else .valid) ∧
      (r.kind ≠ .roster → r.presence = false → r.outcome bit = .empty) ∧
      (r.kind = .digest → r.presence = true → r.outcome bit = if r.dissent then .disagree else .agree) ∧
      (r.kind ≠ .roster → r.kind ≠ .digest → r.presence = true → r.outcome bit = .valid)) ∧
    (r.isFault = true ↔ (r.role ≠ .observer ∧ r.cause ≠ .none) ∨ (r.role = .observer ∧ r.mismatch = true)) ∧
    (r.outcome bit = .void ∨ r.outcome bit = .empty → (r.recordOf bit).content = .none) ∧
    (r.outcome bit = .valid → (r.recordOf bit).content = match r.kind with
      | .min => .extreme ((r.number.toNat : Int) - 32768) r.address r.contender r.lostInNonce
      | .max => .extreme (32767 - (r.number.toNat : Int)) r.address r.contender r.lostInNonce
      | .anchor => .count (65535 - r.number)
      | .any => .word (~~~r.number)
      | .all => .word r.number
      | .roster => .set r.set
      | .digest => .none) ∧
    (r.outcome bit = .agree ∨ r.outcome bit = .disagree → (r.recordOf bit).content = .digest r.number r.differs) ∧
    (r.recordOf bit).code = r.codeRead ∧ (r.recordOf bit).kind = r.kind ∧ (r.recordOf bit).cycle = r.cycle

/-- What a bit read does in its field: every field is read most significant bit first, a starter that sent 1 and read LOW joins,
a contributor that reads its presence LOW is a sender and where there is contention a contender (none after a drive fault: the
model's reading, log entry 13), a contender drops out at a 1 it sent that reads LOW or at a drive fault, only a drop-out in the
nonce is lost in nonce, a sender or an observer of a DIGEST finds a difference where its own bit is 1 and the line reads LOW, and
the first objection cause found is kept. A suppressed starter stays a starter (the model's reading, log entry 20). A ROSTER
position read LOW enters the set. What a field does not concern stands. The place of each field in the round, and the next place
after a bit. -/
def Obligations.FieldsFollowTheBits : Prop :=
  ∀ (r : Round) (f : Field) (bit : Level) (fault suppressed : Bool) (address : Address) (digest : Word), r.field = some f →
    let t := r.takeBit f bit fault suppressed address digest
    let one : Word := if bit = .high then 1 else 0
    let bodyLength : Nat := match r.kind with
      | .anchor | .any | .all => 17
      | .min | .max => 26
      | .roster => 32
      | .digest => 34
    ((r.phase = .code → f = .code r.pos) ∧ (r.phase = .check → f = .check r.pos) ∧ (r.phase = .objection → f = .objection) ∧
      (r.phase = .body →
        (r.kind = .roster → f = .position r.pos) ∧ (r.kind ≠ .roster → r.pos = 0 → f = .presence) ∧
        (r.kind ≠ .roster → 1 ≤ r.pos → r.pos ≤ 16 → f = .number (r.pos - 1)) ∧
        (r.kind = .min ∨ r.kind = .max →
          (17 ≤ r.pos → r.pos ≤ 21 → f = .address (r.pos - 17)) ∧ (22 ≤ r.pos → r.pos ≤ 25 → f = .nonce (r.pos - 22))) ∧
        (r.kind = .digest →
          (17 ≤ r.pos → r.pos ≤ 32 → f = .inverted (r.pos - 17)) ∧ (r.pos = 33 → f = .dissent)))) ∧
    ((r.phase = .code → t.phase = .code ∧ t.pos = r.pos + 1) ∧
      (r.phase = .body → r.pos + 1 ≠ bodyLength → t.phase = .body ∧ t.pos = r.pos + 1) ∧
      (r.phase = .body → r.pos + 1 = bodyLength → t.phase = .check ∧ t.pos = 0) ∧
      (r.phase = .check → r.pos ≠ 7 → t.phase = .check ∧ t.pos = r.pos + 1) ∧
      (r.phase = .check → r.pos = 7 → t.phase = .objection ∧ t.pos = 0)) ∧
    ((∀ k, f ≠ .code k) ∨ r.role ≠ .starter ∨ suppressed = true → t.role = r.role) ∧
    (∀ k, f = .position k → ∀ j < 32, t.set.getLsbD j = (r.set.getLsbD j || decide (j = k ∧ bit = .low))) ∧
    ((∀ k, f ≠ .position k) → t.set = r.set) ∧
    ((∀ k, f ≠ .number k) → (∀ k, f ≠ .address k) → (∀ k, f ≠ .nonce k) → f ≠ .presence ∨ bit = .high →
      t.contender = r.contender) ∧
    (t.kind = r.kind ∧ t.cycle = r.cycle ∧ t.ownCode = r.ownCode ∧ t.snapshot = r.snapshot ∧ t.nonce = r.nonce) ∧
    (∀ k, f = .code k → t.codeRead = (r.codeRead <<< 1) ||| one.setWidth 6) ∧ ((∀ k, f ≠ .code k) → t.codeRead = r.codeRead) ∧
    (∀ k, f = .address k → t.address = (r.address <<< 1) ||| one.setWidth 5) ∧
    ((∀ k, f ≠ .address k) → t.address = r.address) ∧
    (∀ k, f = .nonce k → t.nonceRead = (r.nonceRead <<< 1) ||| one.setWidth 4) ∧
    ((∀ k, f ≠ .nonce k) → t.nonceRead = r.nonceRead) ∧
    (∀ k, f = .inverted k → t.inverted = (r.inverted <<< 1) ||| one) ∧ ((∀ k, f ≠ .inverted k) → t.inverted = r.inverted) ∧
    ((∀ k, f ≠ .number k) → t.number = r.number) ∧
    (f = .presence → bit = .low → t.presence = true ∧ (t.sender = true ↔ r.role ≠ .observer ∧ r.snapshot ≠ none) ∧
      (t.contender = true ↔ r.role ≠ .observer ∧ r.snapshot ≠ none ∧ (r.kind = .min ∨ r.kind = .max ∨ r.kind = .anchor) ∧
        suppressed = false)) ∧
    (f ≠ .presence ∨ bit = .high → t.presence = r.presence ∧ t.sender = r.sender ∧
      (r.contender = false → t.contender = false)) ∧
    (f = .dissent → t.dissent = decide (bit = .low)) ∧ (f ≠ .dissent → t.dissent = r.dissent) ∧
    (t.differs = true ↔ r.differs = true ∨ (r.sender = true ∨ r.role = .observer) ∧ bit = .low ∧ r.kind = .digest ∧
      ((∃ k, f = .number k ∧ digest.getMsbD k = true) ∨ ∃ k, f = .inverted k ∧ digest.getMsbD k = false)) ∧
    (∀ k, f = .number k → t.number = (r.number <<< 1) ||| one) ∧
    (∀ k, f = .code k → r.role = .starter → suppressed = false →
      t.role = if r.ownCode.getMsbD k = true ∧ bit = .low then .joiner else .starter) ∧
    (∀ k x, f = .number k → r.snapshot = some x → r.contender = true → r.kind ≠ .digest →
      (t.contender = true ↔ fault = false ∧ ¬((encodeNumber r.kind x).getMsbD k = true ∧ bit = .low))) ∧
    (∀ k, f = .address k → r.contender = true →
      (t.contender = true ↔ fault = false ∧ ¬(address.getMsbD k = true ∧ bit = .low))) ∧
    (∀ k, f = .nonce k → r.contender = true →
      (t.contender = true ↔ fault = false ∧ ¬(r.nonce.getMsbD k = true ∧ bit = .low))) ∧
    (t.lostInNonce = true ↔ r.lostInNonce = true ∨
      ∃ k, f = .nonce k ∧ r.contender = true ∧ fault = false ∧ r.nonce.getMsbD k = true ∧ bit = .low) ∧
    (r.role ≠ .observer → t.cause =
      if r.cause ≠ .none then r.cause
      else if fault = true then .driveFault
      else if r.phase = .check ∧ r.check.getMsbD r.pos = true ∧ bit = .low then .checkDisagreement
      else .none) ∧
    (r.role = .observer → t.cause = r.cause ∧
      (t.mismatch = true ↔ r.mismatch = true ∨ (r.phase = .check ∧ bit.bit ≠ r.check.getMsbD r.pos)))

/-- The set of a ROSTER round is the set of addresses whose position bits read LOW, whatever was read: 32 bits bring the body
to its end, and then the check field. -/
def Obligations.RosterReadsTheSet : Prop :=
  ∀ (r : Round) (bits : List Level) (address : Address) (digest : Word), r.phase = .body → r.kind = .roster → r.pos = 0 →
    r.set = 0 → bits.length = 32 →
    let t := bits.foldl (fun x b => match x.field with
      | some f => x.takeBit f b false false address digest
      | none => x) r
    t.phase = .check ∧ t.pos = 0 ∧ ∀ k : Fin 32, t.set.getLsbD k.val = (bits[k.val]? == some .low)

/-- The station pulls the line only while it is ACTIVE: every step keeps this. -/
def Obligations.StepDrivesOnlyActive : Prop :=
  ∀ s t : State, s.DrivesOnlyActive → step s = .next t → t.DrivesOnlyActive

/-- In CONFIG and COMMITTING every block stands at its reset values, and a station held in reset stands at those of a hard
reset: every step keeps this. -/
def Obligations.StepKeepsBlocksAtRest : Prop :=
  ∀ s t : State, s.BlocksFollowStation → s.HeldAtReset → step s = .next t → t.BlocksFollowStation ∧ t.HeldAtReset

/-- The image holds only values in range, outside CONFIG it has passed validation, and the digest of a running station is its
image's: every step keeps this. -/
def Obligations.StepKeepsImageSound : Prop :=
  ∀ s t : State, s.HeldAtReset → s.BlocksFollowStation → s.ImageSound → step s = .next t → t.ImageSound

/-- The pending sets hold each code once, in their ranges, and only codes of the committed table: every step keeps this. -/
def Obligations.StepKeepsPendingSound : Prop :=
  ∀ s t : State, s.BlocksFollowStation → s.HeldAtReset → s.ImageSound → s.LineSound → s.PendingSound → step s = .next t →
    t.PendingSound

/-- The line engine, its run counters and the place in the round agree: every step keeps this. -/
def Obligations.StepKeepsLineSound : Prop :=
  ∀ s t : State, s.BlocksFollowStation → s.LineSound → step s = .next t → t.LineSound

/-- Every trip rule's counts and trip data agree with its state, and every peer entry's absence count with its own: every
step keeps this. -/
def Obligations.StepKeepsTripsAndPeersSound : Prop :=
  ∀ s t : State, s.BlocksFollowStation → s.HeldAtReset → s.ImageSound → s.TripsSound → s.PeersSound → step s = .next t →
    t.TripsSound ∧ t.PeersSound

/-- A valid slot result holds what its raw code gives, and the scan engine converts only slots that scans take: every step
keeps this. -/
def Obligations.StepKeepsSlotsSound : Prop :=
  ∀ s t : State, s.BlocksFollowStation → s.SlotsSound → step s = .next t → t.SlotsSound

/-- Confinement by the fault window: every step keeps it. -/
def Obligations.StepKeepsConfinement : Prop :=
  ∀ s t : State, s.BlocksFollowStation → s.ConfinementSound → step s = .next t → t.ConfinementSound

/-- The ring holds at most 32 records and the latest table is the round table's; the cycle timer stays below L × 1000 µs, the
timer of the digest computation below 1000 µs and the crystal phase below 8; the port holds fewer than eight bits of an incomplete
byte, and a frame is open only with CSN LOW: every step keeps this. -/
def Obligations.StepKeepsStoreAndTimersSound : Prop :=
  ∀ s t : State, s.BlocksFollowStation → s.HeldAtReset → s.ImageSound → s.StoreSound → s.TimersSound → step s = .next t →
    t.StoreSound ∧ t.TimersSound

/-- The machine right after reset: CONFIG with cause HARD, RESET_DONE in the slot, LTXD HIGH, both TRIP outputs deasserted and
ALERTN released, and every property that steps keep holds. -/
def Obligations.ResetIsSound : Prop :=
  State.reset.control = {} ∧ State.reset.image = defaultImage ∧ State.reset.line.engine = .off ∧
  State.reset.port.slot = { status := .resetDone, payload := [0] } ∧ State.reset.line.ltxd = .high ∧
  State.reset.tripOutput .trip0 = false ∧ State.reset.tripOutput .trip1 = false ∧ State.reset.alertn = .high ∧
  State.reset.pending = [] ∧
  State.reset.DrivesOnlyActive ∧ State.reset.BlocksFollowStation ∧ State.reset.HeldAtReset ∧ State.reset.ImageSound ∧
  State.reset.PendingSound ∧ State.reset.LineSound ∧ State.reset.TripsSound ∧ State.reset.PeersSound ∧
  State.reset.SlotsSound ∧ State.reset.ConfinementSound ∧ State.reset.StoreSound ∧ State.reset.TimersSound

end Statements
end

