-- ==== Sys2Proof/Laws/State.lean ====
section
/-! SUPPORT. What each named update of the state does to each field, true by definition: later proofs simplify with these and
never unfold an update. -/

namespace Sys2Proof.Machine

@[simp] theorem State.setCause_resetn (s : State) (c : Cause) : (s.setCause c).resetn = s.resetn := rfl

@[simp] theorem State.setCause_clock (s : State) (c : Cause) : (s.setCause c).clock = s.clock := rfl

@[simp] theorem State.setCause_line (s : State) (c : Cause) : (s.setCause c).line = s.line := rfl

@[simp] theorem State.setCause_round (s : State) (c : Cause) : (s.setCause c).round = s.round := rfl

@[simp] theorem State.setCause_sched (s : State) (c : Cause) : (s.setCause c).sched = s.sched := rfl

@[simp] theorem State.setCause_meas (s : State) (c : Cause) : (s.setCause c).meas = s.meas := rfl

@[simp] theorem State.setCause_source (s : State) (c : Cause) : (s.setCause c).source = s.source := rfl

@[simp] theorem State.setCause_store (s : State) (c : Cause) : (s.setCause c).store = s.store := rfl

@[simp] theorem State.setCause_peers (s : State) (c : Cause) : (s.setCause c).peers = s.peers := rfl

@[simp] theorem State.setCause_trip (s : State) (c : Cause) : (s.setCause c).trip = s.trip := rfl

@[simp] theorem State.setCause_control (s : State) (c : Cause) : (s.setCause c).control = { s.control with alerts := s.control.alerts ||| (1#12 <<< c.position) } := rfl

@[simp] theorem State.setCause_port (s : State) (c : Cause) : (s.setCause c).port = s.port := rfl

@[simp] theorem State.setCause_image (s : State) (c : Cause) : (s.setCause c).image = s.image := rfl

@[simp] theorem State.setCause_kept (s : State) (c : Cause) : (s.setCause c).kept = s.kept := rfl

@[simp] theorem State.setCause_pending (s : State) (c : Cause) : (s.setCause c).pending = s.pending := rfl

@[simp] theorem State.bump_resetn (s : State) (k : Counter) : (s.bump k).resetn = s.resetn := rfl

@[simp] theorem State.bump_clock (s : State) (k : Counter) : (s.bump k).clock = s.clock := rfl

@[simp] theorem State.bump_line (s : State) (k : Counter) : (s.bump k).line = s.line := rfl

@[simp] theorem State.bump_round (s : State) (k : Counter) : (s.bump k).round = s.round := rfl

@[simp] theorem State.bump_sched (s : State) (k : Counter) : (s.bump k).sched = s.sched := rfl

@[simp] theorem State.bump_meas (s : State) (k : Counter) : (s.bump k).meas = s.meas := rfl

@[simp] theorem State.bump_source (s : State) (k : Counter) : (s.bump k).source = s.source := rfl

@[simp] theorem State.bump_store (s : State) (k : Counter) : (s.bump k).store = s.store := rfl

@[simp] theorem State.bump_peers (s : State) (k : Counter) : (s.bump k).peers = s.peers := rfl

@[simp] theorem State.bump_trip (s : State) (k : Counter) : (s.bump k).trip = s.trip := rfl

@[simp] theorem State.bump_control (s : State) (k : Counter) : (s.bump k).control = { s.control with counters := s.control.counters.bump k } := rfl

@[simp] theorem State.bump_port (s : State) (k : Counter) : (s.bump k).port = s.port := rfl

@[simp] theorem State.bump_image (s : State) (k : Counter) : (s.bump k).image = s.image := rfl

@[simp] theorem State.bump_kept (s : State) (k : Counter) : (s.bump k).kept = s.kept := rfl

@[simp] theorem State.bump_pending (s : State) (k : Counter) : (s.bump k).pending = s.pending := rfl

@[simp] theorem State.setFlags_resetn (s : State) (b : Word) : (s.setFlags b).resetn = s.resetn := rfl

@[simp] theorem State.setFlags_clock (s : State) (b : Word) : (s.setFlags b).clock = s.clock := rfl

@[simp] theorem State.setFlags_line (s : State) (b : Word) : (s.setFlags b).line = s.line := rfl

@[simp] theorem State.setFlags_round (s : State) (b : Word) : (s.setFlags b).round = s.round := rfl

@[simp] theorem State.setFlags_sched (s : State) (b : Word) : (s.setFlags b).sched = s.sched := rfl

@[simp] theorem State.setFlags_meas (s : State) (b : Word) : (s.setFlags b).meas = s.meas := rfl

@[simp] theorem State.setFlags_source (s : State) (b : Word) : (s.setFlags b).source = { s.source with flags := s.source.flags ||| b } := rfl

@[simp] theorem State.setFlags_store (s : State) (b : Word) : (s.setFlags b).store = s.store := rfl

@[simp] theorem State.setFlags_peers (s : State) (b : Word) : (s.setFlags b).peers = s.peers := rfl

@[simp] theorem State.setFlags_trip (s : State) (b : Word) : (s.setFlags b).trip = s.trip := rfl

@[simp] theorem State.setFlags_control (s : State) (b : Word) : (s.setFlags b).control = s.control := rfl

@[simp] theorem State.setFlags_port (s : State) (b : Word) : (s.setFlags b).port = s.port := rfl

@[simp] theorem State.setFlags_image (s : State) (b : Word) : (s.setFlags b).image = s.image := rfl

@[simp] theorem State.setFlags_kept (s : State) (b : Word) : (s.setFlags b).kept = s.kept := rfl

@[simp] theorem State.setFlags_pending (s : State) (b : Word) : (s.setFlags b).pending = s.pending := rfl

@[simp] theorem State.respond_resetn (s : State) (st : Status) (p : List Byte) : (s.respond st p).resetn = s.resetn := rfl

@[simp] theorem State.respond_clock (s : State) (st : Status) (p : List Byte) : (s.respond st p).clock = s.clock := rfl

@[simp] theorem State.respond_line (s : State) (st : Status) (p : List Byte) : (s.respond st p).line = s.line := rfl

@[simp] theorem State.respond_round (s : State) (st : Status) (p : List Byte) : (s.respond st p).round = s.round := rfl

@[simp] theorem State.respond_sched (s : State) (st : Status) (p : List Byte) : (s.respond st p).sched = s.sched := rfl

@[simp] theorem State.respond_meas (s : State) (st : Status) (p : List Byte) : (s.respond st p).meas = s.meas := rfl

@[simp] theorem State.respond_source (s : State) (st : Status) (p : List Byte) : (s.respond st p).source = s.source := rfl

@[simp] theorem State.respond_store (s : State) (st : Status) (p : List Byte) : (s.respond st p).store = s.store := rfl

@[simp] theorem State.respond_peers (s : State) (st : Status) (p : List Byte) : (s.respond st p).peers = s.peers := rfl

@[simp] theorem State.respond_trip (s : State) (st : Status) (p : List Byte) : (s.respond st p).trip = s.trip := rfl

@[simp] theorem State.respond_control (s : State) (st : Status) (p : List Byte) : (s.respond st p).control = s.control := rfl

@[simp] theorem State.respond_port (s : State) (st : Status) (p : List Byte) : (s.respond st p).port = { s.port with slot := { status := st, payload := p } } := rfl

@[simp] theorem State.respond_image (s : State) (st : Status) (p : List Byte) : (s.respond st p).image = s.image := rfl

@[simp] theorem State.respond_kept (s : State) (st : Status) (p : List Byte) : (s.respond st p).kept = s.kept := rfl

@[simp] theorem State.respond_pending (s : State) (st : Status) (p : List Byte) : (s.respond st p).pending = s.pending := rfl

@[simp] theorem State.countLoss_resetn (s : State) : (s.countLoss).resetn = s.resetn := rfl

@[simp] theorem State.countLoss_clock (s : State) : (s.countLoss).clock = s.clock := rfl

@[simp] theorem State.countLoss_line (s : State) : (s.countLoss).line = s.line := rfl

@[simp] theorem State.countLoss_round (s : State) : (s.countLoss).round = s.round := rfl

@[simp] theorem State.countLoss_sched (s : State) : (s.countLoss).sched = s.sched := rfl

@[simp] theorem State.countLoss_meas (s : State) : (s.countLoss).meas = s.meas := rfl

@[simp] theorem State.countLoss_source (s : State) : (s.countLoss).source = s.source := rfl

@[simp] theorem State.countLoss_store (s : State) : (s.countLoss).store = { s.store with lost := satInc s.store.lost } := rfl

@[simp] theorem State.countLoss_peers (s : State) : (s.countLoss).peers = s.peers := rfl

@[simp] theorem State.countLoss_trip (s : State) : (s.countLoss).trip = s.trip := rfl

@[simp] theorem State.countLoss_control (s : State) : (s.countLoss).control = { s.control with alerts := s.control.alerts ||| (1#12 <<< Cause.ringLost.position) } := rfl

@[simp] theorem State.countLoss_port (s : State) : (s.countLoss).port = s.port := rfl

@[simp] theorem State.countLoss_image (s : State) : (s.countLoss).image = s.image := rfl

@[simp] theorem State.countLoss_kept (s : State) : (s.countLoss).kept = s.kept := rfl

@[simp] theorem State.countLoss_pending (s : State) : (s.countLoss).pending = s.pending := rfl

@[simp] theorem State.reportPeerLost_resetn (s : State) : (s.reportPeerLost).resetn = s.resetn := rfl

@[simp] theorem State.reportPeerLost_clock (s : State) : (s.reportPeerLost).clock = s.clock := rfl

@[simp] theorem State.reportPeerLost_line (s : State) : (s.reportPeerLost).line = s.line := rfl

@[simp] theorem State.reportPeerLost_round (s : State) : (s.reportPeerLost).round = s.round := rfl

@[simp] theorem State.reportPeerLost_sched (s : State) : (s.reportPeerLost).sched = s.sched := rfl

@[simp] theorem State.reportPeerLost_meas (s : State) : (s.reportPeerLost).meas = s.meas := rfl

@[simp] theorem State.reportPeerLost_source (s : State) : (s.reportPeerLost).source = s.source := rfl

@[simp] theorem State.reportPeerLost_store (s : State) : (s.reportPeerLost).store = s.store := rfl

@[simp] theorem State.reportPeerLost_peers (s : State) : (s.reportPeerLost).peers = { s.peers with losses := satInc s.peers.losses } := rfl

@[simp] theorem State.reportPeerLost_trip (s : State) : (s.reportPeerLost).trip = s.trip := rfl

@[simp] theorem State.reportPeerLost_control (s : State) : (s.reportPeerLost).control = { s.control with alerts := s.control.alerts ||| (1#12 <<< Cause.peerLost.position) } := rfl

@[simp] theorem State.reportPeerLost_port (s : State) : (s.reportPeerLost).port = s.port := rfl

@[simp] theorem State.reportPeerLost_image (s : State) : (s.reportPeerLost).image = s.image := rfl

@[simp] theorem State.reportPeerLost_kept (s : State) : (s.reportPeerLost).kept = s.kept := rfl

@[simp] theorem State.reportPeerLost_pending (s : State) : (s.reportPeerLost).pending = s.pending := rfl

@[simp] theorem State.restartTimer_resetn (s : State) : (s.restartTimer).resetn = s.resetn := rfl

@[simp] theorem State.restartTimer_clock (s : State) : (s.restartTimer).clock = s.clock := rfl

@[simp] theorem State.restartTimer_line (s : State) : (s.restartTimer).line = s.line := rfl

@[simp] theorem State.restartTimer_round (s : State) : (s.restartTimer).round = s.round := rfl

@[simp] theorem State.restartTimer_sched (s : State) : (s.restartTimer).sched = { s.sched with timer := 0, expiries := satInc s.sched.expiries } := rfl

@[simp] theorem State.restartTimer_meas (s : State) : (s.restartTimer).meas = s.meas := rfl

@[simp] theorem State.restartTimer_source (s : State) : (s.restartTimer).source = s.source := rfl

@[simp] theorem State.restartTimer_store (s : State) : (s.restartTimer).store = s.store := rfl

@[simp] theorem State.restartTimer_peers (s : State) : (s.restartTimer).peers = s.peers := rfl

@[simp] theorem State.restartTimer_trip (s : State) : (s.restartTimer).trip = s.trip := rfl

@[simp] theorem State.restartTimer_control (s : State) : (s.restartTimer).control = s.control := rfl

@[simp] theorem State.restartTimer_port (s : State) : (s.restartTimer).port = s.port := rfl

@[simp] theorem State.restartTimer_image (s : State) : (s.restartTimer).image = s.image := rfl

@[simp] theorem State.restartTimer_kept (s : State) : (s.restartTimer).kept = s.kept := rfl

@[simp] theorem State.restartTimer_pending (s : State) : (s.restartTimer).pending = s.pending := rfl

@[simp] theorem State.enterActive_resetn (s : State) : (s.enterActive).resetn = s.resetn := rfl

@[simp] theorem State.enterActive_clock (s : State) : (s.enterActive).clock = s.clock := rfl

@[simp] theorem State.enterActive_line (s : State) : (s.enterActive).line = s.line := rfl

@[simp] theorem State.enterActive_round (s : State) : (s.enterActive).round = s.round := rfl

@[simp] theorem State.enterActive_sched (s : State) : (s.enterActive).sched = s.sched := rfl

@[simp] theorem State.enterActive_meas (s : State) : (s.enterActive).meas = s.meas := rfl

@[simp] theorem State.enterActive_source (s : State) : (s.enterActive).source = s.source := rfl

@[simp] theorem State.enterActive_store (s : State) : (s.enterActive).store = s.store := rfl

@[simp] theorem State.enterActive_peers (s : State) : (s.enterActive).peers = s.peers := rfl

@[simp] theorem State.enterActive_trip (s : State) : (s.enterActive).trip = s.trip := rfl

@[simp] theorem State.enterActive_control (s : State) : (s.enterActive).control = { s.control with station := .active } := rfl

@[simp] theorem State.enterActive_port (s : State) : (s.enterActive).port = s.port := rfl

@[simp] theorem State.enterActive_image (s : State) : (s.enterActive).image = s.image := rfl

@[simp] theorem State.enterActive_kept (s : State) : (s.enterActive).kept = s.kept := rfl

@[simp] theorem State.enterActive_pending (s : State) : (s.enterActive).pending = s.pending := rfl

@[simp] theorem State.convert_resetn (s : State) (n : Fin 16) : (s.convert n).resetn = s.resetn := rfl

@[simp] theorem State.convert_clock (s : State) (n : Fin 16) : (s.convert n).clock = s.clock := rfl

@[simp] theorem State.convert_line (s : State) (n : Fin 16) : (s.convert n).line = s.line := rfl

@[simp] theorem State.convert_round (s : State) (n : Fin 16) : (s.convert n).round = s.round := rfl

@[simp] theorem State.convert_sched (s : State) (n : Fin 16) : (s.convert n).sched = s.sched := rfl

@[simp] theorem State.convert_meas (s : State) (n : Fin 16) : (s.convert n).meas = { s.meas with scan := .scanning, position := some n, timer := 0, held := none } := rfl

@[simp] theorem State.convert_source (s : State) (n : Fin 16) : (s.convert n).source = s.source := rfl

@[simp] theorem State.convert_store (s : State) (n : Fin 16) : (s.convert n).store = s.store := rfl

@[simp] theorem State.convert_peers (s : State) (n : Fin 16) : (s.convert n).peers = s.peers := rfl

@[simp] theorem State.convert_trip (s : State) (n : Fin 16) : (s.convert n).trip = s.trip := rfl

@[simp] theorem State.convert_control (s : State) (n : Fin 16) : (s.convert n).control = s.control := rfl

@[simp] theorem State.convert_port (s : State) (n : Fin 16) : (s.convert n).port = s.port := rfl

@[simp] theorem State.convert_image (s : State) (n : Fin 16) : (s.convert n).image = s.image := rfl

@[simp] theorem State.convert_kept (s : State) (n : Fin 16) : (s.convert n).kept = s.kept := rfl

@[simp] theorem State.convert_pending (s : State) (n : Fin 16) : (s.convert n).pending = s.pending := rfl

@[simp] theorem State.restScan_resetn (s : State) (st : ScanState) : (s.restScan st).resetn = s.resetn := rfl

@[simp] theorem State.restScan_clock (s : State) (st : ScanState) : (s.restScan st).clock = s.clock := rfl

@[simp] theorem State.restScan_line (s : State) (st : ScanState) : (s.restScan st).line = s.line := rfl

@[simp] theorem State.restScan_round (s : State) (st : ScanState) : (s.restScan st).round = s.round := rfl

@[simp] theorem State.restScan_sched (s : State) (st : ScanState) : (s.restScan st).sched = s.sched := rfl

@[simp] theorem State.restScan_meas (s : State) (st : ScanState) : (s.restScan st).meas = { s.meas with scan := st, position := none, timer := 0, held := none } := rfl

@[simp] theorem State.restScan_source (s : State) (st : ScanState) : (s.restScan st).source = s.source := rfl

@[simp] theorem State.restScan_store (s : State) (st : ScanState) : (s.restScan st).store = s.store := rfl

@[simp] theorem State.restScan_peers (s : State) (st : ScanState) : (s.restScan st).peers = s.peers := rfl

@[simp] theorem State.restScan_trip (s : State) (st : ScanState) : (s.restScan st).trip = s.trip := rfl

@[simp] theorem State.restScan_control (s : State) (st : ScanState) : (s.restScan st).control = s.control := rfl

@[simp] theorem State.restScan_port (s : State) (st : ScanState) : (s.restScan st).port = s.port := rfl

@[simp] theorem State.restScan_image (s : State) (st : ScanState) : (s.restScan st).image = s.image := rfl

@[simp] theorem State.restScan_kept (s : State) (st : ScanState) : (s.restScan st).kept = s.kept := rfl

@[simp] theorem State.restScan_pending (s : State) (st : ScanState) : (s.restScan st).pending = s.pending := rfl

@[simp] theorem State.countScan_resetn (s : State) : (s.countScan).resetn = s.resetn := rfl

@[simp] theorem State.countScan_clock (s : State) : (s.countScan).clock = s.clock := rfl

@[simp] theorem State.countScan_line (s : State) : (s.countScan).line = s.line := rfl

@[simp] theorem State.countScan_round (s : State) : (s.countScan).round = s.round := rfl

@[simp] theorem State.countScan_sched (s : State) : (s.countScan).sched = s.sched := rfl

@[simp] theorem State.countScan_meas (s : State) : (s.countScan).meas = { s.meas with counter := s.meas.counter + 1 } := rfl

@[simp] theorem State.countScan_source (s : State) : (s.countScan).source = s.source := rfl

@[simp] theorem State.countScan_store (s : State) : (s.countScan).store = s.store := rfl

@[simp] theorem State.countScan_peers (s : State) : (s.countScan).peers = s.peers := rfl

@[simp] theorem State.countScan_trip (s : State) : (s.countScan).trip = s.trip := rfl

@[simp] theorem State.countScan_control (s : State) : (s.countScan).control = s.control := rfl

@[simp] theorem State.countScan_port (s : State) : (s.countScan).port = s.port := rfl

@[simp] theorem State.countScan_image (s : State) : (s.countScan).image = s.image := rfl

@[simp] theorem State.countScan_kept (s : State) : (s.countScan).kept = s.kept := rfl

@[simp] theorem State.countScan_pending (s : State) : (s.countScan).pending = s.pending := rfl

@[simp] theorem State.leaveRound_resetn (s : State) : (s.leaveRound).resetn = s.resetn := rfl

@[simp] theorem State.leaveRound_clock (s : State) : (s.leaveRound).clock = s.clock := rfl

@[simp] theorem State.leaveRound_line (s : State) : (s.leaveRound).line = { s.line with engine := .recover, idleRun := 0, suppressed := false } := rfl

@[simp] theorem State.leaveRound_round (s : State) : (s.leaveRound).round = {} := rfl

@[simp] theorem State.leaveRound_sched (s : State) : (s.leaveRound).sched = s.sched := rfl

@[simp] theorem State.leaveRound_meas (s : State) : (s.leaveRound).meas = s.meas := rfl

@[simp] theorem State.leaveRound_source (s : State) : (s.leaveRound).source = s.source := rfl

@[simp] theorem State.leaveRound_store (s : State) : (s.leaveRound).store = s.store := rfl

@[simp] theorem State.leaveRound_peers (s : State) : (s.leaveRound).peers = s.peers := rfl

@[simp] theorem State.leaveRound_trip (s : State) : (s.leaveRound).trip = s.trip := rfl

@[simp] theorem State.leaveRound_control (s : State) : (s.leaveRound).control = s.control := rfl

@[simp] theorem State.leaveRound_port (s : State) : (s.leaveRound).port = s.port := rfl

@[simp] theorem State.leaveRound_image (s : State) : (s.leaveRound).image = s.image := rfl

@[simp] theorem State.leaveRound_kept (s : State) : (s.leaveRound).kept = s.kept := rfl

@[simp] theorem State.leaveRound_pending (s : State) : (s.leaveRound).pending = s.pending := rfl

@[simp] theorem State.toIdle_resetn (s : State) : (s.toIdle).resetn = s.resetn := rfl

@[simp] theorem State.toIdle_clock (s : State) : (s.toIdle).clock = s.clock := rfl

@[simp] theorem State.toIdle_line (s : State) : (s.toIdle).line = { s.line with engine := .idle, firstLow := false, ownMark := .none } := rfl

@[simp] theorem State.toIdle_round (s : State) : (s.toIdle).round = s.round := rfl

@[simp] theorem State.toIdle_sched (s : State) : (s.toIdle).sched = s.sched := rfl

@[simp] theorem State.toIdle_meas (s : State) : (s.toIdle).meas = s.meas := rfl

@[simp] theorem State.toIdle_source (s : State) : (s.toIdle).source = s.source := rfl

@[simp] theorem State.toIdle_store (s : State) : (s.toIdle).store = s.store := rfl

@[simp] theorem State.toIdle_peers (s : State) : (s.toIdle).peers = s.peers := rfl

@[simp] theorem State.toIdle_trip (s : State) : (s.toIdle).trip = s.trip := rfl

@[simp] theorem State.toIdle_control (s : State) : (s.toIdle).control = s.control := rfl

@[simp] theorem State.toIdle_port (s : State) : (s.toIdle).port = s.port := rfl

@[simp] theorem State.toIdle_image (s : State) : (s.toIdle).image = s.image := rfl

@[simp] theorem State.toIdle_kept (s : State) : (s.toIdle).kept = s.kept := rfl

@[simp] theorem State.toIdle_pending (s : State) : (s.toIdle).pending = s.pending := rfl

@[simp] theorem State.closeFrame_resetn (s : State) : (s.closeFrame).resetn = s.resetn := rfl

@[simp] theorem State.closeFrame_clock (s : State) : (s.closeFrame).clock = s.clock := rfl

@[simp] theorem State.closeFrame_line (s : State) : (s.closeFrame).line = s.line := rfl

@[simp] theorem State.closeFrame_round (s : State) : (s.closeFrame).round = s.round := rfl

@[simp] theorem State.closeFrame_sched (s : State) : (s.closeFrame).sched = s.sched := rfl

@[simp] theorem State.closeFrame_meas (s : State) : (s.closeFrame).meas = s.meas := rfl

@[simp] theorem State.closeFrame_source (s : State) : (s.closeFrame).source = s.source := rfl

@[simp] theorem State.closeFrame_store (s : State) : (s.closeFrame).store = s.store := rfl

@[simp] theorem State.closeFrame_peers (s : State) : (s.closeFrame).peers = s.peers := rfl

@[simp] theorem State.closeFrame_trip (s : State) : (s.closeFrame).trip = s.trip := rfl

@[simp] theorem State.closeFrame_control (s : State) : (s.closeFrame).control = s.control := rfl

@[simp] theorem State.closeFrame_port (s : State) : (s.closeFrame).port = { s.port with csn := .high, frameOpen := false, buffer := [], bits := [] } := rfl

@[simp] theorem State.closeFrame_image (s : State) : (s.closeFrame).image = s.image := rfl

@[simp] theorem State.closeFrame_kept (s : State) : (s.closeFrame).kept = s.kept := rfl

@[simp] theorem State.closeFrame_pending (s : State) : (s.closeFrame).pending = s.pending := rfl

/-- A cause set reaches the alert causes at its position. -/
theorem State.setCause_alerts (s : State) (c : Cause) :
    (s.setCause c).control.alerts = s.control.alerts ||| (1#12 <<< c.position) := rfl

end Sys2Proof.Machine
end

