-- ==== Sys2Proof/Laws/Frame.lean ====
section
/-! SUPPORT. What each shared operation can change, once: the result is the old state with the named fields at some values.
A proof that needs only the frame takes the values apart and never unfolds the operation. -/

namespace Sys2Proof.Machine

theorem State.post_changes (s : State) (o : Origin) (c : Code) :
    ∃ adhoc alerts counters, s.post o c =
      { s with sched.adhoc := adhoc, control.alerts := alerts, control.counters := counters } := by
  unfold State.post
  split
  · exact ⟨s.sched.adhoc, s.control.alerts, s.control.counters, rfl⟩
  split
  · exact ⟨_, s.control.alerts, s.control.counters, rfl⟩
  · exact ⟨s.sched.adhoc, _, _, rfl⟩

theorem State.postIf_changes (s : State) (o : Origin) (c : Option Code) :
    ∃ adhoc alerts counters, s.postIf o c =
      { s with sched.adhoc := adhoc, control.alerts := alerts, control.counters := counters } := by
  cases c with
  | none => exact ⟨s.sched.adhoc, s.control.alerts, s.control.counters, rfl⟩
  | some c => exact s.post_changes o c

theorem State.appendRecord_changes (s : State) (r : Record) :
    ∃ ring seq lost alerts, s.appendRecord r =
      { s with store.ring := ring, store.seq := seq, store.lost := lost, control.alerts := alerts } := by
  unfold State.appendRecord State.offerRing
  split
  · dsimp only
    split
    · exact ⟨_, _, s.store.lost, s.control.alerts, rfl⟩
    split
    · exact ⟨s.store.ring, _, _, _, rfl⟩
    · exact ⟨_, _, _, _, rfl⟩
  · exact ⟨s.store.ring, s.store.seq, s.store.lost, s.control.alerts, rfl⟩

theorem State.deliverLapse_changes (s : State) (r : Record) :
    ∃ ring seq lost alerts, s.deliverLapse r =
      { s with store.ring := ring, store.seq := seq, store.lost := lost, control.alerts := alerts } := by
  obtain ⟨ring, seq, lost, alerts, h⟩ := s.appendRecord_changes r
  exact ⟨ring, seq, lost, _, by rw [State.deliverLapse, h]; rfl⟩

theorem State.deliverLapses_changes (l : List Record) (s : State) :
    ∃ ring seq lost alerts, l.foldl State.deliverLapse s =
      { s with store.ring := ring, store.seq := seq, store.lost := lost, control.alerts := alerts } := by
  induction l generalizing s with
  | nil => exact ⟨s.store.ring, s.store.seq, s.store.lost, s.control.alerts, rfl⟩
  | cons r l ih =>
    obtain ⟨_, _, _, _, h⟩ := s.deliverLapse_changes r
    obtain ⟨ring, seq, lost, alerts, h'⟩ := ih (s.deliverLapse r)
    exact ⟨ring, seq, lost, alerts, by rw [List.foldl_cons, h', h]⟩

theorem State.storeOutcome_changes (s : State) (r : Record) :
    ∃ ring seq lost alerts, s.storeOutcome r =
      { s with
        store := { latest := latestAfter s.store.latest r, ring := ring, seq := seq, lost := lost }
        control.alerts := alerts } := by
  obtain ⟨ring, seq, lost, alerts, h⟩ :=
    State.appendRecord_changes { s with store.latest := latestAfter s.store.latest r } r
  exact ⟨ring, seq, lost, alerts, by rw [State.storeOutcome, h]⟩

theorem State.reportPeerLosts_changes {α : Type} (l : List α) (s : State) :
    ∃ losses alerts, l.foldl (fun t _ => t.reportPeerLost) s =
      { s with peers.losses := losses, control.alerts := alerts } := by
  induction l generalizing s with
  | nil => exact ⟨s.peers.losses, s.control.alerts, rfl⟩
  | cons a l ih =>
    obtain ⟨losses, alerts, h⟩ := ih s.reportPeerLost
    exact ⟨losses, alerts, by rw [List.foldl_cons, h]; rfl⟩

theorem State.applyRoster_changes (s : State) (set : AddressSet) (cycle : Word) :
    ∃ losses alerts, s.applyRoster set cycle =
      { s with
        peers := {
          entries := Vector.ofFn fun a : Fin 32 =>
            s.peers.entries[a].afterRoster (set.getLsbD a.val) cycle s.image.settings.missLimit
          losses := losses }
        control.alerts := alerts } :=
  State.reportPeerLosts_changes _ _

theorem State.peersTake_changes (s : State) (r : Record) :
    ∃ peers alerts, s.peersTake r = { s with peers := peers, control.alerts := alerts } := by
  unfold State.peersTake
  split
  · obtain ⟨losses, alerts, h⟩ := s.applyRoster_changes ‹_› r.cycle
    exact ⟨_, alerts, h⟩
  · exact ⟨_, s.control.alerts, rfl⟩
  · exact ⟨s.peers, s.control.alerts, rfl⟩

theorem State.tripPosts_changes (rules : Vector TripRule 8) (l : List (Fin 8)) (s : State) :
    ∃ adhoc alerts counters, l.foldl (fun t n => (t.setCause .trip).postIf .trip rules[n].post) s =
      { s with sched.adhoc := adhoc, control.alerts := alerts, control.counters := counters } := by
  induction l generalizing s with
  | nil => exact ⟨s.sched.adhoc, s.control.alerts, s.control.counters, rfl⟩
  | cons n l ih =>
    obtain ⟨_, _, _, h⟩ := (s.setCause .trip).postIf_changes .trip rules[n].post
    obtain ⟨adhoc, alerts, counters, h'⟩ := ih ((s.setCause .trip).postIf .trip rules[n].post)
    exact ⟨adhoc, alerts, counters, by rw [List.foldl_cons, h', h]; rfl⟩

theorem State.changeRules_changes (s : State) (f : TripRule → RuleState → RuleState) :
    ∃ adhoc alerts counters, s.changeRules f =
      { s with
        trip := Vector.ofFn fun n => f s.image.rules[n] s.trip[n]
        sched.adhoc := adhoc
        control.alerts := alerts
        control.counters := counters } :=
  State.tripPosts_changes s.image.rules _ _

theorem State.cycleBoundary_changes (s : State) :
    ∃ adhoc ring seq lost alerts counters, s.cycleBoundary =
      { s with
        sched := { s.rollCycle.sched with adhoc := adhoc }
        store := { s.store with ring := ring, seq := seq, lost := lost }
        trip := Vector.ofFn fun n => s.trip[n].takeBoundary s.image.rules[n] (s.sched.cycle + 1)
        control.alerts := alerts
        control.counters := counters } := by
  obtain ⟨ring, seq, lost, _, h⟩ := State.deliverLapses_changes (boundaryLapses s) s.rollCycle
  obtain ⟨adhoc, alerts, counters, h'⟩ :=
    State.changeRules_changes ((boundaryLapses s).foldl State.deliverLapse s.rollCycle)
      fun rule r => r.takeBoundary rule ((boundaryLapses s).foldl State.deliverLapse s.rollCycle).sched.cycle
  refine ⟨adhoc, ring, seq, lost, alerts, counters, ?_⟩
  rw [State.cycleBoundary, State.tripBoundary, h', h]
  rfl

theorem State.pendingTake_changes (s : State) (r : Record) :
    ∃ ring seq lost alerts, s.pendingTake r =
      { s with
        sched.scheduled := scheduledTake s.sched.scheduled r.code r.outcome
        sched.adhoc := adhocTake s.sched.adhoc r.code r.outcome
        store := { s.store with ring := ring, seq := seq, lost := lost }
        control.alerts := alerts } := by
  unfold State.pendingTake
  dsimp only
  split
  · rename_i reason ho _
    obtain ⟨ring, seq, lost, alerts, h⟩ := State.deliverLapse_changes
      { s with sched := { s.sched with
          scheduled := scheduledTake s.sched.scheduled r.code r.outcome
          adhoc := adhocTake s.sched.adhoc r.code r.outcome } } (lapseRecord s.image r.cycle reason r.code)
    exact ⟨ring, seq, lost, alerts, h⟩
  · exact ⟨s.store.ring, s.store.seq, s.store.lost, s.control.alerts, rfl⟩

end Sys2Proof.Machine
end

