-- ==== Sys2Proof/Laws/Peers.lean ====
section
/-! SUPPORT. The Peer Table: what a VALID roster and a holder do to each entry, and how losses are counted. -/

namespace Sys2Proof.Machine

/-- A saturating counter counts to 255 and no further. -/
theorem satInc_toNat (b : Byte) : (satInc b).toNat = min 255 (b.toNat + 1) := by
  unfold satInc
  split
  · rename_i h
    rw [h]
    rfl
  · rename_i h
    have hb := b.isLt
    have hne : b.toNat ≠ 255 := fun e => h (BitVec.eq_of_toNat_eq e)
    rw [BitVec.toNat_add]
    simp
    omega

theorem State.reportPeerLosts_losses {α : Type} (l : List α) (s : State) :
    (l.foldl (fun t _ => t.reportPeerLost) s).peers.losses.toNat = min 255 (s.peers.losses.toNat + l.length) := by
  induction l generalizing s with
  | nil =>
    have := s.peers.losses.isLt
    simp
    omega
  | cons a l ih =>
    rw [List.foldl_cons, ih]
    show min 255 ((satInc s.peers.losses).toNat + l.length) = _
    rw [satInc_toNat, List.length_cons]
    omega

theorem State.reportPeerLosts_alerts {α : Type} (l : List α) (s : State) :
    (l.foldl (fun t _ => t.reportPeerLost) s).control.alerts =
      if l.isEmpty then s.control.alerts else s.control.alerts ||| 0x002 := by
  induction l generalizing s with
  | nil => rfl
  | cons a l ih =>
    rw [List.foldl_cons, ih]
    show (if l.isEmpty then s.control.alerts ||| 0x002 else (s.control.alerts ||| 0x002) ||| 0x002) =
      s.control.alerts ||| 0x002
    cases l.isEmpty
    · rw [BitVec.or_assoc]
      rfl
    · rfl

theorem State.peersTake_roster {s : State} {r : Record} {set : AddressSet} (h : r.outcome = .valid) (hc : r.content = .set set) :
    s.peersTake r = s.applyRoster set r.cycle := by
  unfold State.peersTake
  rw [h, hc]

theorem State.peersTake_holder {s : State} {r : Record} {v : Int} {holder : Address} {self dup : Bool} (h : r.outcome = .valid)
    (hc : r.content = .extreme v holder self dup) : s.peersTake r = s.applyHolder holder := by
  unfold State.peersTake
  rw [h, hc]

/-- Only a VALID record changes the table (R123). -/
theorem State.peersTake_other {s : State} {r : Record} (h : r.outcome ≠ .valid) : s.peersTake r = s := by
  unfold State.peersTake
  split
  · exact absurd ‹_› h
  · exact absurd ‹_› h
  · rfl

/-- Each entry after a VALID roster (R124, R125). -/
theorem State.applyRoster_entry (s : State) (set : AddressSet) (cycle : Word) (a : Fin 32) :
    (s.applyRoster set cycle).peers.entries[a] =
      s.peers.entries[a].afterRoster (set.getLsbD a.val) cycle s.image.settings.missLimit := by
  obtain ⟨_, _, h⟩ := s.applyRoster_changes set cycle
  rw [h]
  exact Vector.getElem_ofFn _

/-- The entries that enter LOST at a roster (R126). -/
def lostAt (old : Vector Peer 32) (set : AddressSet) (cycle : Word) (missLimit : Nat) : List (Fin 32) :=
  (List.finRange 32).filter fun a => entersLost old[a] (old[a].afterRoster (set.getLsbD a.val) cycle missLimit)

/-- A roster, its losses reported one by one (R126). -/
theorem State.applyRoster_eq (s : State) (set : AddressSet) (cycle : Word) :
    s.applyRoster set cycle = (lostAt s.peers.entries set cycle s.image.settings.missLimit).foldl (fun t _ => t.reportPeerLost)
      { s with peers.entries := Vector.ofFn fun a : Fin 32 =>
          s.peers.entries[a].afterRoster (set.getLsbD a.val) cycle s.image.settings.missLimit } := by
  unfold State.applyRoster lostAt
  simp only [Fin.getElem_fin, Vector.getElem_ofFn]

/-- Every loss is counted (R126). -/
theorem State.applyRoster_losses (s : State) (set : AddressSet) (cycle : Word) :
    (s.applyRoster set cycle).peers.losses.toNat =
      min 255 (s.peers.losses.toNat + (lostAt s.peers.entries set cycle s.image.settings.missLimit).length) := by
  rw [State.applyRoster_eq, State.reportPeerLosts_losses]

/-- A loss sets PEER_LOST (R126). -/
theorem State.applyRoster_alerts (s : State) (set : AddressSet) (cycle : Word) :
    (s.applyRoster set cycle).control.alerts =
      if (lostAt s.peers.entries set cycle s.image.settings.missLimit).isEmpty then s.control.alerts
      else s.control.alerts ||| 0x002 := by
  rw [State.applyRoster_eq, State.reportPeerLosts_alerts]

/-- Each entry after a VALID MIN or MAX (R128). -/
theorem State.applyHolder_entry (s : State) (holder : Address) (a : Fin 32) :
    (s.applyHolder holder).peers.entries[a] =
      if a.val = holder.toNat then { s.peers.entries[a] with extremes := satInc16 s.peers.entries[a].extremes }
      else s.peers.entries[a] := by
  by_cases h : a.val = holder.toNat
  · have ha : a = holder.toFin := Fin.ext h
    subst ha
    rw [if_pos h]
    exact Vector.getElem_set_self _
  · rw [if_neg h]
    exact Vector.getElem_set_ne holder.isLt a.isLt (Ne.symm h)

end Sys2Proof.Machine
end

