-- ==== Sys2Proof/Laws/EventFrame.lean ====
section
/-! SUPPORT. What the operations of whole events can change: deliveries, recognitions, samples, boundaries, conversions and
expiries. Each lemma names the fields that may differ; every other field stands. -/

namespace Sys2Proof.Machine

theorem State.schedTake_changes (s : State) (r : Record) :
    ∃ cycle ring seq lost alerts, s.schedTake r =
      { s with
        sched := { s.sched with
          cycle := cycle
          scheduled := scheduledTake s.sched.scheduled r.code r.outcome
          adhoc := adhocTake s.sched.adhoc r.code r.outcome }
        store := { s.store with ring := ring, seq := seq, lost := lost }
        control.alerts := alerts } := by
  obtain ⟨ring, seq, lost, alerts, h⟩ := s.pendingTake_changes r
  unfold State.schedTake State.adopt
  rw [h]
  split
  · exact ⟨_, ring, seq, lost, alerts, rfl⟩
  · exact ⟨s.sched.cycle, ring, seq, lost, alerts, rfl⟩

theorem State.tripTake_changes (s : State) (r : Record) :
    ∃ adhoc alerts counters, s.tripTake r =
      { s with
        trip := Vector.ofFn fun n => s.trip[n].takeOutcome s.image.rules[n] s.image.settings.expected r
        sched.adhoc := adhoc
        control.alerts := alerts
        control.counters := counters } :=
  s.changeRules_changes _

theorem State.countVoid_changes (s : State) (r : Record) :
    ∃ counters, s.countVoid r = { s with control.counters := counters } := by
  unfold State.countVoid
  split
  · exact ⟨_, rfl⟩
  · exact ⟨s.control.counters, rfl⟩

theorem State.noteDisagree_changes (s : State) (r : Record) :
    ∃ alerts, s.noteDisagree r = { s with control.alerts := alerts } := by
  unfold State.noteDisagree
  split
  · exact ⟨_, rfl⟩
  · exact ⟨s.control.alerts, rfl⟩

theorem State.noteDuplicate_changes (s : State) (r : Record) :
    ∃ alerts counters, s.noteDuplicate r = { s with control.alerts := alerts, control.counters := counters } := by
  unfold State.noteDuplicate
  split
  · exact ⟨_, _, rfl⟩
  · exact ⟨s.control.alerts, s.control.counters, rfl⟩

theorem State.controlReports_changes (s : State) (r : Record) :
    ∃ alerts counters, ((s.countVoid r).noteDisagree r).noteDuplicate r =
      { s with control.alerts := alerts, control.counters := counters } := by
  obtain ⟨_, h1⟩ := s.countVoid_changes r
  obtain ⟨_, h2⟩ := (s.countVoid r).noteDisagree_changes r
  obtain ⟨alerts, counters, h3⟩ := ((s.countVoid r).noteDisagree r).noteDuplicate_changes r
  exact ⟨alerts, counters, by rw [h3, h2, h1]⟩

theorem State.controlTake_changes (s : State) (r : Record) (fault : Bool) :
    ∃ alerts counters, s.controlTake r fault =
      { s with control := { s.control with
          window := windowAfter s.control.window fault
          alerts := alerts
          counters := counters
          roundEnding := true
          anchorNoted := s.control.station == .joining && r.kind == .anchor && r.outcome == .valid } } := by
  obtain ⟨alerts, counters, h⟩ :=
    State.controlReports_changes { s with control.window := windowAfter s.control.window fault } r
  exact ⟨alerts, counters, by unfold State.controlTake; rw [h]⟩

/-- A delivery (R43) reaches the Result Store, the Peer Table, the Round Scheduler, the Trip Unit and Station Control. -/
theorem State.deliverRecord_changes (s : State) (r : Record) (fault : Bool) :
    ∃ cycle adhoc ring seq lost peers alerts counters, s.deliverRecord r fault =
      { s with
        sched := { s.sched with
          cycle := cycle
          scheduled := scheduledTake s.sched.scheduled r.code r.outcome
          adhoc := adhoc }
        store := { latest := latestAfter s.store.latest r, ring := ring, seq := seq, lost := lost }
        peers := peers
        trip := Vector.ofFn fun n => s.trip[n].takeOutcome s.image.rules[n] s.image.settings.expected r
        control := { s.control with
          window := windowAfter s.control.window fault
          alerts := alerts
          counters := counters
          roundEnding := true
          anchorNoted := s.control.station == .joining && r.kind == .anchor && r.outcome == .valid } } := by
  obtain ⟨_, _, _, _, h1⟩ := s.storeOutcome_changes r
  obtain ⟨peers, _, h2⟩ := (s.storeOutcome r).peersTake_changes r
  obtain ⟨cycle, ring, seq, lost, _, h3⟩ := ((s.storeOutcome r).peersTake r).schedTake_changes r
  obtain ⟨adhoc, _, _, h4⟩ := (((s.storeOutcome r).peersTake r).schedTake r).tripTake_changes r
  obtain ⟨alerts, counters, h5⟩ := ((((s.storeOutcome r).peersTake r).schedTake r).tripTake r).controlTake_changes r fault
  refine ⟨cycle, adhoc, ring, seq, lost, peers, alerts, counters, ?_⟩
  unfold State.deliverRecord
  rw [h5, h4, h3, h2, h1]

theorem State.limitEvent_changes (s : State) (post : Option Code) :
    ∃ adhoc alerts counters, s.limitEvent post =
      { s with sched.adhoc := adhoc, control.alerts := alerts, control.counters := counters } := by
  obtain ⟨adhoc, alerts, counters, h⟩ := (s.setCause .limit).postIf_changes .slot post
  exact ⟨adhoc, alerts, counters, by rw [State.limitEvent, h]; rfl⟩

/-- A sample written (R83 to R87). -/
theorem State.writeSample_changes (s : State) (n : Fin 16) (raw : Raw) (injected : Bool) :
    ∃ adhoc flags alerts counters, s.writeSample n raw injected =
      { s with
        meas.results := s.meas.results.set n (s.meas.results[n].write s.image.slots[n] raw s.sched.cycle injected)
        source.flags := flags
        sched.adhoc := adhoc
        control.alerts := alerts
        control.counters := counters } := by
  unfold State.writeSample
  dsimp only
  split
  · obtain ⟨adhoc, alerts, counters, h⟩ := State.limitEvent_changes _ _
    exact ⟨adhoc, _, alerts, counters, h⟩
  · exact ⟨s.sched.adhoc, _, s.control.alerts, s.control.counters, rfl⟩

theorem State.beginScan_changes (s : State) :
    ∃ scan position counter timer held, s.beginScan =
      { s with meas := { s.meas with scan := scan, position := position, counter := counter, timer := timer, held := held } } := by
  unfold State.beginScan
  split
  · exact ⟨_, _, s.meas.counter, _, _, rfl⟩
  · exact ⟨_, _, _, _, _, rfl⟩

theorem State.endScan_changes (s : State) :
    ∃ scan position counter timer held, s.endScan =
      { s with meas := { s.meas with scan := scan, position := position, counter := counter, timer := timer, held := held } } := by
  unfold State.endScan
  split
  · obtain ⟨scan, position, counter, timer, held, h⟩ := s.countScan.beginScan_changes
    exact ⟨scan, position, counter, timer, held, h⟩
  · exact ⟨_, _, _, _, _, rfl⟩
  · exact ⟨_, _, _, _, _, rfl⟩

theorem State.resume_changes (s : State) :
    ∃ scan position counter timer held, s.resume =
      { s with meas := { s.meas with scan := scan, position := position, counter := counter, timer := timer, held := held } } := by
  unfold State.resume
  split
  · exact s.beginScan_changes
  · exact ⟨_, _, s.meas.counter, _, _, rfl⟩
  · exact ⟨_, _, s.meas.counter, _, _, rfl⟩

/-- The anchor notice at the Measurement Engine (R78, R79). -/
theorem State.anchorTrigger_changes (s : State) :
    ∃ scan position counter timer held flags alerts counters, s.anchorTrigger =
      { s with
        meas := { s.meas with scan := scan, position := position, counter := counter, timer := timer, held := held }
        source.flags := flags
        control.alerts := alerts
        control.counters := counters } := by
  have same : s = { s with
      meas := { s.meas with
        scan := s.meas.scan, position := s.meas.position, counter := s.meas.counter, timer := s.meas.timer, held := s.meas.held }
      source.flags := s.source.flags
      control.alerts := s.control.alerts
      control.counters := s.control.counters } := rfl
  unfold State.anchorTrigger
  split
  · obtain ⟨scan, position, counter, timer, held, h⟩ := s.beginScan_changes
    exact ⟨scan, position, counter, timer, held, s.source.flags, s.control.alerts, s.control.counters, h⟩
  · exact ⟨s.meas.scan, s.meas.position, s.meas.counter, s.meas.timer, s.meas.held, _, _, _, rfl⟩
  · exact ⟨_, _, _, _, _, _, _, _, same⟩
  · exact ⟨_, _, _, _, _, _, _, _, same⟩
  · exact ⟨_, _, _, _, _, _, _, _, same⟩

/-- The anchor notice (R25 step 3). -/
theorem State.anchorNotice_changes (s : State) :
    ∃ cycle scheduled adhoc ring seq lost trip scan position counter timer held flags observed alerts counters,
      s.anchorNotice =
      { s with
        sched := { s.sched with
          timer := eightBitTimes s.image.settings.rate, cycle := cycle, anchorDone := true, scheduled := scheduled
          adhoc := adhoc }
        store := { s.store with ring := ring, seq := seq, lost := lost }
        trip := trip
        meas := { s.meas with scan := scan, position := position, counter := counter, timer := timer, held := held }
        source.flags := flags
        control := { s.control with anchorObserved := observed, alerts := alerts, counters := counters } } := by
  have notice : ∃ cycle scheduled adhoc ring seq lost trip alerts counters, s.schedNotice =
      { s with
        sched := { s.sched with
          timer := eightBitTimes s.image.settings.rate, cycle := cycle, anchorDone := true, scheduled := scheduled
          adhoc := adhoc }
        store := { s.store with ring := ring, seq := seq, lost := lost }
        trip := trip
        control := { s.control with alerts := alerts, counters := counters } } := by
    unfold State.schedNotice
    dsimp only
    split
    · obtain ⟨adhoc, ring, seq, lost, alerts, counters, h⟩ := s.cycleBoundary_changes
      exact ⟨_, _, adhoc, ring, seq, lost, _, alerts, counters, by rw [h]; rfl⟩
    · exact ⟨s.sched.cycle, s.sched.scheduled, s.sched.adhoc, s.store.ring, s.store.seq, s.store.lost, s.trip,
        s.control.alerts, s.control.counters, rfl⟩
  obtain ⟨cycle, scheduled, adhoc, ring, seq, lost, trip, _, _, h1⟩ := notice
  obtain ⟨scan, position, counter, timer, held, flags, alerts, counters, h2⟩ := s.schedNotice.anchorTrigger_changes
  unfold State.anchorNotice State.controlNotice
  rw [h2, h1]
  dsimp only
  split
  · exact ⟨cycle, scheduled, adhoc, ring, seq, lost, trip, scan, position, counter, timer, held, flags, true, alerts,
      counters, rfl⟩
  · exact ⟨cycle, scheduled, adhoc, ring, seq, lost, trip, scan, position, counter, timer, held, flags,
      s.control.anchorObserved, alerts, counters, rfl⟩

theorem State.takeSnapshot_changes (s : State) (e : RoundEntry) :
    ∃ snapshot nonce draws, s.takeSnapshot e =
      { s with round := { s.round with snapshot := snapshot, nonce := nonce }, clock.draws := draws } := by
  unfold State.takeSnapshot
  split
  · unfold State.drawNonce
    split
    · exact ⟨_, _, _, rfl⟩
    · exact ⟨_, _, _, rfl⟩
    · exact ⟨_, s.round.nonce, s.clock.draws, rfl⟩
  · exact ⟨s.round.snapshot, s.round.nonce, s.clock.draws, rfl⟩

/-- The settle time's end (R73). -/
theorem State.settle_changes (s : State) (a : AnalogLevels) :
    ∃ timer held draws, s.settle a = { s with meas.timer := timer, meas.held := held, clock.draws := draws } := by
  unfold State.settle
  split
  · exact ⟨_, _, _, rfl⟩
  · exact ⟨s.meas.timer, s.meas.held, s.clock.draws, rfl⟩

end Sys2Proof.Machine
end

