-- ==== Sys2Proof/Laws/Sort.lean ====
section
/-! SUPPORT. Lists in ascending code: what insertion and sorting keep. -/

namespace Sys2Proof.Machine

variable {α : Type} (key : α → Code)

theorem insertByCode_perm (x : α) (l : List α) : (insertByCode key x l).Perm (x :: l) := by
  induction l with
  | nil => exact .refl _
  | cons y ys ih =>
    unfold insertByCode
    split
    · exact .refl _
    · exact (List.Perm.cons y ih).trans (List.Perm.swap x y ys)

theorem sortByCode_perm (l : List α) : (sortByCode key l).Perm l := by
  induction l with
  | nil => exact .refl _
  | cons x l ih => exact (insertByCode_perm key x _).trans (.cons x ih)

theorem mem_insertByCode {x y : α} {l : List α} : y ∈ insertByCode key x l ↔ y ∈ l ∨ y = x := by
  rw [(insertByCode_perm key x l).mem_iff, List.mem_cons, or_comm]

theorem mem_sortByCode {y : α} {l : List α} : y ∈ sortByCode key l ↔ y ∈ l := (sortByCode_perm key l).mem_iff

theorem length_insertByCode (x : α) (l : List α) : (insertByCode key x l).length = l.length + 1 :=
  (insertByCode_perm key x l).length_eq

/-- Insertion of a new code keeps a strictly ascending list strictly ascending. -/
theorem insertByCode_ascending {x : α} {l : List α} (h : (l.map key).Pairwise (· < ·)) (hx : ∀ y ∈ l, key y ≠ key x) :
    ((insertByCode key x l).map key).Pairwise (· < ·) := by
  induction l with
  | nil => simp [insertByCode]
  | cons y ys ih =>
    rw [List.map_cons, List.pairwise_cons] at h
    unfold insertByCode
    split
    · rename_i hlt
      refine List.pairwise_cons.2 ⟨?_, by rw [List.map_cons]; exact List.pairwise_cons.2 h⟩
      intro c hc
      rcases List.mem_cons.1 hc with rfl | hc
      · exact hlt
      · exact BitVec.lt_trans hlt (h.1 c hc)
    · rename_i hge
      refine List.pairwise_cons.2 ⟨?_, ih h.2 fun z hz => hx z (List.mem_cons_of_mem _ hz)⟩
      intro c hc
      obtain ⟨z, hz, rfl⟩ := List.mem_map.1 hc
      rcases (mem_insertByCode key).1 hz with hz | rfl
      · exact h.1 _ (List.mem_map_of_mem hz)
      · have hne := hx y List.mem_cons_self
        have : (key y).toNat ≠ (key z).toNat := fun e => hne (BitVec.eq_of_toNat_eq e)
        simp only [BitVec.lt_def] at hge ⊢
        omega

/-- A list with no code twice, sorted, is strictly ascending. -/
theorem sortByCode_ascending {l : List α} (h : (l.map key).Nodup) : ((sortByCode key l).map key).Pairwise (· < ·) := by
  induction l with
  | nil => exact .nil
  | cons x l ih =>
    rw [List.map_cons, List.nodup_cons] at h
    refine insertByCode_ascending key (ih h.2) fun y hy e => h.1 ?_
    rw [← e]
    exact List.mem_map_of_mem ((mem_sortByCode key).1 hy)

/-- A strictly ascending list is known by its elements. -/
theorem eq_of_ascending {l m : List α} (hl : (l.map key).Pairwise (· < ·)) (hm : (m.map key).Pairwise (· < ·))
    (h : ∀ x, x ∈ l ↔ x ∈ m) : l = m := by
  induction l generalizing m with
  | nil =>
    cases m with
    | nil => rfl
    | cons y ys => exact absurd ((h y).2 List.mem_cons_self) List.not_mem_nil
  | cons x xs ih =>
    cases m with
    | nil => exact absurd ((h x).1 List.mem_cons_self) List.not_mem_nil
    | cons y ys =>
      rw [List.map_cons, List.pairwise_cons] at hl hm
      have hxs : ∀ z ∈ xs, key x < key z := fun z hz => hl.1 _ (List.mem_map_of_mem hz)
      have hys : ∀ z ∈ ys, key y < key z := fun z hz => hm.1 _ (List.mem_map_of_mem hz)
      have hxy : x = y := by
        rcases List.mem_cons.1 ((h x).1 List.mem_cons_self) with e | hx
        · exact e
        · rcases List.mem_cons.1 ((h y).2 List.mem_cons_self) with e | hy
          · exact e.symm
          · exact absurd (hxs y hy) (BitVec.not_lt.2 (BitVec.le_of_lt (hys x hx)))
      subst hxy
      congr 1
      refine ih hl.2 hm.2 fun z => ⟨fun hz => ?_, fun hz => ?_⟩
      · rcases List.mem_cons.1 ((h z).1 (List.mem_cons_of_mem _ hz)) with rfl | hz'
        · exact absurd (hxs z hz) (BitVec.lt_irrefl _)
        · exact hz'
      · rcases List.mem_cons.1 ((h z).2 (List.mem_cons_of_mem _ hz)) with rfl | hz'
        · exact absurd (hys z hz) (BitVec.lt_irrefl _)
        · exact hz'

end Sys2Proof.Machine
end

