-- ==== Sys2Proof/Laws/Schedule.lean ====
section
/-! SUPPORT. The Round Scheduler: posts case by case, the entries and reports that lapses and latching rules leave, and the
scheduled set after a boundary. -/

namespace Sys2Proof.Machine

/-- A post of a code that is pending merges (R61). -/
theorem State.post_merged {s : State} {c : Code} (h : holdsAdhoc s.sched.adhoc c = true) (o : Origin) : s.post o c = s := by
  unfold State.post
  rw [if_pos h]

/-- A post with room adds an entry (R61). -/
theorem State.post_added {s : State} {c : Code} (h : holdsAdhoc s.sched.adhoc c = false) (hl : s.sched.adhoc.length < 8)
    (o : Origin) : s.post o c =
      { s with sched.adhoc := insertByCode AdhocEntry.code (newAdhoc o c) s.sched.adhoc } := by
  unfold State.post
  rw [if_neg (by rw [h]; exact Bool.false_ne_true), if_pos (show s.sched.adhoc.length < adhocCapacity from hl)]

/-- A post without room is lost (R61). -/
theorem State.post_lost {s : State} {c : Code} (h : holdsAdhoc s.sched.adhoc c = false) (hl : 8 ≤ s.sched.adhoc.length)
    (o : Origin) : s.post o c = (s.setCause .postLost).bump .postsLost := by
  unfold State.post
  rw [if_neg (by rw [h]; exact Bool.false_ne_true), if_neg (show ¬ s.sched.adhoc.length < adhocCapacity from Nat.not_lt.2 hl)]

/-- A post changes the ad hoc set, the alerts and the lost-post counter (R61). -/
theorem State.post_only (s : State) (o : Origin) (c : Code) :
    s.post o c = { s with
      sched.adhoc := (s.post o c).sched.adhoc
      control.alerts := (s.post o c).control.alerts
      control.counters.postsLost := (s.post o c).control.counters.postsLost } := by
  unfold State.post
  split
  · rfl
  split <;> rfl

theorem holdsAdhoc_false {l : List AdhocEntry} {c : Code} (h : holdsAdhoc l c = false) : ∀ e ∈ l, e.code ≠ c := by
  intro e he hc
  have : holdsAdhoc l c = true := List.any_eq_true.2 ⟨e, he, by simp [hc]⟩
  rw [h] at this
  cases this

/-- A post keeps every entry, and adds at most the new one (R61). -/
theorem State.post_adhoc (s : State) (o : Origin) (c : Code) (e : AdhocEntry) :
    (e ∈ s.sched.adhoc → e ∈ (s.post o c).sched.adhoc) ∧
    (e ∈ (s.post o c).sched.adhoc → e ∈ s.sched.adhoc ∨ e = newAdhoc o c) := by
  cases h : holdsAdhoc s.sched.adhoc c with
  | true =>
    rw [State.post_merged h]
    exact ⟨id, .inl⟩
  | false =>
    by_cases hl : s.sched.adhoc.length < 8
    · rw [State.post_added h hl]
      exact ⟨fun h => (mem_insertByCode _).2 (.inl h), fun h => (mem_insertByCode _).1 h⟩
    · rw [State.post_lost h (Nat.not_lt.1 hl)]
      exact ⟨id, .inl⟩

/-- A post clears no alert cause. -/
theorem State.postIf_alerts (s : State) (o : Origin) (c : Option Code) (k : Nat) (h : s.control.alerts.getLsbD k = true) :
    (s.postIf o c).control.alerts.getLsbD k = true := by
  cases c with
  | none => exact h
  | some c =>
    show (s.post o c).control.alerts.getLsbD k = true
    unfold State.post
    split
    · exact h
    split
    · exact h
    · show (s.control.alerts ||| _).getLsbD k = true
      rw [BitVec.getLsbD_or, h, Bool.true_or]

/-- The posts of the rules that latch keep every entry, and add entries of origin TRIP alone (R140). -/
theorem State.tripPosts_adhoc (rules : Vector TripRule 8) (l : List (Fin 8)) (s : State) (e : AdhocEntry) :
    (e ∈ s.sched.adhoc → e ∈ (l.foldl (fun t n => (t.setCause .trip).postIf .trip rules[n].post) s).sched.adhoc) ∧
    (e ∈ (l.foldl (fun t n => (t.setCause .trip).postIf .trip rules[n].post) s).sched.adhoc →
      e ∈ s.sched.adhoc ∨ (e.origin = .trip ∧ e.retries = 0 ∧ e.age = 0)) := by
  induction l generalizing s with
  | nil => exact ⟨id, .inl⟩
  | cons n l ih =>
    have once : (e ∈ s.sched.adhoc → e ∈ ((s.setCause .trip).postIf .trip rules[n].post).sched.adhoc) ∧
        (e ∈ ((s.setCause .trip).postIf .trip rules[n].post).sched.adhoc →
          e ∈ s.sched.adhoc ∨ (e.origin = .trip ∧ e.retries = 0 ∧ e.age = 0)) := by
      cases rules[n].post with
      | none => exact ⟨id, .inl⟩
      | some c =>
        obtain ⟨a, b⟩ := (s.setCause .trip).post_adhoc .trip c e
        refine ⟨a, fun h => ?_⟩
        rcases b h with h | rfl
        · exact .inl h
        · exact .inr ⟨rfl, rfl, rfl⟩
    obtain ⟨a, b⟩ := ih ((s.setCause .trip).postIf .trip rules[n].post)
    refine ⟨fun h => a (once.1 h), fun h => ?_⟩
    rcases b h with h | h
    · exact once.2 h
    · exact .inr h

/-- A change of every rule: the rules changed, then the reports and posts of those that latch (R140). -/
theorem State.changeRules_fold (s : State) (f : TripRule → RuleState → RuleState) :
    ∃ l : List (Fin 8), s.changeRules f = l.foldl (fun t n => (t.setCause .trip).postIf .trip s.image.rules[n].post)
      { s with trip := Vector.ofFn fun n => f s.image.rules[n] s.trip[n] } := ⟨_, rfl⟩

theorem State.changeRules_adhoc (s : State) (f : TripRule → RuleState → RuleState) (e : AdhocEntry) :
    (e ∈ s.sched.adhoc → e ∈ (s.changeRules f).sched.adhoc) ∧
    (e ∈ (s.changeRules f).sched.adhoc → e ∈ s.sched.adhoc ∨ (e.origin = .trip ∧ e.retries = 0 ∧ e.age = 0)) := by
  obtain ⟨l, h⟩ := s.changeRules_fold f
  rw [h]
  exact State.tripPosts_adhoc s.image.rules l { s with trip := Vector.ofFn fun n => f s.image.rules[n] s.trip[n] } e

/-- The posts of the rules that latch clear no alert cause. -/
theorem State.tripPosts_alerts (rules : Vector TripRule 8) (l : List (Fin 8)) (s : State) (k : Nat)
    (h : s.control.alerts.getLsbD k = true) :
    (l.foldl (fun t n => (t.setCause .trip).postIf .trip rules[n].post) s).control.alerts.getLsbD k = true := by
  induction l generalizing s with
  | nil => exact h
  | cons n l ih =>
    refine ih _ (State.postIf_alerts _ _ _ _ ?_)
    show (s.control.alerts ||| _).getLsbD k = true
    rw [BitVec.getLsbD_or, h, Bool.true_or]

theorem State.changeRules_alerts (s : State) (f : TripRule → RuleState → RuleState) (k : Nat)
    (h : s.control.alerts.getLsbD k = true) : (s.changeRules f).control.alerts.getLsbD k = true := by
  obtain ⟨l, hl⟩ := s.changeRules_fold f
  rw [hl]
  exact State.tripPosts_alerts s.image.rules l { s with trip := Vector.ofFn fun n => f s.image.rules[n] s.trip[n] } k h

/-- The rules that latch count nothing but lost posts. -/
theorem State.tripPosts_counters (rules : Vector TripRule 8) (l : List (Fin 8)) (s : State) :
    ∃ p, (l.foldl (fun t n => (t.setCause .trip).postIf .trip rules[n].post) s).control.counters =
      { s.control.counters with postsLost := p } := by
  induction l generalizing s with
  | nil => exact ⟨s.control.counters.postsLost, rfl⟩
  | cons n l ih =>
    obtain ⟨p, hp⟩ := ih ((s.setCause .trip).postIf .trip rules[n].post)
    refine ⟨p, hp.trans ?_⟩
    cases rules[n].post with
    | none => rfl
    | some c =>
      show { ((s.setCause .trip).post .trip c).control.counters with postsLost := p } = _
      rw [State.post_only]
      rfl

theorem State.changeRules_counters (s : State) (f : TripRule → RuleState → RuleState) :
    ∃ p, (s.changeRules f).control.counters = { s.control.counters with postsLost := p } := by
  obtain ⟨l, hl⟩ := s.changeRules_fold f
  rw [hl]
  exact State.tripPosts_counters s.image.rules l { s with trip := Vector.ofFn fun n => f s.image.rules[n] s.trip[n] }

/-- A lapse sets LAPSE (R65), and a later one leaves it set. -/
theorem State.deliverLapses_alert (l : List Record) (s : State) (h : l ≠ [] ∨ s.control.alerts.getLsbD 10 = true) :
    (l.foldl State.deliverLapse s).control.alerts.getLsbD 10 = true := by
  induction l generalizing s with
  | nil => exact h.resolve_left fun h => h rfl
  | cons r l ih =>
    refine ih _ (.inr ?_)
    show ((s.appendRecord r).control.alerts ||| (1#12 <<< 10)).getLsbD 10 = true
    simp

/-- A boundary: the cycle rolls over, what lapses is delivered, and every rule takes the boundary (R54). -/
theorem State.cycleBoundary_rules (s : State) :
    ∃ t f, s.cycleBoundary = State.changeRules t f ∧ t = (boundaryLapses s).foldl State.deliverLapse s.rollCycle := by
  unfold State.cycleBoundary State.tripBoundary
  generalize (boundaryLapses s).foldl State.deliverLapse s.rollCycle = t
  exact ⟨t, fun rule r => r.takeBoundary rule t.sched.cycle, rfl, rfl⟩

/-- The entries that a boundary leaves in the ad hoc set, its own and those the rules post (R56, R140). -/
theorem State.cycleBoundary_adhoc (s : State) (e : AdhocEntry) :
    (e ∈ adhocAfter s.round.inFlight s.sched.adhoc → e ∈ s.cycleBoundary.sched.adhoc) ∧
    (e ∈ s.cycleBoundary.sched.adhoc →
      e ∈ adhocAfter s.round.inFlight s.sched.adhoc ∨ (e.origin = .trip ∧ e.retries = 0 ∧ e.age = 0)) := by
  obtain ⟨t, f, hc, ht⟩ := s.cycleBoundary_rules
  obtain ⟨_, _, _, _, h⟩ := State.deliverLapses_changes (boundaryLapses s) s.rollCycle
  have h' : t.sched.adhoc = adhocAfter s.round.inFlight s.sched.adhoc := by rw [ht, h]; rfl
  rw [hc, ← h']
  exact t.changeRules_adhoc f e

/-- A boundary counts nothing but lost posts. -/
theorem State.cycleBoundary_counters (s : State) :
    ∃ p, s.cycleBoundary.control.counters = { s.control.counters with postsLost := p } := by
  obtain ⟨t, f, hc, ht⟩ := s.cycleBoundary_rules
  obtain ⟨_, _, _, _, h⟩ := State.deliverLapses_changes (boundaryLapses s) s.rollCycle
  obtain ⟨p, hp⟩ := t.changeRules_counters f
  have h' : t.control.counters = s.control.counters := by rw [ht, h]; rfl
  exact ⟨p, by rw [hc, hp, h']⟩

/-- A boundary at which a scheduled entry lapses sets LAPSE (R55, R65). -/
theorem State.cycleBoundary_alert (s : State) (h : ∃ e ∈ s.sched.scheduled, isInFlight s.round.inFlight e.code = false) :
    s.cycleBoundary.control.alerts.getLsbD 10 = true := by
  obtain ⟨e, he, hf⟩ := h
  obtain ⟨t, f, hc, ht⟩ := s.cycleBoundary_rules
  rw [hc]
  refine t.changeRules_alerts f 10 ?_
  rw [ht]
  refine State.deliverLapses_alert _ _ (.inl fun hn => ?_)
  have hm : e ∈ lapsingScheduled s.round.inFlight s.sched.scheduled := List.mem_filter.2 ⟨he, by rw [hf]; rfl⟩
  rw [List.map_eq_nil_iff.1 (List.append_eq_nil_iff.1 hn).1] at hm
  cases hm

/-- Only a JOINING station is judged at an expiry (R154). -/
theorem State.judgeExpiry_other {s : State} (h : s.control.station ≠ .joining) : s.judgeExpiry = s := by
  unfold State.judgeExpiry
  rw [if_neg h]

/-- A JOINING station at an expiry (R153, R154). -/
theorem State.judgeExpiry_joining {s : State} (h : s.control.station = .joining) :
    s.judgeExpiry =
      if 2 ≤ s.sched.expiries.toNat ∧ s.control.anchorObserved = false then
        if s.faultCount < 6 then { s with control.station := .active, control.anchorObserved := false }
        else { s with
          line.ltxd := .high, control.station := .silent, control.anchorObserved := false
          control.alerts := s.control.alerts ||| (1#12 <<< 5) }
      else { s with control.anchorObserved := false } := by
  unfold State.judgeExpiry State.leaveJoining
  rw [if_pos h]
  dsimp only
  split
  · show { (if s.faultCount < 6 then s.enterActive else s.enterSilent) with control.anchorObserved := false } = _
    split <;> rfl
  · rfl

/-- The entry after a boundary stands for the code of its round table entry (R55). -/
theorem entryAfter_code {fl : Option (Code × Kind)} {old : List SchedEntry} {cycle : Word} {r : RoundEntry} {e : SchedEntry}
    (h : entryAfter fl old cycle r = some e) : e.code = r.code := by
  unfold entryAfter at h
  split at h
  · split at h
    · next x hx =>
      have hc : x.code = r.code := by simpa using List.find?_some hx
      (repeat' split at h) <;> cases h <;> exact hc
    · split at h
      · cases h
        rfl
      · cases h
  · split at h
    · cases h
      rfl
    · cases h

/-- Away from the code in flight, the scheduled set after a boundary is what is due in the new cycle (R55). -/
theorem mem_scheduledAfter {im : Image} {fl : Option (Code × Kind)} {old : List SchedEntry} {cycle : Word} {e : SchedEntry}
    (h : isInFlight fl e.code = false) :
    e ∈ scheduledAfter im fl old cycle ↔ e.retries = 0 ∧ e.part = .current ∧
      ∃ r ∈ imageEntries im, r.code = e.code ∧ dueIn r cycle = true ∧ isScheduled r = true := by
  unfold scheduledAfter
  rw [mem_sortByCode, List.mem_filterMap]
  constructor
  · rintro ⟨r, hr, he⟩
    rw [List.mem_filter] at hr
    have hc := entryAfter_code he
    unfold entryAfter at he
    split at he
    · rename_i hf
      rw [hc, hf] at h
      cases h
    · split at he
      · cases he
        exact ⟨rfl, rfl, r, hr.1, rfl, ‹_›, hr.2⟩
      · cases he
  · rintro ⟨h1, h2, r, hr, h3, h4, h5⟩
    refine ⟨r, List.mem_filter.2 ⟨hr, h5⟩, ?_⟩
    unfold entryAfter
    rw [h3, h, if_neg Bool.false_ne_true, if_pos h4]
    rcases e with ⟨c, re, p⟩
    simp only at h1 h2
    subst h1 h2
    rfl

end Sys2Proof.Machine
end

