-- ==== Sys2Proof/Laws/Apart.lean ====
section
/-! SUPPORT. What the operations that end a round or a cycle read: on two states that agree in what an operation reads, it
writes the same, and each alert cause it may set is set by the same Boolean. With these a proof moves an operation from the
state in the middle of an event to the state before the event. -/

namespace Sys2Proof.Machine

theorem State.setCause_bit (s : State) (c : Cause) (k : Nat) :
    (s.setCause c).control.alerts.getLsbD k = (s.control.alerts.getLsbD k || k == c.position) := by
  show (s.control.alerts ||| (1#12 <<< c.position)).getLsbD k = _
  rw [BitVec.getLsbD_or]
  congr 1
  by_cases hk : k < 12
  · have h : ∀ k < 12, (1#12 <<< c.position).getLsbD k = (k == c.position) := by cases c <;> decide
    exact h k hk
  · have h : c.position < 12 := by cases c <;> decide
    rw [BitVec.getLsbD_of_ge _ _ (Nat.not_lt.1 hk)]
    exact (beq_eq_false_iff_ne.2 (by omega)).symm

/-- A post reads the ad hoc set and the lost-post counter alone (R61). -/
theorem State.postIf_apart {s u : State} (ha : s.sched.adhoc = u.sched.adhoc)
    (hp : s.control.counters.postsLost = u.control.counters.postsLost) (o : Origin) (c : Option Code) :
    (s.postIf o c).sched.adhoc = (u.postIf o c).sched.adhoc ∧
    (s.postIf o c).control.counters.postsLost = (u.postIf o c).control.counters.postsLost ∧
    ∃ b, (∀ k, (s.postIf o c).control.alerts.getLsbD k = (s.control.alerts.getLsbD k || (k == 9 && b))) ∧
      ∀ k, (u.postIf o c).control.alerts.getLsbD k = (u.control.alerts.getLsbD k || (k == 9 && b)) := by
  cases c with
  | none => exact ⟨ha, hp, false, fun k => by simp [State.postIf], fun k => by simp [State.postIf]⟩
  | some c =>
    show (s.post o c).sched.adhoc = (u.post o c).sched.adhoc ∧
      (s.post o c).control.counters.postsLost = (u.post o c).control.counters.postsLost ∧
      ∃ b, (∀ k, (s.post o c).control.alerts.getLsbD k = _) ∧ ∀ k, (u.post o c).control.alerts.getLsbD k = _
    cases h : holdsAdhoc s.sched.adhoc c with
    | true =>
      rw [State.post_merged h, State.post_merged (ha ▸ h)]
      exact ⟨ha, hp, false, fun k => by simp, fun k => by simp⟩
    | false =>
      by_cases hl : s.sched.adhoc.length < 8
      · rw [State.post_added h hl, State.post_added (ha ▸ h) (ha ▸ hl)]
        exact ⟨congrArg (insertByCode AdhocEntry.code (newAdhoc o c)) ha, hp, false, fun k => by simp, fun k => by simp⟩
      · have hl' := Nat.not_lt.1 hl
        rw [State.post_lost h hl', State.post_lost (ha ▸ h) (ha ▸ hl')]
        refine ⟨ha, congrArg satInc hp, true, fun k => ?_, fun k => ?_⟩
        · rw [Bool.and_true]
          exact s.setCause_bit .postLost k
        · rw [Bool.and_true]
          exact u.setCause_bit .postLost k

/-- The reports and posts of rules that latch, beside the posts alone on a state with the same ad hoc set (R140). -/
theorem State.tripPosts_apart (rules : Vector TripRule 8) (l : List (Fin 8)) {s u : State}
    (ha : s.sched.adhoc = u.sched.adhoc) (hp : s.control.counters.postsLost = u.control.counters.postsLost) :
    let t := l.foldl (fun t n => (t.setCause .trip).postIf .trip rules[n].post) s
    let v := l.foldl (fun t n => t.postIf .trip rules[n].post) u
    t.sched.adhoc = v.sched.adhoc ∧ t.control.counters.postsLost = v.control.counters.postsLost ∧
    ∃ b, (∀ k, t.control.alerts.getLsbD k =
        (s.control.alerts.getLsbD k || (k == 0 && !l.isEmpty) || (k == 9 && b))) ∧
      ∀ k, v.control.alerts.getLsbD k = (u.control.alerts.getLsbD k || (k == 9 && b)) := by
  induction l generalizing s u with
  | nil => exact ⟨ha, hp, false, fun k => by simp, fun k => by simp⟩
  | cons n l ih =>
    obtain ⟨a, p, b, h1, h2⟩ :=
      State.postIf_apart (s := s.setCause .trip) (u := u) ha hp .trip rules[n].post
    obtain ⟨a', p', b', h1', h2'⟩ := ih a p
    refine ⟨a', p', b || b', fun k => ?_, fun k => ?_⟩
    · refine (h1' k).trans ?_
      rw [h1, s.setCause_bit .trip k]
      have : Cause.trip.position = 0 := rfl
      rw [this]
      cases k == 0 <;> cases k == 9 <;> cases b <;> cases b' <;> cases s.control.alerts.getLsbD k <;> simp
    · refine (h2' k).trans ?_
      rw [h2]
      cases k == 9 <;> cases b <;> cases b' <;> cases u.control.alerts.getLsbD k <;> rfl

/-- A record that reaches the ring reads the image and the store alone (R110 to R116). -/
theorem State.appendRecord_apart {s u : State} (hi : s.image = u.image) (hs : s.store = u.store) (r : Record) :
    (s.appendRecord r).store = (u.appendRecord r).store ∧
    ∃ b, (∀ k, (s.appendRecord r).control.alerts.getLsbD k = (s.control.alerts.getLsbD k || (k == 8 && b))) ∧
      ∀ k, (u.appendRecord r).control.alerts.getLsbD k = (u.control.alerts.getLsbD k || (k == 8 && b)) := by
  unfold State.appendRecord State.offerRing
  rw [← hi, ← hs]
  split
  · dsimp only
    split
    · exact ⟨rfl, false, fun k => by simp, fun k => by simp⟩
    split
    · refine ⟨by simp [State.countLoss, hs], true, fun k => ?_, fun k => ?_⟩ <;> rw [Bool.and_true]
      exacts [s.setCause_bit .ringLost k, u.setCause_bit .ringLost k]
    · refine ⟨by simp [State.countLoss, hs], true, fun k => ?_, fun k => ?_⟩ <;> rw [Bool.and_true]
      exacts [s.setCause_bit .ringLost k, u.setCause_bit .ringLost k]
  · exact ⟨hs, false, fun k => by simp, fun k => by simp⟩

/-- Lapses read the image and the store alone, and set LAPSE where there is one (R65). -/
theorem State.deliverLapses_apart (l : List Record) {s u : State} (hi : s.image = u.image) (hs : s.store = u.store) :
    (l.foldl State.deliverLapse s).store = (l.foldl State.deliverLapse u).store ∧
    ∃ b, (∀ k, (l.foldl State.deliverLapse s).control.alerts.getLsbD k =
        (s.control.alerts.getLsbD k || (k == 8 && b) || (k == 10 && !l.isEmpty))) ∧
      ∀ k, (l.foldl State.deliverLapse u).control.alerts.getLsbD k =
        (u.control.alerts.getLsbD k || (k == 8 && b) || (k == 10 && !l.isEmpty)) := by
  induction l generalizing s u with
  | nil => exact ⟨hs, false, fun k => by simp, fun k => by simp⟩
  | cons r l ih =>
    obtain ⟨e, b, h1, h2⟩ := State.appendRecord_apart hi hs r
    have image : (s.deliverLapse r).image = (u.deliverLapse r).image := by
      obtain ⟨_, _, _, _, hx⟩ := s.deliverLapse_changes r
      obtain ⟨_, _, _, _, hy⟩ := u.deliverLapse_changes r
      rw [hx, hy]
      exact hi
    obtain ⟨e', b', h1', h2'⟩ := ih (s := s.deliverLapse r) (u := u.deliverLapse r) image e
    refine ⟨e', b || b', fun k => ?_, fun k => ?_⟩
    · refine (h1' k).trans ?_
      rw [show (s.deliverLapse r).control.alerts.getLsbD k = _ from (s.appendRecord r).setCause_bit .lapse k, h1,
        show Cause.lapse.position = 10 from rfl]
      cases k == 8 <;> cases k == 10 <;> cases b <;> cases b' <;> cases s.control.alerts.getLsbD k <;> simp
    · refine (h2' k).trans ?_
      rw [show (u.deliverLapse r).control.alerts.getLsbD k = _ from (u.appendRecord r).setCause_bit .lapse k, h2,
        show Cause.lapse.position = 10 from rfl]
      cases k == 8 <;> cases k == 10 <;> cases b <;> cases b' <;> cases u.control.alerts.getLsbD k <;> simp

/-- An outcome at the Result Store reads the image and the store alone (R108, R110). -/
theorem State.storeOutcome_apart {s u : State} (hi : s.image = u.image) (hs : s.store = u.store) (r : Record) :
    (s.storeOutcome r).store = (u.storeOutcome r).store ∧
    ∃ b, (∀ k, (s.storeOutcome r).control.alerts.getLsbD k = (s.control.alerts.getLsbD k || (k == 8 && b))) ∧
      ∀ k, (u.storeOutcome r).control.alerts.getLsbD k = (u.control.alerts.getLsbD k || (k == 8 && b)) :=
  State.appendRecord_apart (s := { s with store.latest := latestAfter s.store.latest r })
    (u := { u with store.latest := latestAfter u.store.latest r }) hi (by rw [hs]) r

/-- The Peer Table reads the image and itself alone, and sets no cause but PEER_LOST (R123 to R128). -/
theorem State.peersTake_apart {s u : State} (hi : s.image = u.image) (hp : s.peers = u.peers) (r : Record) :
    (s.peersTake r).peers = (u.peersTake r).peers ∧
    ∃ b, (∀ k, (s.peersTake r).control.alerts.getLsbD k = (s.control.alerts.getLsbD k || (k == 1 && b))) ∧
      ∀ k, (u.peersTake r).control.alerts.getLsbD k = (u.control.alerts.getLsbD k || (k == 1 && b)) := by
  have reports : ∀ (l : List (Fin 32)) (s u : State), s.peers = u.peers →
      (l.foldl (fun t _ => t.reportPeerLost) s).peers = (l.foldl (fun t _ => t.reportPeerLost) u).peers ∧
      (∀ k, (l.foldl (fun t _ => t.reportPeerLost) s).control.alerts.getLsbD k =
        (s.control.alerts.getLsbD k || (k == 1 && !l.isEmpty))) ∧
      ∀ k, (l.foldl (fun t _ => t.reportPeerLost) u).control.alerts.getLsbD k =
        (u.control.alerts.getLsbD k || (k == 1 && !l.isEmpty)) := by
    intro l
    induction l with
    | nil => exact fun s u h => ⟨h, fun k => by simp, fun k => by simp⟩
    | cons a l ih =>
      intro s u h
      obtain ⟨e, h1, h2⟩ := ih s.reportPeerLost u.reportPeerLost (by simp [State.reportPeerLost, h])
      have one : ∀ (x : State) (k : Nat), x.reportPeerLost.control.alerts.getLsbD k = (x.control.alerts.getLsbD k || k == 1) :=
        fun x k => x.setCause_bit .peerLost k
      refine ⟨e, fun k => ?_, fun k => ?_⟩
      · refine (h1 k).trans ?_
        rw [one]
        cases k == 1 <;> simp
      · refine (h2 k).trans ?_
        rw [one]
        cases k == 1 <;> simp
  unfold State.peersTake
  split
  · unfold State.applyRoster
    rw [hi, hp]
    dsimp only
    rename_i set _ _
    generalize (Vector.ofFn fun a : Fin 32 =>
      u.peers.entries[a].afterRoster (set.getLsbD a.val) r.cycle u.image.settings.missLimit) = entries
    obtain ⟨e, h1, h2⟩ := reports ((List.finRange 32).filter fun a => entersLost u.peers.entries[a] entries[a])
      { s with peers := { u.peers with entries := entries }, image := u.image } { u with peers.entries := entries } rfl
    exact ⟨e, _, h1, h2⟩
  · unfold State.applyHolder
    rw [hp]
    exact ⟨rfl, false, fun k => by simp, fun k => by simp⟩
  · exact ⟨hp, false, fun k => by simp, fun k => by simp⟩

/-- The pending sets at an outcome read the image, the scheduler and the store alone, and set no cause but RING_LOST and
LAPSE (R62 to R65). -/
theorem State.pendingTake_apart {s u : State} (hi : s.image = u.image) (hq : s.sched = u.sched) (hs : s.store = u.store)
    (r : Record) :
    (s.pendingTake r).sched = (u.pendingTake r).sched ∧ (s.pendingTake r).store = (u.pendingTake r).store ∧
    ∃ b c, (∀ k, (s.pendingTake r).control.alerts.getLsbD k =
        (s.control.alerts.getLsbD k || (k == 8 && b) || (k == 10 && c))) ∧
      ∀ k, (u.pendingTake r).control.alerts.getLsbD k =
        (u.control.alerts.getLsbD k || (k == 8 && b) || (k == 10 && c)) := by
  have hsched : (s.pendingTake r).sched = (u.pendingTake r).sched := by
    obtain ⟨_, _, _, _, h⟩ := s.pendingTake_changes r
    obtain ⟨_, _, _, _, h'⟩ := u.pendingTake_changes r
    rw [h, h', hq]
  refine ⟨hsched, ?_⟩
  unfold State.pendingTake
  rw [← hi, ← hq]
  split
  · rename_i reason _ _
    obtain ⟨e, b, h1, h2⟩ := State.deliverLapses_apart [lapseRecord s.image r.cycle reason r.code]
      (s := { s with sched := { s.sched with
        scheduled := scheduledTake s.sched.scheduled r.code r.outcome
        adhoc := adhocTake s.sched.adhoc r.code r.outcome } })
      (u := { u with
        image := s.image
        sched := { s.sched with
          scheduled := scheduledTake s.sched.scheduled r.code r.outcome
          adhoc := adhocTake s.sched.adhoc r.code r.outcome } }) rfl hs
    exact ⟨e, b, true, h1, h2⟩
  · exact ⟨hs, false, false, fun k => by simp, fun k => by simp⟩

/-- LAPSE at an outcome depends on the pending sets alone (R64, R65). -/
theorem State.pendingTake_lapse {s u : State} (hq : s.sched = u.sched)
    (ha : s.control.alerts.getLsbD 10 = u.control.alerts.getLsbD 10) (r : Record) :
    (s.pendingTake r).control.alerts.getLsbD 10 = (u.pendingTake r).control.alerts.getLsbD 10 := by
  unfold State.pendingTake
  rw [← hq]
  split
  · exact (State.setCause_bit _ .lapse 10).trans ((Bool.or_true _).trans
      ((Bool.or_true _).symm.trans (State.setCause_bit _ .lapse 10).symm))
  · exact ha

/-- The causes that Station Control sets at an outcome: DIGEST_DISAGREE and DUP_ADDRESS (R157). -/
theorem State.controlTake_alerts (s : State) (r : Record) (fault : Bool) :
    ∃ b, (b = true ↔ r.outcome = .valid ∧ ∃ v h self, r.content = .extreme v h self true) ∧
      (s.controlTake r fault).control.counters.dupAddresses =
        (if b then satInc s.control.counters.dupAddresses else s.control.counters.dupAddresses) ∧
      (s.controlTake r fault).control.counters.postsLost = s.control.counters.postsLost ∧
      (s.controlTake r fault).control.counters.voids =
        (if r.outcome = .void then satInc s.control.counters.voids else s.control.counters.voids) ∧
      ∀ k, (s.controlTake r fault).control.alerts.getLsbD k =
        (s.control.alerts.getLsbD k || (k == 2 && r.outcome == .disagree) || (k == 3 && b)) := by
  have base : ∀ t : State, t = ({ s with control.window := windowAfter s.control.window fault }.countVoid r).noteDisagree r →
      (t.control.counters.dupAddresses = s.control.counters.dupAddresses ∧
        t.control.counters.postsLost = s.control.counters.postsLost ∧
        t.control.counters.voids =
          (if r.outcome = .void then satInc s.control.counters.voids else s.control.counters.voids)) ∧
      ∀ k, t.control.alerts.getLsbD k = (s.control.alerts.getLsbD k || (k == 2 && r.outcome == .disagree)) := by
    rintro t rfl
    unfold State.noteDisagree State.countVoid
    by_cases hv : r.outcome = .void
    · rw [if_pos hv, if_neg (by rw [hv]; decide), if_pos hv]
      exact ⟨⟨rfl, rfl, rfl⟩, fun k => by rw [hv]; simp [State.bump]⟩
    · rw [if_neg hv, if_neg hv]
      by_cases hd : r.outcome = .disagree
      · rw [if_pos hd, hd]
        refine ⟨⟨rfl, rfl, rfl⟩, fun k => ?_⟩
        refine (State.setCause_bit _ .digestDisagree k).trans ?_
        rw [show Cause.digestDisagree.position = 2 from rfl, show (RoundOutcome.disagree == .disagree) = true from rfl,
          Bool.and_true]
      · rw [if_neg hd]
        exact ⟨⟨rfl, rfl, rfl⟩, fun k => by simp [hd]⟩
  obtain ⟨⟨h1, h2, h3⟩, h4⟩ := base _ rfl
  unfold State.controlTake
  generalize ({ s with control.window := windowAfter s.control.window fault }.countVoid r).noteDisagree r = t at *
  unfold State.noteDuplicate
  dsimp only
  split
  · rename_i ho hc
    refine ⟨true, iff_of_true rfl ⟨ho, _, _, _, hc⟩, ?_, h2, h3, fun k => ?_⟩
    · exact congrArg satInc h1
    · refine (State.setCause_bit t .dupAddress k).trans ?_
      rw [h4, show Cause.dupAddress.position = 3 from rfl, Bool.and_true]
  · rename_i hn
    refine ⟨false, iff_of_false Bool.false_ne_true ?_, h1, h2, h3, fun k => ?_⟩
    · rintro ⟨ho, v, h, self, hc⟩
      exact hn v h self ho hc
    · rw [h4]
      simp

/-- A change of every rule, in full: the rules that latch report and post in ascending index (R140). -/
theorem State.changeRules_posts (s u : State) (f : TripRule → RuleState → RuleState) (ha : s.sched.adhoc = u.sched.adhoc)
    (hp : s.control.counters.postsLost = u.control.counters.postsLost) :
    let latched := (List.finRange 8).filter fun n : Fin 8 => latches s.trip[n] (f s.image.rules[n] s.trip[n])
    let posted := latched.foldl (fun t n => t.postIf .trip s.image.rules[n].post) u
    (s.changeRules f).sched.adhoc = posted.sched.adhoc ∧
    (s.changeRules f).control.counters.postsLost = posted.control.counters.postsLost ∧
    ∃ b, (∀ k, (s.changeRules f).control.alerts.getLsbD k =
        (s.control.alerts.getLsbD k || (k == 0 && !latched.isEmpty) || (k == 9 && b))) ∧
      ∀ k, posted.control.alerts.getLsbD k = (u.control.alerts.getLsbD k || (k == 9 && b)) := by
  have h : s.changeRules f =
      ((List.finRange 8).filter fun n : Fin 8 => latches s.trip[n] (f s.image.rules[n] s.trip[n])).foldl
        (fun t n => (t.setCause .trip).postIf .trip s.image.rules[n].post)
        { s with trip := Vector.ofFn fun n => f s.image.rules[n] s.trip[n] } := by
    unfold State.changeRules
    dsimp only
    congr 2
    funext n
    congr 1
    exact Vector.getElem_ofFn n.isLt
  rw [h]
  exact State.tripPosts_apart s.image.rules _ ha hp

/-- A cycle boundary, in full: its lapses as they fall on the state before it, and the posts of the rules that latch on the
ad hoc set that ages and lapses leave (R54, R65, R140). -/
theorem State.cycleBoundary_posts (s : State) :
    let latched := (List.finRange 8).filter fun n : Fin 8 =>
      latches s.trip[n] (s.trip[n].takeBoundary s.image.rules[n] (s.sched.cycle + 1))
    let posted := latched.foldl (fun t n => t.postIf .trip s.image.rules[n].post)
      { s with sched.adhoc := adhocAfter s.round.inFlight s.sched.adhoc }
    s.cycleBoundary.sched.adhoc = posted.sched.adhoc ∧
    s.cycleBoundary.control.counters.postsLost = posted.control.counters.postsLost ∧
    s.cycleBoundary.store = ((boundaryLapses s).foldl State.deliverLapse s).store ∧
    ∀ k, s.cycleBoundary.control.alerts.getLsbD k = (s.control.alerts.getLsbD k || (k == 0 && !latched.isEmpty) ||
      (k == 8 && ((boundaryLapses s).foldl State.deliverLapse s).control.alerts.getLsbD 8) ||
      (k == 9 && posted.control.alerts.getLsbD 9) || (k == 10 && !(boundaryLapses s).isEmpty)) := by
  obtain ⟨e, b, h1, h2⟩ := State.deliverLapses_apart (boundaryLapses s) (s := s.rollCycle) (u := s) rfl rfl
  obtain ⟨_, _, _, _, h⟩ := State.deliverLapses_changes (boundaryLapses s) s.rollCycle
  unfold State.cycleBoundary State.tripBoundary
  generalize (boundaryLapses s).foldl State.deliverLapse s.rollCycle = t at *
  have same : t.trip = s.trip ∧ t.image = s.image ∧ t.sched.cycle = s.sched.cycle + 1 := by rw [h]; exact ⟨rfl, rfl, rfl⟩
  obtain ⟨a, p, c, h3, h4⟩ := t.changeRules_posts { s with sched.adhoc := adhocAfter s.round.inFlight s.sched.adhoc }
    (fun rule r => r.takeBoundary rule t.sched.cycle) (by rw [h]; rfl) (by rw [h]; rfl)
  rw [same.1, same.2.1, same.2.2] at a p h3 h4
  rw [same.2.2]
  refine ⟨a, p, ?_, fun k => ?_⟩
  · obtain ⟨_, _, _, hc⟩ := t.changeRules_changes fun rule r => r.takeBoundary rule (s.sched.cycle + 1)
    rw [hc]
    exact e
  · rw [h3, h4, h1, h2, show s.rollCycle.control.alerts = s.control.alerts from rfl]
    by_cases k0 : k = 0
    · subst k0
      simp
    by_cases k8 : k = 8
    · subst k8
      simp
    by_cases k9 : k = 9
    · subst k9
      simp
    by_cases k10 : k = 10
    · subst k10
      simp
    rw [beq_eq_false_iff_ne.2 k0, beq_eq_false_iff_ne.2 k8, beq_eq_false_iff_ne.2 k9, beq_eq_false_iff_ne.2 k10]
    simp only [Bool.false_and, Bool.or_false]

/-- A cycle boundary reads the image, the code in flight, the scheduler, the store, the rules and the lost posts alone
(R54). -/
theorem State.cycleBoundary_apart {s u : State} (hi : s.image = u.image) (hf : s.round.inFlight = u.round.inFlight)
    (hq : s.sched = u.sched) (hs : s.store = u.store) (ht : s.trip = u.trip)
    (hp : s.control.counters.postsLost = u.control.counters.postsLost) (ha : s.control.alerts = u.control.alerts) :
    s.cycleBoundary.sched = u.cycleBoundary.sched ∧ s.cycleBoundary.store = u.cycleBoundary.store ∧
    s.cycleBoundary.trip = u.cycleBoundary.trip ∧
    s.cycleBoundary.control.counters.postsLost = u.cycleBoundary.control.counters.postsLost ∧
    s.cycleBoundary.control.alerts = u.cycleBoundary.control.alerts := by
  obtain ⟨e, b, h1, h2⟩ := State.deliverLapses_apart (boundaryLapses s) (s := s.rollCycle) (u := u.rollCycle) hi hs
  have same : boundaryLapses s = boundaryLapses u := by
    unfold boundaryLapses
    rw [hi, hf, hq]
  have roll : s.rollCycle.sched = u.rollCycle.sched := by
    unfold State.rollCycle
    rw [hi, hf, hq]
  obtain ⟨_, _, _, _, h3⟩ := State.deliverLapses_changes (boundaryLapses s) s.rollCycle
  obtain ⟨_, _, _, _, h4⟩ := State.deliverLapses_changes (boundaryLapses u) u.rollCycle
  unfold State.cycleBoundary State.tripBoundary
  rw [← same] at h4 ⊢
  generalize (boundaryLapses s).foldl State.deliverLapse s.rollCycle = t at *
  generalize (boundaryLapses s).foldl State.deliverLapse u.rollCycle = v at *
  have image : t.image = v.image := by
    rw [h3, h4]
    exact hi
  have sched : t.sched = v.sched := by
    rw [h3, h4]
    exact roll
  have trip : t.trip = v.trip := by
    rw [h3, h4]
    exact ht
  have posts : t.control.counters.postsLost = v.control.counters.postsLost := by
    rw [h3, h4]
    exact hp
  obtain ⟨a1, p1, b1, c1, d1⟩ := t.changeRules_posts t (fun rule r => r.takeBoundary rule t.sched.cycle) rfl rfl
  obtain ⟨a2, p2, b2, c2, d2⟩ := v.changeRules_posts t (fun rule r => r.takeBoundary rule v.sched.cycle)
    (by rw [sched]) posts.symm
  obtain ⟨_, _, _, h5⟩ := t.changeRules_changes fun rule r => r.takeBoundary rule t.sched.cycle
  obtain ⟨_, _, _, h6⟩ := v.changeRules_changes fun rule r => r.takeBoundary rule v.sched.cycle
  rw [image, sched, trip] at a1 p1 c1 d1
  rw [← a2] at a1
  rw [← p2] at p1
  rw [← sched] at *
  generalize (t.changeRules fun rule r => r.takeBoundary rule t.sched.cycle) = x at *
  generalize (v.changeRules fun rule r => r.takeBoundary rule t.sched.cycle) = y at *
  refine ⟨?_, ?_, ?_, p1, ?_⟩
  · rw [h5, h6] at a1 ⊢
    simp only at a1
    rw [a1, ← sched]
  · rw [h5, h6]
    exact e
  · rw [h5, h6, trip, image]
  · refine BitVec.eq_of_getLsbD_eq fun k _ => ?_
    rw [c1, c2, h1, h2, show s.rollCycle.control.alerts = u.rollCycle.control.alerts from ha]
    by_cases k9 : k = 9
    · subst k9
      have h9 := (d1 9).symm.trans (d2 9)
      have l9 : t.control.alerts.getLsbD 9 = (u.rollCycle.control.alerts.getLsbD 9) := by
        rw [h1, show s.rollCycle.control.alerts = u.rollCycle.control.alerts from ha]
        simp
      rw [l9] at h9
      simpa using h9
    · rw [beq_eq_false_iff_ne.2 k9]
      simp only [Bool.false_and, Bool.or_false]

end Sys2Proof.Machine
end

