-- ==== Sys2Proof/Laws/LineFrame.lean ====
section
/-! SUPPORT. What a sample, a boundary, an expiry, a conversion and the end of a round can change. -/

namespace Sys2Proof.Machine

/-- The recognition of a code (R25): the round, and what an anchor notice reaches. -/
theorem State.recognise_changes (s : State) :
    ∃ line round draws sched scan position counter timer held flags ring seq lost trip observed alerts counters, s.recognise =
      { s with
        line := line, round := round, clock.draws := draws, sched := sched
        meas := { s.meas with scan := scan, position := position, counter := counter, timer := timer, held := held }
        source.flags := flags
        store := { s.store with ring := ring, seq := seq, lost := lost }
        trip := trip
        control := { s.control with anchorObserved := observed, alerts := alerts, counters := counters } } := by
  unfold State.recognise
  split
  · rename_i e _
    unfold State.recogniseKnown
    dsimp only
    split
    · obtain ⟨cycle, scheduled, adhoc, ring, seq, lost, trip, scan, position, counter, timer, held, flags, observed, alerts,
        counters, h⟩ := State.anchorNotice_changes
          { s with round := { s.round with kind := e.kind, phase := .body, pos := 0 } }
      rw [h]
      obtain ⟨snapshot, nonce, draws, h'⟩ := State.takeSnapshot_changes
        { s with
          round := { s.round with kind := e.kind, phase := .body, pos := 0 }
          sched := { s.sched with
            timer := eightBitTimes s.image.settings.rate, cycle := cycle, anchorDone := true, scheduled := scheduled
            adhoc := adhoc }
          store := { s.store with ring := ring, seq := seq, lost := lost }
          trip := trip
          meas := { s.meas with scan := scan, position := position, counter := counter, timer := timer, held := held }
          source.flags := flags
          control := { s.control with anchorObserved := observed, alerts := alerts, counters := counters } } e
      exact ⟨s.line, _, draws, _, scan, position, counter, timer, held, flags, ring, seq, lost, trip, observed, alerts,
        counters, h'⟩
    · obtain ⟨snapshot, nonce, draws, h'⟩ := State.takeSnapshot_changes
        { s with round := { s.round with kind := e.kind, phase := .body, pos := 0 } } e
      exact ⟨s.line, _, draws, s.sched, s.meas.scan, s.meas.position, s.meas.counter, s.meas.timer, s.meas.held,
        s.source.flags, s.store.ring, s.store.seq, s.store.lost, s.trip, s.control.anchorObserved, s.control.alerts,
        s.control.counters, h'⟩
  · exact ⟨_, _, s.clock.draws, s.sched, s.meas.scan, s.meas.position, s.meas.counter, s.meas.timer, s.meas.held,
      s.source.flags, s.store.ring, s.store.seq, s.store.lost, s.trip, s.control.anchorObserved, s.control.alerts, _, rfl⟩

/-- A bit of a round (R21). -/
theorem State.roundBit_changes (s : State) (bit : Level) (fault suppressed : Bool) :
    ∃ line round draws sched scan position counter timer held flags store peers trip observed window alerts counters ending
      noted, s.roundBit bit fault suppressed =
      { s with
        line := line, round := round, clock.draws := draws, sched := sched
        meas := { s.meas with scan := scan, position := position, counter := counter, timer := timer, held := held }
        source.flags := flags
        store := store
        peers := peers
        trip := trip
        control := { s.control with
          anchorObserved := observed, window := window, alerts := alerts, counters := counters, roundEnding := ending
          anchorNoted := noted } } := by
  have same : ∀ round, { s with round := round } =
      { s with
        line := s.line, round := round, clock.draws := s.clock.draws, sched := s.sched
        meas := { s.meas with
          scan := s.meas.scan, position := s.meas.position, counter := s.meas.counter, timer := s.meas.timer, held := s.meas.held }
        source.flags := s.source.flags
        store := s.store
        peers := s.peers
        trip := s.trip
        control := { s.control with
          anchorObserved := s.control.anchorObserved, window := s.control.window, alerts := s.control.alerts
          counters := s.control.counters, roundEnding := s.control.roundEnding, anchorNoted := s.control.anchorNoted } } :=
    fun _ => rfl
  unfold State.roundBit
  split
  · exact ⟨_, s.round, _, _, _, _, _, _, _, _, _, _, _, _, _, _, _, _, _, same s.round⟩
  dsimp only
  split
  · split
    · obtain ⟨line, round, draws, sched, scan, position, counter, timer, held, flags, ring, seq, lost, trip, observed, alerts,
        counters, h⟩ := State.recognise_changes
          { s with round := s.round.takeBit (.code _) bit fault suppressed s.image.settings.address s.control.digest }
      exact ⟨line, round, draws, sched, scan, position, counter, timer, held, flags, _, s.peers, trip, observed,
        s.control.window, alerts, counters, s.control.roundEnding, s.control.anchorNoted, h⟩
    · exact ⟨_, _, _, _, _, _, _, _, _, _, _, _, _, _, _, _, _, _, _, same _⟩
  · obtain ⟨cycle, adhoc, ring, seq, lost, peers, alerts, counters, h⟩ :=
      s.leaveRound.deliverRecord_changes (s.round.recordOf bit) s.round.isFault
    exact ⟨_, _, s.clock.draws, _, s.meas.scan, s.meas.position, s.meas.counter, s.meas.timer, s.meas.held, s.source.flags, _,
      peers, _, s.control.anchorObserved, _, alerts, counters, true, _, h⟩
  · exact ⟨_, _, _, _, _, _, _, _, _, _, _, _, _, _, _, _, _, _, _, same _⟩

/-- A sample point (R7 to R16): the station state, the pins, the port, the image and the slot results stand. -/
theorem State.sample_changes (s : State) (lv : Level) :
    ∃ line round draws sched scan position counter timer held flags store peers trip observed window alerts counters ending
      noted, s.sample lv =
      { s with
        line := line, round := round, clock.draws := draws, sched := sched
        meas := { s.meas with scan := scan, position := position, counter := counter, timer := timer, held := held }
        source.flags := flags
        store := store
        peers := peers
        trip := trip
        control := { s.control with
          anchorObserved := observed, window := window, alerts := alerts, counters := counters, roundEnding := ending
          anchorNoted := noted } } := by
  have same : ∀ line round alerts counters,
      ({ s with
        line := line, round := round, control.alerts := alerts, control.counters := counters } : State) =
      { s with
        line := line, round := round, clock.draws := s.clock.draws, sched := s.sched
        meas := { s.meas with
          scan := s.meas.scan, position := s.meas.position, counter := s.meas.counter, timer := s.meas.timer, held := s.meas.held }
        source.flags := s.source.flags
        store := s.store
        peers := s.peers
        trip := s.trip
        control := { s.control with
          anchorObserved := s.control.anchorObserved, window := s.control.window, alerts := alerts
          counters := counters, roundEnding := s.control.roundEnding, anchorNoted := s.control.anchorNoted } } :=
    fun _ _ _ _ => rfl
  have stay : ∀ {t : State}, (∃ line round alerts counters, t =
      { s with line := line, round := round, control.alerts := alerts, control.counters := counters }) →
      ∃ line round draws sched scan position counter timer held flags store peers trip observed window alerts counters ending
        noted, t =
        { s with
          line := line, round := round, clock.draws := draws, sched := sched
          meas := { s.meas with scan := scan, position := position, counter := counter, timer := timer, held := held }
          source.flags := flags
          store := store
          peers := peers
          trip := trip
          control := { s.control with
            anchorObserved := observed, window := window, alerts := alerts, counters := counters, roundEnding := ending
            anchorNoted := noted } } := by
    rintro t ⟨line, round, alerts, counters, h⟩
    exact ⟨_, _, _, _, _, _, _, _, _, _, _, _, _, _, _, _, _, _, _, h.trans (same line round alerts counters)⟩
  unfold State.sample
  split
  · split
    · exact stay ⟨s.line, s.round, s.control.alerts, s.control.counters, rfl⟩
    · refine stay ?_
      unfold State.sampleRecover
      split
      · exact ⟨_, s.round, s.control.alerts, s.control.counters, rfl⟩
      split
      · exact ⟨_, s.round, _, s.control.counters, rfl⟩
      · exact ⟨_, s.round, s.control.alerts, s.control.counters, rfl⟩
    · refine stay ?_
      unfold State.sampleStuck
      split
      · exact ⟨_, s.round, s.control.alerts, s.control.counters, rfl⟩
      · exact ⟨_, s.round, s.control.alerts, s.control.counters, rfl⟩
    · refine stay ?_
      unfold State.sampleIdle State.sampleSecond State.sampleFirst
      split
      · split
        · exact ⟨_, _, s.control.alerts, s.control.counters, rfl⟩
        · unfold State.countFault
          split
          · exact ⟨_, s.round, s.control.alerts, _, rfl⟩
          · exact ⟨_, s.round, s.control.alerts, _, rfl⟩
      · split
        · exact ⟨_, s.round, s.control.alerts, s.control.counters, rfl⟩
        split
        · exact ⟨_, s.round, s.control.alerts, _, rfl⟩
        · exact ⟨_, s.round, s.control.alerts, s.control.counters, rfl⟩
    · unfold State.sampleRound State.countFault
      dsimp only
      split
      · obtain ⟨line, round, draws, sched, scan, position, counter, timer, held, flags, store, peers, trip, observed, window,
          alerts, counters, ending, noted, h⟩ := State.roundBit_changes
            { ((s.counted lv).bump .driveFaults) with
              line.suppressed := (s.counted lv).line.suppressed || (s.counted lv).isDriveFault lv }
            lv ((s.counted lv).isDriveFault lv) (s.counted lv).line.suppressed
        exact ⟨line, round, draws, sched, scan, position, counter, timer, held, flags, store, peers, trip, observed, window,
          alerts, counters, ending, noted, h⟩
      · obtain ⟨line, round, draws, sched, scan, position, counter, timer, held, flags, store, peers, trip, observed, window,
          alerts, counters, ending, noted, h⟩ := State.roundBit_changes
            { (s.counted lv) with
              line.suppressed := (s.counted lv).line.suppressed || (s.counted lv).isDriveFault lv }
            lv ((s.counted lv).isDriveFault lv) (s.counted lv).line.suppressed
        exact ⟨line, round, draws, sched, scan, position, counter, timer, held, flags, store, peers, trip, observed, window,
          alerts, counters, ending, noted, h⟩
  · exact stay ⟨s.line, s.round, s.control.alerts, s.control.counters, rfl⟩

/-- The end of a round at Station Control (R157 to R159). -/
theorem State.endRound_changes (s : State) :
    ∃ ltxd station alerts ending noted, s.endRound =
      { s with
        line.ltxd := ltxd
        control := { s.control with station := station, alerts := alerts, roundEnding := ending, anchorNoted := noted } } := by
  unfold State.endRound State.judgeRound State.leaveJoining
  split
  · split
    · split
      · split
        · exact ⟨s.line.ltxd, _, s.control.alerts, _, _, rfl⟩
        · exact ⟨_, _, _, _, _, rfl⟩
      · exact ⟨s.line.ltxd, s.control.station, s.control.alerts, _, _, rfl⟩
    · split
      · exact ⟨_, _, _, _, _, rfl⟩
      · exact ⟨s.line.ltxd, s.control.station, s.control.alerts, _, _, rfl⟩
    · split
      · exact ⟨s.line.ltxd, _, s.control.alerts, _, _, rfl⟩
      · exact ⟨s.line.ltxd, s.control.station, s.control.alerts, _, _, rfl⟩
    · exact ⟨s.line.ltxd, s.control.station, s.control.alerts, _, _, rfl⟩
    · exact ⟨s.line.ltxd, s.control.station, s.control.alerts, _, _, rfl⟩
  · exact ⟨s.line.ltxd, s.control.station, s.control.alerts, s.control.roundEnding, s.control.anchorNoted, rfl⟩

theorem State.driveNext_changes (s : State) (line : Level) :
    ∃ ltxd mark, s.driveNext line = { s with line.ltxd := ltxd, line.ownMark := mark } := by
  unfold State.driveNext
  split
  · exact ⟨_, _, rfl⟩
  · exact ⟨_, _, rfl⟩
  · exact ⟨_, s.line.ownMark, rfl⟩

/-- A bit boundary (R6, R11, R157): LTXD, the own start mark and Station Control. -/
theorem State.boundary_changes (s : State) (line : Level) :
    ∃ ltxd mark lrxd bitTimer station alerts ending noted, s.boundary line =
      { s with
        line := { s.line with ltxd := ltxd, ownMark := mark, lrxd := lrxd, bitTimer := bitTimer }
        control := { s.control with station := station, alerts := alerts, roundEnding := ending, anchorNoted := noted } } := by
  unfold State.boundary
  split
  · obtain ⟨_, station, alerts, ending, noted, h1⟩ :=
      State.endRound_changes { s with line := { s.line with lrxd := line, bitTimer := 0 } }
    obtain ⟨ltxd, mark, h2⟩ :=
      State.driveNext_changes ({ s with line := { s.line with lrxd := line, bitTimer := 0 } } : State).endRound line
    refine ⟨ltxd, mark, line, 0, station, alerts, ending, noted, ?_⟩
    rw [h2, h1]
  · exact ⟨s.line.ltxd, s.line.ownMark, s.line.lrxd, s.line.bitTimer, s.control.station, s.control.alerts,
      s.control.roundEnding, s.control.anchorNoted, rfl⟩

/-- The expiry of the cycle timer (R51, R54, R154). -/
theorem State.expire_changes (s : State) :
    ∃ ltxd sched ring seq lost trip station observed alerts counters, s.expire =
      { s with
        line.ltxd := ltxd
        sched := sched
        store := { s.store with ring := ring, seq := seq, lost := lost }
        trip := trip
        control := { s.control with
          station := station, anchorObserved := observed, alerts := alerts, counters := counters } } := by
  unfold State.expire
  split
  · obtain ⟨adhoc, ring, seq, lost, alerts, counters, h⟩ := s.cycleBoundary_changes
    unfold State.judgeExpiry State.leaveJoining
    rw [h]
    dsimp only
    split
    · split
      · split
        · exact ⟨s.line.ltxd, _, ring, seq, lost, _, _, _, alerts, counters, rfl⟩
        · exact ⟨_, _, ring, seq, lost, _, _, _, _, counters, rfl⟩
      · exact ⟨s.line.ltxd, _, ring, seq, lost, _, s.control.station, _, alerts, counters, rfl⟩
    · exact ⟨s.line.ltxd, _, ring, seq, lost, _, s.control.station, s.control.anchorObserved, alerts, counters, rfl⟩
  · exact ⟨s.line.ltxd, s.sched, s.store.ring, s.store.seq, s.store.lost, s.trip, s.control.station,
      s.control.anchorObserved, s.control.alerts, s.control.counters, rfl⟩

/-- The end of a conversion (R80 to R87). -/
theorem State.completeConversion_changes (s : State) :
    ∃ meas flags adhoc alerts counters, s.completeConversion =
      { s with
        meas := meas, source.flags := flags, sched.adhoc := adhoc, control.alerts := alerts, control.counters := counters } := by
  unfold State.completeConversion
  split
  · rename_i n raw _ _ _
    obtain ⟨adhoc, flags, alerts, counters, h⟩ := s.writeSample_changes n raw false
    dsimp only
    split
    · rw [h]
      exact ⟨_, flags, adhoc, alerts, counters, rfl⟩
    · obtain ⟨scan, position, counter, timer, held, h'⟩ := (s.writeSample n raw false).endScan_changes
      rw [h', h]
      exact ⟨_, flags, adhoc, alerts, counters, rfl⟩
  · exact ⟨s.meas, s.source.flags, s.sched.adhoc, s.control.alerts, s.control.counters, rfl⟩

end Sys2Proof.Machine
end

