-- ==== Sys2Proof/Laws/Round.lean ====
section
/-! SUPPORT. A bit taken by the Round Engine, part by part: what each part keeps, and the values it gives. -/

namespace Sys2Proof.Machine

/-- A bit in its field leaves the place, the kind, the cycle, the contribution and the check accumulator (R21). -/
theorem Round.takeField_keeps (r : Round) (f : Field) (bit : Level) (fault suppressed : Bool) (address : Address)
    (digest : Word) :
    let t := r.takeField f bit fault suppressed address digest
    t.phase = r.phase ∧ t.pos = r.pos ∧ t.kind = r.kind ∧ t.cycle = r.cycle ∧ t.check = r.check ∧ t.snapshot = r.snapshot ∧
    t.nonce = r.nonce ∧ t.ownCode = r.ownCode := by
  cases f <;>
    simp only [Round.takeField, Round.codeContention, Round.takePresence, Round.contention, Round.nonceLoss,
      Round.digestBit, Round.positionBit, Round.checkBit] <;>
    (repeat' split) <;> simp

/-- Only a code bit changes the role and the code read (R23). -/
theorem Round.takeField_role (r : Round) {f : Field} (bit : Level) (fault suppressed : Bool) (address : Address)
    (digest : Word) (h : ∀ k, f ≠ .code k) :
    let t := r.takeField f bit fault suppressed address digest
    t.role = r.role ∧ t.codeRead = r.codeRead := by
  cases f with
  | code k => exact absurd rfl (h k)
  | _ =>
    simp only [Round.takeField, Round.takePresence, Round.contention, Round.nonceLoss, Round.digestBit, Round.positionBit,
      Round.checkBit]
    (repeat' split) <;> simp

/-- Only a check bit finds a disagreement (R38, R39). -/
theorem Round.takeField_cause (r : Round) {f : Field} (bit : Level) (fault suppressed : Bool) (address : Address)
    (digest : Word) (h : ∀ k, f ≠ .check k) :
    let t := r.takeField f bit fault suppressed address digest
    t.cause = r.cause ∧ t.mismatch = r.mismatch := by
  cases f with
  | check k => exact absurd rfl (h k)
  | _ =>
    simp only [Round.takeField, Round.codeContention, Round.takePresence, Round.contention, Round.nonceLoss,
      Round.digestBit, Round.positionBit]
    (repeat' split) <;> simp

/-- A contender stays one unless it has a drive fault or sent 1 and read LOW (R28). -/
theorem Round.contention_eq (r : Round) (f : Field) (bit : Level) (fault : Bool) (address : Address) :
    r.contention f bit fault address =
      { r with contender := r.contender && !(fault || (r.bitOf address f && bit == .low)) } := by
  unfold Round.contention
  split
  · next h =>
    rw [Bool.and_eq_true] at h
    rw [h.1, h.2]
    rfl
  · next h =>
    have hb : (r.contender && !(fault || (r.bitOf address f && bit == .low))) = r.contender := by
      revert h
      cases r.contender <;> cases (fault || (r.bitOf address f && bit == .low)) <;> simp
    rw [hb]

/-- Lost in nonce is set by a contender that sent 1 and read LOW, and not by a drive fault (R31). -/
theorem Round.nonceLoss_eq (r : Round) (f : Field) (bit : Level) (fault : Bool) (address : Address) :
    r.nonceLoss f bit fault address =
      { r with lostInNonce := r.lostInNonce || (r.contender && !fault && r.bitOf address f && bit == .low) } := by
  unfold Round.nonceLoss
  split
  · next h =>
    rw [h]
    simp
  · next h =>
    rw [Bool.eq_false_iff.2 h]
    simp

/-- A difference found in a digest bit (R34, R36). -/
theorem Round.digestBit_eq (r : Round) (own : Bool) (bit : Level) :
    r.digestBit own bit = { r with differs := r.differs || ((r.sender || r.role == .observer) && own && bit == .low) } := by
  unfold Round.digestBit
  split
  · next h =>
    rw [h]
    simp
  · next h =>
    rw [Bool.eq_false_iff.2 h]
    simp

/-- A check bit: a participant that sent 1 and read LOW finds a disagreement (R38), an observer that reads another bit than
its own check value's a mismatch (R39). -/
theorem Round.checkBit_eq (r : Round) (f : Field) (bit : Level) (address : Address) :
    r.checkBit f bit address =
      { r with
        cause := if r.participant && r.bitOf address f && bit == .low then r.cause.found .checkDisagreement else r.cause
        mismatch := r.mismatch || (!r.participant && bit != Level.ofBit (r.bitOf address f)) } := by
  unfold Round.checkBit
  generalize r.bitOf address f = own
  generalize r.participant = part
  cases part <;> cases own <;> cases bit <;> simp [Level.ofBit]

/-- A drive fault is an objection cause of a participant, and changes nothing else (R15). -/
theorem Round.noteFault_eq (r : Round) (fault : Bool) : r.noteFault fault = { r with cause := (r.noteFault fault).cause } := by
  unfold Round.noteFault
  split <;> rfl

theorem Round.accumulate_eq (r : Round) (f : Field) (bit : Level) :
    r.accumulate f bit = { r with check := if f.accumulated then crc8Bit r.check bit.bit else r.check } := by
  unfold Round.accumulate
  split <;> rfl

/-- The place after a bit (R21). -/
theorem Round.advance_eq (r : Round) : r.advance = { r with phase := r.advance.phase, pos := r.advance.pos } := by
  unfold Round.advance
  split
  · split <;> rfl
  · split <;> rfl
  · rfl
  · rfl
  · rfl

/-- The place of a round after a bit, from its place before (R21). -/
def placeAfter (kind : Kind) (phase : Phase) (pos : Nat) : Phase × Nat :=
  match phase with
  | .body => if pos + 1 = bodyBits kind then (.check, 0) else (.body, pos + 1)
  | .check => if pos + 1 = 8 then (.objection, 0) else (.check, pos + 1)
  | .code => (.code, pos + 1)
  | .none => (.none, pos)
  | .objection => (.objection, pos)

theorem Round.advance_place (r : Round) :
    r.advance.phase = (placeAfter r.kind r.phase r.pos).1 ∧ r.advance.pos = (placeAfter r.kind r.phase r.pos).2 := by
  unfold Round.advance placeAfter
  cases hp : r.phase
  · exact ⟨hp, rfl⟩
  · exact ⟨rfl, rfl⟩
  · dsimp only
    split <;> exact ⟨rfl, rfl⟩
  · dsimp only
    split <;> exact ⟨rfl, rfl⟩
  · exact ⟨hp, rfl⟩

/-- A bit taken: its field, then the check accumulator and the place (R21, R37). -/
theorem Round.takeBit_eq (r : Round) (f : Field) (bit : Level) (fault suppressed : Bool) (address : Address) (digest : Word) :
    r.takeBit f bit fault suppressed address digest =
      { (r.noteFault fault).takeField f bit fault suppressed address digest with
        check := if f.accumulated then crc8Bit r.check bit.bit else r.check
        phase := (placeAfter r.kind r.phase r.pos).1
        pos := (placeAfter r.kind r.phase r.pos).2 } := by
  obtain ⟨h1, h2, h3, _, h5, _⟩ := (r.noteFault fault).takeField_keeps f bit fault suppressed address digest
  have n : ∀ {α : Type} (g : Round → α) (_ : ∀ c, g { r with cause := c } = g r), g (r.noteFault fault) = g r := by
    intro α g hg
    rw [r.noteFault_eq]
    exact hg _
  have e1 := n Round.phase fun _ => rfl
  have e2 := n Round.pos fun _ => rfl
  have e3 := n Round.kind fun _ => rfl
  have e5 := n Round.check fun _ => rfl
  unfold Round.takeBit
  generalize ht : (r.noteFault fault).takeField f bit fault suppressed address digest = t at *
  rw [Round.advance_eq, Round.accumulate_eq]
  obtain ⟨a, b⟩ := Round.advance_place { t with check := if f.accumulated then crc8Bit t.check bit.bit else t.check }
  rw [a, b]
  dsimp only
  rw [h1, h2, h3, h5, e1, e2, e3, e5]

/-- The field of a round's next bit follows from its place (R19). -/
theorem Round.field_code {r : Round} {k : Nat} (h : r.field = some (.code k)) : r.phase = .code ∧ r.pos = k := by
  unfold Round.field at h
  cases hp : r.phase <;> rw [hp] at h
  · cases h
  · cases h
    exact ⟨rfl, rfl⟩
  · simp only [Option.some.injEq] at h
    revert h
    unfold bodyField
    cases r.kind <;> dsimp only <;> (repeat' split) <;> intro h <;> cases h
  · cases h
  · cases h

theorem Round.field_check {r : Round} {k : Nat} (h : r.field = some (.check k)) : r.phase = .check ∧ r.pos = k := by
  unfold Round.field at h
  cases hp : r.phase <;> rw [hp] at h
  · cases h
  · cases h
  · simp only [Option.some.injEq] at h
    revert h
    unfold bodyField
    cases r.kind <;> dsimp only <;> (repeat' split) <;> intro h <;> cases h
  · cases h
    exact ⟨rfl, rfl⟩
  · cases h

theorem Round.field_objection {r : Round} (h : r.field = some .objection) : r.phase = .objection := by
  unfold Round.field at h
  cases hp : r.phase <;> rw [hp] at h
  · cases h
  · cases h
  · simp only [Option.some.injEq] at h
    revert h
    unfold bodyField
    cases r.kind <;> dsimp only <;> (repeat' split) <;> intro h <;> cases h
  · cases h

/-- The check accumulator takes the bits of the code and the body (R37). -/
theorem Round.accumulated_of_field {r : Round} {f : Field} (h : r.field = some f) :
    f.accumulated = true ↔ r.phase = .code ∨ r.phase = .body := by
  unfold Round.field at h
  cases hp : r.phase <;> rw [hp] at h
  · cases h
  · cases h
    simp [Field.accumulated]
  · simp only [Option.some.injEq] at h
    subst h
    unfold bodyField
    cases r.kind <;> dsimp only <;> (repeat' split) <;> simp [Field.accumulated]
  · cases h
    simp [Field.accumulated]
  · cases h
    simp [Field.accumulated]

end Sys2Proof.Machine
end

