-- ==== Sys2Proof/Laws/Line.lean ====
section
/-! SUPPORT. A sample in each state of the line engine, a bit in each field of a round, a boundary, and an event of the line
whose condition holds: each as the one operation it comes to. -/

namespace Sys2Proof.Machine

/-- The line engine runs outside OFF while RESETN is HIGH (R8). -/
theorem State.listens_of {s : State} (hs : s.held = false) (he : s.line.engine ≠ .off) : s.listens = true := by
  unfold State.listens
  rw [hs]
  simpa using he

theorem State.listens_false {s : State} (h : s.held = true ∨ s.line.engine = .off) : s.listens = false := by
  unfold State.listens
  rcases h with h | h <;> rw [h] <;> simp

/-- A sample that is not taken changes nothing (R8). -/
theorem State.sample_of_not_listens {s : State} (h : s.listens = false) (lv : Level) : s.sample lv = s := by
  unfold State.sample
  rw [h]
  rfl

theorem State.sample_idle {s : State} (hs : s.held = false) (he : s.line.engine = .idle) (lv : Level) :
    s.sample lv = (s.counted lv).sampleIdle lv := by
  unfold State.sample
  rw [State.listens_of hs (by rw [he]; decide)]
  simp only [if_true, he]

theorem State.sample_recover {s : State} (hs : s.held = false) (he : s.line.engine = .recover) (lv : Level) :
    s.sample lv = (s.counted lv).sampleRecover := by
  unfold State.sample
  rw [State.listens_of hs (by rw [he]; decide)]
  simp only [if_true, he]

theorem State.sample_stuck {s : State} (hs : s.held = false) (he : s.line.engine = .stuck) (lv : Level) :
    s.sample lv = (s.counted lv).sampleStuck := by
  unfold State.sample
  rw [State.listens_of hs (by rw [he]; decide)]
  simp only [if_true, he]

theorem State.sample_round {s : State} (hs : s.held = false) (he : s.line.engine = .round) (lv : Level) :
    s.sample lv = (s.counted lv).sampleRound lv := by
  unfold State.sample
  rw [State.listens_of hs (by rw [he]; decide)]
  simp only [if_true, he]

/-- A boundary that is taken (R6). -/
theorem State.boundary_of_listens {s : State} (h : s.listens = true) (line : Level) :
    s.boundary line = (({ s with line := { s.line with lrxd := line, bitTimer := 0 } }).endRound).driveNext line := by
  unfold State.boundary
  rw [if_pos h]

theorem State.boundary_of_not_listens {s : State} (h : s.listens = false) (line : Level) : s.boundary line = s := by
  unfold State.boundary
  rw [h]
  rfl

/-- With no round ending, Station Control changes nothing at a boundary (R157). -/
theorem State.endRound_of_not_ending {s : State} (h : s.control.roundEnding = false) : s.endRound = s := by
  unfold State.endRound
  rw [h]
  rfl

theorem State.onlyIf_true {s : State} {condition : Bool} (h : condition = true) (act : State → State) :
    s.onlyIf condition act = act s := by
  unfold State.onlyIf
  rw [if_pos h]

theorem State.onlyIf_false {s : State} {condition : Bool} (h : condition = false) (act : State → State) :
    s.onlyIf condition act = s := by
  unfold State.onlyIf
  rw [h]
  rfl

/-- A bit that is neither the last of the code nor the objection bit is taken and no more (R21). -/
theorem State.roundBit_inner {s : State} {f : Field} (h : s.round.field = some f) (hc : f ≠ .code 5) (ho : f ≠ .objection)
    (bit : Level) (fault suppressed : Bool) :
    s.roundBit bit fault suppressed =
      { s with round := s.round.takeBit f bit fault suppressed s.image.settings.address s.control.digest } := by
  unfold State.roundBit
  rw [h]
  cases f with
  | code k => exact if_neg fun hk => hc (by rw [hk])
  | objection => exact absurd rfl ho
  | _ => rfl

/-- The sixth code bit is taken and the code recognised (R25). -/
theorem State.roundBit_codeEnd {s : State} (h : s.round.field = some (.code 5)) (bit : Level) (fault suppressed : Bool) :
    s.roundBit bit fault suppressed =
      ({ s with round := s.round.takeBit (.code 5) bit fault suppressed s.image.settings.address s.control.digest }).recognise := by
  unfold State.roundBit
  rw [h]
  rfl

/-- The objection bit delivers the outcome (R43). -/
theorem State.roundBit_objection {s : State} (h : s.round.field = some .objection) (bit : Level) (fault suppressed : Bool) :
    s.roundBit bit fault suppressed = s.deliver bit := by
  unfold State.roundBit
  rw [h]

/-- A fault counted, or none (R15). -/
theorem State.countFault_eq (s : State) (fault : Bool) :
    s.countFault fault = { s with control.counters.driveFaults := (s.countFault fault).control.counters.driveFaults } := by
  unfold State.countFault
  split <;> rfl

/-- A sample in ROUND (R12, R15): the runs and the fault are counted, a fault suppresses from here on, and the Round Engine
takes the bit with the suppression that stood before it. -/
theorem State.sample_round_bit {s : State} (hs : s.held = false) (he : s.line.engine = .round) (lv : Level) :
    s.sample lv = ({ s with
        line := { (s.counted lv).line with suppressed := s.line.suppressed || s.isDriveFault lv }
        control.counters.driveFaults :=
          if s.isDriveFault lv then satInc s.control.counters.driveFaults else s.control.counters.driveFaults } :
      State).roundBit lv (s.isDriveFault lv) s.line.suppressed := by
  rw [State.sample_round hs he, State.sampleRound]
  have h : (s.counted lv).isDriveFault lv = s.isDriveFault lv := rfl
  dsimp only
  rw [h]
  congr 1
  unfold State.countFault
  cases s.isDriveFault lv <;> rfl

/-- A sample of an ordinary bit of a round (R12, R15, R21): the runs and the fault are counted, and the bit is taken. -/
theorem State.sample_round_inner {s : State} {f : Field} (hs : s.held = false) (he : s.line.engine = .round)
    (hf : s.round.field = some f) (hc : f ≠ .code 5) (ho : f ≠ .objection) (lv : Level) :
    s.sample lv = { s with
      line := { (s.counted lv).line with suppressed := s.line.suppressed || s.isDriveFault lv }
      round := s.round.takeBit f lv (s.isDriveFault lv) s.line.suppressed s.image.settings.address s.control.digest
      control.counters.driveFaults :=
        if s.isDriveFault lv then satInc s.control.counters.driveFaults else s.control.counters.driveFaults } := by
  rw [State.sample_round_bit hs he, State.roundBit_inner (by exact hf) hc ho]

/-- A known code leaves the line as it is and opens the body (R25). -/
theorem State.recogniseKnown_round (s : State) (e : RoundEntry) :
    ∃ snapshot nonce, (s.recogniseKnown e).line = s.line ∧
      (s.recogniseKnown e).round =
        { s.round with kind := e.kind, phase := .body, pos := 0, snapshot := snapshot, nonce := nonce } := by
  unfold State.recogniseKnown
  dsimp only
  generalize hv : ({ s with round.kind := e.kind, round.phase := .body, round.pos := 0 } : State) = v
  have hl : (if e.kind = .anchor then v.anchorNotice else v).line = v.line := by
    split
    · obtain ⟨_, _, _, _, _, _, _, _, _, _, _, _, _, _, _, _, h⟩ := v.anchorNotice_changes
      rw [h]
    · rfl
  have hr : (if e.kind = .anchor then v.anchorNotice else v).round = v.round := by
    split
    · obtain ⟨_, _, _, _, _, _, _, _, _, _, _, _, _, _, _, _, h⟩ := v.anchorNotice_changes
      rw [h]
    · rfl
  generalize (if e.kind = .anchor then v.anchorNotice else v) = w at hl hr ⊢
  obtain ⟨snapshot, nonce, _, h⟩ := w.takeSnapshot_changes e
  refine ⟨snapshot, nonce, ?_, ?_⟩
  · rw [h]
    exact hl.trans (by rw [← hv])
  · rw [h]
    show { w.round with snapshot := snapshot, nonce := nonce } = _
    rw [hr, ← hv]

/-- The recognition of a code (R25): the body opens on the line as it is, or the round is left. -/
theorem State.recognise_round (s : State) :
    (∃ kind snapshot nonce, s.recognise.line = s.line ∧
      s.recognise.round = { s.round with kind := kind, phase := .body, pos := 0, snapshot := snapshot, nonce := nonce }) ∨
    s.recognise.line = { s.line with engine := .recover, idleRun := 0, suppressed := false } ∧ s.recognise.round = {} := by
  unfold State.recognise
  split
  · obtain ⟨snapshot, nonce, h1, h2⟩ := s.recogniseKnown_round _
    exact .inl ⟨_, snapshot, nonce, h1, h2⟩
  · exact .inr ⟨rfl, rfl⟩

/-- A delivery leaves the round (R43). -/
theorem State.deliver_round (s : State) (bit : Level) :
    (s.deliver bit).line = { s.line with engine := .recover, idleRun := 0, suppressed := false } ∧ (s.deliver bit).round = {} := by
  obtain ⟨_, _, _, _, _, _, _, _, h⟩ := s.leaveRound.deliverRecord_changes (s.round.recordOf bit) s.round.isFault
  unfold State.deliver
  rw [h]
  exact ⟨rfl, rfl⟩

/-- A bit of a round at the line and the round: taken, taken with the body opened, or the round left (R21, R25, R43). -/
theorem State.roundBit_round (s : State) (bit : Level) (fault suppressed : Bool) :
    let t := s.roundBit bit fault suppressed
    (s.round.field = none ∧ t = s) ∨
    (∃ f, s.round.field = some f ∧ f ≠ .code 5 ∧ f ≠ .objection ∧ t.line = s.line ∧
      t.round = s.round.takeBit f bit fault suppressed s.image.settings.address s.control.digest) ∨
    (s.round.field = some (.code 5) ∧ ∃ kind snapshot nonce, t.line = s.line ∧
      t.round = { s.round.takeBit (.code 5) bit fault suppressed s.image.settings.address s.control.digest with
        kind := kind, phase := .body, pos := 0, snapshot := snapshot, nonce := nonce }) ∨
    ((s.round.field = some (.code 5) ∨ s.round.field = some .objection) ∧
      t.line = { s.line with engine := .recover, idleRun := 0, suppressed := false } ∧ t.round = {}) := by
  intro t
  cases hf : s.round.field with
  | none =>
    have ht : t = s := by
      show s.roundBit bit fault suppressed = s
      unfold State.roundBit
      rw [hf]
    exact .inl ⟨rfl, ht⟩
  | some f =>
    by_cases ho : f = .objection
    · subst ho
      have ht : t = s.deliver bit := State.roundBit_objection hf bit fault suppressed
      rw [ht]
      exact .inr (.inr (.inr ⟨.inr rfl, s.deliver_round bit⟩))
    by_cases hc : f = .code 5
    · subst hc
      have ht : t = _ := State.roundBit_codeEnd hf bit fault suppressed
      rw [ht]
      generalize hv : ({ s with
        round := s.round.takeBit (.code 5) bit fault suppressed s.image.settings.address s.control.digest } : State) = v
      have hl : v.line = s.line := by subst hv; rfl
      have hr : v.round = s.round.takeBit (.code 5) bit fault suppressed s.image.settings.address s.control.digest := by
        subst hv; rfl
      rw [← hl, ← hr]
      rcases v.recognise_round with ⟨kind, snapshot, nonce, h1, h2⟩ | ⟨h1, h2⟩
      · exact .inr (.inr (.inl ⟨rfl, kind, snapshot, nonce, h1, h2⟩))
      · exact .inr (.inr (.inr ⟨.inl rfl, h1, h2⟩))
    · have ht : t = _ := State.roundBit_inner hf hc ho bit fault suppressed
      rw [ht]
      exact .inr (.inl ⟨f, rfl, hc, ho, rfl, rfl⟩)

/-- No sample pulls the line (R6). -/
theorem State.sample_ltxd {s : State} {lv : Level} (h : (s.sample lv).line.ltxd = .low) : s.line.ltxd = .low := by
  cases hl : s.listens with
  | false => rwa [State.sample_of_not_listens hl] at h
  | true =>
    have hs : s.held = false ∧ s.line.engine ≠ .off := by
      unfold State.listens at hl
      simpa using hl
    cases he : s.line.engine with
    | off => exact absurd he hs.2
    | recover =>
      rw [State.sample_recover hs.1 he] at h
      unfold State.sampleRecover at h
      split at h
      · exact h
      · split at h
        · cases h
        · exact h
    | stuck =>
      rw [State.sample_stuck hs.1 he] at h
      unfold State.sampleStuck at h
      split at h <;> exact h
    | idle =>
      rw [State.sample_idle hs.1 he] at h
      unfold State.sampleIdle State.sampleSecond State.sampleFirst at h
      dsimp only at h
      split at h
      · split at h
        · exact h
        · rw [State.countFault_eq] at h
          exact h
      · split at h
        · exact h
        · split at h
          · rw [State.countFault_eq] at h
            exact h
          · exact h
    | round =>
      rw [State.sample_round_bit hs.1 he] at h
      generalize hu : ({ s with
        line := { (s.counted lv).line with suppressed := s.line.suppressed || s.isDriveFault lv }
        control.counters.driveFaults :=
          if s.isDriveFault lv then satInc s.control.counters.driveFaults else s.control.counters.driveFaults } : State) = u at h
      have hul : u.line.ltxd = s.line.ltxd := by subst hu; rfl
      rw [← hul]
      rcases u.roundBit_round lv (s.isDriveFault lv) s.line.suppressed with
        ⟨_, h1⟩ | ⟨_, _, _, _, h1, _⟩ | ⟨_, _, _, _, h1, _⟩ | ⟨_, h1, _⟩
      · rwa [h1] at h
      · rwa [h1] at h
      · rwa [h1] at h
      · rwa [h1] at h

end Sys2Proof.Machine
end

