-- ==== Sys2Proof/Laws/Operands.lean ====
section
/-! SUPPORT. The argument checks and the fields they read are inverse to each other: a check answers a value exactly for the
field that spells it. -/

namespace Sys2Proof.Machine

theorem numByte_toNat {n : Nat} (h : n < 256) : (numByte n).toNat = n := by
  simp [numByte, Nat.mod_eq_of_lt h]

theorem numByte_of_toNat (b : Byte) : numByte b.toNat = b := by simp [numByte]

theorem indexBelow_number {n : Nat} (i : Fin n) (h : n ≤ 256) : indexBelow n (numByte i.val) = some i := by
  have : (numByte i.val).toNat = i.val := numByte_toNat (by omega)
  simp [indexBelow, this]

theorem indexBelow_some {n : Nat} {b : Byte} {i : Fin n} (h : indexBelow n b = some i) : numByte i.val = b := by
  unfold indexBelow at h; split at h
  · cases h; exact numByte_of_toNat b
  · cases h

theorem numberIn_number {lo hi n : Nat} (h1 : lo ≤ n) (h2 : n ≤ hi) (h : hi < 256) : numberIn lo hi (numByte n) = some n := by
  have : (numByte n).toNat = n := numByte_toNat (by omega)
  simp [numberIn, this, h1, h2]

theorem numberIn_some {lo hi n : Nat} {b : Byte} (h : numberIn lo hi b = some n) : lo ≤ n ∧ n ≤ hi ∧ numByte n = b := by
  unfold numberIn at h; split at h
  · rename_i h'; cases h; exact ⟨h'.1, h'.2, numByte_of_toNat b⟩
  · cases h

theorem yesNo_bool (b : Bool) : yesNo (boolByte b) = some b := by cases b <;> rfl

theorem yesNo_some {b : Byte} {v : Bool} (h : yesNo b = some v) : boolByte v = b := by
  unfold yesNo at h
  split at h
  · cases h; rename_i h'; rw [h']; rfl
  split at h
  · cases h; rename_i h'; rw [h']; rfl
  · cases h

theorem codeByte_code (c : Code) : codeByte (c.setWidth 8) = some c := by revert c; decide

theorem codeByte_some {b : Byte} {c : Code} (h : codeByte b = some c) : c.setWidth 8 = b := by
  unfold codeByte at h
  split at h
  · cases h; apply BitVec.eq_of_toNat_eq; simp; omega
  · cases h

theorem addressByte_address (c : Address) : addressByte (c.setWidth 8) = some c := by revert c; decide

theorem addressByte_some {b : Byte} {c : Address} (h : addressByte b = some c) : c.setWidth 8 = b := by
  unfold addressByte at h
  split at h
  · rename_i h'; cases h; apply BitVec.eq_of_toNat_eq; simp; omega
  · cases h

theorem policyByte_number (k : RingPolicy) : policyByte (numByte (policyNumber k)) = some k := by cases k <;> rfl

theorem policyByte_some {b : Byte} {k : RingPolicy} (h : policyByte b = some k) : numByte (policyNumber k) = b := by
  unfold policyByte at h
  split at h
  · cases h; rename_i h'; rw [h']; rfl
  split at h
  · cases h; rename_i h'; rw [h']; rfl
  · cases h

theorem kindByte_number (k : Kind) : kindByte (numByte (kindNumber k)) = some k := by cases k <;> rfl

theorem numByte_eq_of_toNat {b : Byte} {n : Nat} (h : b.toNat = n) : numByte n = b := by rw [← h]; exact numByte_of_toNat b

theorem kindByte_some {b : Byte} {k : Kind} (h : kindByte b = some k) : numByte (kindNumber k) = b := by
  unfold kindByte at h
  split at h <;> cases h <;> exact numByte_eq_of_toNat ‹_›

theorem scheduleByte_number (k : Schedule) : scheduleByte (numByte (scheduleNumber k)) = some k := by cases k <;> rfl

theorem scheduleByte_some {b : Byte} {k : Schedule} (h : scheduleByte b = some k) : numByte (scheduleNumber k) = b := by
  unfold scheduleByte at h
  split at h <;> cases h <;> exact numByte_eq_of_toNat ‹_›

theorem scanModeByte_number (k : ScanMode) : scanModeByte (numByte (scanModeNumber k)) = some k := by cases k <;> rfl

theorem scanModeByte_some {b : Byte} {k : ScanMode} (h : scanModeByte b = some k) : numByte (scanModeNumber k) = b := by
  unfold scanModeByte at h
  split at h <;> cases h <;> exact numByte_eq_of_toNat ‹_›

theorem crossingByte_number (k : CrossingMode) : crossingByte (numByte (crossingNumber k)) = some k := by cases k <;> rfl

theorem crossingByte_some {b : Byte} {k : CrossingMode} (h : crossingByte b = some k) : numByte (crossingNumber k) = b := by
  unfold crossingByte at h
  split at h <;> cases h <;> exact numByte_eq_of_toNat ‹_›

theorem conditionByte_number (k : Condition) : conditionByte (numByte (conditionCode k)) = some k := by cases k <;> rfl

theorem conditionByte_some {b : Byte} {k : Condition} (h : conditionByte b = some k) : numByte (conditionCode k) = b := by
  unfold conditionByte at h
  split at h <;> cases h <;> exact numByte_eq_of_toNat ‹_›

theorem outputByte_code (k : TripOutput) : outputByte (outputCode k) = some k := by cases k <;> rfl

theorem outputByte_some {b : Byte} {k : TripOutput} (h : outputByte b = some k) : outputCode k = b := by
  unfold outputByte at h
  split at h
  · cases h; rename_i h'; rw [h']; rfl
  split at h
  · cases h; rename_i h'; rw [h']; rfl
  · cases h

theorem sourceByte_number (k : Source) : sourceByte (numByte (sourceNumber k)) = some k := by
  cases k with
  | slot n => revert n; decide
  | groupMax n => revert n; decide
  | groupMin n => revert n; decide
  | _ => rfl

/-- Every byte that spells a source, checked one by one. -/
theorem sourceByte_inverse :
    ∀ b : Byte, (match sourceByte b with | some k => decide (numByte (sourceNumber k) = b) | none => true) = true := by
  decide +kernel

theorem sourceByte_some {b : Byte} {k : Source} (h : sourceByte b = some k) : numByte (sourceNumber k) = b := by
  have := sourceByte_inverse b
  rw [h] at this
  exact of_decide_eq_true this

theorem postByte_number (k : Option Code) : postByte (postNumber k) = some k := by
  cases k with
  | none => rfl
  | some c => revert c; decide

theorem postByte_some {b : Byte} {k : Option Code} (h : postByte b = some k) : postNumber k = b := by
  unfold postByte at h
  split at h
  · cases h; rename_i h'; rw [h']; rfl
  · cases hc : codeByte b with
    | none => simp [hc] at h
    | some c => simp [hc] at h; subst h; exact codeByte_some hc

theorem groupByte_number (k : Option (Fin 4)) : groupByte (groupNumber k) = some k := by
  cases k with
  | none => rfl
  | some c => revert c; decide

theorem groupByte_some {b : Byte} {k : Option (Fin 4)} (h : groupByte b = some k) : groupNumber k = b := by
  unfold groupByte at h
  split at h
  · cases h; rename_i h'; rw [h']; rfl
  · cases hc : indexBelow 4 b with
    | none => simp [hc] at h
    | some c => simp [hc] at h; subst h; exact indexBelow_some hc

theorem minusByte_number (p : Fin 16) (k : Option (Fin 16)) (h : k ≠ some p) : minusByte p (minusNumber k) = some k := by
  cases k with
  | none => rfl
  | some c => revert h; revert p; revert c; decide

theorem minusByte_some {p : Fin 16} {b : Byte} {k : Option (Fin 16)} (h : minusByte p b = some k) : minusNumber k = b ∧ k ≠ some p := by
  unfold minusByte at h
  split at h
  · cases h; rename_i h'; rw [h']; exact ⟨rfl, nofun⟩
  · split at h
    · rename_i m hm
      split at h
      · cases h
      · cases h; rename_i hne; exact ⟨indexBelow_some hm, by simpa using hne⟩
    · cases h

theorem slotNumber_ofInt {v : Int} (h : slotNumberInRange v) : slotNumber (BitVec.ofInt 16 v) = some v := by
  obtain ⟨h1, h2⟩ := h
  have : (BitVec.ofInt 16 v).toInt = v := by
    rw [BitVec.toInt_ofInt]; rw [Int.bmod_def]; omega
  simp [slotNumber, this, h1, h2]

theorem slotNumber_some {w : Word} {v : Int} (h : slotNumber w = some v) : slotNumberInRange v ∧ BitVec.ofInt 16 v = w := by
  unfold slotNumber at h; split at h
  · rename_i h'; cases h; exact ⟨h', by simp⟩
  · cases h

theorem causeMask_mask (m : BitVec 12) : causeMask (m.setWidth 16) = some m := by
  unfold causeMask
  have h : (m.setWidth 16).toNat < 4096 := by simp; omega
  rw [if_pos h]; congr 1; apply BitVec.eq_of_toNat_eq; simp

theorem causeMask_some {w : Word} {m : BitVec 12} (h : causeMask w = some m) : m.setWidth 16 = w := by
  unfold causeMask at h
  split at h
  · cases h; apply BitVec.eq_of_toNat_eq; simp; omega
  · cases h

theorem checkSettings_fields (r : Settings) (h : settingsInRange r) : checkSettings (settingsFields r) = some r := by
  obtain ⟨h1,h2,h3,h4,h5,h6,h7,h8⟩ := h
  simp [checkSettings, settingsFields, addressByte_address, indexBelow_number, numberIn_number h1 h2 (by omega), numberIn_number h3 h4 (by omega), numberIn_number h5 h6 (by omega), numberIn_number h7 h8 (by omega), policyByte_number, causeMask_mask, scanModeByte_number]

theorem checkSettings_some {a : SettingsArgs} {r : Settings} (h : checkSettings a = some r) : settingsInRange r ∧ settingsFields r = a := by
  unfold checkSettings at h
  simp only [Option.bind_eq_bind, Option.bind_eq_some_iff] at h
  obtain ⟨_, h1, _, h2, _, h3, _, h4, _, h5, _, h6, _, h7, _, h8, _, h9, h10⟩ := h
  cases h10
  have e3 := numberIn_some h3; have e4 := numberIn_some h4; have e6 := numberIn_some h6; have e9 := numberIn_some h9
  refine ⟨⟨e3.1, e3.2.1, e4.1, e4.2.1, e6.1, e6.2.1, e9.1, e9.2.1⟩, ?_⟩
  simp only [settingsFields, addressByte_some h1, indexBelow_some h2, e3.2.2, e4.2.2, policyByte_some h5, e6.2.2, causeMask_some h7, scanModeByte_some h8, e9.2.2]

theorem checkRound_fields (n : Fin 24) (e : RoundEntry) : checkRound (roundFields n e) = some (n, e) := by
  simp [checkRound, roundFields, indexBelow_number, codeByte_code, kindByte_number, scheduleByte_number, sourceByte_number, yesNo_bool]

theorem checkRound_some {a : RoundArgs} {p} (h : checkRound a = some p) : roundFields p.1 p.2 = a := by
  unfold checkRound at h
  simp only [Option.bind_eq_bind, Option.bind_eq_some_iff] at h
  obtain ⟨_, h1, _, h2, _, h3, _, h4, _, h5, _, h6, h7⟩ := h
  cases h7
  simp only [roundFields, indexBelow_some h1, codeByte_some h2, kindByte_some h3, scheduleByte_some h4, sourceByte_some h5, yesNo_some h6]

theorem checkSlot_fields (n : Fin 16) (c : SlotConfig) (h : slotInRange c) : checkSlot (slotFields n c) = some (n, c) := by
  obtain ⟨h1, h2, h3, h4, h5⟩ := h
  simp [checkSlot, slotFields, indexBelow_number, minusByte_number _ _ h1, slotNumber_ofInt h2, slotNumber_ofInt h3, slotNumber_ofInt h4, crossingByte_number, groupByte_number, postByte_number, yesNo_bool]
  have : (numByte c.band).toNat = c.band := numByte_toNat (by omega)
  rw [this]

theorem checkSlot_some {a : SlotArgs} {p} (h : checkSlot a = some p) : slotInRange p.2 ∧ slotFields p.1 p.2 = a := by
  unfold checkSlot at h
  simp only [Option.bind_eq_bind, Option.bind_eq_some_iff] at h
  obtain ⟨_, h1, _, h2, _, h3, _, h4, _, h5, _, h6, _, h7, _, h8, _, h9, _, h10, _, h11, h12⟩ := h
  cases h12
  refine ⟨⟨(minusByte_some h3).2, (slotNumber_some h5).1, (slotNumber_some h6).1, (slotNumber_some h7).1, ?_⟩, ?_⟩
  · show a.band.toNat ≤ 255; omega
  · simp only [slotFields, indexBelow_some h1, indexBelow_some h2, (minusByte_some h3).1, indexBelow_some h4, (slotNumber_some h5).2, (slotNumber_some h6).2, (slotNumber_some h7).2, crossingByte_some h8, groupByte_some h9, postByte_some h10, yesNo_some h11, numByte_of_toNat]

theorem checkTrip_fields (n : Fin 8) (c : TripRule) (h : ruleInRange c) : checkTrip (tripFields n c) = some (n, c) := by
  obtain ⟨h1, h2, h3, h4, h5⟩ := h
  have ht : c.threshold.bmod 65536 = c.threshold := by
    rw [Int.bmod_def]; omega
  simp [checkTrip, tripFields, indexBelow_number, yesNo_bool, codeByte_code, conditionByte_number, numberIn_number h3 h4 (by omega), numberIn_number (Nat.zero_le _) h5 (by omega), outputByte_code, postByte_number]
  rw [ht]

theorem checkTrip_some {a : TripArgs} {p} (h : checkTrip a = some p) : ruleInRange p.2 ∧ tripFields p.1 p.2 = a := by
  unfold checkTrip at h
  simp only [Option.bind_eq_bind, Option.bind_eq_some_iff] at h
  obtain ⟨_, h1, _, h2, _, h3, _, h4, _, h5, _, h6, _, h7, _, h8, h9⟩ := h
  cases h9
  have e5 := numberIn_some h5; have e6 := numberIn_some h6
  refine ⟨⟨?_, ?_, e5.1, e5.2.1, e6.2.1⟩, ?_⟩
  · show -32768 ≤ a.threshold.toInt; have := BitVec.le_toInt a.threshold; simpa using this
  · show a.threshold.toInt ≤ 32767; have := BitVec.toInt_lt (x := a.threshold); simp at this; omega
  · simp only [tripFields, indexBelow_some h1, yesNo_some h2, codeByte_some h3, conditionByte_some h4, e5.2.2, e6.2.2, outputByte_some h7, postByte_some h8, BitVec.ofInt_toInt]

end Sys2Proof.Machine
end

