-- ==== Sys2Proof/Laws/Exec.lean ====
section
/-! SUPPORT. What `exec` answers, command by command: a taken request as `State.take` with its gate, its checked argument and
its action, an event as its operation; and what `State.take` does in each case. -/

namespace Sys2Proof.Machine

theorem exec_nop (s : State) :
    exec .nop s = .next (s.take .always (some ()) State.nop) := rfl

theorem exec_readStatus (s : State) :
    exec .readStatus s = .next (s.take .always (some ()) State.readStatus) := rfl

theorem exec_softReset (s : State) :
    exec .softReset s = .next (s.take .always (some ()) State.softReset) := rfl

theorem exec_writeSettings (r : SettingsArgs) (s : State) :
    exec (.writeSettings r) s = .next (s.take .config (checkSettings r) State.writeSettings) := rfl

theorem exec_writeRound (r : RoundArgs) (s : State) :
    exec (.writeRound r) s = .next (s.take .config (checkRound r) State.writeRound) := rfl

theorem exec_clearRound (r : Byte) (s : State) :
    exec (.clearRound r) s = .next (s.take .config (checkIndex r) State.clearRound) := rfl

theorem exec_writeSlot (r : SlotArgs) (s : State) :
    exec (.writeSlot r) s = .next (s.take .config (checkSlot r) State.writeSlot) := rfl

theorem exec_writeTripRule (r : TripArgs) (s : State) :
    exec (.writeTripRule r) s = .next (s.take .config (checkTrip r) State.writeTripRule) := rfl

theorem exec_commit (s : State) :
    exec .commit s = .next (s.take .config (some ()) State.commit) := rfl

theorem exec_readResults (r : Byte) (s : State) :
    exec (.readResults r) s = .next (s.take .run (checkResults r) State.readResults) := rfl

theorem exec_readLatest (r : Byte) (s : State) :
    exec (.readLatest r) s = .next (s.take .run (s.checkLatest r) State.readLatest) := rfl

theorem exec_readPeers (r q : Byte) (s : State) :
    exec (.readPeers r q) s = .next (s.take .run (checkPeers r q) State.readPeers) := rfl

theorem exec_readSlots (r q : Byte) (s : State) :
    exec (.readSlots r q) s = .next (s.take .run (checkSlots r q) State.readSlots) := rfl

theorem exec_readTrips (s : State) :
    exec .readTrips s = .next (s.take .run (some ()) State.readTrips) := rfl

theorem exec_postRound (r : Byte) (s : State) :
    exec (.postRound r) s = .next (s.take .run (s.checkPost r) State.postRound) := rfl

theorem exec_startScan (s : State) :
    exec .startScan s = .next (s.take .run (some ()) State.startScan) := rfl

theorem exec_stopScan (s : State) :
    exec .stopScan s = .next (s.take .run (some ()) State.stopScan) := rfl

theorem exec_resumeScan (s : State) :
    exec .resumeScan s = .next (s.take .run (some ()) State.resumeScan) := rfl

theorem exec_inject (r : Byte) (q : Word) (s : State) :
    exec (.inject r q) s = .next (s.take .run (checkInject r q) State.inject) := rfl

theorem exec_setUserValue (r : Word) (s : State) :
    exec (.setUserValue r) s = .next (s.take .run (some r) State.setUserValue) := rfl

theorem exec_setUserFlags (r : Byte) (s : State) :
    exec (.setUserFlags r) s = .next (s.take .run (some r) State.setUserFlags) := rfl

theorem exec_clearFlags (r : Word) (s : State) :
    exec (.clearFlags r) s = .next (s.take .run (some r) State.clearFlags) := rfl

theorem exec_clearTrip (r : Byte) (s : State) :
    exec (.clearTrip r) s = .next (s.take .run (checkRule r) State.clearTrip) := rfl

theorem exec_clearAlerts (r : Word) (s : State) :
    exec (.clearAlerts r) s = .next (s.take .run (causeMask r) State.clearAlerts) := rfl

theorem exec_hardReset (s : State) : exec .hardReset s = .next s.hardReset := rfl

theorem exec_resetRelease (s : State) : exec .resetRelease s = .next s.releaseReset := rfl

theorem exec_frameOpen (s : State) : exec .frameOpen s = .next s.frameOpen := rfl

theorem exec_frameEnd (s : State) : exec .frameEnd s = .next s.frameEnd := rfl

theorem exec_commitComplete (s : State) : exec .commitComplete s = .next (if s.held then s else s.completeCommit) := rfl

theorem exec_enterIdle (s : State) : exec .enterIdle s = .next (s.onlyIf s.aboutToIdle (·.sample .high)) := rfl

theorem exec_enterStuck (s : State) : exec .enterStuck s = .next (s.onlyIf s.aboutToStick (·.sample .low)) := rfl

theorem exec_beginStartMark (s : State) : exec .beginStartMark s = .next (s.onlyIf (s.startCode .high).isSome (·.boundary .high)) := rfl

theorem exec_shortStart (s : State) : exec .shortStart s = .next (s.onlyIf s.deciding (·.sample .high)) := rfl

theorem exec_startMarkDriveFault (s : State) : exec .startMarkDriveFault s = .next (s.onlyIf s.pullsMark (·.sample .high)) := rfl

theorem exec_startMark (s : State) : exec .startMark s = .next (s.onlyIf s.deciding (·.sample .low)) := rfl

theorem exec_driveFault (s : State) : exec .driveFault s = .next (s.onlyIf s.pullsRound (·.sample .high)) := rfl

theorem exec_codeRecognition (b : Level) (s : State) : exec (.codeRecognition b) s = .next (s.onlyIf s.atCodeEnd (·.sample b)) := rfl

theorem exec_outcomeDelivery (b : Level) (s : State) : exec (.outcomeDelivery b) s = .next (s.onlyIf s.atObjection (·.sample b)) := rfl

theorem exec_roundEnd (b : Level) (s : State) : exec (.roundEnd b) s = .next (s.onlyIf s.control.roundEnding (·.boundary b)) := rfl

theorem exec_cycleTimerExpiry (s : State) : exec .cycleTimerExpiry s = .next s.expire := rfl

theorem exec_settleEnd (a : AnalogLevels) (s : State) : exec (.settleEnd a) s = .next (if s.held then s else s.settle a) := rfl

theorem exec_conversionComplete (s : State) : exec .conversionComplete s = .next (if s.held then s else s.completeConversion) := rfl

theorem exec_samplePoint (b : Level) (s : State) : exec (.samplePoint b) s = .next (s.sample b) := rfl

theorem exec_bitBoundary (b : Level) (s : State) : exec (.bitBoundary b) s = .next (s.boundary b) := rfl

theorem exec_lrxdFallingEdge (s : State) : exec .lrxdFallingEdge s = .next (s.boundary .low) := rfl

theorem exec_sckEdge (b m : Level) (s : State) : exec (.sckEdge b m) s = .next (s.sckEdge b m) := rfl

/-- Held in reset, the port takes nothing (R165). -/
theorem State.take_held {α : Type} {s : State} (h : s.held = true) (g : Gate) (arg : Option α) (act : α → State → State) :
    s.take g arg act = s := by
  unfold State.take; rw [h]; rfl

/-- A request that the station state refuses (R187). -/
theorem State.take_refused {α : Type} {s : State} (h : s.held = false) {g : Gate} {st : Status}
    (hg : g.refusal s.control.station = some st) (arg : Option α) (act : α → State → State) :
    s.take g arg act = s.respond st := by
  unfold State.take; rw [h, hg]; rfl

/-- A request with a bad argument (R186 step 3). -/
theorem State.take_bad {α : Type} {s : State} (h : s.held = false) {g : Gate} (hg : g.refusal s.control.station = none)
    (act : α → State → State) : s.take g none act = s.respond .badArgument := by
  unfold State.take; rw [h, hg]; rfl

/-- A request that passes the gate and the checks acts (R186). -/
theorem State.take_acts {α : Type} {s : State} (h : s.held = false) {g : Gate} (hg : g.refusal s.control.station = none)
    (a : α) (act : α → State → State) : s.take g (some a) act = act a s := by
  unfold State.take; rw [h, hg]; rfl

/-- What a request can come to: the state as it was, an answer alone, or its action (R186). -/
theorem State.take_cases {α : Type} (s : State) (g : Gate) (arg : Option α) (act : α → State → State) :
    s.take g arg act = s ∨ (s.held = false ∧ ∃ st, s.take g arg act = s.respond st) ∨
      (s.held = false ∧ g.refusal s.control.station = none ∧ ∃ a, arg = some a ∧ s.take g arg act = act a s) := by
  cases h : s.held with
  | true => exact .inl (State.take_held h g arg act)
  | false =>
    cases hg : g.refusal s.control.station with
    | some st => exact .inr (.inl ⟨rfl, st, State.take_refused h hg arg act⟩)
    | none =>
      cases arg with
      | none => exact .inr (.inl ⟨rfl, _, State.take_bad h hg act⟩)
      | some a => exact .inr (.inr ⟨rfl, rfl, a, rfl, State.take_acts h hg a act⟩)

theorem Gate.refusal_run {st : StationState} (h : st.running = true) : Gate.run.refusal st = none := by
  cases st <;> first | rfl | cases h

theorem Gate.running_of_run {st : StationState} (h : Gate.run.refusal st = none) : st.running = true := by
  cases st <;> first | rfl | cases h

theorem Gate.config_of_config {st : StationState} (h : Gate.config.refusal st = none) : st = .config := by
  cases st <;> first | rfl | cases h

theorem Gate.refusal_config_running {st : StationState} (h : st.running = true) : Gate.config.refusal st = some .wrongState := by
  cases st <;> first | rfl | cases h

end Sys2Proof.Machine
end

