-- ==== Sys2Proof/Laws/PerInstr.lean ====
section
/-! SUPPORT. The family PortRequest, command by command: the request that carries a port command fits the request buffer,
and an event of the table has no request (R180, section 11.4). -/

namespace Sys2Proof.Laws.PortRequest

open Sys2Proof.Machine

/-- A request that carries the command has a payload that the request buffer takes (R180). -/
def Statement (i : Instr) : Prop := ∀ command payload, requestOf i = some (command, payload) → payload.length ≤ requestCapacity

/-- A command with one request, of a payload that fits. -/
theorem of_request {i : Instr} {c : Byte} {p : List Byte} (h : requestOf i = some (c, p)) (hp : p.length ≤ requestCapacity) :
    Statement i := by
  intro command payload hr
  have := Option.some.inj (h.symm.trans hr)
  cases this
  exact hp

/-- An event has no request. -/
theorem of_event {i : Instr} (h : requestOf i = none) : Statement i := by
  intro command payload hr
  exact absurd (h.symm.trans hr) (by simp)

theorem hardReset : Statement .hardReset := of_event rfl

theorem resetRelease : Statement .resetRelease := of_event rfl

theorem frameOpen : Statement .frameOpen := of_event rfl

theorem frameEnd : Statement .frameEnd := of_event rfl

theorem nop : Statement .nop := of_request rfl (by decide)

theorem readStatus : Statement .readStatus := of_request rfl (by decide)

theorem softReset : Statement .softReset := of_request rfl (by decide)

theorem writeSettings (record : SettingsArgs) : Statement (.writeSettings record) := of_request rfl (Nat.le_of_ble_eq_true rfl)

theorem writeRound (entry : RoundArgs) : Statement (.writeRound entry) := of_request rfl (Nat.le_of_ble_eq_true rfl)

theorem clearRound (index : Byte) : Statement (.clearRound index) := of_request rfl (Nat.le_of_ble_eq_true rfl)

theorem writeSlot (config : SlotArgs) : Statement (.writeSlot config) := of_request rfl (Nat.le_of_ble_eq_true rfl)

theorem writeTripRule (rule : TripArgs) : Statement (.writeTripRule rule) := of_request rfl (Nat.le_of_ble_eq_true rfl)

theorem commit : Statement .commit := of_request rfl (by decide)

theorem commitComplete : Statement .commitComplete := of_event rfl

theorem readResults (n : Byte) : Statement (.readResults n) := of_request rfl (Nat.le_of_ble_eq_true rfl)

theorem readLatest (code : Byte) : Statement (.readLatest code) := of_request rfl (Nat.le_of_ble_eq_true rfl)

theorem readPeers (first count : Byte) : Statement (.readPeers first count) := of_request rfl (Nat.le_of_ble_eq_true rfl)

theorem readSlots (first count : Byte) : Statement (.readSlots first count) := of_request rfl (Nat.le_of_ble_eq_true rfl)

theorem readTrips : Statement .readTrips := of_request rfl (by decide)

theorem postRound (code : Byte) : Statement (.postRound code) := of_request rfl (Nat.le_of_ble_eq_true rfl)

theorem startScan : Statement .startScan := of_request rfl (by decide)

theorem stopScan : Statement .stopScan := of_request rfl (by decide)

theorem resumeScan : Statement .resumeScan := of_request rfl (by decide)

theorem inject (slot : Byte) (raw : BitVec 16) : Statement (.inject slot raw) := of_request rfl (Nat.le_of_ble_eq_true rfl)

theorem setUserValue (value : BitVec 16) : Statement (.setUserValue value) := of_request rfl (Nat.le_of_ble_eq_true rfl)

theorem setUserFlags (flags : Byte) : Statement (.setUserFlags flags) := of_request rfl (Nat.le_of_ble_eq_true rfl)

theorem clearFlags (mask : BitVec 16) : Statement (.clearFlags mask) := of_request rfl (Nat.le_of_ble_eq_true rfl)

theorem clearTrip (rule : Byte) : Statement (.clearTrip rule) := of_request rfl (Nat.le_of_ble_eq_true rfl)

theorem clearAlerts (mask : BitVec 16) : Statement (.clearAlerts mask) := of_request rfl (Nat.le_of_ble_eq_true rfl)

theorem enterIdle : Statement .enterIdle := of_event rfl

theorem enterStuck : Statement .enterStuck := of_event rfl

theorem beginStartMark : Statement .beginStartMark := of_event rfl

theorem shortStart : Statement .shortStart := of_event rfl

theorem startMarkDriveFault : Statement .startMarkDriveFault := of_event rfl

theorem startMark : Statement .startMark := of_event rfl

theorem driveFault : Statement .driveFault := of_event rfl

theorem codeRecognition (bit : Level) : Statement (.codeRecognition bit) := of_event rfl

theorem outcomeDelivery (bit : Level) : Statement (.outcomeDelivery bit) := of_event rfl

theorem roundEnd (line : Level) : Statement (.roundEnd line) := of_event rfl

theorem cycleTimerExpiry : Statement .cycleTimerExpiry := of_event rfl

theorem settleEnd (levels : AnalogLevels) : Statement (.settleEnd levels) := of_event rfl

theorem conversionComplete : Statement .conversionComplete := of_event rfl

theorem samplePoint (level : Level) : Statement (.samplePoint level) := of_event rfl

theorem bitBoundary (line : Level) : Statement (.bitBoundary line) := of_event rfl

theorem lrxdFallingEdge : Statement .lrxdFallingEdge := of_event rfl

theorem sckEdge (sck mosi : Level) : Statement (.sckEdge sck mosi) := of_event rfl

end Sys2Proof.Laws.PortRequest
end

