-- ==== Sys2Proof/Laws/Port.lean ====
section
/-! SUPPORT. The Local Port: the buffer of a good request is its frame and whatever follows, a request decoded is its command
taken, and the edges of a byte bring that byte into the buffer. -/

namespace Sys2Proof.Machine

/-- A buffer that begins with a request's frame is good, whatever follows (R180, R181). -/
theorem judgeRequest_frame (command : Byte) (payload extra : List Byte) (h : payload.length ≤ 120) :
    judgeRequest (frameBytes command payload ++ extra) = some (command, payload) := by
  have hlen : (numByte payload.length).toNat = payload.length := by
    show (BitVec.ofNat 8 payload.length).toNat = _
    rw [BitVec.toNat_ofNat]
    omega
  show judgeRequest (command :: numByte payload.length :: (payload ++ [crc8 (command :: numByte payload.length :: payload)] ++
    extra)) = _
  unfold judgeRequest
  dsimp only
  rw [hlen]
  have ht : (payload ++ [crc8 (command :: numByte payload.length :: payload)] ++ extra).take payload.length = payload := by
    rw [List.append_assoc, List.take_left']
    rfl
  rw [ht, if_pos]
  refine ⟨h, ?_⟩
  rw [List.append_assoc, List.getElem?_append_right (Nat.le_refl _), Nat.sub_self]
  rfl

/-- A good buffer begins with the frame of the request it holds (R181). -/
theorem frame_of_judgeRequest {buffer : List Byte} {command : Byte} {payload : List Byte}
    (h : judgeRequest buffer = some (command, payload)) :
    payload.length ≤ 120 ∧ ∃ extra, buffer = frameBytes command payload ++ extra := by
  unfold judgeRequest at h
  split at h
  · next c len rest =>
    split at h
    · next hc =>
      obtain ⟨h1, h2⟩ := hc
      simp only [Option.some.injEq, Prod.mk.injEq] at h
      obtain ⟨rfl, hp⟩ := h
      obtain ⟨hlt, hget⟩ := List.getElem?_eq_some_iff.1 h2
      have hl : payload.length = len.toNat := by
        rw [← hp, List.length_take]
        omega
      have hn : numByte payload.length = len := by
        rw [hl]
        exact BitVec.eq_of_toNat_eq (by rw [numByte, BitVec.toNat_ofNat]; exact Nat.mod_eq_of_lt len.isLt)
      refine ⟨by rw [hl]; exact h1, rest.drop (len.toNat + 1), ?_⟩
      show c :: len :: rest = c :: numByte payload.length :: (payload ++ [crc8 (c :: numByte payload.length :: payload)] ++ _)
      rw [hn, ← hp, List.append_assoc]
      congr 2
      rw [hp] at h2
      rw [hp]
      conv => lhs; rw [← List.take_append_drop len.toNat rest]
      rw [hp, List.drop_eq_getElem_cons hlt, hget, hp]
      rfl
    · cases h
  · cases h

/-- A 16-bit field is its two bytes, most significant first (R190). -/
theorem word_of_bytes (w : Word) : (w.extractLsb' 8 8 ++ w.extractLsb' 0 8 : Word) = w := by
  apply BitVec.eq_of_getLsbD_eq
  intro k hk
  simp only [BitVec.getLsbD_append, BitVec.getLsbD_extractLsb']
  split
  · next h => simp [h]
  · next h => simp [show k - 8 < 8 by omega, show 8 + (k - 8) = k by omega]

/-- A 32-bit field is its four bytes, most significant first (R190). -/
theorem set_of_bytes (a : AddressSet) :
    (a.extractLsb' 24 8 ++ a.extractLsb' 16 8 ++ a.extractLsb' 8 8 ++ a.extractLsb' 0 8 : AddressSet) = a := by
  apply BitVec.eq_of_getLsbD_eq
  intro k hk
  simp only [BitVec.getLsbD_append, BitVec.getLsbD_extractLsb']
  split
  · next h => simp [h]
  · split
    · next h => simp [h, show 8 + (k - 8) = k by omega]
    · split
      · next h => simp [h, show 16 + (k - 8 - 8) = k by omega]
      · simp [show k - 8 - 8 - 8 < 8 by omega, show 24 + (k - 8 - 8 - 8) = k by omega]

theorem oneWord_bytes (w : Word) : oneWord (wordBytes w) = some w := congrArg some (word_of_bytes w)

theorem slotAndWord_bytes (n : Byte) (w : Word) : slotAndWord (n :: wordBytes w) = some (n, w) :=
  congrArg (fun x => some (n, x)) (word_of_bytes w)

theorem splitSettings_bytes (a : SettingsArgs) : splitSettings (settingsBytes a) = some a := by
  show some _ = some a
  rw [set_of_bytes, word_of_bytes]

theorem splitRound_bytes (a : RoundArgs) : splitRound (roundBytes a) = some a := rfl

theorem splitSlot_bytes (a : SlotArgs) : splitSlot (slotConfigBytes a) = some a := by
  show some _ = some a
  rw [word_of_bytes, word_of_bytes, word_of_bytes]

theorem splitTrip_bytes (a : TripArgs) : splitTrip (tripRuleBytes a) = some a := by
  show some _ = some a
  rw [word_of_bytes, word_of_bytes]

/-- A request decoded is its command taken (R186). -/
theorem takeRequest_of_request {c : Instr} {command : Byte} {payload : List Byte} (h : requestOf c = some (command, payload))
    (s : State) : exec c s = .next (s.takeRequest command payload) := by
  cases c <;> simp only [requestOf, Option.some.injEq, Prod.mk.injEq, reduceCtorEq] at h <;> obtain ⟨rfl, rfl⟩ := h
  case writeSettings a => exact congrArg (fun x => Host.Outcome.next (s.takeWriteSettings x)) (splitSettings_bytes a).symm
  case writeSlot a => exact congrArg (fun x => Host.Outcome.next (s.takeWriteSlot x)) (splitSlot_bytes a).symm
  case writeTripRule a => exact congrArg (fun x => Host.Outcome.next (s.takeWriteTripRule x)) (splitTrip_bytes a).symm
  case inject n w => exact congrArg (fun x => Host.Outcome.next (s.takeInject x)) (slotAndWord_bytes n w).symm
  case setUserValue w => exact congrArg (fun x => Host.Outcome.next (s.takeSetUserValue x)) (oneWord_bytes w).symm
  case clearFlags w => exact congrArg (fun x => Host.Outcome.next (s.takeClearFlags x)) (oneWord_bytes w).symm
  case clearAlerts w => exact congrArg (fun x => Host.Outcome.next (s.takeClearAlerts x)) (oneWord_bytes w).symm
  all_goals rfl

/-- The command bytes of R187's run commands pass the run gate, whatever the payload (section 11.4). -/
theorem takeRequest_run (s : State) (payload : List Byte) {command : Byte}
    (h : command ∈ [(0x20 : Byte), 0x21, 0x22, 0x23, 0x24, 0x30, 0x31, 0x32, 0x33, 0x34, 0x40, 0x41, 0x42, 0x43, 0x44]) :
    ∃ (α : Type) (arg : Option α) (act : α → State → State), s.takeRequest command payload = s.take .run arg act := by
  simp only [List.mem_cons, List.not_mem_nil, or_false] at h
  rcases h with h | h | h | h | h | h | h | h | h | h | h | h | h | h | h <;> subst h <;> exact ⟨_, _, _, rfl⟩

/-- The command bytes of COMMIT and of R187's writes pass the configuration gate, whatever the payload (section 11.4). -/
theorem takeRequest_config (s : State) (payload : List Byte) {command : Byte}
    (h : command ∈ [(0x10 : Byte), 0x11, 0x12, 0x13, 0x14, 0x1F]) :
    ∃ (α : Type) (arg : Option α) (act : α → State → State), s.takeRequest command payload = s.take .config arg act := by
  simp only [List.mem_cons, List.not_mem_nil, or_false] at h
  rcases h with h | h | h | h | h | h <;> subst h <;> exact ⟨_, _, _, rfl⟩

/-- The eight bits of a byte, most significant first, are that byte (R180). -/
theorem byteOfBits_byteBits (b : Byte) : byteOfBits (byteBits b) = b := by
  revert b
  decide +kernel

/-- Whether a frame of the port is open with SCK LOW: the port takes the bits of the next edges (R180). -/
def State.takesBits (s : State) : Prop := s.held = false ∧ s.port.frameOpen = true ∧ s.port.sck = .low

/-- The buffer and the incomplete byte after a bit (R180). -/
def bufferAfter (x : List Byte × List Bool) (bit : Bool) : List Byte × List Bool :=
  if x.2.length = 7 then (x.1 ++ [byteOfBits (x.2 ++ [bit])], []) else (x.1, x.2 ++ [bit])

/-- Eight bits from a byte boundary complete their byte. -/
theorem bufferAfter_byte (buffer : List Byte) (b : Byte) :
    (byteBits b).foldl bufferAfter (buffer, []) = (buffer ++ [b], []) := by
  have h : byteBits b = [b.getMsbD 0, b.getMsbD 1, b.getMsbD 2, b.getMsbD 3, b.getMsbD 4, b.getMsbD 5, b.getMsbD 6,
      b.getMsbD 7] := rfl
  have hb := byteOfBits_byteBits b
  rw [h] at hb ⊢
  simp [bufferAfter, hb]

/-- The bits of bytes from a byte boundary complete these bytes. -/
theorem bufferAfter_bytes (bytes buffer : List Byte) :
    (bytes.flatMap byteBits).foldl bufferAfter (buffer, []) = (buffer ++ bytes, []) := by
  induction bytes generalizing buffer with
  | nil => simp
  | cons b bytes ih =>
    rw [List.flatMap_cons, List.foldl_append, bufferAfter_byte, ih]
    simp

/-- A rising edge of SCK and the falling one after it (R180): one bit of MOSI taken, one bit of the response shifted. -/
theorem State.sckEdges_bit {s : State} (h : s.takesBits) (bit : Bool) :
    ∃ mosi miso shifted, (s.sckEdge .high (Level.ofBit bit)).sckEdge .low (Level.ofBit bit) =
      { s with port := { s.port with
          mosi := mosi, miso := miso, shifted := shifted
          buffer := (bufferAfter (s.port.buffer, s.port.bits) bit).1, bits := (bufferAfter (s.port.buffer, s.port.bits) bit).2 } } := by
  obtain ⟨h1, h2, h3⟩ := h
  have hb : (Level.ofBit bit).bit = bit := by cases bit <;> rfl
  have e1 : s.sckEdge .high (Level.ofBit bit) =
      { s with port := { s.port with
          sck := .high, mosi := Level.ofBit bit
          buffer := (bufferAfter (s.port.buffer, s.port.bits) bit).1, bits := (bufferAfter (s.port.buffer, s.port.bits) bit).2 } } := by
    unfold State.sckEdge
    dsimp only
    rw [if_pos ⟨by rw [h3]; decide, h2, h1⟩]
    unfold Port.clockEdge Port.takeBit bufferAfter
    dsimp only
    rw [hb]
    split <;> rfl
  rw [e1]
  unfold State.sckEdge
  dsimp only
  rw [if_pos ⟨by decide, h2, h1⟩]
  refine ⟨Level.ofBit bit, Level.ofBit (s.port.slot.bit (s.port.shifted + 1)), s.port.shifted + 1, ?_⟩
  rw [h3]
  rfl

/-- Commands one after another, as `exec` answers them while each answers a next state. -/
def runEvents (l : List Instr) (o : Host.Outcome State Fault Refusal) : Host.Outcome State Fault Refusal :=
  l.foldl (fun o e => match o with | .next t => exec e t | x => x) o

/-- The edges that clock bits in (R180). -/
theorem runEvents_bits (bits : List Bool) {s : State} (h : s.takesBits) :
    ∃ mosi miso shifted,
      runEvents (bits.flatMap fun b => [.sckEdge .high (Level.ofBit b), .sckEdge .low (Level.ofBit b)]) (.next s) =
      .next { s with port := { s.port with
        mosi := mosi, miso := miso, shifted := shifted
        buffer := (bits.foldl bufferAfter (s.port.buffer, s.port.bits)).1
        bits := (bits.foldl bufferAfter (s.port.buffer, s.port.bits)).2 } } := by
  induction bits generalizing s with
  | nil => exact ⟨s.port.mosi, s.port.miso, s.port.shifted, rfl⟩
  | cons b bits ih =>
    obtain ⟨mosi, miso, shifted, e⟩ := s.sckEdges_bit h b
    generalize ht : ({ s with port := { s.port with
      mosi := mosi, miso := miso, shifted := shifted
      buffer := (bufferAfter (s.port.buffer, s.port.bits) b).1
      bits := (bufferAfter (s.port.buffer, s.port.bits) b).2 } } : State) = t at e
    have htb : t.takesBits := by
      subst ht
      exact h
    obtain ⟨mosi', miso', shifted', e'⟩ := ih htb
    refine ⟨mosi', miso', shifted', ?_⟩
    rw [List.flatMap_cons, runEvents, List.foldl_append]
    show runEvents _ (.next ((s.sckEdge .high (Level.ofBit b)).sckEdge .low (Level.ofBit b))) = _
    rw [e, e', ← ht]
    rfl

end Sys2Proof.Machine
end

