-- ==== Sys2Proof/Laws/Effect.lean ====
section
/-! SUPPORT. What a step can do, said once: every command comes to one of a few effects on the blocks, with the port's wires and
slot beside it, and a step with no command to one crystal period. A property that these keep, every step keeps. -/

namespace Sys2Proof.Machine

/-- What the port keeps whatever a command does to it (R180, R184): an incomplete byte stays incomplete, a frame is open only
with CSN LOW, and while RESETN is low the slot and MISO stand and no frame opens. -/
def Port.Keeps (held : Bool) (old new : Port) : Prop :=
  (old.bits.length < 8 → new.bits.length < 8) ∧
  ((old.frameOpen = true → old.csn = .low) → new.frameOpen = true → new.csn = .low) ∧
  (held = true → new.slot = old.slot ∧ new.miso = old.miso ∧ (new.frameOpen = true → old.frameOpen = true))

/-- The effects of the commands that R187 takes in JOINING, ACTIVE and SILENT alone, the port apart. -/
inductive RunEffect (s : State) : State → Prop
  | results (n : Nat) : RunEffect s { s with store.ring := s.store.ring.drop n, store.lost := 0 }
  | slots (first count : Nat) : RunEffect s { s with
      meas.results := Vector.ofFn fun n => if inRange first count n then s.meas.results[n].read else s.meas.results[n] }
  | post (c : Code) (h : isOnRequest s.image c = true) : RunEffect s (s.post .command c)
  | begin (h : s.meas.scan = .idle) : RunEffect s s.beginScan
  | stop : RunEffect s (s.restScan .stopped)
  | resume (h : s.meas.scan = .stopped) : RunEffect s s.resume
  | inject (n : Fin 16) (raw : Raw) (h : s.meas.scan = .stopped) : RunEffect s (s.writeSample n raw true)
  | userValue (u : Option UserValue) : RunEffect s { s with source.userValue := u }
  | flags (w : Word) : RunEffect s { s with source.flags := w }
  | unlatch (n : Fin 8) (h : s.trip[n].status = .tripped) (he : s.image.rules[n].enabled = true)
      (hb : s.image.rules[n].blind ≠ 0 → s.trip[n].blind < s.image.rules[n].blind) :
      RunEffect s { s with trip := s.trip.set n s.trip[n].unlatched }
  | alerts (a : BitVec 12) : RunEffect s { s with control.alerts := a }

/-- The effects of the port's commands, the port apart. -/
inductive PortEffect (s : State) : State → Prop
  | none : PortEffect s s
  | softReset (h : s.held = false) : PortEffect s (s.resetBlocks .soft)
  | image (im : Image) (h : s.held = false) (hc : s.control.station = .config) (hr : imageInRange s.image → imageInRange im) :
      PortEffect s { s with image := im }
  | commit (h : s.held = false) (hc : s.control.station = .config) (hv : validate s.image = .none) :
      PortEffect s s.beginCommit
  | run (t : State) (h : s.held = false) (hr : s.control.station.running = true) (he : RunEffect s t) : PortEffect s t

/-- The effects of all commands. -/
inductive Effect (s : State) : State → Prop
  | port (t : State) (p : Port) (h : PortEffect s t) (hp : Port.Keeps s.held s.port p) : Effect s { t with port := p }
  | hardReset : Effect s s.hardReset
  | release (h : s.held = true) : Effect s { s.hardReset with resetn := .high }
  | complete (h : s.held = false) (hc : s.control.station = .committing) : Effect s s.blocksAtCommit.resume
  | sample (lv : Level) (h : s.listens = true) : Effect s (s.sample lv)
  | boundary (line : Level) (h : s.listens = true) : Effect s (s.boundary line)
  | expire (h : s.held = false) (hr : s.control.station.running = true) :
      Effect s s.cycleBoundary.restartTimer.judgeExpiry
  | settle (raw : Raw) (timer draws : Nat) (h : s.held = false) (hs : s.meas.scan = .scanning) :
      Effect s { s with meas.held := some raw, meas.timer := timer, clock.draws := draws }
  | conversion (n : Fin 16) (raw : Raw) (h : s.held = false) (hs : s.meas.scan = .scanning) (hp : s.meas.position = some n)
      (hh : s.meas.held = some raw) : Effect s s.completeConversion

/-- The port as it stands keeps itself. -/
theorem Port.Keeps.refl (held : Bool) (p : Port) : Port.Keeps held p p := ⟨id, fun h => h, fun _ => ⟨rfl, rfl, id⟩⟩

/-- A command that does nothing. -/
theorem Effect.refl (s : State) : Effect s s := Effect.port s s.port .none (Port.Keeps.refl _ _)

/-- A response in the slot keeps the port's wires (R183). -/
theorem Port.Keeps.respond (p : Port) (r : Response) : Port.Keeps false p { p with slot := r } :=
  ⟨id, fun h => h, fun h => by cases h⟩

theorem State.post_port (s : State) (p : Port) (o : Origin) (c : Code) :
    ({ s with port := p } : State).post o c = { s.post o c with port := p } := by
  unfold State.post
  split
  · rfl
  · split <;> rfl

theorem State.postIf_port (s : State) (p : Port) (o : Origin) (c : Option Code) :
    ({ s with port := p } : State).postIf o c = { s.postIf o c with port := p } := by
  cases c with
  | none => rfl
  | some c => exact s.post_port p o c

theorem State.beginScan_port (s : State) (p : Port) :
    ({ s with port := p } : State).beginScan = { s.beginScan with port := p } := by
  unfold State.beginScan
  dsimp only
  split <;> rfl

theorem State.resume_port (s : State) (p : Port) : ({ s with port := p } : State).resume = { s.resume with port := p } := by
  unfold State.resume
  dsimp only
  split
  · exact s.beginScan_port p
  · rfl
  · rfl

theorem State.writeSample_port (s : State) (p : Port) (n : Fin 16) (raw : Raw) (injected : Bool) :
    ({ s with port := p } : State).writeSample n raw injected = { s.writeSample n raw injected with port := p } := by
  unfold State.writeSample State.limitEvent
  dsimp only
  split
  · generalize hu : ((({ s with
      meas.results := s.meas.results.set n (s.meas.results[n].write s.image.slots[n] raw s.sched.cycle injected) } :
      State).setFlags _).setCause .limit) = u
    rw [← State.postIf_port, ← hu]
    rfl
  · rfl

/-- A run command's effect does not look at the port. -/
theorem RunEffect.of_port {s t : State} {p : Port} (h : RunEffect { s with port := p } t) :
    ∃ x, RunEffect s x ∧ t = { x with port := p } := by
  cases h with
  | results n => exact ⟨_, .results n, rfl⟩
  | slots first count => exact ⟨_, .slots first count, rfl⟩
  | post c h => exact ⟨_, .post c h, s.post_port p _ c⟩
  | begin h => exact ⟨_, .begin h, s.beginScan_port p⟩
  | stop => exact ⟨_, .stop, rfl⟩
  | resume h => exact ⟨_, .resume h, s.resume_port p⟩
  | inject n raw h => exact ⟨_, .inject n raw h, s.writeSample_port p n raw true⟩
  | userValue u => exact ⟨_, .userValue u, rfl⟩
  | flags w => exact ⟨_, .flags w, rfl⟩
  | unlatch n h he hb => exact ⟨_, .unlatch n h he hb, rfl⟩
  | alerts a => exact ⟨_, .alerts a, rfl⟩

/-- A port command's effect does not look at the port. -/
theorem PortEffect.of_port {s t : State} {p : Port} (h : PortEffect { s with port := p } t) :
    ∃ x, PortEffect s x ∧ t = { x with port := p } := by
  cases h with
  | none => exact ⟨_, .none, rfl⟩
  | softReset h => exact ⟨_, .softReset h, rfl⟩
  | image im h hc hr => exact ⟨_, .image im h hc hr, rfl⟩
  | commit h hc hv => exact ⟨_, .commit h hc hv, rfl⟩
  | run t h hr he =>
    obtain ⟨x, hx, ht⟩ := he.of_port
    exact ⟨x, .run x h hr hx, ht⟩

/-- A taken request is one of the port's effects with a response in the slot, or nothing while RESETN is low (R186). -/
def Answers (s t : State) : Prop :=
  t = s ∨ s.held = false ∧ ∃ x p, PortEffect s x ∧ Port.Keeps false s.port p ∧ t = { x with port := p }

theorem State.take_answers {α : Type} (s : State) (g : Gate) (arg : Option α) (act : α → State → State)
    (h : ∀ a, arg = some a → s.held = false → g.refusal s.control.station = none → Answers s (act a s)) :
    Answers s (s.take g arg act) := by
  rcases s.take_cases g arg act with e | ⟨hs, st, e⟩ | ⟨hs, hg, a, ha, e⟩
  · rw [e]
    exact .inl rfl
  · rw [e]
    exact .inr ⟨hs, s, _, .none, .respond _ _, rfl⟩
  · rw [e]
    exact h a ha hs hg

/-- An action that only answers. -/
theorem Answers.respond {s : State} (hs : s.held = false) (st : Status) (payload : List Byte) :
    Answers s (s.respond st payload) := .inr ⟨hs, s, _, .none, .respond _ _, rfl⟩

/-- An action of a run command with its answer. -/
theorem Answers.run {s x : State} (hs : s.held = false) (hg : Gate.run.refusal s.control.station = none) (h : RunEffect s x)
    (hp : x.port = s.port) (st : Status) (payload : List Byte) : Answers s (x.respond st payload) :=
  .inr ⟨hs, x, { s.port with slot := { status := st, payload := payload } }, .run x hs (Gate.running_of_run hg) h,
    .respond _ _, by unfold State.respond; rw [hp]⟩

/-- A write of the image with its answer. -/
theorem Answers.image {s : State} (hs : s.held = false) (hg : Gate.config.refusal s.control.station = none) (im : Image)
    (hr : imageInRange s.image → imageInRange im) : Answers s (({ s with image := im } : State).respond .ok) :=
  .inr ⟨hs, _, _, .image im hs (Gate.config_of_config hg) hr, .respond _ _, rfl⟩

theorem takeNop_answers (s : State) (arg : Option Unit) : Answers s (s.takeNop arg) :=
  s.take_answers _ _ _ fun _ _ hs _ => .respond hs _ _

theorem takeReadStatus_answers (s : State) (arg : Option Unit) : Answers s (s.takeReadStatus arg) :=
  s.take_answers _ _ _ fun _ _ hs _ => .respond hs _ _

theorem takeSoftReset_answers (s : State) (arg : Option Unit) : Answers s (s.takeSoftReset arg) :=
  s.take_answers _ _ _ fun _ _ hs _ => .inr ⟨hs, s.resetBlocks .soft,
    { s.port with buffer := [], bits := [], slot := { status := .resetDone, payload := [numByte (causeNumber .soft)] } },
    .softReset hs, ⟨fun _ => Nat.zero_lt_succ 7, fun h => h, fun h => by cases h⟩, rfl⟩

theorem takeWriteSettings_answers (s : State) (arg : Option SettingsArgs) : Answers s (s.takeWriteSettings arg) :=
  s.take_answers _ _ _ fun r hr hs hg => by
    obtain ⟨a, _, ha⟩ := Option.bind_eq_some_iff.1 hr
    exact .image hs hg { s.image with settings := r } fun h => ⟨(checkSettings_some ha).1, h.2⟩

theorem takeWriteRound_answers (s : State) (arg : Option RoundArgs) : Answers s (s.takeWriteRound arg) :=
  s.take_answers _ _ _ fun a _ hs hg => .image hs hg { s.image with rounds := s.image.rounds.set a.1 (some a.2) } fun h => h

theorem takeClearRound_answers (s : State) (arg : Option Byte) : Answers s (s.takeClearRound arg) :=
  s.take_answers _ _ _ fun n _ hs hg => .image hs hg { s.image with rounds := s.image.rounds.set n none } fun h => h

theorem takeWriteSlot_answers (s : State) (arg : Option SlotArgs) : Answers s (s.takeWriteSlot arg) :=
  s.take_answers _ _ _ fun a hr hs hg => by
    obtain ⟨_, _, ha⟩ := Option.bind_eq_some_iff.1 hr
    refine .image hs hg { s.image with slots := s.image.slots.set a.1 a.2 } fun h => ⟨h.1, fun n => ?_, h.2.2⟩
    show slotInRange (s.image.slots.set a.1 a.2)[n]
    by_cases hn : a.1.val = n.val
    · rw [show (s.image.slots.set a.1 a.2)[n] = a.2 by simp [hn]]
      exact (checkSlot_some ha).1
    · rw [show (s.image.slots.set a.1 a.2)[n] = s.image.slots[n] by simp [Vector.getElem_set_ne, hn]]
      exact h.2.1 n

theorem takeWriteTripRule_answers (s : State) (arg : Option TripArgs) : Answers s (s.takeWriteTripRule arg) :=
  s.take_answers _ _ _ fun a hr hs hg => by
    obtain ⟨_, _, ha⟩ := Option.bind_eq_some_iff.1 hr
    refine .image hs hg { s.image with rules := s.image.rules.set a.1 a.2 } fun h => ⟨h.1, h.2.1, fun n => ?_⟩
    show ruleInRange (s.image.rules.set a.1 a.2)[n]
    by_cases hn : a.1.val = n.val
    · rw [show (s.image.rules.set a.1 a.2)[n] = a.2 by simp [hn]]
      exact (checkTrip_some ha).1
    · rw [show (s.image.rules.set a.1 a.2)[n] = s.image.rules[n] by simp [Vector.getElem_set_ne, hn]]
      exact h.2.2 n

theorem takeCommit_answers (s : State) (arg : Option Unit) : Answers s (s.takeCommit arg) :=
  s.take_answers _ _ _ fun _ _ hs hg => by
    unfold State.commit
    split
    · exact .respond hs _ _
    · rename_i hv
      exact .inr ⟨hs, s.beginCommit, _, .commit hs (Gate.config_of_config hg) hv, .respond _ _, rfl⟩

theorem takeReadResults_answers (s : State) (arg : Option Byte) : Answers s (s.takeReadResults arg) :=
  s.take_answers _ _ _ fun n _ hs hg => .run hs hg (.results n) rfl _ _

theorem takeReadLatest_answers (s : State) (arg : Option Byte) : Answers s (s.takeReadLatest arg) :=
  s.take_answers _ _ _ fun _ _ hs _ => .respond hs _ _

theorem takeReadPeers_answers (s : State) (arg : Option (Byte × Byte)) : Answers s (s.takeReadPeers arg) :=
  s.take_answers _ _ _ fun _ _ hs _ => .respond hs _ _

theorem takeReadSlots_answers (s : State) (arg : Option (Byte × Byte)) : Answers s (s.takeReadSlots arg) :=
  s.take_answers _ _ _ fun a _ hs hg => .run hs hg (.slots a.1 a.2) rfl _ _

theorem takeReadTrips_answers (s : State) (arg : Option Unit) : Answers s (s.takeReadTrips arg) :=
  s.take_answers _ _ _ fun _ _ hs _ => .respond hs _ _

theorem takePostRound_answers (s : State) (arg : Option Byte) : Answers s (s.takePostRound arg) :=
  s.take_answers _ _ _ fun c hc hs hg => by
    obtain ⟨b, _, hb⟩ := Option.bind_eq_some_iff.1 hc
    obtain ⟨d, _, hd⟩ := Option.bind_eq_some_iff.1 hb
    have hon : isOnRequest s.image c = true := by
      split at hd
      · rename_i h
        cases hd
        exact h
      · cases hd
    unfold State.postRound
    split
    · exact .respond hs _ _
    · split
      · refine .run hs hg (.post c hon) ?_ _ _
        obtain ⟨_, _, _, h⟩ := s.post_changes .command c
        rw [h]
      · exact .respond hs _ _

theorem takeStartScan_answers (s : State) (arg : Option Unit) : Answers s (s.takeStartScan arg) :=
  s.take_answers _ _ _ fun _ _ hs hg => by
    unfold State.startScan
    split
    · rename_i h
      refine .run hs hg (.begin h) ?_ _ _
      obtain ⟨_, _, _, _, _, h⟩ := s.beginScan_changes
      rw [h]
    · exact .respond hs _ _
    · exact .respond hs _ _

theorem takeStopScan_answers (s : State) (arg : Option Unit) : Answers s (s.takeStopScan arg) :=
  s.take_answers _ _ _ fun _ _ hs hg => .run hs hg .stop rfl _ _

theorem takeResumeScan_answers (s : State) (arg : Option Unit) : Answers s (s.takeResumeScan arg) :=
  s.take_answers _ _ _ fun _ _ hs hg => by
    unfold State.resumeScan
    split
    · rename_i h
      refine .run hs hg (.resume h) ?_ _ _
      obtain ⟨_, _, _, _, _, h⟩ := s.resume_changes
      rw [h]
    · exact .respond hs _ _
    · exact .respond hs _ _

theorem takeInject_answers (s : State) (arg : Option (Byte × Word)) : Answers s (s.takeInject arg) :=
  s.take_answers _ _ _ fun a _ hs hg => by
    unfold State.inject
    split
    · rename_i h
      refine .run hs hg (.inject a.1 a.2 h) ?_ _ _
      obtain ⟨_, _, _, _, h⟩ := s.writeSample_changes a.1 a.2 true
      rw [h]
    · exact .respond hs _ _
    · exact .respond hs _ _

theorem takeSetUserValue_answers (s : State) (arg : Option Word) : Answers s (s.takeSetUserValue arg) :=
  s.take_answers _ _ _ fun v _ hs hg =>
    .run hs hg (.userValue (some { value := v.toInt, cycle := s.sched.cycle })) rfl _ _

theorem takeSetUserFlags_answers (s : State) (arg : Option Byte) : Answers s (s.takeSetUserFlags arg) :=
  s.take_answers _ _ _ fun f _ hs hg =>
    .run hs hg (.flags ((s.source.flags &&& 0x00FF#16) ||| (f.setWidth 16 <<< 8))) rfl _ _

theorem takeClearFlags_answers (s : State) (arg : Option Word) : Answers s (s.takeClearFlags arg) :=
  s.take_answers _ _ _ fun m _ hs hg => .run hs hg (.flags (s.source.flags &&& ~~~(m &&& stickyFlags))) rfl _ _

theorem takeClearTrip_answers (s : State) (arg : Option Byte) : Answers s (s.takeClearTrip arg) :=
  s.take_answers _ _ _ fun n _ hs hg => by
    unfold State.clearTrip
    split
    · rename_i h
      split
      · exact .respond hs _ _
      · rename_i hr
        refine .run hs hg (.unlatch n h.1 h.2 fun h0 => ?_) rfl _ _
        unfold State.reasonStands at hr
        by_contra hb
        have : s.image.rules[n].blind ≤ s.trip[n].blind := Nat.le_of_not_lt hb
        exact hr (by simp only [bne_iff_ne.2 h0, decide_eq_true this, Bool.and_self, Bool.or_true])
    · exact .respond hs _ _

theorem takeClearAlerts_answers (s : State) (arg : Option Word) : Answers s (s.takeClearAlerts arg) :=
  s.take_answers _ _ _ fun m _ hs hg => .run hs hg (.alerts (s.control.alerts &&& ~~~m)) rfl _ _

/-- A request decoded is one of the port's effects (R186). -/
theorem takeRequest_answers (s : State) (hs : s.held = false) (command : Byte) (p : List Byte) :
    Answers s (s.takeRequest command p) := by
  unfold State.takeRequest
  split
  · exact takeNop_answers s _
  · exact takeReadStatus_answers s _
  · exact takeSoftReset_answers s _
  · exact takeWriteSettings_answers s _
  · exact takeWriteRound_answers s _
  · exact takeClearRound_answers s _
  · exact takeWriteSlot_answers s _
  · exact takeWriteTripRule_answers s _
  · exact takeCommit_answers s _
  · exact takeReadResults_answers s _
  · exact takeReadLatest_answers s _
  · exact takeReadPeers_answers s _
  · exact takeReadSlots_answers s _
  · exact takeReadTrips_answers s _
  · exact takePostRound_answers s _
  · exact takeStartScan_answers s _
  · exact takeStopScan_answers s _
  · exact takeResumeScan_answers s _
  · exact takeInject_answers s _
  · exact takeSetUserValue_answers s _
  · exact takeSetUserFlags_answers s _
  · exact takeClearFlags_answers s _
  · exact takeClearTrip_answers s _
  · exact takeClearAlerts_answers s _
  · exact .respond hs _ _

theorem Answers.effect {s t : State} (h : Answers s t) : Effect s t := by
  rcases h with rfl | ⟨hs, x, p, hx, hp, rfl⟩
  · exact .refl _
  · exact .port x p hx (hs ▸ hp)

theorem Port.Keeps.trans {held : Bool} {a b c : Port} (h1 : Port.Keeps held a b) (h2 : Port.Keeps held b c) :
    Port.Keeps held a c :=
  ⟨fun h => h2.1 (h1.1 h), fun h => h2.2.1 (h1.2.1 h), fun h =>
    ⟨(h2.2.2 h).1.trans (h1.2.2 h).1, (h2.2.2 h).2.1.trans (h1.2.2 h).2.1, fun ho => (h1.2.2 h).2.2 ((h2.2.2 h).2.2 ho)⟩⟩

/-- The wires of a frame (R180, R181, R184). -/
theorem frameOpen_effect (s : State) : Effect s s.frameOpen := by
  unfold State.frameOpen
  split
  · dsimp only
    split
    · rename_i h
      exact .port s { s.port with csn := .low } .none ⟨id, fun _ _ => rfl, fun _ => ⟨rfl, rfl, id⟩⟩
    · rename_i h
      have hs : s.held = false := by simpa using h
      exact .port s (Port.openFrame { s.port with csn := .low }) .none
        ⟨fun _ => Nat.zero_lt_succ 7, fun _ _ => rfl, fun h' => by rw [hs] at h'; cases h'⟩
  · exact .refl s

theorem closeFrame_keeps (s : State) : Port.Keeps s.held s.port s.closeFrame.port :=
  ⟨fun _ => Nat.zero_lt_succ 7, fun _ h => (by cases h), fun _ => ⟨rfl, rfl, fun h => (by cases h)⟩⟩

theorem frameEnd_effect (s : State) : Effect s s.frameEnd := by
  unfold State.frameEnd
  split
  · split
    · rename_i h
      have hs : s.held = false := h.2
      have ha : Answers s.closeFrame (s.closeFrame.judgeFrame s.port.buffer) := by
        unfold State.judgeFrame
        split
        · exact takeRequest_answers s.closeFrame hs _ _
        · exact .respond (s := s.closeFrame) hs _ _
      rcases ha with e | ⟨_, x, p, hx, hp, e⟩
      · rw [e]
        exact .port s _ .none (closeFrame_keeps s)
      · obtain ⟨y, hy, ey⟩ := PortEffect.of_port (s := s) (p := s.closeFrame.port) hx
        rw [e, ey]
        exact .port y p hy ((closeFrame_keeps s).trans (hs ▸ hp))
    · exact .port s _ .none (closeFrame_keeps s)
  · exact .refl s

theorem sckEdge_effect (s : State) (sck mosi : Level) : Effect s (s.sckEdge sck mosi) := by
  unfold State.sckEdge
  dsimp only
  split
  · rename_i h
    refine .port s (Port.clockEdge { s.port with sck := sck, mosi := mosi } sck mosi) .none ?_
    have hs : s.held = false := h.2.2
    unfold Port.clockEdge Port.takeBit
    cases sck with
    | low => exact ⟨id, fun h => h, fun h' => by rw [hs] at h'; cases h'⟩
    | high =>
      dsimp only
      split
      · exact ⟨fun _ => Nat.zero_lt_succ 7, fun h => h, fun h' => by rw [hs] at h'; cases h'⟩
      · rename_i hl
        refine ⟨fun hb => ?_, fun h => h, fun h' => by rw [hs] at h'; cases h'⟩
        show (s.port.bits ++ [mosi.bit]).length < 8
        rw [List.length_append]
        have : s.port.bits.length ≠ 7 := hl
        simp
        omega
  · exact .port s { s.port with sck := sck, mosi := mosi } .none ⟨id, fun h => h, fun _ => ⟨rfl, rfl, id⟩⟩

theorem sample_effect (s : State) (lv : Level) : Effect s (s.sample lv) := by
  cases h : s.listens with
  | true => exact .sample lv h
  | false =>
    rw [State.sample_of_not_listens h]
    exact .refl s

theorem boundary_effect (s : State) (line : Level) : Effect s (s.boundary line) := by
  cases h : s.listens with
  | true => exact .boundary line h
  | false =>
    rw [State.boundary_of_not_listens h]
    exact .refl s

theorem onlyIf_effect {s : State} (condition : Bool) {act : State → State} (h : Effect s (act s)) :
    Effect s (s.onlyIf condition act) := by
  unfold State.onlyIf
  split
  · exact h
  · exact .refl s

theorem expire_effect (s : State) : Effect s s.expire := by
  unfold State.expire
  split
  · rename_i h
    rw [Bool.and_eq_true, Bool.not_eq_true'] at h
    exact .expire h.1 h.2
  · exact .refl s

theorem settleEnd_effect (s : State) (a : AnalogLevels) : Effect s (if s.held then s else s.settle a) := by
  split
  · exact .refl s
  · rename_i h
    unfold State.settle
    split
    · rename_i hs _ _
      exact .settle _ _ _ (by simpa using h) hs
    · exact .refl s

theorem conversionComplete_effect (s : State) : Effect s (if s.held then s else s.completeConversion) := by
  split
  · exact .refl s
  · rename_i h
    by_cases hc : s.meas.scan = .scanning ∧ (∃ n, s.meas.position = some n) ∧ ∃ raw, s.meas.held = some raw
    · obtain ⟨hs, ⟨n, hn⟩, raw, hr⟩ := hc
      exact .conversion n raw (by simpa using h) hs hn hr
    · have : s.completeConversion = s := by
        unfold State.completeConversion
        split
        · rename_i n raw hs hn hr
          exact absurd ⟨hs, ⟨n, hn⟩, raw, hr⟩ hc
        · rfl
      rw [this]
      exact .refl s

theorem commitComplete_effect (s : State) : Effect s (if s.held then s else s.completeCommit) := by
  split
  · exact .refl s
  · rename_i h
    unfold State.completeCommit
    split
    · rename_i hc
      exact .complete (by simpa using h) hc
    · exact .refl s

theorem resetRelease_effect (s : State) : Effect s s.releaseReset := by
  unfold State.releaseReset
  split
  · rename_i h
    exact .release h
  · exact .refl s

/-- Every command comes to one of the effects. -/
theorem exec_effect {c : Instr} {s t : State} (h : exec c s = .next t) : Effect s t := by
  have key : ∀ {x : State}, exec c s = .next x → Effect s x → Effect s t := fun hx he => by
    rw [hx] at h
    injection h with h
    exact h ▸ he
  cases c with
  | hardReset => exact key (exec_hardReset s) .hardReset
  | resetRelease => exact key (exec_resetRelease s) (resetRelease_effect s)
  | frameOpen => exact key (exec_frameOpen s) (frameOpen_effect s)
  | frameEnd => exact key (exec_frameEnd s) (frameEnd_effect s)
  | nop => exact key rfl (takeNop_answers s (some ())).effect
  | readStatus => exact key rfl (takeReadStatus_answers s (some ())).effect
  | softReset => exact key rfl (takeSoftReset_answers s (some ())).effect
  | writeSettings r => exact key rfl (takeWriteSettings_answers s (some r)).effect
  | writeRound r => exact key rfl (takeWriteRound_answers s (some r)).effect
  | clearRound r => exact key rfl (takeClearRound_answers s (some r)).effect
  | writeSlot r => exact key rfl (takeWriteSlot_answers s (some r)).effect
  | writeTripRule r => exact key rfl (takeWriteTripRule_answers s (some r)).effect
  | commit => exact key rfl (takeCommit_answers s (some ())).effect
  | commitComplete => exact key (exec_commitComplete s) (commitComplete_effect s)
  | readResults r => exact key rfl (takeReadResults_answers s (some r)).effect
  | readLatest r => exact key rfl (takeReadLatest_answers s (some r)).effect
  | readPeers r q => exact key rfl (takeReadPeers_answers s (some (r, q))).effect
  | readSlots r q => exact key rfl (takeReadSlots_answers s (some (r, q))).effect
  | readTrips => exact key rfl (takeReadTrips_answers s (some ())).effect
  | postRound r => exact key rfl (takePostRound_answers s (some r)).effect
  | startScan => exact key rfl (takeStartScan_answers s (some ())).effect
  | stopScan => exact key rfl (takeStopScan_answers s (some ())).effect
  | resumeScan => exact key rfl (takeResumeScan_answers s (some ())).effect
  | inject r q => exact key rfl (takeInject_answers s (some (r, q))).effect
  | setUserValue r => exact key rfl (takeSetUserValue_answers s (some r)).effect
  | setUserFlags r => exact key rfl (takeSetUserFlags_answers s (some r)).effect
  | clearFlags r => exact key rfl (takeClearFlags_answers s (some r)).effect
  | clearTrip r => exact key rfl (takeClearTrip_answers s (some r)).effect
  | clearAlerts r => exact key rfl (takeClearAlerts_answers s (some r)).effect
  | enterIdle => exact key (exec_enterIdle s) (onlyIf_effect _ (sample_effect s _))
  | enterStuck => exact key (exec_enterStuck s) (onlyIf_effect _ (sample_effect s _))
  | beginStartMark => exact key (exec_beginStartMark s) (onlyIf_effect _ (boundary_effect s _))
  | shortStart => exact key (exec_shortStart s) (onlyIf_effect _ (sample_effect s _))
  | startMarkDriveFault => exact key (exec_startMarkDriveFault s) (onlyIf_effect _ (sample_effect s _))
  | startMark => exact key (exec_startMark s) (onlyIf_effect _ (sample_effect s _))
  | driveFault => exact key (exec_driveFault s) (onlyIf_effect _ (sample_effect s _))
  | codeRecognition b => exact key (exec_codeRecognition b s) (onlyIf_effect _ (sample_effect s _))
  | outcomeDelivery b => exact key (exec_outcomeDelivery b s) (onlyIf_effect _ (sample_effect s _))
  | roundEnd b => exact key (exec_roundEnd b s) (onlyIf_effect _ (boundary_effect s _))
  | cycleTimerExpiry => exact key (exec_cycleTimerExpiry s) (expire_effect s)
  | settleEnd a => exact key (exec_settleEnd a s) (settleEnd_effect s a)
  | conversionComplete => exact key (exec_conversionComplete s) (conversionComplete_effect s)
  | samplePoint b => exact key (exec_samplePoint b s) (sample_effect s _)
  | bitBoundary b => exact key (exec_bitBoundary b s) (boundary_effect s _)
  | lrxdFallingEdge => exact key (exec_lrxdFallingEdge s) (boundary_effect s _)
  | sckEdge b m => exact key (exec_sckEdge b m s) (sckEdge_effect s b m)

/-- What one crystal period changes (log entry 4): timers, each within its bound, and LRXD; the queue apart. While RESETN is
low no timer runs (R165). -/
def TickEffect (s t : State) : Prop :=
  ∃ phase periods lrxd bitTimer convTimer cycleTimer commitTimer pending,
    t = { s with
      clock.phase := phase, clock.periods := periods
      line.lrxd := lrxd, line.bitTimer := bitTimer
      meas.timer := convTimer, sched.timer := cycleTimer, control.commitTimer := commitTimer, pending := pending } ∧
    (s.clock.phase < 8 → phase < 8) ∧
    (bitTimer = s.line.bitTimer ∨ s.line.engine ≠ .off ∧ bitTimer < bitPeriods s.image.settings.rate) ∧
    (convTimer = s.meas.timer ∨ s.meas.scan = .scanning) ∧
    (cycleTimer = s.sched.timer ∨ s.control.station.running = true ∧ cycleTimer < s.image.settings.cycleLength * 1000) ∧
    (commitTimer = s.control.commitTimer ∨ s.control.station = .committing ∧ commitTimer < 1000) ∧
    (s.held = true → bitTimer = s.line.bitTimer ∧ convTimer = s.meas.timer ∧ cycleTimer = s.sched.timer ∧
      commitTimer = s.control.commitTimer)

theorem State.tickLine_changes (s : State) (lv : Level) :
    ∃ bitTimer events, s.tickLine lv = ({ s with line.lrxd := lv, line.bitTimer := bitTimer }, events) ∧
      (bitTimer = s.line.bitTimer ∨ s.line.engine ≠ .off ∧ bitTimer < bitPeriods s.image.settings.rate) := by
  unfold State.tickLine
  dsimp only
  split
  · exact ⟨_, _, rfl, .inl rfl⟩
  rename_i ho
  split
  · exact ⟨_, _, rfl, .inl rfl⟩
  split
  · exact ⟨_, _, rfl, .inl rfl⟩
  split
  · exact ⟨_, _, rfl, .inl rfl⟩
  · rename_i h
    exact ⟨_, _, rfl, .inr ⟨ho, by omega⟩⟩

theorem State.tickConversion_changes (s : State) (a : AnalogLevels) :
    ∃ timer events, s.tickConversion a = ({ s with meas.timer := timer }, events) ∧
      (timer = s.meas.timer ∨ s.meas.scan = .scanning) := by
  unfold State.tickConversion
  split
  · rename_i h _ _
    split <;> exact ⟨_, _, rfl, .inr h⟩
  · rename_i h _ _
    split <;> exact ⟨_, _, rfl, .inr h⟩
  · exact ⟨_, _, rfl, .inl rfl⟩

theorem State.tickCycle_changes (s : State) :
    ∃ timer events, s.tickCycle = ({ s with sched.timer := timer }, events) ∧
      (timer = s.sched.timer ∨ s.control.station.running = true ∧ timer < s.image.settings.cycleLength * 1000) := by
  unfold State.tickCycle
  split
  · rename_i hr
    split
    · exact ⟨_, _, rfl, .inl rfl⟩
    · rename_i h
      exact ⟨_, _, rfl, .inr ⟨hr, by omega⟩⟩
  · exact ⟨_, _, rfl, .inl rfl⟩

theorem State.tickCommit_changes (s : State) :
    ∃ timer events, s.tickCommit = ({ s with control.commitTimer := timer }, events) ∧
      (timer = s.control.commitTimer ∨ s.control.station = .committing ∧ timer < 1000) := by
  unfold State.tickCommit
  split
  · rename_i hc
    split
    · exact ⟨_, _, rfl, .inl rfl⟩
    · rename_i h
      refine ⟨_, _, rfl, .inr ⟨hc, ?_⟩⟩
      have := Nat.mod_lt (Config.commitDelay s.clock.draws) (show 0 < 1000 by decide)
      omega
  · exact ⟨_, _, rfl, .inl rfl⟩

/-- One crystal period (log entry 4). -/
theorem State.tick_effect (s : State) : TickEffect s s.tick := by
  unfold State.tick
  generalize Config.lineLevel s.clock.periods = lv
  generalize Config.analogLevels s.clock.periods = a
  unfold State.tickWith
  dsimp only
  split
  · rename_i hs
    exact ⟨s.clock.phase, _, lv, _, _, _, _, _, rfl, id, .inl rfl, .inl rfl, .inl rfl, .inl rfl,
      fun _ => ⟨rfl, rfl, rfl, rfl⟩⟩
  · rename_i hs
    unfold State.tickTimers
    split
    · unfold State.tickMicro Due.andThen
      obtain ⟨d, e1, h1, hd⟩ := State.tickCycle_changes { s with clock.phase := 0 }
      obtain ⟨b, e2, h2, hb⟩ := State.tickLine_changes ({ s with clock.phase := 0, sched.timer := d } : State) lv
      obtain ⟨c, e3, h3, hc⟩ := State.tickConversion_changes
        ({ s with clock.phase := 0, sched.timer := d, line.lrxd := lv, line.bitTimer := b } : State) a
      obtain ⟨f, e4, h4, hf⟩ := State.tickCommit_changes
        ({ s with clock.phase := 0, sched.timer := d, line.lrxd := lv, line.bitTimer := b, meas.timer := c } : State)
      dsimp only at h1 h2 h3 h4 hb hc hd hf ⊢
      rw [h1]
      dsimp only
      rw [h2]
      dsimp only
      rw [h3]
      dsimp only
      rw [h4]
      exact ⟨0, _, lv, b, c, d, f, _, rfl, fun _ => by decide, hb, hc, hd, hf, fun h => absurd h hs⟩
    · rename_i hp
      obtain ⟨b, e1, h1, hb⟩ := State.tickLine_changes { s with clock.phase := s.clock.phase + 1 } lv
      dsimp only at h1 hb ⊢
      rw [h1]
      exact ⟨s.clock.phase + 1, _, lv, b, _, _, _, _, rfl, fun _ => by omega, hb, .inl rfl, .inl rfl, .inl rfl,
        fun h => absurd h hs⟩

/-- A step is one of the effects on the state with the rest of the queue, or one crystal period. -/
theorem step_effect {s t : State} (h : step s = .next t) :
    (∃ rest, Effect { s with pending := rest } t) ∨ s.pending = [] ∧ TickEffect s t := by
  unfold step at h
  split at h
  · rename_i hp
    injection h with h
    exact .inr ⟨hp, h ▸ s.tick_effect⟩
  · exact .inl ⟨_, exec_effect h⟩

end Sys2Proof.Machine
end

