-- ==== Sys2Proof/Laws/Image.lean ====
section
/-! SUPPORT. The round table as the blocks read it: its entries by index and by code. -/

namespace Sys2Proof.Machine

/-- In a list whose keys are all different, an element is known by its key. -/
theorem eq_of_key_nodup {α β : Type} (f : α → β) {l : List α} (h : (l.map f).Nodup) {a b : α} (ha : a ∈ l) (hb : b ∈ l)
    (e : f a = f b) : a = b := by
  rw [List.Nodup, List.pairwise_map] at h
  induction h with
  | nil => cases ha
  | cons hx _ ih =>
    rcases List.mem_cons.1 ha with ha' | ha'
    · rcases List.mem_cons.1 hb with hb' | hb'
      · rw [ha', hb']
      · exact absurd (ha' ▸ e) (hx b hb')
    · rcases List.mem_cons.1 hb with hb' | hb'
      · exact absurd (hb' ▸ e.symm) (hx a ha')
      · exact ih ha' hb'

/-- The entries with their indices, the indices dropped, are the entries. -/
theorem indexedEntries_map_snd (im : Image) : (indexedEntries im).map Prod.snd = imageEntries im := by
  unfold indexedEntries imageEntries
  rw [List.map_filterMap]
  have h : im.rounds.toList = (List.finRange 24).map fun n => im.rounds[n] := by
    apply List.ext_getElem <;> simp
  rw [h, List.filterMap_map]
  congr 1
  funext n
  simp

/-- The indices rise. -/
theorem indexedEntries_ascending (im : Image) : (indexedEntries im).Pairwise fun p q => p.1 < q.1 := by
  unfold indexedEntries
  rw [List.pairwise_filterMap]
  refine (List.pairwise_lt_finRange 24).imp ?_
  intro a b h x hx y hy
  simp at hx hy
  obtain ⟨_, _, rfl⟩ := hx
  obtain ⟨_, _, rfl⟩ := hy
  exact h

theorem mem_imageEntries_iff (im : Image) (e : RoundEntry) : e ∈ imageEntries im ↔ ∃ n, (n, e) ∈ indexedEntries im := by
  rw [← indexedEntries_map_snd]; simp

/-- A code found is the code of an entry. -/
theorem findRound_some {im : Image} {c : Code} {e : RoundEntry} (h : findRound im c = some e) :
    e ∈ imageEntries im ∧ e.code = c :=
  ⟨List.mem_of_find?_eq_some h, by simpa using List.find?_some h⟩

theorem findRound_none {im : Image} {c : Code} (h : findRound im c = none) : ∀ e ∈ imageEntries im, e.code ≠ c := by
  intro e he
  simpa using List.find?_eq_none.1 h e he

/-- With no code twice, an entry is found by its code (R49, R176). -/
theorem findRound_of_mem {im : Image} (hn : ((imageEntries im).map RoundEntry.code).Nodup) {e : RoundEntry}
    (he : e ∈ imageEntries im) : findRound im e.code = some e := by
  cases h : findRound im e.code with
  | none => exact absurd rfl (findRound_none h e he)
  | some x =>
    obtain ⟨h1, h2⟩ := findRound_some h
    rw [eq_of_key_nodup RoundEntry.code hn h1 he h2]

theorem isOnRequest_some {im : Image} {c : Code} (h : isOnRequest im c = true) :
    ∃ e ∈ imageEntries im, e.code = c ∧ e.schedule = .onRequest := by
  unfold isOnRequest at h
  split at h
  · rename_i e he
    obtain ⟨h1, h2⟩ := findRound_some he
    exact ⟨e, h1, h2, by simpa using h⟩
  · cases h

/-- With no code twice, an ON_REQUEST code is one that an ON_REQUEST entry holds. -/
theorem isOnRequest_iff {im : Image} (hn : ((imageEntries im).map RoundEntry.code).Nodup) (c : Code) :
    isOnRequest im c = true ↔ ∃ e ∈ imageEntries im, e.code = c ∧ e.schedule = .onRequest := by
  constructor
  · exact isOnRequest_some
  · rintro ⟨e, he, rfl, hs⟩
    unfold isOnRequest
    rw [findRound_of_mem hn he]
    simp [hs]

end Sys2Proof.Machine
end

