-- ==== Sys2Proof/Laws/Safety.lean ====
section
/-! SUPPORT. The safety properties of single entries at their starting values. -/

namespace Sys2Proof.Machine

/-- A trip rule's starting state is sound under every rule (R133, R148). -/
theorem ruleStateWf_start (rule : TripRule) : ruleStateWf rule {} :=
  ⟨fun _ => rfl, Nat.zero_le _, fun _ => rfl, fun h h' => absurd (Nat.le_zero.1 h') h, rfl, rfl⟩

/-- A peer entry's starting state is sound under every miss limit (R122, R130). -/
theorem peerWf_start (missLimit : Nat) (expected : Bool) : peerWf missLimit { expected } := ⟨rfl, rfl⟩

/-- An invalid slot result with its reset values is sound under every configuration (R93). -/
theorem slotResultWf_start (c : SlotConfig) : slotResultWf c {} := ⟨fun _ => rfl, fun h => absurd h (by decide)⟩

end Sys2Proof.Machine
end

