-- ==== Sys2Proof/Laws/Scan.lean ====
section
/-! SUPPORT. The scan engine: the slot a scan takes next, and what the beginning of a scan changes. -/

namespace Sys2Proof.Machine

/-- The first slot at or after a number that a scan takes (R80). -/
theorem nextTaken_eq_some {im : Image} {start : Nat} {n : Fin 16} :
    nextTaken im start = some n ↔ start ≤ n.val ∧ n.val < im.settings.scanLength ∧ im.slots[n].skip = false ∧
      ∀ m : Fin 16, start ≤ m.val → m < n → im.slots[m].skip = true := by
  unfold nextTaken
  constructor
  · intro h
    have hp := List.find?_some h
    simp only [Bool.and_eq_true, decide_eq_true_eq, Bool.not_eq_true'] at hp
    refine ⟨hp.1.1, hp.1.2, hp.2, fun m h1 h2 => ?_⟩
    obtain ⟨_, as, bs, hl, has⟩ := List.find?_eq_some_iff_append.1 h
    have hm : m ∈ as := by
      have : m ∈ as ++ n :: bs := hl ▸ List.mem_finRange m
      rcases List.mem_append.1 this with h | h
      · exact h
      · have hs := List.pairwise_lt_finRange 16
        rw [hl, List.pairwise_append] at hs
        rcases List.mem_cons.1 h with rfl | h
        · exact absurd h2 (Fin.lt_irrefl _)
        · exact absurd h2 (Fin.not_lt.2 (Fin.le_of_lt ((List.pairwise_cons.1 hs.2.1).1 m h)))
    have := has m hm
    simp only [Bool.not_eq_true', Bool.and_eq_false_iff, decide_eq_false_iff_not] at this
    rcases this with (h | h) | h
    · exact absurd h1 h
    · exact absurd (Nat.lt_trans h2 hp.1.2) h
    · cases hk : im.slots[m].skip with
      | true => rfl
      | false => rw [hk] at h; cases h
  · rintro ⟨h1, h2, h3, h4⟩
    rw [List.find?_eq_some_iff_append]
    refine ⟨by simp only [Bool.and_eq_true, decide_eq_true_eq, Bool.not_eq_true']; exact ⟨⟨h1, h2⟩, h3⟩,
      (List.finRange 16).take n.val, (List.finRange 16).drop (n.val + 1), ?_, ?_⟩
    · have hn : n.val < (List.finRange 16).length := by simp
      conv => lhs; rw [← List.take_append_drop n.val (List.finRange 16)]
      rw [List.drop_eq_getElem_cons hn]
      simp
    · intro a ha
      rw [List.mem_take_iff_getElem] at ha
      obtain ⟨i, hi, rfl⟩ := ha
      have hin : i < n.val := by omega
      have h16 : i < 16 := Nat.lt_trans hin n.isLt
      have he : (List.finRange 16)[i]'(by simpa using h16) = ⟨i, h16⟩ := by rw [List.getElem_finRange]; rfl
      rw [he]
      cases hs : decide (start ≤ i) with
      | false => rfl
      | true =>
        rw [h4 ⟨i, h16⟩ (of_decide_eq_true hs) hin, Bool.not_true, Bool.and_false]
        rfl

theorem nextTaken_eq_none {im : Image} {start : Nat} :
    nextTaken im start = none ↔
      ∀ m : Fin 16, start ≤ m.val → m.val < im.settings.scanLength → im.slots[m].skip = true := by
  unfold nextTaken
  rw [List.find?_eq_none]
  simp only [List.mem_finRange, Bool.and_eq_true, decide_eq_true_eq, Bool.not_eq_true', true_implies, not_and,
    Bool.not_eq_false, and_imp]

theorem State.beginScan_only (s : State) : s.beginScan = { s with meas := s.beginScan.meas } := by
  obtain ⟨_, _, _, _, _, h⟩ := s.beginScan_changes
  rw [h]

theorem State.beginScan_some {s : State} {n : Fin 16} (h : nextTaken s.image 0 = some n) : s.beginScan = s.convert n := by
  unfold State.beginScan
  rw [h]

theorem State.beginScan_none {s : State} (h : nextTaken s.image 0 = none) : s.beginScan = s.countScan.restScan .idle := by
  unfold State.beginScan
  rw [h]

theorem State.endScan_continuous {s : State} (h : s.image.settings.scanMode = .continuous) :
    s.endScan = s.countScan.beginScan := by
  unfold State.endScan
  rw [h]

theorem State.endScan_rest {s : State} (h : s.image.settings.scanMode ≠ .continuous) :
    s.endScan = s.countScan.restScan .idle := by
  unfold State.endScan
  split
  · exact absurd ‹_› h
  · rfl
  · rfl

theorem State.resume_continuous {s : State} (h : s.image.settings.scanMode = .continuous) : s.resume = s.beginScan := by
  unfold State.resume
  rw [h]

theorem State.resume_rest {s : State} (h : s.image.settings.scanMode ≠ .continuous) : s.resume = s.restScan .idle := by
  unfold State.resume
  split
  · exact absurd ‹_› h
  · rfl
  · rfl

/-- The anchor notice begins a scan from IDLE in ANCHORED mode, overruns one that runs, and else is no trigger (R78, R79). -/
theorem State.anchorTrigger_cases (s : State) :
    (s.image.settings.scanMode = .anchored → s.meas.scan = .idle → s.anchorTrigger = s.beginScan) ∧
    (s.image.settings.scanMode = .anchored → s.meas.scan = .scanning → s.anchorTrigger = s.overrun) ∧
    (s.image.settings.scanMode ≠ .anchored ∨ s.meas.scan = .stopped → s.anchorTrigger = s) := by
  unfold State.anchorTrigger
  refine ⟨fun h h' => by rw [h, h'], fun h h' => by rw [h, h'], fun h => ?_⟩
  split
  · simp_all
  · simp_all
  · rfl
  · rfl
  · rfl

end Sys2Proof.Machine
end

