-- ==== Sys2Proof/Laws/Sources.lean ====
section
/-! SUPPORT. The Source Unit: freshness, the flag word bit by bit, and the values of a group. -/

namespace Sys2Proof.Machine

theorem freshFor_iff (ref c : Word) : freshFor ref c = true ↔ c = ref ∨ c = ref - 1 := by
  simp [freshFor]

/-- A fresh result is valid and produced in the reference cycle or the one before it (R97). -/
theorem resultFresh_iff (ref : Word) (r : SlotResult) :
    resultFresh ref r = true ↔ r.valid = true ∧ (r.cycle = ref ∨ r.cycle = ref - 1) := by
  simp [resultFresh, freshFor_iff]

theorem State.someFresh_iff (s : State) (ref : Word) (l : LimitState) :
    s.someFresh ref l = true ↔ ∃ n : Fin 16, resultFresh ref s.meas.results[n] = true ∧ s.meas.results[n].limit = l := by
  unfold State.someFresh
  simp only [List.any_eq_true, List.mem_finRange, true_and, Bool.and_eq_true, beq_iff_eq]

/-- Each bit of the flag word is the held one at a held position, or the live one (R101, R102). -/
theorem State.flagWordFor_bit (s : State) (ref : Word) (k : Nat) :
    (s.flagWordFor ref).getLsbD k =
      ((s.source.flags.getLsbD k && heldFlags.getLsbD k) || (s.liveFlags ref).getLsbD k) := by
  unfold State.flagWordFor
  rw [BitVec.getLsbD_or, BitVec.getLsbD_and]

theorem getLsbD_maskIf (b : Bool) (m : Word) (k : Nat) : (if b = true then m else 0).getLsbD k = (b && m.getLsbD k) := by
  cases b <;> simp

/-- The live bits stand at positions 0, 1, 4 and 5 (R102). -/
theorem State.liveFlags_bit (s : State) (ref : Word) (k : Nat) :
    (s.liveFlags ref).getLsbD k =
      ((((s.someFresh ref .above && (0x0001 : Word).getLsbD k) || (s.someFresh ref .below && (0x0002 : Word).getLsbD k)) ||
        (s.tripOutput .trip0 && (0x0010 : Word).getLsbD k)) || (s.tripOutput .trip1 && (0x0020 : Word).getLsbD k)) := by
  unfold State.liveFlags
  simp only [BitVec.getLsbD_or]
  rw [getLsbD_maskIf, getLsbD_maskIf, getLsbD_maskIf, getLsbD_maskIf]

/-- No live bit stands at a held position (R102). -/
theorem State.liveFlags_held (s : State) (ref : Word) (k : Fin 16) (h : heldFlags.getLsbD k.val = true) :
    (s.liveFlags ref).getLsbD k.val = false := by
  have hk : ∀ j : Fin 16, heldFlags.getLsbD j.val = true →
      (0x0001 : Word).getLsbD j.val = false ∧ (0x0002 : Word).getLsbD j.val = false ∧
      (0x0010 : Word).getLsbD j.val = false ∧ (0x0020 : Word).getLsbD j.val = false := by decide
  obtain ⟨h0, h1, h4, h5⟩ := hk k h
  rw [s.liveFlags_bit, h0, h1, h4, h5]
  simp

/-- The values of a group are those of its fresh slots (R99). -/
theorem State.mem_groupValues (s : State) (ref : Word) (g : Fin 4) (v : Int) :
    v ∈ s.groupValues ref g ↔
      ∃ n : Fin 16, (s.image.slots[n].group = some g ∧ resultFresh ref s.meas.results[n] = true) ∧
        s.meas.results[n].corrected = v := by
  unfold State.groupValues
  rw [List.mem_map]
  simp only [List.mem_filter, List.mem_finRange, true_and, Bool.and_eq_true, beq_iff_eq]

theorem foldl_max_spec (l : List Int) (v : Int) :
    (l.foldl max v = v ∨ l.foldl max v ∈ l) ∧ v ≤ l.foldl max v ∧ ∀ x ∈ l, x ≤ l.foldl max v := by
  induction l generalizing v with
  | nil => simp
  | cons a l ih =>
    obtain ⟨h1, h2, h3⟩ := ih (max v a)
    rw [List.foldl_cons]
    refine ⟨?_, by omega, fun x hx => ?_⟩
    · rcases h1 with h1 | h1
      · rw [h1]
        by_cases h : a ≤ v
        · exact .inl (by omega)
        · have : max v a = a := by omega
          rw [this]
          exact .inr List.mem_cons_self
      · exact .inr (List.mem_cons_of_mem _ h1)
    · rcases List.mem_cons.1 hx with rfl | hx
      · omega
      · exact h3 x hx

theorem foldl_min_spec (l : List Int) (v : Int) :
    (l.foldl min v = v ∨ l.foldl min v ∈ l) ∧ l.foldl min v ≤ v ∧ ∀ x ∈ l, l.foldl min v ≤ x := by
  induction l generalizing v with
  | nil => simp
  | cons a l ih =>
    obtain ⟨h1, h2, h3⟩ := ih (min v a)
    rw [List.foldl_cons]
    refine ⟨?_, by omega, fun x hx => ?_⟩
    · rcases h1 with h1 | h1
      · rw [h1]
        by_cases h : v ≤ a
        · exact .inl (by omega)
        · have : min v a = a := by omega
          rw [this]
          exact .inr List.mem_cons_self
      · exact .inr (List.mem_cons_of_mem _ h1)
    · rcases List.mem_cons.1 hx with rfl | hx
      · omega
      · exact h3 x hx

/-- The largest value of a list with an element is an element and not below any. -/
theorem largest_spec {l : List Int} (h : l ≠ []) : ∃ v ∈ l, largest l = some v ∧ ∀ x ∈ l, x ≤ v := by
  cases l with
  | nil => exact absurd rfl h
  | cons a l =>
    obtain ⟨h1, h2, h3⟩ := foldl_max_spec l a
    refine ⟨_, ?_, rfl, fun x hx => ?_⟩
    · rcases h1 with h1 | h1
      · rw [h1]
        exact List.mem_cons_self
      · exact List.mem_cons_of_mem _ h1
    · rcases List.mem_cons.1 hx with rfl | hx
      · exact h2
      · exact h3 x hx

/-- The smallest value of a list with an element is an element and not above any. -/
theorem smallest_spec {l : List Int} (h : l ≠ []) : ∃ v ∈ l, smallest l = some v ∧ ∀ x ∈ l, v ≤ x := by
  cases l with
  | nil => exact absurd rfl h
  | cons a l =>
    obtain ⟨h1, h2, h3⟩ := foldl_min_spec l a
    refine ⟨_, ?_, rfl, fun x hx => ?_⟩
    · rcases h1 with h1 | h1
      · rw [h1]
        exact List.mem_cons_self
      · exact List.mem_cons_of_mem _ h1
    · rcases List.mem_cons.1 hx with rfl | hx
      · exact h2
      · exact h3 x hx

end Sys2Proof.Machine
end

