-- ==== Sys2Proof/Tests/Slice0.lean ====
section
/-! SUPPORT. Tests: the argument checks refuse an ill-formed command of each kind, the spec's worked examples come out as the
spec has them, and the hypotheses of every statement are met by a concrete state. -/

namespace Sys2Proof.Tests

open Sys2Proof Sys2Proof.Machine

-- One declaration after another: the many small evaluations below would each take a thread of their own.
set_option Elab.async false

/-! Ill-formed commands, one for each check. -/

theorem test_settings_wellFormed : (Instr.writeSettings (settingsFields defaultSettings)).wellFormed = true := by decide

theorem test_settings_address : (Instr.writeSettings { settingsFields defaultSettings with address := 32 }).wellFormed = false := by
  decide

theorem test_settings_rate : (Instr.writeSettings { settingsFields defaultSettings with rate := 4 }).wellFormed = false := by
  decide

theorem test_settings_cycleLength :
    (Instr.writeSettings { settingsFields defaultSettings with cycleLength := 251 }).wellFormed = false := by decide

theorem test_settings_alertMask :
    (Instr.writeSettings { settingsFields defaultSettings with alertMask := 0x1000 }).wellFormed = false := by decide

/-- A round entry: the anchor of the spec's examples, at code 0 with divisor 1. -/
def anchor0 : RoundEntry := { code := 0, kind := .anchor, schedule := .div1, source := .none, ring := false }

/-- A MAX of the user value at code 8 with divisor 1, its records kept in the ring. -/
def max8 : RoundEntry := { code := 8, kind := .max, schedule := .div1, source := .userValue, ring := true }

/-- A ROSTER at code 4 with divisor 4. -/
def roster4 : RoundEntry := { code := 4, kind := .roster, schedule := .div4, source := .none, ring := false }

/-- An ON_REQUEST ANY at code 20. -/
def any20 : RoundEntry := { code := 20, kind := .any, schedule := .onRequest, source := .flags, ring := false }

/-- A DIGEST at code 30 with divisor 16. -/
def digest30 : RoundEntry := { code := 30, kind := .digest, schedule := .div16, source := .none, ring := false }

/-- A trip rule on code 8: ABOVE 3600, P = 3, B = 4 (chapter 8's worked example, its post code 20 here). -/
def rule8 : TripRule :=
  { enabled := true, watched := 8, condition := .above, threshold := 3600, mask := 0, persistence := 3, blind := 4,
    output := .trip0, post := some 20 }

theorem test_round_index : (Instr.writeRound { roundFields 0 anchor0 with index := 24 }).wellFormed = false := by decide

theorem test_round_kind : (Instr.writeRound { roundFields 0 anchor0 with kind := 7 }).wellFormed = false := by decide

theorem test_round_schedule : (Instr.writeRound { roundFields 0 anchor0 with schedule := 3 }).wellFormed = false := by decide

theorem test_round_source : (Instr.writeRound { roundFields 0 anchor0 with source := 0x24 }).wellFormed = false := by decide

theorem test_round_ring : (Instr.writeRound { roundFields 0 anchor0 with ring := 2 }).wellFormed = false := by decide

theorem test_clear_index : (Instr.clearRound 24).wellFormed = false := by decide

theorem test_slot_minus : (Instr.writeSlot { slotFields 3 (defaultSlot 3) with minus := 3 }).wellFormed = false := by decide

theorem test_slot_offset : (Instr.writeSlot { slotFields 3 (defaultSlot 3) with offset := 4096 }).wellFormed = false := by decide

theorem test_slot_group : (Instr.writeSlot { slotFields 3 (defaultSlot 3) with group := 4 }).wellFormed = false := by decide

theorem test_slot_post : (Instr.writeSlot { slotFields 3 (defaultSlot 3) with post := 64 }).wellFormed = false := by decide

theorem test_rule_persistence : (Instr.writeTripRule { tripFields 0 rule8 with persistence := 9 }).wellFormed = false := by
  decide

theorem test_rule_condition : (Instr.writeTripRule { tripFields 0 rule8 with condition := 6 }).wellFormed = false := by decide

theorem test_results_count : (Instr.readResults 9).wellFormed = false := by decide

theorem test_latest_code : (Instr.readLatest 64).wellFormed = false := by decide

theorem test_peers_range : (Instr.readPeers 25 8).wellFormed = false ∧ (Instr.readPeers 24 8).wellFormed = true := by decide

theorem test_slots_range : (Instr.readSlots 9 8).wellFormed = false ∧ (Instr.readSlots 8 8).wellFormed = true := by decide

theorem test_post_code : (Instr.postRound 0xFF).wellFormed = false := by decide

theorem test_inject_raw : (Instr.inject 3 4096).wellFormed = false ∧ (Instr.inject 16 0).wellFormed = false := by decide

theorem test_clearTrip_rule : (Instr.clearTrip 8).wellFormed = false := by decide

theorem test_clearAlerts_mask : (Instr.clearAlerts 0x1000).wellFormed = false := by decide

theorem test_settle_span :
    (Instr.settleEnd { inputs := Vector.replicate 16 0, vrefp := 0, vrefn := 0 }).wellFormed = false := by decide

/-! The spec's worked examples. -/

/-- The check accumulator over the code field of code 5 (chapter 2). -/
theorem test_check_of_code5 :
    [false, false, false, true, false, true].foldl crc8Bit 0xFF = 0x66#8 := by decide

/-- The examples of R27's encoding. -/
theorem test_encoding_examples :
    encodeNumber .min (.number (-5)) = 32763 ∧ encodeNumber .max (.number (-5)) = 32772 ∧
    encodeNumber .min (.number 12) = 32780 ∧ encodeNumber .max (.number 12) = 32755 ∧
    encodeNumber .max (.number 3418) = 29349 := by decide

/-- The MAX record and the lapse of section 11.6's example as they leave the port. -/
theorem test_record_bytes :
    ringRecordBytes { seq := 20, record := { code := 8, kind := .max, outcome := .valid, cycle := 501,
                                             content := .extreme 3418 9 false false } } =
      [0x00, 0x14, 0x08, 0x21, 0x01, 0xF5, 0x0D, 0x5A, 0x09] ∧
    ringRecordBytes { seq := 21, record := { code := 8, kind := .max, outcome := .lapsed, cycle := 502,
                                             content := .reason .cycleEnd } } =
      [0x00, 0x15, 0x08, 0x26, 0x01, 0xF6, 0x00] := by decide

/-- The pending sets of section 11.8's example. -/
theorem test_pending_bytes :
    pendingBytes { scheduled := [currentEntry 0, currentEntry 8]
                   adhoc := [{ code := 20, origin := .command, retries := 2, age := 1 }] } =
      [2, 0, 0, 8, 0, 1, 0x14, 0x12] := by decide

/-- A round table of five entries. -/
def table : Vector (Option RoundEntry) 24 :=
  ((((Vector.replicate 24 none).set 0 (some max8)).set 3 (some any20)).set 5 (some anchor0)).set 6 (some roster4)
    |>.set 23 (some digest30)

/-- An image over that table, its cycle 10 ms at rate code 2, the station at address 5, with one trip rule. -/
def image : Image :=
  { defaultImage with
    settings := { defaultSettings with address := 5, expected := 0x224 }
    rounds := table, rules := defaultImage.rules.set 0 rule8 }

/-- The bytes of the digest example of section 10.2. -/
theorem test_digest_bytes :
    digestBytes image = [2, 10, 0, 0, 1, 4, 1, 4, 8, 2, 1, 20, 4, 0, 30, 6, 16] := by decide

/-- The image passes validation. -/
theorem test_image_valid : validate image = none := by decide +kernel

/-- The schedule time of the anchor, a ROSTER, a MAX and a DIGEST at 4 µs. -/
theorem test_schedule_time : scheduleMicros image = (45 + 54 + 60 + 62) * 4 := by decide

/-- The first failure of section 10.2's worked example: a MAX whose source is FLAGS. -/
theorem test_bad_source :
    validate { image with rounds := table.set 0 (some { max8 with source := .flags }) } =
      some { reason := .badSource, item := .round 0 } := by decide +kernel

/-- The second: a post code with a divisor. -/
theorem test_bad_post :
    validate { image with slots := image.slots.set 3 { defaultSlot 3 with post := some 8 } } =
      some { reason := .badPostCode, item := .slot 3 } := by decide +kernel

/-- Slot 3 of chapter 4's worked example. -/
def shunt : SlotConfig :=
  { plus := 3, minus := some 4, settle := 1, offset := 2048, low := -1500, high := 1500, crossing := .both, band := 20,
    group := none, post := some 20, skip := false }

/-- The run of samples of chapter 4's worked example, to its last write. -/
theorem test_slot_samples :
    let w (r : SlotResult) (raw : Raw) := r.write shunt raw 7 false
    let r4 := w (w (w (w {} 2060) 2100) 2030) 2010
    let r5 := w r4.read 3600
    let r7 := w (w r5 3700) 500
    (r4.corrected, r4.limit, r4.side, r4.crossing, r4.ready) = (-38, .within, .neg, true, true) ∧
    (r5.corrected, r5.limitEvent, r5.side, r5.crossing) = (1552, true, .pos, true) ∧
    (r7.corrected, r7.limit, r7.limitEvent, r7.side) = (-1548, .below, true, .neg) := by decide

/-- The saturation example of R83. -/
theorem test_saturation :
    correctedOf { shunt with offset := -200 } 4000 = 4095 ∧ saturates { shunt with offset := -200 } 4000 = true ∧
    correctedOf { shunt with offset := -200 } 3800 = 4000 ∧ saturates { shunt with offset := -200 } 3800 = false := by decide

/-- A VALID record of code 8 in a cycle. -/
def valid8 (cycle : Word) (v : Int) : Record :=
  { code := 8, kind := .max, outcome := .valid, cycle, content := .extreme v 9 false false }

/-- The run of outcomes of chapter 8's worked example, from cycle 204 to the latch. -/
theorem test_trip_run :
    let run (r : RuleState) (c : Word) (v : Int) := (r.takeBoundary rule8 c).takeOutcome rule8 0 (valid8 c v)
    run (run (run { blind := 1 } 204 3620) 205 3630) 206 3641 =
      { status := .tripped, persistence := 3, blind := 0
        data := some { reason := .condition, cycle := 206, value := .extreme 3641 9 } } := by decide

/-- The trip by blind time of chapter 8's worked example. -/
theorem test_trip_blind :
    (((({} : RuleState).takeBoundary rule8 301).takeBoundary rule8 302).takeBoundary rule8 303).takeBoundary rule8 304 =
      { status := .tripped, blind := 4, data := some { reason := .blind, cycle := 304, value := .none } } := by decide

/-- Entry 9 of chapter 7's worked example, from the roster of cycle 102 to its return in cycle 106. -/
theorem test_peer_run :
    let gone (p : Peer) (c : Word) := p.afterRoster false c 3
    let p : Peer := { state := .present, lastSeen := 101, expected := true }
    gone (gone (gone p 102) 103) 104 = { state := .lost, absence := 3, lastSeen := 101, expected := true } ∧
    (gone (gone (gone (gone p 102) 103) 104) 105).afterRoster true 106 3 =
      { state := .present, lastSeen := 106, expected := true } := by decide

/-- A starter of code 5 that meets code 3: it joins at the fourth code bit (chapter 2). -/
theorem test_code_contention :
    let r := openRound .active true 5 0
    let t := [Level.low, .low, .low, .low].foldl (fun x b => match x.field with
      | some f => x.takeBit f b false false 2 0
      | none => x) r
    t.role = .joiner ∧ t.codeRead = 0 ∧ t.pos = 4 := by decide

/-! Whole commands on small states. -/

/-- A station in CONFIG with the image written. -/
def written : State := { image }

/-- A station that runs on the image, in a station state and a line engine state, with the latest table and the digest of
its image. -/
def live (station : StationState) (engine : LineEngine) : State :=
  { image
    line := { engine }
    sched := { cycle := 7, scheduled := scheduledAtCommit image }
    meas := { scan := .idle }
    store := { latest := latestAtCommit image }
    peers := peersAtCommit image.settings.expected
    control := { station, digest := digestOf image } }

/-- A running station with a round in a phase, of a code and kind. -/
def inRound (role : Role) (phase : Phase) (code : Code) (kind : Kind) : State :=
  { live .active .round with round := { phase, role, codeRead := code, kind, cycle := 7 } }

/-- A frame with a damaged check byte leaves BAD_FRAME (R181). -/
theorem test_bad_frame :
    judgeRequest [0x01, 0x00, crc8 [0x01, 0x00] ^^^ 1] = none ∧ judgeRequest [0x01, 0x00, crc8 [0x01, 0x00], 7] = some (1, []) := by
  decide +kernel

/-- A command byte of no command (R186). -/
theorem test_unknown_command : (State.reset.takeRequest 0x7F []).port.slot.status = .unknownCommand := by decide

/-- The COMMIT of the written image enters COMMITTING. -/
theorem test_commit : (written.takeCommit (some ())).control.station = .committing := by decide +kernel

/-- The COMMIT of the default image is refused: NO_ANCHOR. -/
theorem test_commit_refused : (State.reset.takeCommit (some ())).port.slot.status = .imageInvalid := by decide +kernel

/-- No word spells a command: the table gives no row bits. -/
theorem test_no_words : decodeTableWord 8 0 = none := by decide

/-! The hypotheses of the statements, met together by a concrete state; a statement of several clauses has a conjunct for
each. -/

/-- A converting station at the last period of a µs, its timers where each condition of the statement is met or missed by
one. -/
theorem test_meets_IdleStepPassesOnePeriod :
    let s := { live .active .idle with
      clock.phase := 7, meas.scan := .scanning, meas.position := some 0, line.lrxd := .high, line.bitTimer := 19
      sched.timer := 9999 }
    State.reset.pending = [] ∧ State.reset.hardReset.held = true ∧ s.held = false ∧ s.pending = [] ∧
    s.control.station.running = true ∧ s.image.settings.cycleLength * 1000 ≤ s.sched.timer + 1 ∧
    ({ s with sched.timer := 9998 }).sched.timer + 1 < s.image.settings.cycleLength * 1000 ∧
    s.line.bitTimer + 1 = samplePeriods s.image.settings.rate ∧
    bitPeriods s.image.settings.rate ≤ ({ s with line.bitTimer := 31 }).line.bitTimer + 1 ∧
    ({ s with line.bitTimer := 30 }).line.bitTimer + 1 < bitPeriods s.image.settings.rate ∧
    State.reset.line.engine = .off ∧
    s.meas.held = none ∧ s.meas.timer + 1 < 2 * 4 ^ s.image.slots[0].settle.val ∧
    2 * 4 ^ s.image.slots[0].settle.val ≤ ({ s with meas.timer := 7 }).meas.timer + 1 ∧
    2 * 4 ^ s.image.slots[0].settle.val + 14 ≤ ({ s with meas.timer := 21, meas.held := some 0 }).meas.timer + 1 ∧
    ({ written with control.station := .committing, control.commitTimer := 999 }).control.station = .committing := by
  decide +kernel

theorem test_meets_ExecKeepsTheQueue : ∃ t, exec .nop State.reset = .next t := ⟨_, rfl⟩

theorem test_meets_ResetsSetEveryBlock : State.reset.hardReset.held = true ∧ (live .silent .stuck).held = false := by
  decide +kernel

theorem test_meets_NopAndStatusAnswer :
    State.reset.held = false ∧ (live .active .idle).control.station.running = true ∧
    State.reset.control.station.running = false ∧ State.reset.source.userValue = none ∧
    ({ live .active .idle with source.userValue := some { value := -5, cycle := 6 } }).source.userValue =
      some { value := -5, cycle := 6 } := by decide +kernel

theorem test_meets_StationGatesCommands :
    configCommand .commit = true ∧ runCommand .readTrips = true ∧ everyStateCommand .nop = true ∧
    State.reset.hardReset.held = true ∧ (live .committing .off).control.station = .committing ∧
    (live .silent .idle).control.station.running = true ∧ State.reset.control.station = .config := by decide +kernel

/-- Operands at both sides of every bound. -/
theorem test_meets_IllFormedIsBadArgument :
    State.reset.configuring ∧ (live .joining .recover).runs ∧
    (Instr.clearRound 24).wellFormed = false ∧ configCommand (.clearRound 24) = true ∧
    (Instr.readResults 0).wellFormed = false ∧ runCommand (.readResults 0) = true ∧
    (Instr.clearRound 23).wellFormed = true ∧ (Instr.readResults 8).wellFormed = true ∧
    (Instr.readLatest 63).wellFormed = true ∧ (Instr.postRound 63).wellFormed = true ∧ (Instr.clearTrip 7).wellFormed = true ∧
    (Instr.readPeers 31 1).wellFormed = true ∧ (Instr.readPeers 31 2).wellFormed = false ∧
    (Instr.readSlots 15 1).wellFormed = true ∧ (Instr.readSlots 15 2).wellFormed = false ∧
    (Instr.inject 15 4095).wellFormed = true ∧ (Instr.clearAlerts 0x0FFF).wellFormed = true :=
  ⟨⟨rfl, rfl⟩, ⟨rfl, rfl⟩, by decide, rfl, by decide, rfl, by decide, by decide, by decide, by decide, by decide, by decide,
    by decide, by decide, by decide, by decide, by decide⟩

/-- Records at the ends of their ranges. -/
theorem test_meets_WriteSettingsReplacesTheRecord :
    State.reset.configuring ∧ settingsInRange defaultSettings ∧
    settingsInRange { defaultSettings with cycleLength := 250, missLimit := 15, ringThreshold := 32, scanLength := 16 } ∧
    (∀ r, settingsInRange r → settingsFields r ≠ { settingsFields defaultSettings with rate := 4 }) := by
  refine ⟨⟨rfl, rfl⟩, by unfold settingsInRange; decide, by unfold settingsInRange; decide, fun r _ h => ?_⟩
  have h2 : numByte r.rate.val = 4#8 := congrArg SettingsArgs.rate h
  have h3 : ∀ q : Fin 4, numByte q.val ≠ 4#8 := by decide
  exact h3 _ h2

theorem test_meets_EntryWritesReplaceOneEntry :
    State.reset.configuring ∧ slotInRange (defaultSlot 15) ∧ slotInRange { shunt with low := -4096, high := 4095, band := 255 } ∧
    ruleInRange rule8 ∧ ruleInRange { rule8 with threshold := -32768, persistence := 8, blind := 15 } ∧
    (∀ n e, roundFields n e ≠ { roundFields 0 anchor0 with index := 24 }) ∧
    (∀ n c, slotInRange c → slotFields n c ≠ { slotFields 0 (defaultSlot 0) with settle := 4 }) ∧
    (∀ n r, ruleInRange r → tripFields n r ≠ { tripFields 0 rule8 with index := 8 }) := by
  refine ⟨⟨rfl, rfl⟩, by unfold slotInRange slotNumberInRange; decide, by unfold slotInRange slotNumberInRange; decide,
    by unfold ruleInRange; decide, by unfold ruleInRange; decide, fun n e h => ?_, fun n c _ h => ?_, fun n r _ h => ?_⟩
  · have h2 : numByte n.val = 24#8 := congrArg RoundArgs.index h
    exact (by decide : ∀ q : Fin 24, numByte q.val ≠ 24#8) _ h2
  · have h2 : numByte c.settle.val = 4#8 := congrArg SlotArgs.settle h
    exact (by decide : ∀ q : Fin 4, numByte q.val ≠ 4#8) _ h2
  · have h2 : numByte n.val = 8#8 := congrArg TripArgs.index h
    exact (by decide : ∀ q : Fin 8, numByte q.val ≠ 8#8) _ h2

theorem test_meets_ClearRoundRemovesTheEntry :
    written.configuring ∧ (23#8).toNat < 24 ∧ 24 ≤ (24#8).toNat ∧ written.image.rounds[1] = none :=
  ⟨⟨rfl, rfl⟩, by decide, by decide, by decide⟩

theorem test_meets_CommitEntersCommitting :
    written.configuring ∧ validate written.image = none ∧ State.reset.configuring ∧
    validate State.reset.image = some { reason := .noAnchor, item := .none } ∧
    validate { image with slots := image.slots.set 3 { shunt with low := 9, high := 8 } } =
      some { reason := .badLimits, item := .slot 3 } ∧
    validate { image with rules := image.rules.set 7 { rule8 with watched := 63 } } =
      some { reason := .badTrip, item := .trip 7 } ∧
    validate { image with settings := { image.settings with rate := 0, cycleLength := 1 } } =
      some { reason := .scheduleTooLong, item := .none } :=
  ⟨⟨rfl, rfl⟩, by decide +kernel, ⟨rfl, rfl⟩, by decide +kernel, by decide +kernel, by decide +kernel, by decide +kernel⟩

/-- An image with three failures. -/
def bad : Image :=
  { image with
    rounds := (table.set 0 (some { max8 with source := .flags })).set 1 (some { anchor0 with code := 1 })
    slots := image.slots.set 3 { shunt with low := 9, high := 8 } }

theorem test_bad_anchor : ∀ j : Fin 24, j < 5 → bad.rounds[j].map RoundEntry.kind = some .anchor → j = 1 := by
  decide +kernel

/-- The first in the table's order is reported. -/
theorem test_meets_ValidationAcceptsExactly :
    validate bad = some { reason := .twoAnchors, item := .round 5 } ∧ checkFails bad .twoAnchors (.round 5) ∧
    checkFails bad .badSource (.round 0) ∧ checkFails bad .badLimits (.slot 3) ∧ validate image = none := by
  refine ⟨by decide +kernel, ⟨⟨anchor0, rfl, rfl⟩, 1, by decide, ⟨_, rfl, rfl⟩, fun j h ⟨e, he, hk⟩ => ?_⟩,
    ⟨⟨_, rfl, .inr rfl⟩, fun m h => absurd h (Nat.not_lt_zero m.val)⟩, by unfold checkFails lowestAt; decide +kernel,
    by decide +kernel⟩
  exact test_bad_anchor j h (by rw [he, ← hk]; rfl)

theorem test_meets_CommitCompleteStartsTheBlocks :
    State.reset.held = false ∧ State.reset.control.station ≠ .committing ∧
    ({ written with control.station := .committing }).control.station = .committing ∧
    written.image.settings.scanMode ≠ .continuous ∧
    (let s := { written with control.station := .committing, image.settings.scanMode := .continuous }
     s.held = false ∧ s.control.station = .committing ∧ s.image.settings.scanMode = .continuous ∧
     firstTaken s.image 0 0) :=
  ⟨rfl, by decide, rfl, by decide, rfl, rfl, rfl, by unfold firstTaken; decide +kernel⟩

/-- The entries in ascending code; and the order of the indices does not count. -/
theorem test_meets_DigestTakesTheSharedPart :
    let b : Image := { image with rounds := table.swap 0 6 }
    let entries := [anchor0, roster4, max8, any20, digest30]
    entries.Perm (imageEntries image) ∧ (entries.map RoundEntry.code).Pairwise (· < ·) ∧
    image.settings.rate = b.settings.rate ∧ image.settings.cycleLength = b.settings.cycleLength ∧
    ((imageEntries image).map RoundEntry.code).Nodup ∧
    ((imageEntries image).map fun e => (e.code, e.kind, e.schedule)).Perm
      ((imageEntries b).map fun e => (e.code, e.kind, e.schedule)) := by decide +kernel

theorem test_meets_ReadResultsRemovesTheOldest :
    (live .active .idle).runs ∧ 1 ≤ (1#8).toNat ∧ (8#8).toNat ≤ 8 := ⟨⟨rfl, rfl⟩, by decide, by decide⟩

/-- A ring of some number of records. -/
def filled (n : Nat) : State := { live .active .idle with store.ring := List.replicate n { seq := 1, record := valid8 7 5 } }

theorem test_meets_RingTakesOffers :
    (filled 31).store.ring.length < 32 ∧ (filled 23).store.ring.length + 1 = (filled 23).image.settings.ringThreshold ∧
    (filled 32).store.ring.length = 32 ∧ (filled 32).image.settings.ringPolicy = .keepNewest ∧
    (filled 32).control.station.running = true ∧
    (let s := { filled 32 with image.settings.ringPolicy := .keepOldest }
     s.store.ring.length = 32 ∧ s.image.settings.ringPolicy = .keepOldest) := by decide +kernel

theorem test_meets_LatestTableFollowsOutcomes :
    (live .active .idle).runs ∧ (live .active .idle).latestOf 8 = some { code := 8, kind := .max } ∧
    ∀ e ∈ (live .active .idle).store.latest, e.code.setWidth 8 ≠ 63#8 := ⟨⟨rfl, rfl⟩, by decide +kernel, by decide +kernel⟩

theorem test_meets_PeerTableFollowsRecords :
    (valid8 7 5).outcome = .valid ∧ (valid8 7 5).content = .extreme 5 9 false false ∧
    ({ valid8 7 5 with content := .set 0x20 }).content = .set 0x20 ∧ (0x20#32).getLsbD 5 = true ∧
    (live .active .idle).peers.entries[9].expected = true ∧ (live .active .idle).peers.entries[9].state = .unknown ∧
    (live .active .idle).peers.entries[0].expected = false ∧ ({ valid8 7 5 with outcome := .empty }).outcome ≠ .valid ∧
    ({ valid8 7 5 with content := .word 3 }).content = .word 3 ∧
    (let q := { (inRound .joiner .objection 0 .anchor).round with presence := true }
     q.kind = .anchor ∧ (q.recordOf .high).outcome = .valid ∧ (q.recordOf .high).content = .count 0xFFFF) := by decide +kernel

theorem test_meets_PostsReachTheAdHocSet :
    (live .active .idle).runs ∧ isOnRequest image 20 = true ∧ holdsAdhoc (live .active .idle).sched.adhoc 20 = false ∧
    (live .active .idle).sched.adhoc.length < 8 ∧ holdsAdhoc [newAdhoc .slot 20] 20 = true ∧
    holdsAdhoc (List.replicate 8 (newAdhoc .slot 21)) 20 = false ∧ 8 ≤ (List.replicate 8 (newAdhoc .slot 21)).length ∧
    ∀ d : Code, isOnRequest image d = true → d.setWidth 8 ≠ 8#8 :=
  ⟨⟨rfl, rfl⟩, by decide +kernel, by decide +kernel, by decide +kernel, by decide, by decide, by decide, by decide +kernel⟩

theorem test_meets_ScanCommandsMoveTheEngine :
    (live .active .idle).runs ∧ (live .active .idle).meas.scan = .idle ∧ firstTaken image 0 0 ∧
    (let im : Image := { image with settings := { image.settings with scanLength := 1 }
                                    slots := image.slots.set 0 { defaultSlot 0 with skip := true } }
     ({ live .active .idle with image := im }).runs ∧ noneTaken im 0) :=
  ⟨⟨rfl, rfl⟩, rfl, by unfold firstTaken; decide +kernel, ⟨rfl, rfl⟩, by unfold noneTaken; decide +kernel⟩

theorem test_meets_InjectWritesASample :
    (live .active .idle).runs ∧ (live .active .idle).meas.scan ≠ .stopped ∧
    ({ live .active .idle with meas.scan := .stopped }).runs := ⟨⟨rfl, rfl⟩, by decide +kernel, rfl, rfl⟩

/-- A limit event whose post finds room, and one whose post meets a full set. -/
theorem test_meets_InjectWritesASample_post :
    let s := { live .active .idle with meas.scan := .stopped, image.slots := image.slots.set 3 shunt }
    let full := { s with sched.adhoc := List.replicate 8 { code := 63, origin := .command, retries := 0, age := 0 } }
    ((s.writeSample 3 3600 true).meas.results[3]).limitEvent = true ∧ s.image.slots[3].post = some 20 ∧
    holdsAdhoc s.sched.adhoc 20 = false ∧ s.sched.adhoc.length < 8 ∧
    ((full.writeSample 3 3600 true).meas.results[3]).limitEvent = true ∧ full.image.slots[3].post = some 20 ∧
    holdsAdhoc full.sched.adhoc 20 = false ∧ 8 ≤ full.sched.adhoc.length := by decide +kernel

/-- A station converting slot 0. -/
def converting (held : Option Raw) : State :=
  { live .active .idle with meas.scan := .scanning, meas.position := some 0, meas.held := held }

/-- An input between the references, at each of them, and at its minus input; and a span that is not positive. -/
theorem test_meets_SettleEndTakesTheLevel :
    let pins (v low high : Int) : AnalogLevels := { inputs := Vector.replicate 16 v, vrefp := high, vrefn := low }
    let a := pins 1000 0 4095
    (converting none).held = false ∧ a.vrefn < a.vrefp ∧ (converting none).meas.scan = .scanning ∧
    (converting none).meas.position = some 0 ∧ (converting none).meas.held = none ∧
    (converting none).image.slots[0].minus = none ∧ (converting none).image.slots[0].plus = 0 ∧
    a.vrefn ≤ a.inputs[0] ∧ a.inputs[0] ≤ a.vrefp ∧
    rawOf (defaultSlot 0) a = some 1000 ∧ rawOf (defaultSlot 0) (pins 0 0 4095) = some 0 ∧
    rawOf (defaultSlot 0) (pins 4095 0 4095) = some 4095 ∧
    ({ converting none with image.slots := image.slots.set 0 { defaultSlot 0 with minus := some 4 } }).image.slots[0].minus =
      some 4 ∧
    2 * (a.vrefp - a.vrefn) * 0 ≤ 2 * 2048 * (a.inputs[0] - a.inputs[4]) + (a.vrefp - a.vrefn) ∧
    2 * 2048 * (a.inputs[0] - a.inputs[4]) + (a.vrefp - a.vrefn) < 2 * (a.vrefp - a.vrefn) * (0 + 1) ∧
    (pins 5 7 7).vrefp ≤ (pins 5 7 7).vrefn ∧ rawOf (defaultSlot 0) (pins 5 7 7) = some 0 ∧
    rawOf (defaultSlot 0) (pins 9 7 7) = some 4095 ∧ rawOf (defaultSlot 0) (pins 7 7 7) = none ∧
    rawOf { defaultSlot 0 with minus := some 4 } (pins 7 7 7) = some 2048 ∧
    (live .active .idle).meas.scan ≠ .scanning := by decide +kernel

theorem test_meets_ConversionCompleteWritesAndMovesOn :
    (converting (some 5)).held = false ∧ (converting (some 5)).meas.scan = .scanning ∧
    (converting (some 5)).meas.held = some 5 ∧ (converting none).meas.held = none ∧ firstTaken image 1 1 ∧
    noneTaken image 16 :=
  ⟨rfl, rfl, rfl, rfl, by unfold firstTaken; decide +kernel, by unfold noneTaken; decide +kernel⟩

theorem test_meets_SourceCommandsWriteTheirPart : (live .joining .recover).runs := ⟨rfl, rfl⟩

/-- A station whose slot 3 holds a fresh result in group 1, above its limits. -/
def measured : State :=
  { live .active .idle with
    meas.results := (Vector.replicate 16 {}).set 3 { valid := true, corrected := 9, cycle := 6, limit := .above }
    image.slots := image.slots.set 3 { shunt with group := some 1 }
    source.userValue := some { value := 4, cycle := 7 } }

theorem test_meets_SourcesGiveFreshValues :
    measured.sourceValue 7 (.slot 3) = some (.number 9) ∧ measured.sourceValue 9 (.slot 3) = none ∧
    measured.sourceValue 7 (.groupMax 1) = some (.number 9) ∧ measured.sourceValue 7 (.groupMin 0) = none ∧
    measured.sourceValue 8 .userValue = some (.number 4) := by decide +kernel

/-- The state of a TRIPPED rule. -/
def latched : RuleState :=
  { status := .tripped, persistence := 3, data := some { reason := .condition, cycle := 6, value := .none } }

/-- A station with rule 0 TRIPPED, its code 8 last VALID with a value. -/
def tripped (v : Int) : State :=
  { live .active .idle with
    trip := (Vector.replicate 8 {}).set 0 latched
    store.latest := [{ code := 8, kind := .max, last := some .valid, content := .extreme v 9 false false }] }

theorem test_tripped_others :
    ∀ n : Fin 8, n = 0 ∨ ((Vector.replicate 8 ({} : RuleState)).set 0 latched)[n] = {} := by decide

/-- The TRIPPED station's rules are sound. -/
theorem test_sound_trips (v : Int) : (tripped v).TripsSound := by
  intro n
  cases test_tripped_others n with
  | inl h =>
    subst h
    exact (⟨fun h => Bool.noConfusion h, Nat.zero_le _, fun h => absurd h (by decide), fun _ _ => rfl, Nat.le_refl 3, rfl⟩ :
      ruleStateWf rule8 latched)
  | inr h =>
    change ruleStateWf _ ((Vector.replicate 8 ({} : RuleState)).set 0 latched)[n]
    rw [h]
    exact ruleStateWf_start _

/-- Ranges at their ends, and a station with a TRIPPED rule and one that is not. -/
theorem test_meets_TableReadsAnswer :
    (tripped 3601).runs ∧ (24#8).toNat + (8#8).toNat ≤ 32 ∧ (8#8).toNat + (8#8).toNat ≤ 16 ∧ 1 ≤ (8#8).toNat ∧
    (tripped 3601).TripsSound ∧ (tripped 3601).trip[1].status ≠ .tripped ∧ (tripped 3601).trip[1].data = none ∧
    (tripped 3601).trip[0].data = some { reason := .condition, cycle := 6, value := .none } :=
  ⟨⟨rfl, rfl⟩, by decide, by decide, by decide, test_sound_trips _, by decide +kernel, by decide +kernel, by decide +kernel⟩

/-- Its reason stands at 3601 and not at 3600. -/
theorem test_meets_ClearTripUnlatches :
    (tripped 3601).runs ∧ (tripped 3601).TripsSound ∧ (tripped 3600).TripsSound ∧
    (tripped 3601).trip[0].status = .tripped ∧ (tripped 3601).trip[1].status ≠ .tripped ∧
    (tripped 3601).reasonStands 0 = true ∧ (tripped 3600).reasonStands 0 = false :=
  ⟨⟨rfl, rfl⟩, test_sound_trips _, test_sound_trips _,
    by decide +kernel, by decide +kernel, by decide +kernel, by decide +kernel⟩

theorem test_meets_TripRulesThroughRecords :
    rule8.enabled = true ∧ rule8.watched = (valid8 7 5).code ∧ (valid8 7 5).outcome = .valid ∧
    ({ valid8 7 5 with outcome := .empty }).outcome = .empty ∧ ({} : RuleState).status ≠ .tripped ∧
    ({ status := .tripped } : RuleState).status = .tripped ∧ ({ rule8 with enabled := false }).enabled = false ∧
    rule8.watched ≠ ({ valid8 7 5 with code := 9 }).code := by decide

theorem test_meets_TripRulesLatch :
    rule8.enabled = true ∧ rule8.watched = (valid8 7 3601).code ∧ rule8.blind ≠ 0 ∧ ({ rule8 with blind := 0 }).blind = 0 ∧
    conditionHolds rule8 0 .valid (valid8 7 3601).content = true ∧ conditionHolds rule8 0 .valid (valid8 7 3600).content = false ∧
    ({ status := .counting, persistence := 2 } : RuleState).persistence + 1 = rule8.persistence ∧
    min 15 (({ blind := 3 } : RuleState).blind + 1) = rule8.blind ∧
    ({ rule8 with condition := .below }).condition = .below ∧
    conditionHolds { rule8 with condition := .maskSet, mask := 0x8001 } 0 .valid (.word 1) = true ∧
    conditionHolds { rule8 with condition := .maskClear, mask := 0x8001 } 0 .valid (.word 0x8001) = false ∧
    conditionHolds { rule8 with condition := .rosterShort } 0x224 .valid (.set 0x220) = true ∧
    conditionHolds { rule8 with condition := .disagree } 0 .disagree (.digest 5 true) = true := by decide

theorem test_meets_TripOutputsFollowTheRules :
    State.reset.BlocksFollowStation ∧ (tripped 3601).BlocksFollowStation ∧ (tripped 3601).tripOutput .trip0 = true :=
  ⟨⟨fun _ => by decide +kernel, fun h => absurd h (by decide)⟩, ⟨fun h => absurd h (by decide), fun _ => by decide⟩,
    by decide +kernel⟩

theorem test_meets_ClearAlertsAndAlertn :
    (filled 24).runs ∧ (filled 24).alertCauses.getLsbD 7 = true ∧ (filled 24).alertn = .low ∧ (filled 23).alertn = .high :=
  ⟨⟨rfl, rfl⟩, by decide +kernel, by decide +kernel, by decide +kernel⟩

/-- The rows of R55's table: the anchor in flight, a round in flight that is due and one that is not, and one in flight with
no scheduled entry; entries that lapse; and a JOINING station. -/
theorem test_meets_ExpiryOpensANewCycle :
    let s := inRound .joiner .body 0 .anchor
    let r := inRound .joiner .check 4 .roster
    s.runs ∧ (live .joining .idle).control.station = .joining ∧ s.control.station ≠ .joining ∧
    s.round.inFlight = some (0, .anchor) ∧ isInFlight s.round.inFlight 8 = false ∧
    (s.sched.scheduled.find? fun x => x.code == 0) = some (currentEntry 0) ∧ anchor0 ∈ imageEntries s.image ∧
    (inRound .joiner .body 8 .max).round.inFlight = some (8, .max) ∧ max8.schedule = .div1 ∧
    r.runs ∧ r.round.codeRead = 4 ∧ roster4.schedule = .div4 ∧ (r.sched.cycle + 1).toNat % 4 = 0 ∧
    ({ r with sched.cycle := 8 }).sched.cycle.toNat % 4 = 0 ∧ (({ r with sched.cycle := 8 }).sched.cycle + 1).toNat % 4 = 1 ∧
    ({ r with sched.scheduled := [] }).sched.scheduled.find? (fun x : SchedEntry => x.code == 4) = none ∧
    (let l := { live .active .idle with sched.adhoc := [{ code := 20, origin := .slot, retries := 0, age := 3 }] }
     boundaryLapses l ≠ [] ∧ l.runs) :=
  ⟨⟨rfl, rfl⟩, rfl, by decide, rfl, by decide, by decide +kernel, by decide +kernel, rfl, rfl, ⟨rfl, rfl⟩, rfl, rfl,
    by decide, by decide, by decide, rfl, by decide +kernel, ⟨rfl, rfl⟩⟩

theorem test_meets_CompletingOutcomeClearsThePart :
    (valid8 7 5).outcome = .valid ∧ ∃ e ∈ (live .active .idle).sched.scheduled, e.code = (valid8 7 5).code := by
  decide +kernel

theorem test_meets_VoidRetriesAndAnchorAdoption :
    ({ valid8 7 5 with outcome := .void }).outcome = .void ∧
    (live .active .idle).sched.scheduled.find? (fun x => x.code == 8) = some (currentEntry 8) ∧
    [newAdhoc .slot 20].find? (fun x => x.code == 20) = some (newAdhoc .slot 20) ∧
    ({ valid8 7 5 with content := .count 9 }).content = .count 9 ∧
    1 ≤ ((6#16 : Word) - 65535).toNat ∧ ((6#16 : Word) - 65535).toNat ≤ 32767 := by decide +kernel

theorem test_meets_SamplesKeepTheRuns :
    (live .active .idle).held = false ∧ (live .active .idle).line.engine ≠ .off ∧ State.reset.line.engine = .off ∧
    (inRound .joiner .objection 8 .max).line.engine = .round := by decide +kernel

/-- Samples that make no transition and those that do, with the run counters one apart. -/
theorem test_meets_SamplesKeepTheRuns_line :
    let recover (idle low : Nat) := { live .active .recover with line.idleRun := idle, line.lowRun := low }
    let stuck (idle : Nat) := { live .active .stuck with line.idleRun := idle }
    let idle := live .active .idle
    (recover 9 62).line.idleRun < 10 ∧ (recover 9 62).line.lowRun < 63 ∧ 10 ≤ (recover 10 0).line.idleRun ∧
    63 ≤ (recover 0 63).line.lowRun ∧ (recover 9 62).line.engine = .recover ∧ (stuck 9).line.idleRun < 10 ∧
    10 ≤ (stuck 10).line.idleRun ∧ (stuck 9).line.engine = .stuck ∧ idle.line.firstLow = false ∧ idle.line.ltxd = .high ∧
    ({ idle with line.firstLow := true }).line.firstLow = true ∧
    (let own := { idle with line.ownMark := .own 8, line.ltxd := .low }
     own.line.ownMark ≠ .none ∧ own.line.ltxd = .low) := by decide +kernel

/-- Ordinary bits of a round, its sixth code bit and its objection bit, each with the station pulling too. -/
theorem test_meets_SamplesKeepTheRuns_round :
    let body := inRound .joiner .body 8 .max
    let code := { inRound .starter .code 8 .max with round.pos := 5 }
    body.round.field = some .presence ∧ ({ body with line.ltxd := .low }).line.ltxd = .low ∧
    ({ code with round.pos := 4 }).round.field = some (.code 4) ∧ (inRound .joiner .check 8 .max).round.field = some (.check 0) ∧
    code.line.engine = .round ∧ code.round.phase = .code ∧ code.round.pos = 5 ∧
    (inRound .joiner .objection 8 .max).round.phase = .objection := by decide +kernel

theorem test_meets_LineEngineTransitions :
    (live .active .recover).held = false ∧ ({ live .active .recover with line.idleRun := 10 }).line.idleRun = 10 ∧
    ({ live .active .recover with line.lowRun := 63 }).line.lowRun = 63 ∧
    ({ live .active .idle with line.firstLow := true }).line.engine = .idle ∧
    (let s := { live .active .idle with line.ownMark := .own 8, line.ltxd := .low }
     s.line.engine = .idle ∧ s.line.firstLow = false ∧ s.line.ownMark ≠ .none ∧ s.line.ltxd = .low ∧
     ({ s with line.firstLow := true }).line.firstLow = true) := by decide +kernel

theorem test_meets_DriveFaultSuppresses :
    let s := { inRound .joiner .check 8 .max with line.ltxd := .low }
    let c := { inRound .starter .code 8 .max with line.ltxd := .low, round.pos := 4 }
    s.held = false ∧ s.line.engine = .round ∧ s.line.ltxd = .low ∧ s.round.phase = .check ∧ s.round.cause = .none ∧
    c.round.phase = .code ∧ c.round.pos < 5 ∧ c.line.ltxd = .low := by decide +kernel

/-- A starter of code 9 at its sixth code bit, pulling there, where the table holds code 9; and a pulled objection bit. -/
theorem test_meets_DriveFaultSuppresses_ends :
    let s := { inRound .starter .code 4 .max with
      line.ltxd := .low, round.pos := 5, image.rounds := table.set 0 (some { max8 with code := 9 }) }
    let o := { inRound .joiner .objection 8 .max with line.ltxd := .low }
    s.held = false ∧ s.line.engine = .round ∧ s.line.ltxd = .low ∧ s.round.phase = .code ∧ s.round.pos = 5 ∧
    (findRound s.image (9 : Code)).isSome = true ∧ s.round.codeRead = 4 ∧ s.round.role ≠ .observer ∧ s.round.cause = .none ∧
    ({ s with round.role := .observer }).round.role = .observer ∧ o.round.phase = .objection ∧ o.line.ltxd = .low := by
  decide +kernel

/-- Code 8 read as far as its fifth bit: known at a sixth bit LOW; code 9, at a sixth bit HIGH, is unknown. -/
theorem test_meets_RecognitionOpensTheBody :
    let s := { inRound .observer .code 4 .max with round.pos := 5 }
    let code (b : Bool) : Code := (4#6 <<< 1) ||| (if b = true then 1 else 0)
    s.held = false ∧ s.line.engine = .round ∧ s.round.phase = .code ∧ s.round.pos = 5 ∧
    findRound s.image (code false) = some max8 ∧ findRound s.image (code true) = none ∧
    findRound s.image 0 = some anchor0 ∧ anchor0.kind = .anchor ∧ s.round.role = .observer ∧ max8.kind = .max ∧
    ({ s with round.role := .joiner }).round.role ≠ .observer ∧
    ({ s with round.role := .joiner, round.cause := .driveFault }).round.cause ≠ .none := by decide +kernel

/-- The anchor recognised with a scan to begin, with one to overrun and in another mode; with its cycle open and done. -/
theorem test_meets_RecognitionOpensTheBody_anchor :
    let s := { inRound .joiner .code 0 .anchor with round.pos := 5 }
    s.held = false ∧ s.round.pos = 5 ∧ findRound s.image (0#6 <<< 1) = some anchor0 ∧ s.meas.scan = .idle ∧
    s.image.settings.scanMode = .anchored ∧ s.sched.anchorDone = false ∧ s.round.role ≠ .observer ∧
    ({ s with meas.scan := .scanning, meas.position := some 0, sched.anchorDone := true }).meas.scan = .scanning ∧
    ({ s with sched.anchorDone := true }).control.station.running = true ∧
    ({ s with image.settings.scanMode := .command }).image.settings.scanMode ≠ .anchored ∧
    ((imageEntries s.image).map RoundEntry.code).Nodup ∧
    (∃ b, exec .cycleTimerExpiry { s with round := { s.round with phase := .body, codeRead := 0, kind := .anchor } } =
      .next b) :=
  ⟨by decide +kernel, rfl, by decide +kernel, rfl, rfl, rfl, by decide, rfl, rfl, by decide +kernel, by decide +kernel, _,
    rfl⟩

/-- An EMPTY, a VALID with the duplicate flag and a VOID of a MAX whose ring flag is ON; a VALID anchor, ring flag OFF, ahead
of the count. -/
theorem test_meets_DeliveryReachesEveryBlock :
    let s := inRound .joiner .objection 8 .max
    let d := { s with round.presence := true, round.lostInNonce := true }
    let a := { inRound .joiner .objection 0 .anchor with round.presence := true, round.number := ~~~9 }
    s.held = false ∧ s.line.engine = .round ∧ s.round.phase = .objection ∧ (s.round.recordOf .high).outcome = .empty ∧
    (s.round.recordOf .low).outcome = .void ∧ (d.round.recordOf .high).outcome = .valid ∧
    (d.round.recordOf .high).content = .extreme 32767 0 false true ∧
    findRound s.image 8 = some max8 ∧ max8.ring = true ∧
    a.held = false ∧ a.round.phase = .objection ∧ (a.round.recordOf .high).outcome = .valid ∧
    (a.round.recordOf .high).kind = .anchor ∧ (a.round.recordOf .high).content = .count 9 ∧ a.sched.cycle = 7 ∧
    findRound a.image 0 = some anchor0 ∧ anchor0.ring = false := by decide +kernel

theorem test_meets_RoundEndJudgesTheWindow :
    let s := { live .active .recover with control.roundEnding := true, control.window := 0x3F }
    s.held = false ∧ s.line.engine = .recover ∧ s.control.roundEnding = true ∧ s.line.ownMark = .none ∧
    s.control.station.running = true ∧ s.faultCount = 6 := by decide +kernel

/-- The station may begin, with the anchor the lowest code; a LOW line, a noted first LOW, its own mark and a failed one. -/
theorem test_meets_BoundariesDriveTheLine :
    let s := live .active .idle
    let own := { s with line.ownMark := .own 0, line.ltxd := .low }
    s.held = false ∧ s.line.engine ≠ .off ∧ s.control.roundEnding = false ∧ s.mayBegin .high ∧ ¬ s.mayBegin .low ∧
    offered s.sched = some 0 ∧ mayStart s.sched 0 ∧ mayStart s.sched 8 ∧
    ¬ ({ s with line.firstLow := true }).mayBegin .high ∧ own.line.ownMark ≠ .failed ∧ ¬ own.mayBegin .high ∧
    ({ s with line.ownMark := .failed }).line.ownMark = .failed ∧
    ({ s with control.roundEnding := true }).control.roundEnding = true ∧
    (live .silent .stuck).control.station ≠ .active ∧ (inRound .joiner .body 8 .max).line.engine = .round ∧
    State.reset.line.engine = .off := by
  unfold State.mayBegin mayStart
  decide +kernel

/-- A station whose port has a frame open. -/
def framed (buffer : List Byte) : State := { State.reset with port.csn := .low, port.frameOpen := true, port.buffer := buffer }

theorem test_meets_FrameWiresMoveBits :
    State.reset.held = false ∧ State.reset.port.csn = .high ∧ State.reset.hardReset.held = true ∧
    (framed []).port.frameOpen = true ∧ (framed []).port.sck = .low ∧ (framed []).port.bits.length < 7 ∧
    ({ framed [] with port.bits := List.replicate 7 true }).port.bits.length = 7 ∧
    ({ framed [] with port.sck := .high }).port.sck = .high ∧
    ({ State.reset with port.csn := .low }).port.frameOpen = false ∧ State.reset.port.frameOpen = false ∧
    ({ State.reset with port.csn := .low }).port.csn = .low := by decide +kernel

/-- A payload of the wrong length at commands that the station state gates. -/
theorem test_meets_FrameEndTakesTheRequest_gated :
    let at_ (st : StationState) (b : List Byte) : State :=
      { live st .off with port.csn := .low, port.frameOpen := true, port.buffer := b }
    requestOf .commit = some (0x1F, []) ∧ requestOf .readTrips = some (0x24, []) ∧ configCommand .commit = true ∧
    runCommand .readTrips = true ∧ (at_ .active (frameBytes 0x1F [5])).port.buffer = frameBytes 0x1F [5] ++ [] ∧
    (at_ .active (frameBytes 0x1F [5])).control.station.running = true ∧
    (at_ .config (frameBytes 0x24 [5])).control.station = .config ∧
    (at_ .committing (frameBytes 0x24 [5])).control.station = .committing ∧
    (at_ .committing (frameBytes 0x24 [5])).held = false := by decide +kernel

/-- A good buffer, an empty one and one whose command byte names no command. -/
theorem test_meets_FrameEndTakesTheRequest :
    (framed (frameBytes 0 [])).held = false ∧ (framed (frameBytes 0 [])).port.csn = .low ∧
    requestOf .nop = some (0, []) ∧ (framed (frameBytes 0 [] ++ [7])).port.buffer = frameBytes 0 [] ++ [7] ∧
    (∀ command payload extra, payload.length ≤ 120 → (framed []).port.buffer ≠ frameBytes command payload ++ extra) ∧
    ((framed (frameBytes 0 [5])).port.buffer = frameBytes 0 [5] ++ [] ∧ [(5 : Byte)].length ≠ ([] : List Byte).length ∧
      everyStateCommand .nop = true) ∧
    ∀ c p, requestOf c ≠ some (0x7F, p) := by
  refine ⟨rfl, rfl, rfl, rfl, fun c p x _ h => List.cons_ne_nil _ _ h.symm, ⟨rfl, by decide, rfl⟩, fun c p h => ?_⟩
  cases c <;> first | exact absurd (congrArg Prod.fst (Option.some.inj h)) (by decide) | cases h

theorem test_meets_WholeFrameTakesTheCommand :
    State.reset.held = false ∧ State.reset.port.csn = .high ∧ State.reset.port.sck = .low ∧
    requestOf (.inject 15 4095) = some (0x34, [15, 0x0F, 0xFF]) := by decide +kernel

theorem test_meets_NumbersOnTheLine : (-32768 : Int) ≤ -5 ∧ (-5 : Int) < 12 ∧ (12 : Int) ≤ 32767 := by decide

theorem test_meets_RolesDriveTheirFields :
    (inRound .observer .body 8 .max).round.role = .observer ∧ (inRound .joiner .objection 8 .max).round.phase = .objection ∧
    (inRound .joiner .code 8 .max).round.role = .joiner ∧ (inRound .starter .code 8 .max).round.role = .starter ∧
    (inRound .joiner .check 8 .max).round.phase = .check ∧ (inRound .joiner .body 8 .max).round.pos = 0 ∧
    ({ (inRound .joiner .body 4 .roster).round with snapshot := some (.position 5), pos := 5 }).snapshot = some (.position 5) := by
  decide +kernel

/-- A contender at the ends of its number, address and nonce, and a sender at the ends of its word, its inverse and dissent. -/
theorem test_meets_RolesDriveTheirFields_body :
    let r := { (inRound .joiner .body 8 .max).round with snapshot := some (.number 5), contender := true, sender := true }
    let d := { (inRound .joiner .body 30 .digest).round with snapshot := some (.word 5), sender := true, differs := true }
    r.phase = .body ∧ r.role ≠ .observer ∧
    ({ r with pos := 1 }).field = some (.number 0) ∧ ({ r with pos := 16 }).field = some (.number 15) ∧
    ({ r with pos := 17 }).field = some (.address 0) ∧ ({ r with pos := 21 }).field = some (.address 4) ∧
    ({ r with pos := 22 }).field = some (.nonce 0) ∧ ({ r with pos := 25 }).field = some (.nonce 3) ∧
    ({ d with pos := 16 }).field = some (.number 15) ∧ ({ d with pos := 17 }).field = some (.inverted 0) ∧
    ({ d with pos := 32 }).field = some (.inverted 15) ∧ ({ d with pos := 33 }).field = some .dissent := by decide

theorem test_meets_CheckTakesCodeAndBody :
    (inRound .joiner .check 8 .max).round.field = some (.check 0) ∧ (inRound .joiner .body 8 .max).round.field = some .presence := by
  decide +kernel

theorem test_meets_OutcomeByCases :
    let r := (inRound .joiner .objection 8 .max).round
    r.outcome .low = .void ∧ ({ r with role := .observer, mismatch := true }).outcome .high = .void ∧
    r.outcome .high = .empty ∧ ({ r with presence := true }).outcome .high = .valid ∧
    ({ r with kind := .digest, presence := true, dissent := true }).outcome .high = .disagree ∧
    ({ r with kind := .roster, set := 1 }).outcome .high = .valid := by decide +kernel

theorem test_meets_FieldsFollowTheBits :
    let r := { (inRound .joiner .body 8 .max).round with snapshot := some (.number 3418), contender := true, sender := true }
    ({ r with pos := 1 }).field = some (.number 0) ∧ ({ r with pos := 17 }).field = some (.address 0) ∧
    ({ r with pos := 25 }).field = some (.nonce 3) ∧ (inRound .starter .code 0 .anchor).round.field = some (.code 0) ∧
    r.kind ≠ .digest ∧ r.role ≠ .observer ∧ ({ r with pos := 0 }).field = some .presence ∧
    ({ r with kind := .digest, pos := 17 }).field = some (.inverted 0) ∧
    ({ r with kind := .digest, pos := 33 }).field = some .dissent ∧
    ({ r with role := .observer, phase := .check }).field = some (.check 0) ∧
    ({ r with kind := .roster, pos := 31 }).field = some (.position 31) ∧
    ({ (inRound .starter .code 0 .anchor).round with pos := 5 }).role = .starter := by decide +kernel

/-- The ends of the body of each kind, one bit before them, and the end of the check field. -/
theorem test_meets_FieldsFollowTheBits_ends :
    let r (k : Kind) (n : Nat) : Round := { phase := .body, kind := k, pos := n }
    (r .any 16).field = some (.number 15) ∧ (r .max 16).field = some (.number 15) ∧ (r .max 21).field = some (.address 4) ∧
    (r .max 22).field = some (.nonce 0) ∧ (r .max 25).field = some (.nonce 3) ∧ (r .max 24).pos + 1 ≠ 26 ∧
    (r .roster 31).field = some (.position 31) ∧ (r .digest 32).field = some (.inverted 15) ∧
    (r .digest 33).field = some .dissent ∧ ({ phase := .check, pos := 7 } : Round).field = some (.check 7) ∧
    ({ phase := .check, pos := 6 } : Round).field = some (.check 6) := by decide

theorem test_meets_RosterReadsTheSet :
    let r := (inRound .observer .body 4 .roster).round
    r.phase = .body ∧ r.kind = .roster ∧ r.pos = 0 ∧ r.set = 0 ∧ (List.replicate 32 Level.low).length = 32 := by
  decide +kernel

/-! The invariants: a running station that meets them all, with a command waiting. -/

/-- A running station in the middle of a round, a NOP waiting. -/
def sound : State := { inRound .joiner .body 8 .max with round.snapshot := some (.number 5), pending := [.nop] }

theorem test_meets_StepDrivesOnlyActive : sound.DrivesOnlyActive ∧ ∃ t, step sound = .next t := ⟨fun _ => rfl, _, rfl⟩

theorem test_sound_blocks : sound.BlocksFollowStation ∧ sound.HeldAtReset := by
  unfold State.HeldAtReset State.BlocksFollowStation
  decide +kernel

theorem test_meets_StepKeepsBlocksAtRest : sound.BlocksFollowStation ∧ sound.HeldAtReset ∧ ∃ t, step sound = .next t :=
  ⟨test_sound_blocks.1, test_sound_blocks.2, _, rfl⟩

theorem test_sound_image : sound.ImageSound := by
  refine ⟨⟨?_, ?_, ?_⟩, fun _ => ?_, ?_⟩
  · unfold settingsInRange; decide +kernel
  · unfold slotInRange slotNumberInRange; decide +kernel
  · unfold ruleInRange; decide +kernel
  · decide +kernel
  · decide +kernel

theorem test_sound_pending : sound.PendingSound := by
  unfold State.PendingSound schedEntryWf adhocEntryWf
  decide +kernel

theorem test_sound_line : sound.LineSound := by
  refine ⟨?_, ?_, ?_, (by decide : 0 < bodyBits .max), ?_⟩ <;> decide +kernel

theorem test_sound_trips_peers : sound.TripsSound ∧ sound.PeersSound := by
  refine ⟨fun n => ?_, fun a => ?_⟩
  · have h : sound.trip[n] = {} := Vector.getElem_replicate _
    rw [h]
    exact ruleStateWf_start _
  · have h : sound.peers.entries[a] = { expected := image.settings.expected.getLsbD a.val } := Vector.getElem_ofFn _
    rw [h]
    exact peerWf_start _ _

theorem test_sound_slots : sound.SlotsSound := by
  refine ⟨fun n => ?_, rfl, rfl, rfl⟩
  have h : sound.meas.results[n] = {} := Vector.getElem_replicate _
  rw [h]
  exact slotResultWf_start _

theorem test_sound_confinement : sound.ConfinementSound := by
  unfold State.ConfinementSound
  decide +kernel

theorem test_sound_store_timers : sound.StoreSound ∧ sound.TimersSound := by
  unfold State.StoreSound State.TimersSound
  decide +kernel

theorem test_steps : ∃ t, step sound = .next t := ⟨_, rfl⟩

theorem test_meets_StepKeepsImageSound :
    sound.HeldAtReset ∧ sound.BlocksFollowStation ∧ sound.ImageSound ∧ ∃ t, step sound = .next t :=
  ⟨test_sound_blocks.2, test_sound_blocks.1, test_sound_image, test_steps⟩

theorem test_meets_StepKeepsPendingSound :
    sound.BlocksFollowStation ∧ sound.HeldAtReset ∧ sound.ImageSound ∧ sound.LineSound ∧ sound.PendingSound ∧
    ∃ t, step sound = .next t :=
  ⟨test_sound_blocks.1, test_sound_blocks.2, test_sound_image, test_sound_line, test_sound_pending, test_steps⟩

theorem test_meets_StepKeepsLineSound : sound.BlocksFollowStation ∧ sound.LineSound ∧ ∃ t, step sound = .next t :=
  ⟨test_sound_blocks.1, test_sound_line, test_steps⟩

theorem test_meets_StepKeepsTripsAndPeersSound :
    sound.BlocksFollowStation ∧ sound.HeldAtReset ∧ sound.ImageSound ∧ sound.TripsSound ∧ sound.PeersSound ∧
    ∃ t, step sound = .next t :=
  ⟨test_sound_blocks.1, test_sound_blocks.2, test_sound_image, test_sound_trips_peers.1, test_sound_trips_peers.2, test_steps⟩

theorem test_meets_StepKeepsSlotsSound : sound.BlocksFollowStation ∧ sound.SlotsSound ∧ ∃ t, step sound = .next t :=
  ⟨test_sound_blocks.1, test_sound_slots, test_steps⟩

theorem test_meets_StepKeepsConfinement :
    sound.BlocksFollowStation ∧ sound.ConfinementSound ∧ ∃ t, step sound = .next t :=
  ⟨test_sound_blocks.1, test_sound_confinement, test_steps⟩

theorem test_meets_StepKeepsStoreAndTimersSound :
    sound.BlocksFollowStation ∧ sound.HeldAtReset ∧ sound.ImageSound ∧ sound.StoreSound ∧ sound.TimersSound ∧
    ∃ t, step sound = .next t :=
  ⟨test_sound_blocks.1, test_sound_blocks.2, test_sound_image, test_sound_store_timers.1, test_sound_store_timers.2,
    test_steps⟩

end Sys2Proof.Tests
end

section
/-! The peer line's invariants: what every effect of a step does to the line engine, the round, the station state and the
rate, and from that the two safety properties of chapter 1. -/

namespace Sys2Proof.Machine

/-- A run command leaves the line, the round, the image and the station state as they are. -/
theorem RunEffect.keeps_line {s t : State} (h : RunEffect s t) :
    t.line = s.line ∧ t.round = s.round ∧ t.image = s.image ∧ t.control.station = s.control.station := by
  cases h with
  | post c _ =>
    obtain ⟨_, _, _, h⟩ := s.post_changes .command c
    rw [h]
    exact ⟨rfl, rfl, rfl, rfl⟩
  | begin _ =>
    obtain ⟨_, _, _, _, _, h⟩ := s.beginScan_changes
    rw [h]
    exact ⟨rfl, rfl, rfl, rfl⟩
  | resume _ =>
    obtain ⟨_, _, _, _, _, h⟩ := s.resume_changes
    rw [h]
    exact ⟨rfl, rfl, rfl, rfl⟩
  | inject n raw _ =>
    obtain ⟨_, _, _, _, h⟩ := s.writeSample_changes n raw true
    rw [h]
    exact ⟨rfl, rfl, rfl, rfl⟩
  | _ => exact ⟨rfl, rfl, rfl, rfl⟩

/-- A port command leaves the line, or resets it (R166), or acts in CONFIG, where the line is at rest (R187). -/
theorem PortEffect.line_cases {s t : State} (h : PortEffect s t) :
    (t.line = s.line ∧ t.round = s.round ∧ t.image = s.image ∧ t.control.station = s.control.station) ∨
    (t.line = { lrxd := s.line.lrxd } ∧ t.round = {}) ∨
    (s.control.station = .config ∧ t.line = s.line ∧ t.round = s.round) := by
  cases h with
  | none => exact .inl ⟨rfl, rfl, rfl, rfl⟩
  | softReset _ => exact .inr (.inl ⟨rfl, rfl⟩)
  | image im _ hc _ => exact .inr (.inr ⟨hc, rfl, rfl⟩)
  | commit _ hc _ => exact .inr (.inr ⟨hc, rfl, rfl⟩)
  | run t _ _ he => exact .inl he.keeps_line

/-- The end of a commit sets the line engine going at its starting values (R8). -/
theorem State.blocksAtCommit_resume_line (s : State) :
    s.blocksAtCommit.resume.line = { lrxd := s.line.lrxd, engine := .recover } ∧ s.blocksAtCommit.resume.round = {} ∧
      s.blocksAtCommit.resume.image = s.image := by
  obtain ⟨_, _, _, _, _, h⟩ := s.blocksAtCommit.resume_changes
  rw [h]
  exact ⟨rfl, rfl, rfl⟩

/-- A start mark is begun only by an ACTIVE station with its engine in IDLE (R11). -/
theorem State.startCode_some {s : State} {line : Level} {c : Code} (h : s.startCode line = some c) :
    s.control.station = .active ∧ s.line.engine = .idle := by
  unfold State.startCode at h
  split at h
  · next hc => exact ⟨hc.1, hc.2.1⟩
  · cases h

/-- The level LTXD takes is LOW only in ACTIVE (R1). -/
theorem State.driveLevel_low {s : State} (h : s.driveLevel = .low) : s.control.station = .active := by
  unfold State.driveLevel at h
  cases hs : s.control.station with
  | active => rfl
  | _ => simp [hs] at h

/-- What a boundary drives is LOW only in ACTIVE (R1, R11). -/
theorem State.driveNext_drivesOnlyActive (s : State) (line : Level) : (s.driveNext line).DrivesOnlyActive := by
  intro h
  unfold State.driveNext at h ⊢
  split at h
  · cases h
  · next hc _ => exact (State.startCode_some hc).1
  · exact State.driveLevel_low h

/-- An expiry moves a JOINING station alone, and pulls nothing (R154). -/
theorem State.judgeExpiry_drivesOnlyActive {s : State} (h : s.DrivesOnlyActive) : s.judgeExpiry.DrivesOnlyActive := by
  by_cases hj : s.control.station = .joining
  · have high : s.line.ltxd ≠ .low := fun hl => by
      have := h hl
      rw [hj] at this
      cases this
    rw [State.judgeExpiry_joining hj]
    intro hl
    split at hl
    · split at hl
      · exact absurd hl high
      · cases hl
    · exact absurd hl high
  · rwa [State.judgeExpiry_other hj]

/-- Every effect keeps LTXD HIGH outside ACTIVE. -/
theorem Effect.drivesOnlyActive {s t : State} (h : s.DrivesOnlyActive) (he : Effect s t) : t.DrivesOnlyActive := by
  cases he with
  | port t p hp _ =>
    show t.DrivesOnlyActive
    rcases hp.line_cases with ⟨hl, _, _, hs⟩ | ⟨hl, _⟩ | ⟨hc, hl, _⟩
    · unfold State.DrivesOnlyActive
      rwa [hl, hs]
    · intro hlow
      rw [hl] at hlow
      cases hlow
    · intro hlow
      rw [hl] at hlow
      have := h hlow
      rw [hc] at this
      cases this
  | hardReset => exact fun hlow => by cases hlow
  | release _ => exact fun hlow => by cases hlow
  | complete _ _ =>
    intro hlow
    rw [s.blocksAtCommit_resume_line.1] at hlow
    cases hlow
  | sample lv _ =>
    intro hlow
    have hact := h (State.sample_ltxd hlow)
    obtain ⟨_, _, _, _, _, _, _, _, _, _, _, _, _, _, _, _, _, _, _, hx⟩ := s.sample_changes lv
    rw [hx]
    exact hact
  | boundary line hl =>
    rw [State.boundary_of_listens hl]
    exact State.driveNext_drivesOnlyActive _ line
  | expire _ _ =>
    refine State.judgeExpiry_drivesOnlyActive ?_
    obtain ⟨_, _, _, _, _, _, hx⟩ := s.cycleBoundary_changes
    rw [hx]
    exact h
  | settle _ _ _ _ _ => exact h
  | conversion n raw _ _ _ _ =>
    obtain ⟨_, _, _, _, _, hx⟩ := s.completeConversion_changes
    rw [hx]
    exact h

/-- One crystal period leaves LTXD and the station state as they are. -/
theorem TickEffect.drivesOnlyActive {s t : State} (h : s.DrivesOnlyActive) (ht : TickEffect s t) : t.DrivesOnlyActive := by
  obtain ⟨_, _, _, _, _, _, _, _, rfl, _⟩ := ht
  exact h

/-- Settles O51: every effect keeps the property, and so does a crystal period. -/
theorem stepDrivesOnlyActive : Obligations.StepDrivesOnlyActive := by
  intro s t h hs
  rcases step_effect hs with ⟨rest, he⟩ | ⟨_, ht⟩
  · exact Effect.drivesOnlyActive (s := { s with pending := rest }) h he
  · exact ht.drivesOnlyActive h

end Sys2Proof.Machine
end

section
/-! The line engine, its run counters and the place in the round: `State.LineSound` part by part, kept by each kind of sample,
by a boundary and by every other effect of a step. -/

namespace Sys2Proof.Machine

/-- `State.LineSound` as a property of the line, the round and the rate, its parts by name. -/
structure Lif.Sound (l : Lif) (r : Round) (rate : Fin 4) : Prop where
  idleRun : l.idleRun ≤ 11
  lowRun : l.lowRun ≤ 64
  inRound : l.engine = .round ↔ r.phase ≠ .none
  place : r.PlaceSound
  recover : l.engine = .recover → l.idleRun < 11 ∧ l.lowRun < 64
  stuck : l.engine = .stuck → l.idleRun < 11
  idle : l.engine = .idle → l.lowRun = if l.firstLow then 1 else 0
  round : l.engine = .round → l.lowRun ≤ 2 + r.bitsRead
  firstLow : l.firstLow = true → l.engine = .idle ∧ l.idleRun = 0
  ownMark : l.ownMark ≠ .none → l.engine = .idle
  suppressed : l.suppressed = true → l.engine = .round
  bitTimer : l.bitTimer < bitPeriods rate

theorem State.lineSound_iff (s : State) : s.LineSound ↔ s.line.Sound s.round s.image.settings.rate :=
  ⟨fun ⟨h1, h2, h3, h4, h5, h6, h7, h8, h9, h10, h11, h12⟩ => ⟨h1, h2, h3, h4, h5, h6, h7, h8, h9, h10, h11, h12⟩,
    fun ⟨h1, h2, h3, h4, h5, h6, h7, h8, h9, h10, h11, h12⟩ => ⟨h1, h2, h3, h4, h5, h6, h7, h8, h9, h10, h11, h12⟩⟩

/-- The sample point lies inside the bit (R3). -/
theorem samplePeriods_lt (rate : Fin 4) : samplePeriods rate < bitPeriods rate := by
  revert rate
  decide

theorem bitPeriods_pos (rate : Fin 4) : 0 < bitPeriods rate := Nat.zero_lt_of_lt (samplePeriods_lt rate)

/-- A body has 17 to 34 bits (R19). -/
theorem bodyBits_bounds (k : Kind) : 17 ≤ bodyBits k ∧ bodyBits k ≤ 34 := by
  cases k <;> decide

/-- The line at its reset values, or as a commit starts it (R8, R18). -/
theorem Lif.Sound.at_start (rate : Fin 4) (lrxd : Level) (engine : LineEngine) (he : engine = .off ∨ engine = .recover) :
    ({ lrxd := lrxd, engine := engine } : Lif).Sound {} rate := by
  have hp := bitPeriods_pos rate
  rcases he with rfl | rfl <;> constructor <;> simp [Round.PlaceSound, hp]

/-- The pins and the bit timer are no part of it but for the timer's bound, and a mark stands in IDLE alone. -/
theorem Lif.Sound.driven {l : Lif} {r : Round} {rate : Fin 4} (h : l.Sound r rate) (ltxd lrxd : Level) (mark : OwnMark)
    {timer : Nat} (hm : mark ≠ .none → l.engine = .idle) (ht : timer < bitPeriods rate) :
    ({ l with ltxd := ltxd, lrxd := lrxd, ownMark := mark, bitTimer := timer } : Lif).Sound r rate :=
  { h with ownMark := hm, bitTimer := ht }

/-- The next bit of a round has no field exactly with no round (R21). -/
theorem Round.field_eq_none {r : Round} : r.field = none ↔ r.phase = .none := by
  unfold Round.field
  cases r.phase <;> simp

/-- A bit taken inside a round moves its place on by one, inside the round (R19, R21). -/
theorem Round.takeBit_place {r : Round} {f : Field} (hf : r.field = some f) (hc : f ≠ .code 5) (ho : f ≠ .objection)
    (hr : r.PlaceSound) (bit : Level) (fault suppressed : Bool) (address : Address) (digest : Word) :
    let t := r.takeBit f bit fault suppressed address digest
    t.phase ≠ .none ∧ t.PlaceSound ∧ t.bitsRead = r.bitsRead + 1 := by
  have hk : ((r.noteFault fault).takeField f bit fault suppressed address digest).kind = r.kind := by
    rw [((r.noteFault fault).takeField_keeps f bit fault suppressed address digest).2.2.1, r.noteFault_eq]
  rw [Round.takeBit_eq]
  simp only [Round.PlaceSound, Round.bitsRead, hk] at hr ⊢
  have hb := bodyBits_bounds r.kind
  cases hp : r.phase with
  | none => rw [Round.field_eq_none.2 hp] at hf; cases hf
  | objection =>
    unfold Round.field at hf
    rw [hp] at hf
    exact absurd (Option.some.inj hf).symm ho
  | code =>
    rw [hp] at hr
    have h5 : r.pos ≠ 5 := fun h5 => hc (by
      unfold Round.field at hf
      rw [hp, h5] at hf
      exact (Option.some.inj hf).symm)
    simp only [placeAfter] at hr ⊢
    exact ⟨nofun, by omega, trivial⟩
  | body =>
    rw [hp] at hr
    simp only [placeAfter] at hr ⊢
    split
    · exact ⟨nofun, Nat.zero_lt_succ 7, by dsimp only; omega⟩
    · exact ⟨nofun, by dsimp only; omega, by dsimp only; omega⟩
  | check =>
    rw [hp] at hr
    simp only [placeAfter] at hr ⊢
    split
    · exact ⟨nofun, trivial, by dsimp only; omega⟩
    · exact ⟨nofun, by dsimp only; omega, by dsimp only; omega⟩

/-- At the sixth code bit or the objection bit a round has read at most 48 bits (R19). -/
theorem Round.bitsRead_at_end {r : Round} (hf : r.field = some (.code 5) ∨ r.field = some .objection) : r.bitsRead ≤ 48 := by
  have hb := bodyBits_bounds r.kind
  unfold Round.bitsRead
  rcases hf with hf | hf
  · obtain ⟨hp, h5⟩ := Round.field_code hf
    rw [hp, h5]
    exact Nat.le_of_ble_eq_true rfl
  · rw [Round.field_objection hf]
    dsimp only
    omega

/-- The run counters after a sample (R7): one of them is 0, the other one higher, up to its end. -/
theorem State.counted_runs (s : State) (lv : Level) :
    ((s.counted lv).line.idleRun = 0 ∧ (s.counted lv).line.lowRun = min 64 (s.line.lowRun + 1) ∧ lv = .low) ∨
    ((s.counted lv).line.idleRun = min 11 (s.line.idleRun + 1) ∧ (s.counted lv).line.lowRun = 0 ∧ lv = .high) := by
  cases lv
  · exact .inl ⟨rfl, rfl, rfl⟩
  · exact .inr ⟨rfl, rfl, rfl⟩

/-- A sample in RECOVER (R9, R13). -/
theorem State.sampleRecover_sound {s : State} (h : s.LineSound) (he : s.line.engine = .recover) (lv : Level) :
    (s.counted lv).sampleRecover.LineSound := by
  rw [State.lineSound_iff] at h ⊢
  have hn : s.round.phase = .none := by simpa [he] using h.inRound
  have hf : s.line.firstLow = false := by simpa [he] using h.firstLow
  have hm : s.line.ownMark = .none := by simpa [he] using h.ownMark
  have hs : s.line.suppressed = false := by simpa [he] using h.suppressed
  have hr := h.recover he
  have ht := samplePeriods_lt s.image.settings.rate
  have runs := s.counted_runs lv
  unfold State.sampleRecover
  split
  · next h11 =>
    have h0 : (s.counted lv).line.lowRun = 0 := by omega
    exact {
      idleRun := h11.le
      lowRun := by simp [h0]
      inRound := by simp [State.counted, hn]
      place := h.place
      recover := nofun
      stuck := nofun
      idle := by simp [h0]
      round := nofun
      firstLow := nofun
      ownMark := nofun
      suppressed := by simp [State.counted, hs]
      bitTimer := ht }
  split
  · next h11 h64 =>
    have h0 : (s.counted lv).line.idleRun = 0 := by omega
    exact {
      idleRun := h0.trans_le (Nat.zero_le _)
      lowRun := h64.le
      inRound := by simp [State.toStuck, State.counted, hn]
      place := h.place
      recover := nofun
      stuck := fun _ => h0.trans_lt (by decide)
      idle := nofun
      round := nofun
      firstLow := by simp [State.toStuck, State.counted, hf]
      ownMark := by simp [State.toStuck, State.counted, hm]
      suppressed := by simp [State.toStuck, State.counted, hs]
      bitTimer := ht }
  · next h11 h64 =>
    have hi : (s.counted lv).line.idleRun < 11 := by omega
    have hl : (s.counted lv).line.lowRun < 64 := by omega
    exact {
      idleRun := hi.le
      lowRun := hl.le
      inRound := h.inRound
      place := h.place
      recover := fun _ => ⟨hi, hl⟩
      stuck := fun _ => hi
      idle := by simp [State.counted, he]
      round := by simp [State.counted, he]
      firstLow := by simp [State.counted, hf]
      ownMark := h.ownMark
      suppressed := h.suppressed
      bitTimer := ht }

/-- A sample in STUCK (R14). -/
theorem State.sampleStuck_sound {s : State} (h : s.LineSound) (he : s.line.engine = .stuck) (lv : Level) :
    (s.counted lv).sampleStuck.LineSound := by
  rw [State.lineSound_iff] at h ⊢
  have hn : s.round.phase = .none := by simpa [he] using h.inRound
  have hf : s.line.firstLow = false := by simpa [he] using h.firstLow
  have hs : s.line.suppressed = false := by simpa [he] using h.suppressed
  have ht := samplePeriods_lt s.image.settings.rate
  have runs := s.counted_runs lv
  unfold State.sampleStuck
  split
  · next h11 =>
    have h0 : (s.counted lv).line.lowRun = 0 := by omega
    exact {
      idleRun := h11.le
      lowRun := by simp [h0]
      inRound := by simp [State.counted, hn]
      place := h.place
      recover := nofun
      stuck := nofun
      idle := by simp [h0]
      round := nofun
      firstLow := nofun
      ownMark := nofun
      suppressed := by simp [State.counted, hs]
      bitTimer := ht }
  · next h11 =>
    have hi : (s.counted lv).line.idleRun < 11 := by omega
    have hl : (s.counted lv).line.lowRun ≤ 64 := by omega
    exact {
      idleRun := hi.le
      lowRun := hl
      inRound := h.inRound
      place := h.place
      recover := by simp [State.counted, he]
      stuck := fun _ => hi
      idle := by simp [State.counted, he]
      round := by simp [State.counted, he]
      firstLow := by simp [State.counted, hf]
      ownMark := h.ownMark
      suppressed := h.suppressed
      bitTimer := ht }

/-- A sample in IDLE (R10, R16): a second LOW opens a round, a HIGH after a first LOW is a short start. -/
theorem State.sampleIdle_sound {s : State} (h : s.LineSound) (he : s.line.engine = .idle) (lv : Level) :
    ((s.counted lv).sampleIdle lv).LineSound := by
  rw [State.lineSound_iff] at h ⊢
  have hn : s.round.phase = .none := by simpa [he] using h.inRound
  have hs : s.line.suppressed = false := by simpa [he] using h.suppressed
  have hl := h.idle he
  have ht := samplePeriods_lt s.image.settings.rate
  unfold State.sampleIdle State.sampleSecond State.sampleFirst
  cases hf : s.line.firstLow with
  | true =>
    have hi := (h.firstLow hf).2
    rw [hf] at hl
    rw [if_pos (by exact hf)]
    cases lv with
    | low =>
      refine {
        idleRun := Nat.zero_le _
        lowRun := Nat.min_le_left _ _
        inRound := by simp [State.openMark, openRound]
        place := by simp [State.openMark, openRound, Round.PlaceSound]
        recover := nofun
        stuck := nofun
        idle := nofun
        round := fun _ => ?_
        firstLow := nofun
        ownMark := nofun
        suppressed := nofun
        bitTimer := ht }
      show min 64 (s.line.lowRun + 1) ≤ 2 + 0
      simp [hl]
    | high =>
      rw [State.countFault_eq]
      have h1 : (s.counted .high).line.idleRun = 1 := by simp [State.counted, hi]
      exact {
        idleRun := by simp [State.shortStart, h1]
        lowRun := Nat.zero_le _
        inRound := by simp [State.shortStart, State.counted, hn]
        place := h.place
        recover := fun _ => ⟨by simp [State.shortStart, h1], by simp [State.shortStart, State.counted]⟩
        stuck := nofun
        idle := nofun
        round := nofun
        firstLow := nofun
        ownMark := nofun
        suppressed := by simp [State.shortStart, State.counted, hs]
        bitTimer := ht }
  | false =>
    rw [hf] at hl
    rw [if_neg (by simp [State.counted, hf])]
    cases lv with
    | low =>
      exact {
        idleRun := Nat.zero_le _
        lowRun := Nat.min_le_left _ _
        inRound := h.inRound
        place := h.place
        recover := by simp [State.counted, he]
        stuck := by simp [State.counted, he]
        idle := by simp [State.counted, hl]
        round := by simp [State.counted, he]
        firstLow := fun _ => ⟨he, rfl⟩
        ownMark := h.ownMark
        suppressed := h.suppressed
        bitTimer := ht }
    | high =>
      have quiet : (s.counted .high).line.Sound s.round s.image.settings.rate := {
          idleRun := Nat.min_le_left _ _
          lowRun := Nat.zero_le _
          inRound := h.inRound
          place := h.place
          recover := by simp [State.counted, he]
          stuck := by simp [State.counted, he]
          idle := by simp [State.counted, hf]
          round := by simp [State.counted, he]
          firstLow := by simp [State.counted, hf]
          ownMark := h.ownMark
          suppressed := h.suppressed
          bitTimer := ht }
      dsimp only
      split
      · exact quiet.driven s.line.ltxd .high .failed (fun _ => he) ht
      · exact quiet

/-- A sample in ROUND (R12, R15, R21): the bit moves the place on, opens the body, or ends the round before the LOW run can
reach 64. -/
theorem State.sampleRound_sound {s : State} (h : s.LineSound) (hs : s.held = false) (he : s.line.engine = .round)
    (lv : Level) : (s.sample lv).LineSound := by
  rw [State.lineSound_iff] at h
  have runs := s.counted_runs lv
  have hlow := h.round he
  have hf : s.line.firstLow = false := by simpa [he] using h.firstLow
  have hm : s.line.ownMark = .none := by simpa [he] using h.ownMark
  have ht := samplePeriods_lt s.image.settings.rate
  rw [State.sample_round_bit hs he]
  generalize hu : ({ s with
    line := { (s.counted lv).line with suppressed := s.line.suppressed || s.isDriveFault lv }
    control.counters.driveFaults :=
      if s.isDriveFault lv then satInc s.control.counters.driveFaults else s.control.counters.driveFaults } : State) = u
  have hline : u.line = { (s.counted lv).line with suppressed := s.line.suppressed || s.isDriveFault lv } := by
    rw [← hu]
  have hround : u.round = s.round := by
    rw [← hu]
  have himage : (u.roundBit lv (s.isDriveFault lv) s.line.suppressed).image = s.image := by
    obtain ⟨_, _, _, _, _, _, _, _, _, _, _, _, _, _, _, _, _, _, _, hx⟩ :=
      u.roundBit_changes lv (s.isDriveFault lv) s.line.suppressed
    rw [hx, ← hu]
  have goes_on : ∀ r : Round, r.phase ≠ .none → r.PlaceSound → r.bitsRead = s.round.bitsRead + 1 →
      u.line.Sound r s.image.settings.rate := by
    intro r hphase hplace hbits
    rw [hline]
    exact {
      idleRun := by dsimp only; omega
      lowRun := by dsimp only; omega
      inRound := iff_of_true he hphase
      place := hplace
      recover := by simp [State.counted, he]
      stuck := by simp [State.counted, he]
      idle := by simp [State.counted, he]
      round := fun _ => by dsimp only; omega
      firstLow := by simp [State.counted, hf]
      ownMark := by simp [State.counted, hm]
      suppressed := fun _ => he
      bitTimer := ht }
  rw [State.lineSound_iff, himage]
  rcases u.roundBit_round lv (s.isDriveFault lv) s.line.suppressed with
    ⟨hnone, _⟩ | ⟨f, hfield, hc, ho, h1, h2⟩ | ⟨hfield, kind, snapshot, nonce, h1, h2⟩ | ⟨hfield, h1, h2⟩
  · rw [hround, Round.field_eq_none] at hnone
    exact absurd hnone (h.inRound.1 he)
  · rw [h1, h2]
    rw [hround] at hfield ⊢
    obtain ⟨h3, h4, h5⟩ := Round.takeBit_place hfield hc ho h.place lv (s.isDriveFault lv) s.line.suppressed
      u.image.settings.address u.control.digest
    exact goes_on _ h3 h4 h5
  · rw [h1, h2]
    rw [hround] at hfield
    obtain ⟨hphase, h5⟩ := Round.field_code hfield
    refine goes_on _ nofun (Nat.lt_of_lt_of_le (Nat.zero_lt_succ 16) (bodyBits_bounds kind).1) ?_
    simp [Round.bitsRead, hphase, h5]
  · rw [h1, h2, hline]
    rw [hround] at hfield
    have hend := Round.bitsRead_at_end hfield
    exact {
      idleRun := Nat.zero_le _
      lowRun := by dsimp only; omega
      inRound := by simp
      place := trivial
      recover := fun _ => ⟨Nat.zero_lt_succ 10, by dsimp only; omega⟩
      stuck := nofun
      idle := nofun
      round := nofun
      firstLow := by simp [State.counted, hf]
      ownMark := by simp [State.counted, hm]
      suppressed := nofun
      bitTimer := ht }

/-- A sample keeps the line sound in every state of the engine (R7). -/
theorem State.sample_lineSound {s : State} (h : s.LineSound) (lv : Level) : (s.sample lv).LineSound := by
  cases hl : s.listens with
  | false => rwa [State.sample_of_not_listens hl]
  | true =>
    have hs : s.held = false ∧ s.line.engine ≠ .off := by
      unfold State.listens at hl
      simpa using hl
    cases he : s.line.engine with
    | off => exact absurd he hs.2
    | recover =>
      rw [State.sample_recover hs.1 he]
      exact State.sampleRecover_sound h he lv
    | stuck =>
      rw [State.sample_stuck hs.1 he]
      exact State.sampleStuck_sound h he lv
    | idle =>
      rw [State.sample_idle hs.1 he]
      exact State.sampleIdle_sound h he lv
    | round => exact State.sampleRound_sound h hs.1 he lv

/-- What a boundary drives: the own mark that is left stands in IDLE (R11, R16). -/
theorem State.driveNext_lineSound {s : State} (h : s.LineSound) (line : Level) : (s.driveNext line).LineSound := by
  rw [State.lineSound_iff] at h
  unfold State.driveNext
  split
  · exact (State.lineSound_iff _).2 (h.driven .high s.line.lrxd .none nofun h.bitTimer)
  · next c hc _ =>
    exact (State.lineSound_iff _).2 (h.driven .low s.line.lrxd (.own c) (fun _ => (State.startCode_some hc).2) h.bitTimer)
  · exact (State.lineSound_iff _).2 (h.driven s.driveLevel s.line.lrxd s.line.ownMark h.ownMark h.bitTimer)

/-- A boundary restarts the bit timer, and may end a round at Station Control and drive the line (R3, R6, R157). -/
theorem State.boundary_lineSound {s : State} (h : s.LineSound) (hl : s.listens = true) (line : Level) :
    (s.boundary line).LineSound := by
  rw [State.boundary_of_listens hl]
  refine State.driveNext_lineSound ?_ line
  obtain ⟨ltxd, _, _, _, _, hx⟩ := State.endRound_changes { s with line := { s.line with lrxd := line, bitTimer := 0 } }
  rw [State.lineSound_iff] at h
  rw [hx]
  exact (State.lineSound_iff _).2 (h.driven ltxd line s.line.ownMark h.ownMark (bitPeriods_pos _))

/-- Every effect keeps the line sound. -/
theorem Effect.lineSound {s t : State} (hb : s.BlocksFollowStation) (h : s.LineSound) (he : Effect s t) : t.LineSound := by
  have at_rest : ∀ x : State, x.line = { lrxd := s.line.lrxd } → x.round = {} → x.LineSound := by
    intro x hline hround
    rw [State.lineSound_iff, hline, hround]
    exact Lif.Sound.at_start _ _ .off (.inl rfl)
  cases he with
  | port t p hp _ =>
    show t.LineSound
    rcases hp.line_cases with ⟨hl, hr, hi, _⟩ | ⟨hl, hr⟩ | ⟨hc, hl, hr⟩
    · rw [State.lineSound_iff] at h ⊢
      rwa [hl, hr, hi]
    · exact at_rest t hl hr
    · obtain ⟨hline, hround, _⟩ := hb.1 (by rw [hc]; rfl)
      exact at_rest t (hl.trans hline) (hr.trans hround)
  | hardReset => exact at_rest _ rfl rfl
  | release _ => exact at_rest _ rfl rfl
  | complete _ _ =>
    obtain ⟨hl, hr, _⟩ := s.blocksAtCommit_resume_line
    rw [State.lineSound_iff, hl, hr]
    exact Lif.Sound.at_start _ _ .recover (.inr rfl)
  | sample lv _ => exact State.sample_lineSound h lv
  | boundary line hl => exact State.boundary_lineSound h hl line
  | expire hs hr =>
    have hx : s.expire = s.cycleBoundary.restartTimer.judgeExpiry := by
      unfold State.expire
      rw [hs, hr]
      rfl
    obtain ⟨ltxd, _, _, _, _, _, _, _, _, _, hy⟩ := s.expire_changes
    rw [State.lineSound_iff] at h
    rw [← hx, hy]
    exact (State.lineSound_iff _).2 (h.driven ltxd s.line.lrxd s.line.ownMark h.ownMark h.bitTimer)
  | settle _ _ _ _ _ => exact h
  | conversion n raw _ _ _ _ =>
    obtain ⟨_, _, _, _, _, hx⟩ := s.completeConversion_changes
    rw [hx]
    exact h

/-- One crystal period moves LRXD and the bit timer, within the bit (R3). -/
theorem TickEffect.lineSound {s t : State} (h : s.LineSound) (ht : TickEffect s t) : t.LineSound := by
  obtain ⟨_, _, lrxd, bitTimer, _, _, _, _, rfl, _, htimer, _⟩ := ht
  rw [State.lineSound_iff] at h
  have hlt : bitTimer < bitPeriods s.image.settings.rate := by
    rcases htimer with rfl | ⟨_, hlt⟩
    · exact h.bitTimer
    · exact hlt
  exact (State.lineSound_iff _).2 (h.driven s.line.ltxd lrxd s.line.ownMark h.ownMark hlt)

/-- Settles O55: every effect keeps the line sound, and so does a crystal period. -/
theorem stepKeepsLineSound : Obligations.StepKeepsLineSound := by
  intro s t hb h hs
  rcases step_effect hs with ⟨rest, he⟩ | ⟨_, ht⟩
  · exact Effect.lineSound (s := { s with pending := rest }) hb h he
  · exact ht.lineSound h

end Sys2Proof.Machine
end

section
/-! What a station drives in each field of a round (chapter 2): the place of each field in its body, and the ask of each role
in it. -/

namespace Sys2Proof.Machine

/-- Where the station is not suppressed it pulls a bit exactly if the Round Engine asks for it (R6). -/
theorem roundDrive_low_iff {r : Round} {f : Field} (hf : r.field = some f) (address : Address) :
    roundDrive r false address = .low ↔ r.asksPull address f = true := by
  unfold roundDrive
  rw [hf]
  simp

/-- A bit for which the Round Engine does not ask stays HIGH, suppressed or not. -/
theorem roundDrive_high {r : Round} {f : Field} (hf : r.field = some f) {address : Address}
    (ha : r.asksPull address f = false) (suppressed : Bool) : roundDrive r suppressed address = .high := by
  unfold roundDrive
  rw [hf]
  simp [ha]

/-- An observer asks for no pull (R22). -/
theorem Round.asksPull_observer {r : Round} (hr : r.role = .observer) (address : Address) (f : Field) :
    r.asksPull address f = false := by
  unfold Round.asksPull Round.participant
  rw [hr]
  rfl

/-- A participant asks for what its field says (the summary of R23 to R40). -/
theorem Round.asksPull_participant {r : Round} (hr : r.role ≠ .observer) (address : Address) (f : Field) :
    r.asksPull address f = match f with
      | .code _ => r.role == .starter && !r.bitOf address f
      | .presence => r.snapshot.isSome
      | .number _ => r.sendsNumber && !r.bitOf address f
      | .address _ => r.contender && !r.bitOf address f
      | .nonce _ => r.contender && !r.bitOf address f
      | .position k => r.ownPosition k
      | .inverted _ => r.sender && !r.bitOf address f
      | .dissent => r.sender && r.differs
      | .check _ => !r.bitOf address f
      | .objection => r.cause != .none := by
  have hp : r.participant = true := by simpa [Round.participant] using hr
  cases f <;> simp only [Round.asksPull, hp, Bool.true_and]

theorem Round.field_of_code {r : Round} (h : r.phase = .code) : r.field = some (.code r.pos) := by
  unfold Round.field
  rw [h]

theorem Round.field_of_body {r : Round} (h : r.phase = .body) : r.field = some (bodyField r.kind r.pos) := by
  unfold Round.field
  rw [h]

theorem Round.field_of_check {r : Round} (h : r.phase = .check) : r.field = some (.check r.pos) := by
  unfold Round.field
  rw [h]

theorem Round.field_of_objection {r : Round} (h : r.phase = .objection) : r.field = some .objection := by
  unfold Round.field
  rw [h]

/-- The objection bit lies outside the body (R19). -/
theorem bodyField_ne_objection (k : Kind) (n : Nat) : bodyField k n ≠ .objection := by
  unfold bodyField
  cases k <;> dsimp only <;> (repeat' split) <;> nofun

/-- Every kind but the ROSTER begins its body with the presence bit (R26). -/
theorem bodyField_presence {k : Kind} (hk : k ≠ .roster) : bodyField k 0 = .presence := by
  cases k with
  | roster => exact absurd rfl hk
  | _ => rfl

/-- The 16 bits after the presence bit are the number (R19). -/
theorem bodyField_number {k : Kind} (hk : k ≠ .roster) {n : Nat} (h1 : 1 ≤ n) (h16 : n ≤ 16) :
    bodyField k n = .number (n - 1) := by
  have h0 : n ≠ 0 := by omega
  cases k with
  | roster => exact absurd rfl hk
  | _ => simp [bodyField, h0, h16]

/-- MIN and MAX end with the address and the nonce (R19). -/
theorem bodyField_address {k : Kind} (hk : k = .min ∨ k = .max) {n : Nat} (h17 : 17 ≤ n) (h21 : n ≤ 21) :
    bodyField k n = .address (n - 17) := by
  have h0 : n ≠ 0 := by omega
  have h16 : ¬ n ≤ 16 := by omega
  rcases hk with rfl | rfl <;> simp [bodyField, h0, h16, h21]

theorem bodyField_nonce {k : Kind} (hk : k = .min ∨ k = .max) {n : Nat} (h22 : 22 ≤ n) :
    bodyField k n = .nonce (n - 22) := by
  have h0 : n ≠ 0 := by omega
  have h16 : ¬ n ≤ 16 := by omega
  have h21 : ¬ n ≤ 21 := by omega
  rcases hk with rfl | rfl <;> simp [bodyField, h0, h16, h21]

/-- A DIGEST ends with the inverse of the number and the dissent bit (R19). -/
theorem bodyField_inverted {n : Nat} (h17 : 17 ≤ n) (h32 : n ≤ 32) : bodyField .digest n = .inverted (n - 17) := by
  have h0 : n ≠ 0 := by omega
  have h16 : ¬ n ≤ 16 := by omega
  simp [bodyField, h0, h16, h32]

/-- A suppressed station drives nothing before the objection bit (R15). -/
theorem roundDrive_suppressed {r : Round} (h : r.phase ≠ .objection) (address : Address) :
    roundDrive r true address = .high := by
  unfold roundDrive
  cases hf : r.field with
  | none => rfl
  | some f =>
    have ho : f ≠ .objection := fun ho => h (Round.field_objection (ho ▸ hf))
    simp [ho]

/-- A participant pulls the objection bit exactly with an objection cause, suppressed or not (R15, R40). -/
theorem roundDrive_objection {r : Round} (h : r.phase = .objection) (hr : r.role ≠ .observer) (suppressed : Bool)
    (address : Address) : roundDrive r suppressed address = .low ↔ r.cause ≠ .none := by
  unfold roundDrive
  rw [Round.field_of_objection h]
  simp [Round.asksPull_participant hr]

/-- The number: in MIN, MAX and ANCHOR a contender sends it, in the others a sender (R28, R32, R34). -/
theorem roundDrive_number {r : Round} (h : r.phase = .body) (hr : r.role ≠ .observer) (hk : r.kind ≠ .roster)
    (h1 : 1 ≤ r.pos) (h16 : r.pos ≤ 16) (address : Address) :
    (r.sendsNumber = false → roundDrive r false address = .high) ∧
    ∀ x, r.snapshot = some x → r.sendsNumber = true →
      (roundDrive r false address = .low ↔ (encodeNumber r.kind x).getMsbD (r.pos - 1) = false) := by
  have hf : r.field = some (.number (r.pos - 1)) := by rw [Round.field_of_body h, bodyField_number hk h1 h16]
  refine ⟨fun hs => roundDrive_high hf ?_ _, fun x hx hs => ?_⟩
  · simp [Round.asksPull_participant hr, hs]
  · rw [roundDrive_low_iff hf]
    simp [Round.asksPull_participant hr, hs, Round.bitOf, Round.numberSent, hx]

/-- The word of an ANY round is sent inverted, those of ALL and DIGEST as they are (R32, R34). -/
theorem encodeNumber_word_bit {k : Kind} (hk : k = .any ∨ k = .all ∨ k = .digest) (w : Word) {n : Nat} (hn : n < 16) :
    (encodeNumber k (.word w)).getMsbD n = false ↔ w.getMsbD n = decide (k = .any) := by
  rcases hk with rfl | rfl | rfl <;> simp [encodeNumber, hn]

/-- A contender sends its address and its nonce in MIN and MAX (R29). -/
theorem roundDrive_tail {r : Round} (h : r.phase = .body) (hr : r.role ≠ .observer) (hk : r.kind = .min ∨ r.kind = .max)
    (address : Address) :
    (17 ≤ r.pos → r.pos ≤ 21 →
      (roundDrive r false address = .low ↔ r.contender = true ∧ address.getMsbD (r.pos - 17) = false)) ∧
    (22 ≤ r.pos → r.pos ≤ 25 →
      (roundDrive r false address = .low ↔ r.contender = true ∧ r.nonce.getMsbD (r.pos - 22) = false)) := by
  refine ⟨fun h17 h21 => ?_, fun h22 _ => ?_⟩
  · have hf : r.field = some (.address (r.pos - 17)) := by rw [Round.field_of_body h, bodyField_address hk h17 h21]
    rw [roundDrive_low_iff hf]
    simp [Round.asksPull_participant hr, Round.bitOf]
  · have hf : r.field = some (.nonce (r.pos - 22)) := by rw [Round.field_of_body h, bodyField_nonce hk h22]
    rw [roundDrive_low_iff hf]
    simp [Round.asksPull_participant hr, Round.bitOf]

/-- A sender of a DIGEST sends the inverse of its digest, then dissent with a difference (R34, R35). -/
theorem roundDrive_digest_tail {r : Round} (h : r.phase = .body) (hr : r.role ≠ .observer) (hk : r.kind = .digest)
    (address : Address) :
    (17 ≤ r.pos → r.pos ≤ 32 → (r.sender = false → roundDrive r false address = .high) ∧
      ∀ w, r.snapshot = some (.word w) → r.sender = true →
        (roundDrive r false address = .low ↔ w.getMsbD (r.pos - 17) = true)) ∧
    (r.pos = 33 → (roundDrive r false address = .low ↔ r.sender = true ∧ r.differs = true)) := by
  have hf := Round.field_of_body h
  rw [hk] at hf
  refine ⟨fun h17 h32 => ?_, fun h33 => ?_⟩
  · rw [bodyField_inverted h17 h32] at hf
    refine ⟨fun hs => roundDrive_high hf ?_ _, fun w hw hs => ?_⟩
    · simp [Round.asksPull_participant hr, hs]
    · have hn : r.pos - 17 < 16 := by omega
      rw [roundDrive_low_iff hf]
      simp [Round.asksPull_participant hr, hs, Round.bitOf, Round.numberSent, hw, hk, encodeNumber, hn]
  · rw [h33] at hf
    rw [roundDrive_low_iff hf]
    simp [Round.asksPull_participant hr, bodyField]

/-- Settles O46: each field's ask, at its place in the round. -/
theorem rolesDriveTheirFields : Obligations.RolesDriveTheirFields := by
  intro r suppressed address
  refine ⟨fun hr => ?observer, fun h => roundDrive_suppressed h address, fun h hr => roundDrive_objection h hr _ _, ?joiner,
    ?starter, ?check, ?presence, ?number, fun h hr hk => roundDrive_tail h hr hk address,
    fun h hr hk => roundDrive_digest_tail h hr hk address, ?roster⟩
  case observer =>
    cases hf : r.field with
    | none => simp [roundDrive, hf]
    | some f => exact roundDrive_high hf (Round.asksPull_observer hr address f) _
  case joiner =>
    intro h hr
    refine roundDrive_high (Round.field_of_code h) ?_ _
    simp [Round.asksPull_participant (r := r) (by rw [hr]; nofun), hr]
  case starter =>
    intro h hr
    rw [roundDrive_low_iff (Round.field_of_code h)]
    simp [Round.asksPull_participant (r := r) (by rw [hr]; nofun), hr, Round.bitOf]
  case check =>
    intro h hr
    rw [roundDrive_low_iff (Round.field_of_check h)]
    simp [Round.asksPull_participant hr, Round.bitOf]
  case presence =>
    intro h h0 hk hr
    have hf := Round.field_of_body h
    rw [h0, bodyField_presence hk] at hf
    rw [roundDrive_low_iff hf]
    simp [Round.asksPull_participant hr, Option.isSome_iff_ne_none]
  case number =>
    intro h hr h1 h16
    refine ⟨fun hk => ?_, fun hk => ?_⟩
    · have hs : r.sendsNumber = r.contender := by
        rcases hk with hk | hk | hk <;> simp [Round.sendsNumber, hk, contends]
      rw [← hs]
      exact roundDrive_number h hr (by rcases hk with hk | hk | hk <;> rw [hk] <;> nofun) h1 h16 address
    · have hs : r.sendsNumber = r.sender := by
        rcases hk with hk | hk | hk <;> simp [Round.sendsNumber, hk, contends]
      rw [← hs]
      obtain ⟨hh, hl⟩ := roundDrive_number h hr (by rcases hk with hk | hk | hk <;> rw [hk] <;> nofun) h1 h16 address
      exact ⟨hh, fun w hw hsend => (hl _ hw hsend).trans (encodeNumber_word_bit hk w (by omega))⟩
  case roster =>
    intro h hk hr _ a ha
    have hf := Round.field_of_body h
    rw [hk] at hf
    rw [roundDrive_low_iff hf]
    simp only [Round.asksPull_participant hr, bodyField, Round.ownPosition, ha, beq_iff_eq]
    exact eq_comm

end Sys2Proof.Machine
end

section
/-! The end of a commit (R69, R94, R106, R121, R130, R148, R167), and what the beginning of a scan does to the Measurement
Engine. -/

namespace Sys2Proof.Machine

/-- A scan begun takes its first slot, or ends at once, counted (R80, R81). -/
theorem State.beginScan_scanBegun (s : State) : scanBegun s.image s.meas s.beginScan.meas := by
  refine ⟨fun n hn => ?_, fun hn => ?_⟩
  · rw [State.beginScan_some (nextTaken_eq_some.2 hn)]
    rfl
  · rw [State.beginScan_none (nextTaken_eq_none.2 hn)]
    rfl

/-- A schedule has a divisor exactly if it is not ON_REQUEST (R49). -/
theorem isScheduled_iff (e : RoundEntry) : isScheduled e = true ↔ e.schedule ≠ .onRequest := by
  unfold isScheduled divisor
  cases e.schedule <;> simp

/-- The scheduled set at the end of a commit: a fresh entry for every code with a divisor (R69). -/
theorem mem_scheduledAtCommit {im : Image} {e : SchedEntry} :
    e ∈ scheduledAtCommit im ↔ e.retries = 0 ∧ e.part = .current ∧
      ∃ r ∈ imageEntries im, r.code = e.code ∧ r.schedule ≠ .onRequest := by
  unfold scheduledAtCommit
  rw [mem_sortByCode, List.mem_map]
  constructor
  · rintro ⟨r, hr, rfl⟩
    obtain ⟨hmem, hsched⟩ := List.mem_filter.1 hr
    exact ⟨rfl, rfl, r, hmem, rfl, (isScheduled_iff r).1 hsched⟩
  · rintro ⟨hretries, hpart, r, hmem, hcode, hsched⟩
    refine ⟨r, List.mem_filter.2 ⟨hmem, (isScheduled_iff r).2 hsched⟩, ?_⟩
    obtain ⟨code, retries, part⟩ := e
    cases hretries
    cases hpart
    cases hcode
    rfl

/-- A peer entry at the end of a commit knows only whether its address is expected (R130). -/
theorem peersAtCommit_entry (expected : AddressSet) (a : Fin 32) :
    (peersAtCommit expected).entries[a] = { expected := expected.getLsbD a.val } := by
  simp [peersAtCommit]

/-- A resuming scan engine moves itself alone (R90). -/
theorem State.resume_only (s : State) : s.resume = { s with meas := s.resume.meas } := by
  obtain ⟨_, _, _, _, _, h⟩ := s.resume_changes
  rw [h]

/-- Settles O13: the blocks start under the committed image, and the scan engine as after STOPPED. -/
theorem commitCompleteStartsTheBlocks : Obligations.CommitCompleteStartsTheBlocks := by
  intro s hs
  have hexec : exec .commitComplete s = .next s.completeCommit := by
    rw [exec_commitComplete, hs]
    rfl
  rw [hexec]
  unfold State.completeCommit
  refine ⟨fun hc => by rw [if_neg hc], fun hc => ?_⟩
  rw [if_pos hc]
  refine ⟨_, rfl, ?_, ?_, ?_, ?_, ?_⟩
  · rw [State.resume_only]
    rfl
  · intro e
    rw [State.resume_only]
    exact mem_scheduledAtCommit
  · intro a
    rw [State.resume_only]
    exact peersAtCommit_entry _ a
  · intro hm
    rw [State.resume_rest (s := s.blocksAtCommit) hm]
    rfl
  · intro hm
    rw [State.resume_continuous (s := s.blocksAtCommit) hm]
    exact s.blocksAtCommit.beginScan_scanBegun

end Sys2Proof.Machine
end

section
/-! Sample points by the state of the line engine (R7 to R16): what each transition outside a round leaves, and the sample
points that the named events of the line stand for (log entry 6). -/

namespace Sys2Proof.Machine

/-- The counters after a HIGH sample (R7). -/
theorem State.counted_high (s : State) : s.counted .high = { s with line := { s.line with
    lrxd := .high, bitTimer := samplePeriods s.image.settings.rate, idleRun := min 11 (s.line.idleRun + 1), lowRun := 0 } } :=
  rfl

/-- The counters after a LOW sample (R7). -/
theorem State.counted_low (s : State) : s.counted .low = { s with line := { s.line with
    lrxd := .low, bitTimer := samplePeriods s.image.settings.rate, idleRun := 0, lowRun := min 64 (s.line.lowRun + 1) } } :=
  rfl

/-- The sample that brings the idle run to 11 in RECOVER or STUCK enters IDLE (R9, R14). -/
theorem State.sample_enters_idle {s : State} (hs : s.held = false)
    (he : s.line.engine = .recover ∨ s.line.engine = .stuck) (hi : 10 ≤ s.line.idleRun) :
    s.sample .high = (s.counted .high).toIdle := by
  have h11 : (s.counted .high).line.idleRun = 11 := by
    rw [State.counted_high]
    exact Nat.min_eq_left (by omega)
  rcases he with he | he
  · rw [State.sample_recover hs he, State.sampleRecover, if_pos h11]
  · rw [State.sample_stuck hs he, State.sampleStuck, if_pos h11]

/-- The sample that brings the LOW run to 64 in RECOVER enters STUCK (R13). -/
theorem State.sample_enters_stuck {s : State} (hs : s.held = false) (he : s.line.engine = .recover)
    (hl : 63 ≤ s.line.lowRun) : s.sample .low = (s.counted .low).toStuck := by
  have h64 : (s.counted .low).line.lowRun = 64 := by
    rw [State.counted_low]
    exact Nat.min_eq_left (by omega)
  have h0 : (s.counted .low).line.idleRun ≠ 11 := nofun
  rw [State.sample_recover hs he, State.sampleRecover, if_neg h0, if_pos h64]

/-- The second sample of a start mark (R10). -/
theorem State.sample_second {s : State} (hs : s.held = false) (he : s.line.engine = .idle) (hf : s.line.firstLow = true)
    (lv : Level) : s.sample lv = (s.counted lv).sampleSecond lv := by
  rw [State.sample_idle hs he, State.sampleIdle, if_pos (by exact hf)]

/-- A sample in IDLE with no first LOW noted (R10). -/
theorem State.sample_first {s : State} (hs : s.held = false) (he : s.line.engine = .idle) (hf : s.line.firstLow = false)
    (lv : Level) : s.sample lv = (s.counted lv).sampleFirst lv := by
  have hc : ¬ (s.counted lv).line.firstLow = true := by
    show ¬ s.line.firstLow = true
    rw [hf]
    nofun
  rw [State.sample_idle hs he, State.sampleIdle, if_neg hc]

theorem State.isDriveFault_eq (s : State) (lv : Level) : s.isDriveFault lv = decide (s.line.ltxd = .low ∧ lv = .high) := by
  unfold State.isDriveFault
  cases s.line.ltxd <;> cases lv <;> rfl

/-- A short start, with a drive fault or without (R10, R16). -/
theorem State.countFault_shortStart (s : State) (fault : Bool) : (s.countFault fault).shortStart = { s with
    line := { s.line with engine := .recover, firstLow := false, ownMark := .none }
    control.counters := { s.control.counters with
      shortStarts := satInc s.control.counters.shortStarts
      driveFaults := if fault then satInc s.control.counters.driveFaults else s.control.counters.driveFaults } } := by
  cases fault <;> rfl

/-- A HIGH after a first LOW is a short start, and a drive fault besides where the station pulled (R10, R16). -/
theorem State.sampleSecond_high (s : State) : s.sampleSecond .high = { s with
    line := { s.line with engine := .recover, firstLow := false, ownMark := .none }
    control.counters := { s.control.counters with
      shortStarts := satInc s.control.counters.shortStarts
      driveFaults := if s.line.ltxd = .low then satInc s.control.counters.driveFaults
        else s.control.counters.driveFaults } } := by
  show (s.countFault (s.isDriveFault .high)).shortStart = _
  rw [State.isDriveFault_eq, State.countFault_shortStart]
  simp

/-- The round that a start mark opens (R22): an ACTIVE station starts it with the code of its own mark, where it pulled the
mark's second bit, and else joins it. -/
theorem openRound_eq (station : StationState) (l : Lif) (cycle : Word) :
    openRound station l.ownCode.isSome (l.ownCode.getD 0) cycle = {
      phase := .code, cycle := cycle, check := 0xFF
      role := match station, l.ltxd, l.ownMark with
        | .active, .low, .own _ => .starter
        | .active, _, _ => .joiner
        | _, _, _ => .observer
      ownCode := match l.ltxd, l.ownMark with
        | .low, .own c => c
        | _, _ => 0 } := by
  unfold openRound Lif.ownCode
  cases l.ltxd <;> cases l.ownMark <;> cases station <;> rfl

/-- Settles O36: each transition is one sample of the line engine. -/
theorem lineEngineTransitions : Obligations.LineEngineTransitions := by
  intro s hs
  refine ⟨fun he hi => ?_, fun he hl => ?_, fun he hf => ⟨?_, ?_⟩, fun he hf hm hl => ?_, fun he hf hm hl => ?_⟩
  · have hc : s.aboutToIdle = true := by rcases he with he | he <;> simp [State.aboutToIdle, he, hi]
    rw [exec_enterIdle, State.onlyIf_true hc, State.sample_enters_idle hs he (by omega), State.counted_high, hi]
    rfl
  · have hc : s.aboutToStick = true := by simp [State.aboutToStick, he, hl]
    rw [exec_enterStuck, State.onlyIf_true hc, State.sample_enters_stuck hs he (by omega), State.counted_low, hl]
    rfl
  · have hc : s.deciding = true := by simp [State.deciding, he, hf]
    rw [exec_shortStart, State.onlyIf_true hc, State.sample_second hs he hf, State.sampleSecond_high, State.counted_high]
  · have hc : s.deciding = true := by simp [State.deciding, he, hf]
    rw [exec_startMark, State.onlyIf_true hc, State.sample_second hs he hf]
    show Host.Outcome.next (s.counted .low).openMark = _
    unfold State.openMark
    rw [openRound_eq]
    rfl
  · have hc : s.pullsMark = true := by simp [State.pullsMark, he, hm, hl]
    rw [exec_startMarkDriveFault, State.onlyIf_true hc, State.sample_second hs he hf, State.sampleSecond_high,
      State.counted_high]
    simp [hl]
  · have hc : s.pullsMark = true := by simp [State.pullsMark, he, hm, hl]
    rw [exec_startMarkDriveFault, State.onlyIf_true hc, State.sample_first hs he hf, State.counted_high]
    simp only [State.sampleFirst, State.isDriveFault_eq, hl, and_self, decide_true, if_true]
    rfl

end Sys2Proof.Machine
end

section
/-! SAMPLE_POINT: what every sample keeps of the line and of Station Control, and the named events it may be (R7; log
entry 6). -/

namespace Sys2Proof.Machine

/-- Outside a round a sample counts the runs, and moves the engine with its notes and LTXD at most; the fault window
stands. -/
theorem State.sample_outside_round {s : State} (hs : s.held = false) (ho : s.line.engine ≠ .off)
    (hr : s.line.engine ≠ .round) (lv : Level) :
    ∃ engine ltxd firstLow mark suppressed, (s.sample lv).line =
      { (s.counted lv).line with
        engine := engine, ltxd := ltxd, firstLow := firstLow, ownMark := mark, suppressed := suppressed } ∧
      (s.sample lv).control.window = s.control.window := by
  cases he : s.line.engine with
  | off => exact absurd he ho
  | round => exact absurd he hr
  | recover =>
    rw [State.sample_recover hs he]
    unfold State.sampleRecover
    split
    · exact ⟨_, _, _, _, _, rfl, rfl⟩
    split
    · exact ⟨_, _, _, _, _, rfl, rfl⟩
    · exact ⟨_, _, _, _, _, rfl, rfl⟩
  | stuck =>
    rw [State.sample_stuck hs he]
    unfold State.sampleStuck
    split
    · exact ⟨_, _, _, _, _, rfl, rfl⟩
    · exact ⟨_, _, _, _, _, rfl, rfl⟩
  | idle =>
    rw [State.sample_idle hs he]
    unfold State.sampleIdle State.sampleFirst
    split
    · cases lv
      · exact ⟨_, _, _, _, _, rfl, rfl⟩
      · rw [State.sampleSecond_high]
        exact ⟨_, _, _, _, _, rfl, rfl⟩
    · cases lv
      · exact ⟨_, _, _, _, _, rfl, rfl⟩
      · dsimp only
        split
        · exact ⟨_, _, _, _, _, rfl, rfl⟩
        · exact ⟨_, _, _, _, _, rfl, rfl⟩

/-- In a round a sample counts the runs; the line stays in the round, or leaves it with idle run 0 (R12, R25, R43). -/
theorem State.sample_inside_round {s : State} (hs : s.held = false) (he : s.line.engine = .round) (lv : Level) :
    (s.sample lv).line = { (s.counted lv).line with suppressed := s.line.suppressed || s.isDriveFault lv } ∨
    (s.sample lv).line = { (s.counted lv).line with engine := .recover, idleRun := 0, suppressed := false } := by
  rw [State.sample_round_bit hs he]
  generalize hu : ({ s with
    line := { (s.counted lv).line with suppressed := s.line.suppressed || s.isDriveFault lv }
    control.counters.driveFaults :=
      if s.isDriveFault lv then satInc s.control.counters.driveFaults else s.control.counters.driveFaults } : State) = u
  have hline : u.line = { (s.counted lv).line with suppressed := s.line.suppressed || s.isDriveFault lv } := by
    rw [← hu]
  rcases u.roundBit_round lv (s.isDriveFault lv) s.line.suppressed with
    ⟨_, h⟩ | ⟨_, _, _, _, h, _⟩ | ⟨_, _, _, _, h, _⟩ | ⟨_, h, _⟩
  · exact .inl (by rw [h, hline])
  · exact .inl (by rw [h, hline])
  · exact .inl (by rw [h, hline])
  · exact .inr (by rw [h, hline])

/-- Every sample that is taken sets LRXD, the LOW run and the bit timer, and the idle run unless it leaves a round, which it
does into RECOVER with idle run 0 (R7, R12). -/
theorem State.sample_runs {s : State} (hs : s.held = false) (ho : s.line.engine ≠ .off) (lv : Level) :
    (s.sample lv).line.lrxd = lv ∧
    (s.sample lv).line.lowRun = (if lv = .low then min 64 (s.line.lowRun + 1) else 0) ∧
    (s.sample lv).line.bitTimer = samplePeriods s.image.settings.rate ∧
    (s.line.engine ≠ .round ∨ (s.sample lv).line.engine = .round →
      (s.sample lv).line.idleRun = if lv = .high then min 11 (s.line.idleRun + 1) else 0) ∧
    (s.line.engine = .round → (s.sample lv).line.engine ≠ .round →
      (s.sample lv).line.engine = .recover ∧ (s.sample lv).line.idleRun = 0) := by
  by_cases he : s.line.engine = .round
  · rcases State.sample_inside_round hs he lv with hl | hl
    · rw [hl]
      exact ⟨rfl, rfl, rfl, fun _ => rfl, fun _ hn => absurd he hn⟩
    · rw [hl]
      refine ⟨rfl, rfl, rfl, fun h => ?_, fun _ _ => ⟨rfl, rfl⟩⟩
      rcases h with h | h
      · exact absurd he h
      · cases h
  · obtain ⟨_, _, _, _, _, hl, _⟩ := State.sample_outside_round hs ho he lv
    rw [hl]
    exact ⟨rfl, rfl, rfl, fun _ => rfl, fun h => absurd h he⟩

/-- The fault window takes an entry at the objection bit alone, and it is the newest (R41, R156). -/
theorem State.roundBit_window (s : State) (bit : Level) (fault suppressed : Bool) :
    (s.roundBit bit fault suppressed).control.window.getLsbD 0 =
      if s.round.phase = .objection then s.round.isFault else s.control.window.getLsbD 0 := by
  cases hf : s.round.field with
  | none =>
    have hp : s.round.phase ≠ .objection := by
      rw [Round.field_eq_none.1 hf]
      nofun
    unfold State.roundBit
    rw [hf, if_neg hp]
  | some f =>
    by_cases ho : f = .objection
    · subst ho
      obtain ⟨_, _, _, _, _, _, _, _, h⟩ := s.leaveRound.deliverRecord_changes (s.round.recordOf bit) s.round.isFault
      rw [State.roundBit_objection hf, if_pos (Round.field_objection hf), State.deliver, h]
      simp [windowAfter, shiftIn]
    · have hp : s.round.phase ≠ .objection := fun hp => ho (by
        rw [Round.field_of_objection hp] at hf
        exact (Option.some.inj hf).symm)
      rw [if_neg hp]
      by_cases hc : f = .code 5
      · subst hc
        rw [State.roundBit_codeEnd hf]
        obtain ⟨_, _, _, _, _, _, _, _, _, _, _, _, _, _, _, _, _, h⟩ := State.recognise_changes
          { s with round := s.round.takeBit (.code 5) bit fault suppressed s.image.settings.address s.control.digest }
        rw [h]
      · rw [State.roundBit_inner hf hc ho]

/-- The newest entry of the fault window after a sample (R41, R156). -/
theorem State.sample_window {s : State} (hs : s.held = false) (ho : s.line.engine ≠ .off) (lv : Level) :
    (s.sample lv).control.window.getLsbD 0 = if s.line.engine = .round ∧ s.round.phase = .objection then s.round.isFault
      else s.control.window.getLsbD 0 := by
  by_cases he : s.line.engine = .round
  · rw [State.sample_round_bit hs he, State.roundBit_window]
    simp [he]
  · obtain ⟨_, _, _, _, _, _, h⟩ := State.sample_outside_round hs ho he lv
    rw [h, if_neg fun hc => he hc.1]

/-- A sample in RECOVER that ends neither run counts alone (R9, R13). -/
theorem State.sample_recover_stays {s : State} (hs : s.held = false) (he : s.line.engine = .recover) {lv : Level}
    (hi : lv = .high → s.line.idleRun < 10) (hl : lv = .low → s.line.lowRun < 63) : s.sample lv = s.counted lv := by
  have runs := s.counted_runs lv
  rw [State.sample_recover hs he, State.sampleRecover, if_neg, if_neg]
  · rcases runs with ⟨_, hc, hlv⟩ | ⟨_, hc, _⟩
    · have := hl hlv
      omega
    · omega
  · rcases runs with ⟨hc, _, _⟩ | ⟨hc, _, hlv⟩
    · omega
    · have := hi hlv
      omega

/-- A sample in STUCK that does not end the idle run counts alone (R14). -/
theorem State.sample_stuck_stays {s : State} (hs : s.held = false) (he : s.line.engine = .stuck) {lv : Level}
    (hi : lv = .high → s.line.idleRun < 10) : s.sample lv = s.counted lv := by
  rw [State.sample_stuck hs he, State.sampleStuck, if_neg]
  rcases s.counted_runs lv with ⟨hc, _, _⟩ | ⟨hc, _, hlv⟩
  · omega
  · have := hi hlv
    omega

/-- A HIGH in IDLE, with no first LOW and nothing pulled, counts alone (R10). -/
theorem State.sample_first_high {s : State} (hs : s.held = false) (he : s.line.engine = .idle)
    (hf : s.line.firstLow = false) (hl : s.line.ltxd = .high) : s.sample .high = s.counted .high := by
  have hd : ¬ (s.counted .high).isDriveFault .high = true := by
    rw [State.isDriveFault_eq]
    show ¬ decide (s.line.ltxd = .low ∧ _) = true
    simp [hl]
  rw [State.sample_first hs he hf]
  exact if_neg hd

/-- Settles O35: what each sample keeps, the samples that make no transition, and the named event each other sample is. -/
theorem samplesKeepTheRuns : Obligations.SamplesKeepTheRuns := by
  intro s lv fault counted
  refine ⟨fun h => ?off, fun hs ho => ?kept, fun hs => ⟨fun he hi hl => ?_, fun he hi => ?_, fun he hf => ⟨?_, ?_⟩, ?_⟩,
    ?toIdle, ?toStuck, fun he hf => ⟨?_, ?_⟩, ?markFault, ?roundFault, ?codeEnd, ?objection⟩
  case off => rw [exec_samplePoint, State.sample_of_not_listens (State.listens_false h)]
  case kept =>
    refine ⟨s.sample lv, exec_samplePoint lv s, ?_⟩
    obtain ⟨_, _, _, _, _, _, _, _, _, _, _, _, _, _, _, _, _, _, _, hx⟩ := s.sample_changes lv
    have stands : (s.sample lv).image = s.image ∧ (s.sample lv).port = s.port ∧ (s.sample lv).resetn = s.resetn ∧
        (s.sample lv).control.station = s.control.station := by
      rw [hx]
      exact ⟨rfl, rfl, rfl, rfl⟩
    obtain ⟨himage, hport, hresetn, hstation⟩ := stands
    obtain ⟨hlrxd, hlow, htimer, hidle, hleft⟩ := State.sample_runs hs ho lv
    exact ⟨hlrxd, hlow, htimer, hidle, hleft, himage, hport, hresetn, hstation, State.sample_window hs ho lv⟩
  · rw [exec_samplePoint, State.sample_recover_stays hs he hi hl]
    rfl
  · rw [exec_samplePoint, State.sample_stuck_stays hs he hi]
    rfl
  · rintro rfl
    rw [exec_samplePoint, State.sample_first hs he hf]
    rfl
  · rintro rfl hl
    rw [exec_samplePoint, State.sample_first_high hs he hf hl]
    rfl
  · intro he f hfield hc ho
    have hd : s.isDriveFault lv = fault := s.isDriveFault_eq lv
    rw [exec_samplePoint, State.sample_round_inner hs he hfield hc ho, hd]
    rfl
  case toIdle =>
    rintro rfl he hi
    rw [exec_samplePoint, exec_enterIdle, State.onlyIf_true]
    rcases he with he | he <;> simp [State.aboutToIdle, he, hi]
  case toStuck =>
    rintro rfl he hl
    rw [exec_samplePoint, exec_enterStuck, State.onlyIf_true]
    simp [State.aboutToStick, he, hl]
  · rintro rfl
    rw [exec_samplePoint, exec_shortStart, State.onlyIf_true]
    simp [State.deciding, he, hf]
  · rintro rfl
    rw [exec_samplePoint, exec_startMark, State.onlyIf_true]
    simp [State.deciding, he, hf]
  case markFault =>
    rintro rfl he hm hl
    rw [exec_samplePoint, exec_startMarkDriveFault, State.onlyIf_true]
    simp [State.pullsMark, he, hm, hl]
  case roundFault =>
    rintro rfl he hl
    rw [exec_samplePoint, exec_driveFault, State.onlyIf_true]
    simp [State.pullsRound, he, hl]
  case codeEnd =>
    intro he hp h5
    rw [exec_samplePoint, exec_codeRecognition, State.onlyIf_true]
    simp [State.atCodeEnd, he, hp, h5]
  case objection =>
    intro he hp
    rw [exec_samplePoint, exec_outcomeDelivery, State.onlyIf_true]
    simp [State.atObjection, he, hp]

end Sys2Proof.Machine
end

section
/-! Boundaries (R3 to R6, R11, R66): the lowest startable code, the conditions of a start mark, and the level a boundary gives
LTXD. -/

namespace Sys2Proof.Machine

/-- The lower of two codes is one of them and at most each (R66). -/
theorem lowerCode_spec (a b : Code) : (lowerCode a b = a ∨ lowerCode a b = b) ∧ lowerCode a b ≤ a ∧ lowerCode a b ≤ b := by
  unfold lowerCode
  split
  · next h => exact ⟨.inl rfl, BitVec.le_refl a, h⟩
  · next h => exact ⟨.inr rfl, BitVec.le_of_lt (BitVec.not_le.1 h), BitVec.le_refl b⟩

/-- Folding the lower code over a list finds its lowest code. -/
theorem foldl_lowerCode_spec (l : List Code) (c : Code) :
    l.foldl lowerCode c ∈ c :: l ∧ ∀ d ∈ c :: l, l.foldl lowerCode c ≤ d := by
  induction l generalizing c with
  | nil => simp
  | cons b l ih =>
    obtain ⟨hmem, hle⟩ := ih (lowerCode c b)
    obtain ⟨hor, hc, hb⟩ := lowerCode_spec c b
    have hlow := hle _ List.mem_cons_self
    refine ⟨?_, fun d hd => ?_⟩
    · rcases List.mem_cons.1 hmem with h | h
      · rw [List.foldl_cons, h]
        rcases hor with h | h <;> simp [h]
      · exact List.mem_cons_of_mem _ (List.mem_cons_of_mem _ h)
    · rcases List.mem_cons.1 hd with rfl | hd
      · exact BitVec.le_trans hlow hc
      rcases List.mem_cons.1 hd with rfl | hd
      · exact BitVec.le_trans hlow hb
      · exact hle d (List.mem_cons_of_mem _ hd)

theorem lowestCode_eq_none {l : List Code} : lowestCode l = none ↔ l = [] := by
  cases l <;> simp [lowestCode]

theorem lowestCode_eq_some {l : List Code} {c : Code} : lowestCode l = some c ↔ c ∈ l ∧ ∀ d ∈ l, c ≤ d := by
  cases l with
  | nil => simp [lowestCode]
  | cons a l =>
    obtain ⟨hmem, hle⟩ := foldl_lowerCode_spec l a
    refine ⟨fun h => ?_, fun ⟨hc, hmin⟩ => ?_⟩
    · cases h
      exact ⟨hmem, hle⟩
    · exact congrArg some (BitVec.le_antisymm (hle c hc) (hmin _ hmem))

theorem mem_startable {q : Scheduler} {c : Code} : c ∈ startable q ↔ mayStart q c := by
  simp [startable, mayStart, and_assoc]

/-- The offered code is the lowest startable one (R66). -/
theorem offered_eq_some {q : Scheduler} {c : Code} : offered q = some c ↔ mayStart q c ∧ ∀ d, mayStart q d → c ≤ d := by
  simp only [offered, lowestCode_eq_some, mem_startable]

/-- No code is offered exactly where none is startable (R66). -/
theorem offered_eq_none {q : Scheduler} : offered q = none ↔ ¬ ∃ c, mayStart q c := by
  simp only [offered, lowestCode_eq_none, List.eq_nil_iff_forall_not_mem, mem_startable, not_exists]

/-- Where a start mark may begin, it begins with the offered code (R11). -/
theorem State.startCode_of_mayBegin {s : State} {line : Level} (h : s.mayBegin line) : s.startCode line = offered s.sched :=
  if_pos h

theorem State.startCode_of_not_mayBegin {s : State} {line : Level} (h : ¬ s.mayBegin line) : s.startCode line = none :=
  if_neg h

/-- A start mark begins where R11's conditions hold and a code is startable, and nowhere else. -/
theorem State.startCode_eq_none {s : State} {line : Level} :
    s.startCode line = none ↔ ¬ (s.mayBegin line ∧ ∃ c, mayStart s.sched c) := by
  by_cases h : s.mayBegin line
  · rw [State.startCode_of_mayBegin h, offered_eq_none]
    simp [h]
  · rw [State.startCode_of_not_mayBegin h]
    simp [h]

/-- The level a boundary gives LTXD where no start mark begins or has failed (R1, R6, R11). -/
theorem State.driveLevel_eq (s : State) : s.driveLevel = match s.control.station, s.line.engine, s.line.ownMark with
    | .active, .idle, .own _ => .low
    | .active, .round, _ => roundDrive s.round s.line.suppressed s.image.settings.address
    | _, _, _ => .high := by
  unfold State.driveLevel
  cases s.control.station with
  | active =>
    cases s.line.engine with
    | idle => cases s.line.ownMark <;> rfl
    | _ => rfl
  | _ => rfl

/-- What a boundary drives (R6, R11, R16): nothing after a failed first bit, the first bit of a mark that begins, and else
the level the engine asks for. -/
theorem State.driveNext_failed {s : State} (h : s.line.ownMark = .failed) (line : Level) :
    s.driveNext line = { s with line.ownMark := .none, line.ltxd := .high } := by
  unfold State.driveNext
  rw [h]

theorem State.driveNext_begins {s : State} (h : s.line.ownMark ≠ .failed) {line : Level} {c : Code}
    (hc : s.startCode line = some c) : s.driveNext line = { s with line.ownMark := .own c, line.ltxd := .low } := by
  unfold State.driveNext
  rw [hc]
  cases hm : s.line.ownMark with
  | failed => exact absurd hm h
  | _ => rfl

theorem State.driveNext_follows {s : State} (h : s.line.ownMark ≠ .failed) {line : Level} (hc : s.startCode line = none) :
    s.driveNext line = { s with line.ltxd := s.driveLevel } := by
  unfold State.driveNext
  rw [hc]
  cases hm : s.line.ownMark with
  | failed => exact absurd hm h
  | _ => rfl

/-- A boundary that ends no round drives the line from its own level of LRXD and a bit timer at 0 (R3, R6). -/
theorem State.boundary_quiet {s : State} (hs : s.held = false) (ho : s.line.engine ≠ .off)
    (he : s.control.roundEnding = false) (line : Level) :
    s.boundary line = ({ s with line := { s.line with lrxd := line, bitTimer := 0 } } : State).driveNext line := by
  rw [State.boundary_of_listens (State.listens_of hs ho), State.endRound_of_not_ending (by exact he)]

/-- Settles O41: a boundary's level in each case of the own start mark. -/
theorem boundariesDriveTheLine : Obligations.BoundariesDriveTheLine := by
  intro s line placed driven
  have hdriven : s.driveLevel = driven := s.driveLevel_eq
  have follows : ∀ lv : Level, s.held = false → s.line.engine ≠ .off → s.control.roundEnding = false →
      s.line.ownMark ≠ .failed → s.startCode lv = none → s.boundary lv = placed lv s.line.ownMark driven := by
    intro lv hs ho he hm hn
    rw [State.boundary_quiet hs ho he, State.driveNext_follows (by exact hm) (by exact hn), ← hdriven]
    rfl
  have begins : ∀ (lv : Level) (c : Code), s.held = false → s.control.roundEnding = false → s.mayBegin lv →
      offered s.sched = some c → s.boundary lv = placed lv (.own c) .low := by
    intro lv c hs he hb hc
    obtain ⟨_, hidle, _, hmark, _⟩ := id hb
    rw [State.boundary_quiet hs (by rw [hidle]; nofun) he, State.driveNext_begins (c := c)]
    · show s.line.ownMark ≠ .failed
      rw [hmark]
      nofun
    · exact (State.startCode_of_mayBegin hb).trans hc
  have fails : ∀ lv : Level, s.held = false → s.line.engine ≠ .off → s.control.roundEnding = false →
      s.line.ownMark = .failed → s.boundary lv = placed lv .none .high := by
    intro lv hs ho he hm
    rw [State.boundary_quiet hs ho he, State.driveNext_failed (by exact hm)]
  refine ⟨fun h => ⟨?_, ?_⟩, fun h => ?_, fun hs ho he => ⟨fun hm => ⟨?_, ?_⟩, fun hb c hc hmin => ?_, fun hm hn => ?_,
    fun hm => ?_⟩, ?_, fun hb hc => ?_, fun hn => ?_, fun hs he hb c hc => ⟨?_, offered_eq_some.1 hc⟩, offered_eq_none⟩
  · rw [exec_bitBoundary, State.boundary_of_not_listens (State.listens_false h)]
  · rw [exec_lrxdFallingEdge, State.boundary_of_not_listens (State.listens_false h)]
  · rw [exec_bitBoundary, exec_roundEnd, State.onlyIf_true h]
  · rw [exec_bitBoundary, fails line hs ho he hm]
  · rw [exec_lrxdFallingEdge, fails .low hs ho he hm]
  · rw [exec_bitBoundary, begins line c hs he hb (offered_eq_some.2 ⟨hc, hmin⟩)]
  · rw [exec_bitBoundary, follows line hs ho he hm (State.startCode_eq_none.2 hn)]
  · have hlow : ¬ s.mayBegin .low := fun ⟨_, _, _, _, h⟩ => nomatch h
    rw [exec_lrxdFallingEdge, follows .low hs ho he hm (State.startCode_of_not_mayBegin hlow)]
  · rintro rfl
    rw [exec_lrxdFallingEdge, exec_bitBoundary]
  · have hsome : (s.startCode .high).isSome = true := by
      rw [Option.isSome_iff_ne_none, Ne, State.startCode_eq_none]
      exact not_not_intro ⟨hb, hc⟩
    rw [exec_beginStartMark, State.onlyIf_true hsome, exec_bitBoundary]
  · have hnone : (s.startCode .high).isSome = false := by
      rw [State.startCode_eq_none.2 hn]
      rfl
    rw [exec_beginStartMark, State.onlyIf_false hnone]
  · have hsome : (s.startCode .high).isSome = true := by
      rw [State.startCode_of_mayBegin hb, hc]
      rfl
    rw [exec_beginStartMark, State.onlyIf_true hsome, begins .high c hs he hb hc]

end Sys2Proof.Machine
end

section
/-! The sixth code bit (R23, R25): what a bit with or without a drive fault leaves of a round, what an anchor notice reaches,
and the recognition of the code. -/

namespace Sys2Proof.Machine

/-- The objection cause after a drive fault or none: a participant keeps the first cause found (R15, R21). -/
theorem Round.noteFault_cause (r : Round) (fault : Bool) :
    (r.role = .observer → (r.noteFault fault).cause = r.cause) ∧
    (r.role ≠ .observer → (r.noteFault fault).cause =
      if r.cause ≠ .none then r.cause else if fault then .driveFault else .none) := by
  unfold Round.noteFault Round.participant
  refine ⟨fun hr => by simp [hr], fun hr => ?_⟩
  cases fault <;> cases hc : r.cause <;> simp [hr, hc, ObjectionCause.found]

/-- No bit but a LOW one of the check field adds an objection cause to that of its drive fault (R38). -/
theorem Round.takeBit_cause (r : Round) (f : Field) (bit : Level) (fault suppressed : Bool) (address : Address)
    (digest : Word) (h : bit = .high ∨ ∀ k, f ≠ .check k) :
    (r.takeBit f bit fault suppressed address digest).cause = (r.noteFault fault).cause := by
  rw [Round.takeBit_eq]
  show ((r.noteFault fault).takeField f bit fault suppressed address digest).cause = _
  by_cases hc : ∀ k, f ≠ .check k
  · exact ((r.noteFault fault).takeField_cause bit fault suppressed address digest hc).1
  · have hhigh : bit = .high := h.resolve_right hc
    simp only [not_forall, not_not] at hc
    obtain ⟨k, rfl⟩ := hc
    show ((r.noteFault fault).checkBit (.check k) bit address).cause = _
    rw [Round.checkBit_eq, hhigh]
    simp

/-- A fault leaves the role and the code read (R15). -/
theorem Round.noteFault_keeps (r : Round) (fault : Bool) :
    (r.noteFault fault).role = r.role ∧ (r.noteFault fault).codeRead = r.codeRead ∧ (r.noteFault fault).cycle = r.cycle ∧
    (r.noteFault fault).snapshot = r.snapshot ∧ (r.noteFault fault).nonce = r.nonce := by
  rw [Round.noteFault_eq]
  exact ⟨rfl, rfl, rfl, rfl, rfl⟩

/-- A HIGH bit changes no role (R23). -/
theorem Round.takeBit_high_role (r : Round) (f : Field) (fault suppressed : Bool) (address : Address) (digest : Word) :
    (r.takeBit f .high fault suppressed address digest).role = r.role := by
  rw [Round.takeBit_eq, ← (r.noteFault_keeps fault).1]
  show ((r.noteFault fault).takeField f .high fault suppressed address digest).role = _
  cases f with
  | code k => simp [Round.takeField, Round.codeContention]
  | _ => exact ((r.noteFault fault).takeField_role .high fault suppressed address digest (by nofun)).1

/-- At a code bit a starter may become a joiner, and stays a participant (R23). -/
theorem Round.takeBit_code_observer (r : Round) (k : Nat) (bit : Level) (fault suppressed : Bool) (address : Address)
    (digest : Word) :
    (r.takeBit (.code k) bit fault suppressed address digest).role = .observer ↔ r.role = .observer := by
  rw [Round.takeBit_eq, ← (r.noteFault_keeps fault).1]
  show ((r.noteFault fault).codeContention (.code k) bit suppressed address).role = .observer ↔ _
  unfold Round.codeContention
  split
  · next h => simp [h.1]
  · exact Iff.rfl

/-- A code bit is shifted into the code read (R20, R23). -/
theorem Round.takeBit_code_codeRead (r : Round) (k : Nat) (bit : Level) (fault suppressed : Bool) (address : Address)
    (digest : Word) :
    (r.takeBit (.code k) bit fault suppressed address digest).codeRead =
      (r.codeRead <<< 1) ||| (if bit = .high then 1 else 0) := by
  rw [Round.takeBit_eq]
  show shiftIn (r.noteFault fault).codeRead bit.bit = _
  rw [(r.noteFault_keeps fault).2.1]
  cases bit <;> rfl

/-- Every bit leaves the cycle, the snapshot and the nonce (R21). -/
theorem Round.takeBit_keeps (r : Round) (f : Field) (bit : Level) (fault suppressed : Bool) (address : Address)
    (digest : Word) :
    let t := r.takeBit f bit fault suppressed address digest
    t.cycle = r.cycle ∧ t.snapshot = r.snapshot ∧ t.nonce = r.nonce := by
  obtain ⟨_, _, _, hcycle, _, hsnapshot, hnonce, _⟩ :=
    (r.noteFault fault).takeField_keeps f bit fault suppressed address digest
  obtain ⟨_, _, ncycle, nsnapshot, nnonce⟩ := r.noteFault_keeps fault
  rw [Round.takeBit_eq]
  exact ⟨hcycle.trans ncycle, hsnapshot.trans nsnapshot, hnonce.trans nnonce⟩

/-- The anchor notice at the Scheduler aligns a cycle whose anchor is not done (R52). -/
theorem State.schedNotice_aligns {s : State} (h : s.sched.anchorDone = false) :
    s.schedNotice = { s with sched := { s.sched with
      timer := eightBitTimes s.image.settings.rate, anchorDone := true } } := by
  unfold State.schedNotice
  rw [h]
  rfl

/-- The anchor notice at the Scheduler opens a cycle where the anchor is done already (R53). -/
theorem State.schedNotice_opens {s : State} (h : s.sched.anchorDone = true) :
    s.schedNotice = { s.cycleBoundary with sched := { s.cycleBoundary.sched with
      timer := eightBitTimes s.image.settings.rate, anchorDone := true } } := by
  unfold State.schedNotice
  rw [h]
  rfl

/-- What the anchor notice at the Scheduler leaves to the Measurement Engine, the Source Unit and Station Control: a boundary
counts lost posts alone and sets no SCAN_OVERRUN. -/
theorem State.schedNotice_keeps (s : State) :
    s.schedNotice.image = s.image ∧ s.schedNotice.meas = s.meas ∧ s.schedNotice.source = s.source ∧
    s.schedNotice.control.station = s.control.station ∧
    s.schedNotice.control.anchorObserved = s.control.anchorObserved ∧
    (∃ p, s.schedNotice.control.counters = { s.control.counters with postsLost := p }) ∧
    s.schedNotice.control.alerts.getLsbD 6 = s.control.alerts.getLsbD 6 := by
  cases hd : s.sched.anchorDone with
  | false =>
    rw [State.schedNotice_aligns hd]
    exact ⟨rfl, rfl, rfl, rfl, rfl, ⟨_, rfl⟩, rfl⟩
  | true =>
    rw [State.schedNotice_opens hd]
    obtain ⟨_, _, _, _, _, _, hx⟩ := s.cycleBoundary_changes
    obtain ⟨_, _, _, halerts⟩ := s.cycleBoundary_posts
    refine ⟨?_, ?_, ?_, ?_, ?_, s.cycleBoundary_counters, ?_⟩
    · rw [hx]
    · rw [hx]
    · rw [hx]
    · rw [hx]
    · rw [hx]
    · exact (halerts 6).trans (by simp)

/-- The trigger moves the Measurement Engine alone, or is an overrun (R78, R79). -/
theorem State.anchorTrigger_or (s : State) : (∃ m, s.anchorTrigger = { s with meas := m }) ∨ s.anchorTrigger = s.overrun := by
  unfold State.anchorTrigger
  split
  · exact .inl ⟨_, s.beginScan_only⟩
  · exact .inr rfl
  · exact .inl ⟨s.meas, rfl⟩
  · exact .inl ⟨s.meas, rfl⟩
  · exact .inl ⟨s.meas, rfl⟩

/-- An overrun is flagged, counted and an alert cause (R79). -/
theorem State.overrun_bit (s : State) (k : Nat) :
    s.overrun.control.alerts.getLsbD k = (s.control.alerts.getLsbD k || k == 6) :=
  (s.setFlags 0x0040).setCause_bit .scanOverrun k

/-- The trigger counts overruns alone and sets no cause but SCAN_OVERRUN; the other blocks stand (R79). -/
theorem State.anchorTrigger_keeps (s : State) :
    s.anchorTrigger.sched = s.sched ∧ s.anchorTrigger.store = s.store ∧ s.anchorTrigger.trip = s.trip ∧
    s.anchorTrigger.control.anchorObserved = s.control.anchorObserved ∧
    s.anchorTrigger.control.station = s.control.station ∧
    (∃ o, s.anchorTrigger.control.counters = { s.control.counters with overruns := o }) ∧
    ∀ k, k ≠ 6 → s.anchorTrigger.control.alerts.getLsbD k = s.control.alerts.getLsbD k := by
  rcases s.anchorTrigger_or with ⟨m, h⟩ | h
  · rw [h]
    exact ⟨rfl, rfl, rfl, rfl, rfl, ⟨_, rfl⟩, fun _ _ => rfl⟩
  · rw [h]
    exact ⟨rfl, rfl, rfl, rfl, rfl, ⟨_, rfl⟩, fun k hk => by simp [s.overrun_bit, hk]⟩

/-- The anchor notice at Station Control writes anchor-observed alone (R152). -/
theorem State.controlNotice_eq (s : State) : s.controlNotice = { s with
    control.anchorObserved := if s.control.station = .joining then true else s.control.anchorObserved } := by
  unfold State.controlNotice
  split <;> rfl

/-- What an anchor notice leaves (R25): its Scheduler part is that of the Scheduler, and it counts lost posts and overruns
alone. -/
theorem State.anchorNotice_parts (s : State) :
    s.anchorNotice.sched = s.schedNotice.sched ∧ s.anchorNotice.store = s.schedNotice.store ∧
    s.anchorNotice.trip = s.schedNotice.trip ∧
    s.anchorNotice.meas = s.schedNotice.anchorTrigger.meas ∧ s.anchorNotice.source = s.schedNotice.anchorTrigger.source ∧
    s.anchorNotice.control.anchorObserved = (if s.control.station = .joining then true else s.control.anchorObserved) ∧
    s.anchorNotice.control.counters = { s.control.counters with
      overruns := s.anchorNotice.control.counters.overruns, postsLost := s.schedNotice.control.counters.postsLost } ∧
    s.anchorNotice.control.counters.overruns = s.schedNotice.anchorTrigger.control.counters.overruns ∧
    (∀ k, k ≠ 6 → s.anchorNotice.control.alerts.getLsbD k = s.schedNotice.control.alerts.getLsbD k) ∧
    s.anchorNotice.control.alerts.getLsbD 6 = s.schedNotice.anchorTrigger.control.alerts.getLsbD 6 := by
  obtain ⟨_, _, _, hstation, hobserved, ⟨p, hp⟩, _⟩ := s.schedNotice_keeps
  obtain ⟨tsched, tstore, ttrip, tobserved, tstation, ⟨o, ho⟩, talerts⟩ := s.schedNotice.anchorTrigger_keeps
  unfold State.anchorNotice
  rw [State.controlNotice_eq]
  refine ⟨tsched, tstore, ttrip, rfl, rfl, ?_, ?_, rfl, talerts, rfl⟩
  · show (if s.schedNotice.anchorTrigger.control.station = .joining then true
      else s.schedNotice.anchorTrigger.control.anchorObserved) = _
    rw [tstation, hstation, tobserved, hobserved]
  · show s.schedNotice.anchorTrigger.control.counters = _
    rw [ho, hp]

/-- An anchor that aligns the cycle leaves the count, the pending sets, the store and the rules, and sets no cause but
SCAN_OVERRUN (R52, R79). -/
theorem State.anchorNotice_aligns {s : State} (h : s.sched.anchorDone = false) :
    s.anchorNotice.sched.cycle = s.sched.cycle ∧ s.anchorNotice.sched.scheduled = s.sched.scheduled ∧
    s.anchorNotice.sched.adhoc = s.sched.adhoc ∧ s.anchorNotice.store = s.store ∧ s.anchorNotice.trip = s.trip ∧
    s.anchorNotice.control.counters.postsLost = s.control.counters.postsLost ∧
    ∀ k, k ≠ 6 → s.anchorNotice.control.alerts.getLsbD k = s.control.alerts.getLsbD k := by
  obtain ⟨hsched, hstore, htrip, _, _, _, hcounters, _, halerts, _⟩ := s.anchorNotice_parts
  rw [State.schedNotice_aligns h] at hsched hstore htrip hcounters halerts
  exact ⟨by rw [hsched], by rw [hsched], by rw [hsched], hstore, htrip, by rw [hcounters], halerts⟩

/-- An anchor that opens a cycle is a boundary to the Scheduler, the store and the rules (R53). -/
theorem State.anchorNotice_opens {s : State} (h : s.sched.anchorDone = true) :
    s.anchorNotice.sched.cycle = s.cycleBoundary.sched.cycle ∧
    s.anchorNotice.sched.scheduled = s.cycleBoundary.sched.scheduled ∧
    s.anchorNotice.sched.adhoc = s.cycleBoundary.sched.adhoc ∧ s.anchorNotice.store = s.cycleBoundary.store ∧
    s.anchorNotice.trip = s.cycleBoundary.trip ∧
    s.anchorNotice.control.counters.postsLost = s.cycleBoundary.control.counters.postsLost ∧
    ∀ k, k ≠ 6 → s.anchorNotice.control.alerts.getLsbD k = s.cycleBoundary.control.alerts.getLsbD k := by
  obtain ⟨hsched, hstore, htrip, _, _, _, hcounters, _, halerts, _⟩ := s.anchorNotice_parts
  rw [State.schedNotice_opens h] at hsched hstore htrip hcounters halerts
  exact ⟨by rw [hsched], by rw [hsched], by rw [hsched], hstore, htrip, by rw [hcounters], halerts⟩

/-- Either way the anchor is done and the cycle timer stands at eight bit times; the expiry counter stands (R52, R53). -/
theorem State.anchorNotice_timer (s : State) :
    s.anchorNotice.sched.anchorDone = true ∧
    s.anchorNotice.sched.timer = 8 * (16 / 2 ^ s.image.settings.rate.val) ∧
    s.anchorNotice.sched.expiries = s.sched.expiries := by
  obtain ⟨_, _, _, _, _, _, _, _, _, _, _, _, _, _, _, _, h⟩ := s.anchorNotice_changes
  rw [h]
  exact ⟨rfl, rfl, rfl⟩

/-- The anchor notice as a trigger of the scan engine (R78, R79). -/
theorem State.anchorNotice_scans (s : State) :
    (s.image.settings.scanMode = .anchored → s.meas.scan = .idle →
      scanBegun s.image s.meas s.anchorNotice.meas ∧ s.anchorNotice.source = s.source ∧
      s.anchorNotice.control.counters.overruns = s.control.counters.overruns ∧
      s.anchorNotice.control.alerts.getLsbD 6 = s.control.alerts.getLsbD 6) ∧
    (s.image.settings.scanMode = .anchored → s.meas.scan = .scanning →
      s.anchorNotice.meas = s.meas ∧ s.anchorNotice.source = { s.source with flags := s.source.flags ||| 0x0040 } ∧
      s.anchorNotice.control.counters.overruns = satInc s.control.counters.overruns ∧
      s.anchorNotice.control.alerts.getLsbD 6 = true) ∧
    (s.image.settings.scanMode ≠ .anchored ∨ s.meas.scan = .stopped →
      s.anchorNotice.meas = s.meas ∧ s.anchorNotice.source = s.source ∧
      s.anchorNotice.control.counters.overruns = s.control.counters.overruns ∧
      s.anchorNotice.control.alerts.getLsbD 6 = s.control.alerts.getLsbD 6) := by
  obtain ⟨_, _, _, hmeas, hsource, _, _, hover, _, halert⟩ := s.anchorNotice_parts
  obtain ⟨nimage, nmeas, nsource, _, _, ⟨p, ncounters⟩, nalert⟩ := s.schedNotice_keeps
  have nover : s.schedNotice.control.counters.overruns = s.control.counters.overruns := by rw [ncounters]
  obtain ⟨begins, overruns, rests⟩ := s.schedNotice.anchorTrigger_cases
  rw [nimage, nmeas] at begins overruns rests
  rw [hmeas, hsource, hover, halert]
  refine ⟨fun hmode hscan => ?_, fun hmode hscan => ?_, fun h => ?_⟩
  · have hbegun := s.schedNotice.beginScan_scanBegun
    rw [begins hmode hscan]
    rw [nimage, nmeas] at hbegun
    refine ⟨hbegun, ?_, ?_, ?_⟩
    · rw [State.beginScan_only]
      exact nsource
    · rw [State.beginScan_only]
      exact nover
    · rw [State.beginScan_only]
      exact nalert
  · rw [overruns hmode hscan]
    refine ⟨nmeas, ?_, congrArg satInc nover, by simp [State.overrun_bit]⟩
    rw [← nsource]
    rfl
  · rw [rests h]
    exact ⟨nmeas, nsource, nover, nalert⟩

end Sys2Proof.Machine
end

section
/-! CODE_RECOGNITION (R25): the state with the sixth code bit taken, the body opened, and the whole event; and DRIVE_FAULT at
every bit of a round (R15). -/

namespace Sys2Proof.Machine

/-- The state in which a sample of the sixth code bit has been taken and its code is looked up (R23, R25). -/
def State.atCode (s : State) (bit : Level) : State :=
  { s with
    line := { (s.counted bit).line with suppressed := s.line.suppressed || s.isDriveFault bit }
    round := s.round.takeBit (.code 5) bit (s.isDriveFault bit) s.line.suppressed s.image.settings.address s.control.digest
    control.counters.driveFaults :=
      if s.isDriveFault bit then satInc s.control.counters.driveFaults else s.control.counters.driveFaults }

/-- The body of a known round opened, before its notices and its snapshot (R25). -/
def State.bodyOpened (s : State) (e : RoundEntry) : State :=
  { s with round.kind := e.kind, round.phase := .body, round.pos := 0 }

/-- The known round with its anchor notice, if it is the anchor's, before its snapshot (R25). -/
def State.noticed (s : State) (e : RoundEntry) : State :=
  if e.kind = .anchor then (s.bodyOpened e).anchorNotice else s.bodyOpened e

/-- The sample of the sixth code bit is the recognition of the code it completes (R25). -/
theorem State.sample_codeEnd {s : State} (hs : s.held = false) (he : s.line.engine = .round) (hp : s.round.phase = .code)
    (h5 : s.round.pos = 5) (bit : Level) : s.sample bit = (s.atCode bit).recognise := by
  have hf : s.round.field = some (.code 5) := by rw [Round.field_of_code hp, h5]
  rw [State.sample_round_bit hs he, State.roundBit_codeEnd (by exact hf)]
  rfl

/-- CODE_RECOGNITION at the sixth code bit is that sample. -/
theorem exec_codeRecognition_codeEnd {s : State} (hs : s.held = false) (he : s.line.engine = .round)
    (hp : s.round.phase = .code) (h5 : s.round.pos = 5) (bit : Level) :
    exec (.codeRecognition bit) s = .next (s.atCode bit).recognise := by
  rw [exec_codeRecognition, State.onlyIf_true (by simp [State.atCodeEnd, he, hp, h5]), State.sample_codeEnd hs he hp h5]

theorem State.recognise_known {s : State} {e : RoundEntry} (h : findRound s.image s.round.codeRead = some e) :
    s.recognise = (s.noticed e).takeSnapshot e := by
  unfold State.recognise
  rw [h]
  rfl

theorem State.recognise_unknown {s : State} (h : findRound s.image s.round.codeRead = none) :
    s.recognise = (s.bump .unknownCodes).leaveRound := by
  unfold State.recognise
  rw [h]

/-- The code that the sixth bit completes (R23). -/
theorem State.atCode_codeRead (s : State) (bit : Level) :
    (s.atCode bit).round.codeRead = (s.round.codeRead <<< 1) ||| (if bit = .high then 1 else 0) :=
  s.round.takeBit_code_codeRead 5 bit _ _ _ _

/-- A snapshot and a nonce change the round and the count of draws alone (R25, R29). -/
theorem State.takeSnapshot_only (s : State) (e : RoundEntry) : s.takeSnapshot e = { s with
    round := { s.round with snapshot := (s.takeSnapshot e).round.snapshot, nonce := (s.takeSnapshot e).round.nonce }
    clock.draws := (s.takeSnapshot e).clock.draws } := by
  obtain ⟨_, _, _, h⟩ := s.takeSnapshot_changes e
  rw [h]

/-- An observer takes no snapshot and draws no nonce (R25). -/
theorem State.takeSnapshot_observer {s : State} (h : s.round.role = .observer) (e : RoundEntry) : s.takeSnapshot e = s := by
  unfold State.takeSnapshot Round.participant
  rw [h]
  rfl

/-- A participant takes its snapshot, and draws a nonce in MIN and MAX alone (R25, R29). -/
theorem State.takeSnapshot_participant {s : State} (h : s.round.role ≠ .observer) (e : RoundEntry) :
    (s.takeSnapshot e).round.snapshot = s.snapshotFor e ∧
    (e.kind ≠ .min ∧ e.kind ≠ .max →
      (s.takeSnapshot e).round.nonce = s.round.nonce ∧ (s.takeSnapshot e).clock.draws = s.clock.draws) ∧
    (e.kind = .min ∨ e.kind = .max → (s.takeSnapshot e).clock.draws = s.clock.draws + 1) := by
  have hp : s.round.participant = true := by simpa [Round.participant] using h
  unfold State.takeSnapshot
  rw [if_pos hp]
  cases hk : e.kind <;> simp [State.drawNonce]

/-- The anchor notice leaves the line, the round and the draws. -/
theorem State.noticed_round (s : State) (e : RoundEntry) :
    (s.noticed e).round = { s.round with kind := e.kind, phase := .body, pos := 0 } ∧
    (s.noticed e).line = s.line ∧ (s.noticed e).clock = s.clock ∧ (s.noticed e).image = s.image := by
  unfold State.noticed
  split
  · obtain ⟨_, _, _, _, _, _, _, _, _, _, _, _, _, _, _, _, h⟩ := (s.bodyOpened e).anchorNotice_changes
    rw [h]
    exact ⟨rfl, rfl, rfl, rfl⟩
  · exact ⟨rfl, rfl, rfl, rfl⟩

/-- A known round with its notice leaves everything but what the anchor notice reaches. -/
theorem State.noticed_only (s : State) (e : RoundEntry) : s.noticed e = { s with
    round := { s.round with kind := e.kind, phase := .body, pos := 0 }
    sched := (s.noticed e).sched, meas := (s.noticed e).meas, source := (s.noticed e).source
    store := (s.noticed e).store, trip := (s.noticed e).trip
    control := { s.control with
      alerts := (s.noticed e).control.alerts, anchorObserved := (s.noticed e).control.anchorObserved
      counters := { s.control.counters with
        overruns := (s.noticed e).control.counters.overruns
        postsLost := (s.noticed e).control.counters.postsLost } } } := by
  unfold State.noticed
  split
  · have hcounters : (s.bodyOpened e).anchorNotice.control.counters = { s.control.counters with
        overruns := (s.bodyOpened e).anchorNotice.control.counters.overruns
        postsLost := (s.bodyOpened e).anchorNotice.control.counters.postsLost } := by
      obtain ⟨_, _, _, _, _, _, h, _⟩ := (s.bodyOpened e).anchorNotice_parts
      rw [h]
      rfl
    rw [← hcounters]
    obtain ⟨_, _, _, _, _, _, _, _, _, _, _, _, _, _, _, _, h⟩ := (s.bodyOpened e).anchorNotice_changes
    rw [h]
    rfl
  · rfl

theorem State.noticed_anchor {s : State} {e : RoundEntry} (h : e.kind = .anchor) :
    s.noticed e = (s.bodyOpened e).anchorNotice := if_pos h

theorem State.noticed_other {s : State} {e : RoundEntry} (h : e.kind ≠ .anchor) : s.noticed e = s.bodyOpened e := if_neg h

/-- What a source gives does not depend on the line, the round or the counters (R96 to R101). -/
theorem State.sourceValue_bodyOpened (s : State) (bit : Level) (e : RoundEntry) (ref : Word) (src : Source) :
    ((s.atCode bit).bodyOpened e).sourceValue ref src = s.sourceValue ref src := by
  cases src <;> rfl

/-- An expiry's judgement at Station Control reaches no other block, and no cause but SILENT_ENTERED (R154). -/
theorem State.judgeExpiry_keeps (s : State) :
    s.judgeExpiry.sched = s.sched ∧ s.judgeExpiry.store = s.store ∧ s.judgeExpiry.trip = s.trip ∧
    s.judgeExpiry.control.counters = s.control.counters ∧
    ∀ k, k ≠ 5 → s.judgeExpiry.control.alerts.getLsbD k = s.control.alerts.getLsbD k := by
  by_cases hj : s.control.station = .joining
  · rw [State.judgeExpiry_joining hj]
    split
    · split
      · exact ⟨rfl, rfl, rfl, rfl, fun _ _ => rfl⟩
      · exact ⟨rfl, rfl, rfl, rfl, fun k hk => (s.setCause_bit .silentEntered k).trans (by simp [Cause.position, hk])⟩
    · exact ⟨rfl, rfl, rfl, rfl, fun _ _ => rfl⟩
  · rw [State.judgeExpiry_other hj]
    exact ⟨rfl, rfl, rfl, rfl, fun _ _ => rfl⟩

/-- At a boundary with the anchor in flight its code can stand in the scheduled set as OLD alone (R55). -/
theorem scheduledAfter_anchor {im : Image} (hn : ((imageEntries im).map RoundEntry.code).Nodup) {e : RoundEntry}
    (he : e ∈ imageEntries im) (hk : e.kind = .anchor) {old : List SchedEntry} {cycle : Word} {x : SchedEntry}
    (hx : x ∈ scheduledAfter im (some (e.code, .anchor)) old cycle) (hc : x.code = e.code) : x.part = .old := by
  unfold scheduledAfter at hx
  rw [mem_sortByCode, List.mem_filterMap] at hx
  obtain ⟨r, hr, hrx⟩ := hx
  have hre : r = e := eq_of_key_nodup RoundEntry.code hn (List.mem_filter.1 hr).1 he ((entryAfter_code hrx).symm.trans hc)
  subst hre
  have hfl : isInFlight (some (r.code, Kind.anchor)) r.code = true := by simp [isInFlight]
  unfold entryAfter at hrx
  rw [if_pos hfl] at hrx
  split at hrx
  · rw [if_pos hk] at hrx
    cases hrx
    rfl
  · rw [if_neg fun h => h.1 hk] at hrx
    cases hrx

/-- A boundary opens the next cycle, with the scheduled set of R55. -/
theorem State.cycleBoundary_cycle (s : State) :
    s.cycleBoundary.sched.cycle = s.sched.cycle + 1 ∧
    s.cycleBoundary.sched.scheduled =
      scheduledAfter s.image s.round.inFlight s.sched.scheduled (s.sched.cycle + 1) := by
  obtain ⟨_, _, _, _, _, _, h⟩ := s.cycleBoundary_changes
  rw [h]
  exact ⟨rfl, rfl⟩

/-- An expiry of a running station, at the blocks that a boundary reaches (R51, R54). -/
theorem exec_cycleTimerExpiry_boundary {s b : State} (hs : s.held = false) (hr : s.control.station.running = true)
    (h : exec .cycleTimerExpiry s = .next b) :
    b.sched.cycle = s.cycleBoundary.sched.cycle ∧ b.sched.scheduled = s.cycleBoundary.sched.scheduled ∧
    b.sched.adhoc = s.cycleBoundary.sched.adhoc ∧ b.store = s.cycleBoundary.store ∧ b.trip = s.cycleBoundary.trip ∧
    b.control.counters.postsLost = s.cycleBoundary.control.counters.postsLost ∧
    ∀ k, k ≠ 5 → b.control.alerts.getLsbD k = s.cycleBoundary.control.alerts.getLsbD k := by
  have hb : b = s.cycleBoundary.restartTimer.judgeExpiry := by
    rw [exec_cycleTimerExpiry, State.expire, hs, hr] at h
    exact (Host.Outcome.next.inj h).symm
  obtain ⟨hsched, hstore, htrip, hcounters, halerts⟩ := s.cycleBoundary.restartTimer.judgeExpiry_keeps
  rw [← hb] at hsched hstore htrip hcounters halerts
  exact ⟨by rw [hsched]; rfl, by rw [hsched]; rfl, by rw [hsched]; rfl, hstore, htrip, by rw [hcounters]; rfl, halerts⟩

/-- The objection cause after the sixth code bit: that of its drive fault alone (R15). -/
theorem State.atCode_cause (s : State) (bit : Level) :
    (s.round.role = .observer → (s.atCode bit).round.cause = s.round.cause) ∧
    (s.round.role ≠ .observer → (s.atCode bit).round.cause =
      if s.round.cause ≠ .none then s.round.cause else if s.isDriveFault bit then .driveFault else .none) := by
  have h : (s.atCode bit).round.cause = (s.round.noteFault (s.isDriveFault bit)).cause :=
    s.round.takeBit_cause (.code 5) bit _ _ _ _ (.inr (by nofun))
  rw [h]
  exact s.round.noteFault_cause (s.isDriveFault bit)

/-- The sixth code bit leaves an observer an observer, and the snapshot, the nonce and the cycle (R21, R23). -/
theorem State.atCode_round (s : State) (bit : Level) :
    ((s.atCode bit).round.role = .observer ↔ s.round.role = .observer) ∧
    (s.atCode bit).round.cycle = s.round.cycle ∧ (s.atCode bit).round.snapshot = s.round.snapshot ∧
    (s.atCode bit).round.nonce = s.round.nonce :=
  ⟨s.round.takeBit_code_observer 5 bit _ _ _ _, s.round.takeBit_keeps (.code 5) bit _ _ _ _⟩

/-- A participant's snapshot at recognition, by the kind of the round (R25, R95). -/
theorem State.noticed_snapshotFor (s : State) (bit : Level) (e : RoundEntry) :
    let w := (s.atCode bit).noticed e
    (e.kind = .anchor → w.snapshotFor e = some (.word w.sched.cycle)) ∧
    (e.kind = .roster → w.snapshotFor e = some (.position s.image.settings.address)) ∧
    (e.kind = .digest → w.snapshotFor e = some (.word s.control.digest)) ∧
    (e.kind = .min ∨ e.kind = .max ∨ e.kind = .any ∨ e.kind = .all →
      w.snapshotFor e = s.sourceValue s.round.cycle e.source) := by
  intro w
  unfold State.snapshotFor
  refine ⟨fun hk => by rw [hk], fun hk => ?_, fun hk => ?_, fun hk => ?_⟩
  · have hw : w = (s.atCode bit).bodyOpened e := State.noticed_other (by rw [hk]; nofun)
    rw [hk, hw]
    rfl
  · have hw : w = (s.atCode bit).bodyOpened e := State.noticed_other (by rw [hk]; nofun)
    rw [hk, hw]
    rfl
  · have hw : w = (s.atCode bit).bodyOpened e :=
      State.noticed_other (by rcases hk with hk | hk | hk | hk <;> rw [hk] <;> nofun)
    have hvalue : w.sourceValue w.round.cycle e.source = s.sourceValue s.round.cycle e.source := by
      rw [hw, State.sourceValue_bodyOpened]
      exact congrArg (s.sourceValue · e.source) (s.atCode_round bit).2.1
    rcases hk with hk | hk | hk | hk <;> rw [hk] <;> exact hvalue

/-- A state with the anchor in flight under a code (R54 step 3). -/
def State.anchorFlying (s : State) (code : Code) : State :=
  { s with round := { s.round with phase := .body, codeRead := code, kind := .anchor } }

theorem State.anchorFlying_inFlight (s : State) (code : Code) :
    (s.anchorFlying code).round.inFlight = some (code, .anchor) := rfl

/-- An anchor that opens a cycle does to the Scheduler, the store and the rules what an expiry would with the anchor in
flight (R53, R54). -/
theorem State.noticed_opens_like_expiry {s : State} {bit : Level} {e : RoundEntry} (hk : e.kind = .anchor)
    (hd : s.sched.anchorDone = true) (hs : s.held = false) (hr : s.control.station.running = true) {b : State}
    (h : exec .cycleTimerExpiry (s.anchorFlying (s.atCode bit).round.codeRead) = .next b) :
    let w := (s.atCode bit).noticed e
    w.sched.cycle = b.sched.cycle ∧ w.sched.scheduled = b.sched.scheduled ∧ w.sched.adhoc = b.sched.adhoc ∧
    w.store = b.store ∧ w.trip = b.trip ∧ w.control.counters.postsLost = b.control.counters.postsLost ∧
    ∀ k, k ≠ 5 → k ≠ 6 → w.control.alerts.getLsbD k = b.control.alerts.getLsbD k := by
  intro w
  have hw : w = ((s.atCode bit).bodyOpened e).anchorNotice := State.noticed_anchor hk
  have hflight : ((s.atCode bit).bodyOpened e).round.inFlight =
      (s.anchorFlying (s.atCode bit).round.codeRead).round.inFlight := by
    rw [State.anchorFlying_inFlight, ← hk]
    rfl
  obtain ⟨wcycle, wscheduled, wadhoc, wstore, wtrip, wposts, walerts⟩ :=
    State.anchorNotice_opens (s := (s.atCode bit).bodyOpened e) hd
  obtain ⟨bcycle, bscheduled, badhoc, bstore, btrip, bposts, balerts⟩ :=
    exec_cycleTimerExpiry_boundary (s := s.anchorFlying (s.atCode bit).round.codeRead) hs hr h
  obtain ⟨sched, store, trip, posts, alerts⟩ := State.cycleBoundary_apart (s := (s.atCode bit).bodyOpened e)
    (u := s.anchorFlying (s.atCode bit).round.codeRead) rfl hflight rfl rfl rfl rfl rfl
  rw [hw, bcycle, bscheduled, badhoc, bstore, btrip, bposts, wcycle, wscheduled, wadhoc, wstore, wtrip, wposts, sched, store,
    trip, posts]
  exact ⟨rfl, rfl, rfl, rfl, rfl, rfl, fun k h5 h6 => by rw [balerts k h5, walerts k h6, alerts]⟩

/-- The count and the pending sets of an anchor that opens a cycle (R53, R55). -/
theorem State.noticed_opens {s : State} {bit : Level} {e : RoundEntry} (hk : e.kind = .anchor)
    (hd : s.sched.anchorDone = true) :
    ((s.atCode bit).noticed e).sched.cycle = s.sched.cycle + 1 ∧
    ((s.atCode bit).noticed e).sched.scheduled = scheduledAfter s.image
      (some ((s.atCode bit).round.codeRead, .anchor)) s.sched.scheduled (s.sched.cycle + 1) := by
  obtain ⟨hcycle, hscheduled, _⟩ := State.anchorNotice_opens (s := (s.atCode bit).bodyOpened e) hd
  obtain ⟨bcycle, bscheduled⟩ := ((s.atCode bit).bodyOpened e).cycleBoundary_cycle
  rw [State.noticed_anchor hk, hcycle, hscheduled, bcycle, bscheduled, ← hk]
  exact ⟨rfl, rfl⟩

/-- A snapshot leaves the blocks that an anchor notice reaches. -/
theorem State.takeSnapshot_blocks (s : State) (e : RoundEntry) :
    (s.takeSnapshot e).sched = s.sched ∧ (s.takeSnapshot e).meas = s.meas ∧ (s.takeSnapshot e).source = s.source ∧
    (s.takeSnapshot e).store = s.store ∧ (s.takeSnapshot e).trip = s.trip ∧ (s.takeSnapshot e).control = s.control := by
  rw [State.takeSnapshot_only]
  exact ⟨rfl, rfl, rfl, rfl, rfl, rfl⟩

/-- The round after the recognition of a known code: as the sixth bit left it, with its body open (R25). -/
theorem State.known_round (s : State) (bit : Level) (e : RoundEntry) :
    (((s.atCode bit).noticed e).takeSnapshot e).round = { (s.atCode bit).round with
      phase := .body, pos := 0, kind := e.kind
      snapshot := (((s.atCode bit).noticed e).takeSnapshot e).round.snapshot
      nonce := (((s.atCode bit).noticed e).takeSnapshot e).round.nonce } := by
  conv => lhs; rw [State.takeSnapshot_only]
  rw [((s.atCode bit).noticed_round e).1]

/-- The frame of the recognition of a known code (R25). -/
theorem State.known_only (s : State) (bit : Level) (e : RoundEntry) :
    let t := ((s.atCode bit).noticed e).takeSnapshot e
    t = { s with
      line := (s.atCode bit).line, round := t.round, clock.draws := t.clock.draws
      sched := t.sched, meas := t.meas, source := t.source, store := t.store, trip := t.trip
      control := { s.control with
        alerts := t.control.alerts, anchorObserved := t.control.anchorObserved
        counters := { s.control.counters with
          driveFaults := (s.atCode bit).control.counters.driveFaults
          overruns := t.control.counters.overruns, postsLost := t.control.counters.postsLost } } } := by
  intro t
  obtain ⟨tsched, tmeas, tsource, tstore, ttrip, tcontrol⟩ := ((s.atCode bit).noticed e).takeSnapshot_blocks e
  rw [tsched, tmeas, tsource, tstore, ttrip, tcontrol]
  have honly := ((s.atCode bit).noticed e).takeSnapshot_only e
  refine honly.trans ?_
  show ({ (s.atCode bit).noticed e with
    round := { ((s.atCode bit).noticed e).round with snapshot := t.round.snapshot, nonce := t.round.nonce }
    clock.draws := t.clock.draws } : State) = _
  have hround : t.round = { ((s.atCode bit).noticed e).round with
      snapshot := t.round.snapshot, nonce := t.round.nonce } := congrArg State.round honly
  rw [← hround]
  conv => lhs; rw [State.noticed_only]
  rfl

/-- The nonce of a recognition: drawn by a participant of a MIN or MAX round alone (R29). -/
theorem State.known_nonce (s : State) (bit : Level) (e : RoundEntry) :
    let t := ((s.atCode bit).noticed e).takeSnapshot e
    (s.round.role = .observer ∨ (e.kind ≠ .min ∧ e.kind ≠ .max) →
      t.round.nonce = s.round.nonce ∧ t.clock.draws = s.clock.draws) ∧
    (s.round.role ≠ .observer → e.kind = .min ∨ e.kind = .max → t.clock.draws = s.clock.draws + 1) := by
  intro t
  obtain ⟨hobserver, _, _, hnonce⟩ := s.atCode_round bit
  obtain ⟨wround, _, wclock, _⟩ := (s.atCode bit).noticed_round e
  have wrole : ((s.atCode bit).noticed e).round.role = .observer ↔ s.round.role = .observer := by
    rw [wround]
    exact hobserver
  have wnonce : ((s.atCode bit).noticed e).round.nonce = s.round.nonce := by
    rw [wround]
    exact hnonce
  have wdraws : ((s.atCode bit).noticed e).clock.draws = s.clock.draws := by
    rw [wclock]
    rfl
  rw [← wnonce, ← wdraws]
  by_cases hr : s.round.role = .observer
  · refine ⟨fun _ => ?_, fun h => absurd hr h⟩
    show (((s.atCode bit).noticed e).takeSnapshot e).round.nonce = _ ∧ (((s.atCode bit).noticed e).takeSnapshot e).clock.draws = _
    rw [State.takeSnapshot_observer (wrole.2 hr)]
    exact ⟨rfl, rfl⟩
  · obtain ⟨_, hkeeps, hdraws⟩ := State.takeSnapshot_participant (mt wrole.1 hr) e
    exact ⟨fun h => hkeeps (h.resolve_left hr), fun _ => hdraws⟩

/-- The snapshot of a recognition: an observer takes none, a participant that of the round's kind (R25, R95). -/
theorem State.known_snapshot (s : State) (bit : Level) (e : RoundEntry) :
    let t := ((s.atCode bit).noticed e).takeSnapshot e
    (s.round.role ≠ .observer →
      (e.kind = .anchor → t.round.snapshot = some (.word t.sched.cycle)) ∧
      (e.kind = .roster → t.round.snapshot = some (.position s.image.settings.address)) ∧
      (e.kind = .digest → t.round.snapshot = some (.word s.control.digest)) ∧
      (e.kind = .min ∨ e.kind = .max ∨ e.kind = .any ∨ e.kind = .all →
        t.round.snapshot = s.sourceValue s.round.cycle e.source)) ∧
    (s.round.role = .observer → t.round.snapshot = s.round.snapshot) := by
  intro t
  obtain ⟨hobserver, _, hsnapshot, _⟩ := s.atCode_round bit
  obtain ⟨wround, _⟩ := (s.atCode bit).noticed_round e
  have wrole : ((s.atCode bit).noticed e).round.role = .observer ↔ s.round.role = .observer := by
    rw [wround]
    exact hobserver
  refine ⟨fun hr => ?_, fun hr => ?_⟩
  · rw [(State.takeSnapshot_participant (mt wrole.1 hr) e).1, (((s.atCode bit).noticed e).takeSnapshot_blocks e).1]
    exact s.noticed_snapshotFor bit e
  · show (((s.atCode bit).noticed e).takeSnapshot e).round.snapshot = _
    rw [State.takeSnapshot_observer (wrole.2 hr), wround]
    exact hsnapshot

/-- Settles O38: the sixth bit taken, then an unknown code leaves the round, and a known one opens its body with the anchor's
notice and a participant's snapshot. -/
theorem recognitionOpensTheBody : Obligations.RecognitionOpensTheBody := by
  intro s bit hs he hp h5 code fault taken counted
  have hfault : s.isDriveFault bit = fault := s.isDriveFault_eq bit
  have hcode : (s.atCode bit).round.codeRead = code := s.atCode_codeRead bit
  have htaken : (s.atCode bit).round = taken := by
    show s.round.takeBit _ _ (s.isDriveFault bit) _ _ _ = _
    rw [hfault]
  have hcounted : (s.counted bit).line = counted := rfl
  rw [exec_codeRecognition_codeEnd hs he hp h5]
  clear_value counted taken fault code
  subst hfault hcode htaken hcounted
  refine ⟨fun hnone => ?unknown, fun e hknown => ?known⟩
  case unknown =>
    rw [State.recognise_unknown (s := s.atCode bit) hnone]
    rfl
  case known =>
    obtain ⟨tnonce, tdraws⟩ := s.known_nonce bit e
    obtain ⟨tsnapshot, tsnapshot'⟩ := s.known_snapshot bit e
    obtain ⟨hcause, hcause'⟩ := s.atCode_cause bit
    have tround := s.known_round bit e
    have tonly := s.known_only bit e
    obtain ⟨tsched, tmeas, tsource, tstore, ttrip, tcontrol⟩ := ((s.atCode bit).noticed e).takeSnapshot_blocks e
    rw [State.recognise_known (s := s.atCode bit) hknown]
    refine ⟨_, rfl, tround, ?cycle, ?cause, ?cause', tnonce, tdraws, tonly, ?_⟩
    case cycle =>
      rw [tround]
      exact (s.atCode_round bit).2.1
    case cause =>
      rw [tround]
      exact hcause
    case cause' =>
      rw [tround]
      exact hcause'
    rw [tsched, tmeas, tsource, tstore, ttrip, tcontrol]
    refine ⟨fun hk => ?other, fun hk => ?timer, fun hk hd => ?aligns, fun hk hd hr b hb => ?opens, fun hk => ?scans,
      fun hk hd => ?old, tsched ▸ tsnapshot, tsnapshot'⟩
    case other =>
      rw [State.noticed_other hk]
      exact ⟨rfl, rfl, rfl, rfl, rfl, rfl, rfl, rfl, rfl⟩
    case timer =>
      obtain ⟨hdone, htimer, hexpiries⟩ := ((s.atCode bit).bodyOpened e).anchorNotice_timer
      obtain ⟨_, _, _, _, _, hobserved, _⟩ := ((s.atCode bit).bodyOpened e).anchorNotice_parts
      rw [State.noticed_anchor hk]
      exact ⟨hdone, htimer, hexpiries, hobserved⟩
    case aligns =>
      rw [State.noticed_anchor hk]
      exact State.anchorNotice_aligns (s := (s.atCode bit).bodyOpened e) hd
    case opens => exact State.noticed_opens_like_expiry hk hd hs hr hb
    case scans =>
      rw [State.noticed_anchor hk]
      exact ((s.atCode bit).bodyOpened e).anchorNotice_scans
    case old =>
      obtain ⟨hcycle, hscheduled⟩ := State.noticed_opens (s := s) (bit := bit) hk hd
      obtain ⟨hmem, hecode⟩ := findRound_some hknown
      refine ⟨hcycle, fun hn x hx hxc => ?_⟩
      rw [hscheduled, ← hecode] at hx
      exact scheduledAfter_anchor hn hmem hk hx (hxc.trans hecode.symm)

end Sys2Proof.Machine
end

section
/-! DRIVE_FAULT (R15): the fault at the sixth code bit, at the objection bit, and at every other bit of a round. -/

namespace Sys2Proof.Machine

/-- A station that pulls a bit of a round and reads HIGH has a drive fault, which DRIVE_FAULT samples (R15). -/
theorem exec_driveFault_pulling {s : State} (he : s.line.engine = .round) (hl : s.line.ltxd = .low) :
    exec .driveFault s = .next (s.sample .high) ∧ s.isDriveFault .high = true := by
  refine ⟨?_, by simp [State.isDriveFault, hl]⟩
  rw [exec_driveFault, State.onlyIf_true]
  simp [State.pullsRound, he, hl]

/-- Before the sixth code bit, in the body and in the check field the next bit has an ordinary field (R19). -/
theorem Round.field_ordinary {r : Round} (h : (r.phase = .code ∧ r.pos < 5) ∨ r.phase = .body ∨ r.phase = .check) :
    ∃ f, r.field = some f ∧ f ≠ .code 5 ∧ f ≠ .objection := by
  rcases h with ⟨hp, hpos⟩ | hp | hp
  · refine ⟨_, Round.field_of_code hp, fun h5 => ?_, nofun⟩
    injection h5 with h5
    omega
  · refine ⟨_, Round.field_of_body hp, fun h5 => ?_, bodyField_ne_objection _ _⟩
    have hcode := Round.field_code (r := r) (by rw [Round.field_of_body hp, h5])
    rw [hp] at hcode
    cases hcode.1
  · exact ⟨_, Round.field_of_check hp, nofun, nofun⟩

/-- A bit taken ends no round (R21). -/
theorem Round.takeBit_phase {r : Round} (h : r.phase ≠ .none) (f : Field) (bit : Level) (fault suppressed : Bool)
    (address : Address) (digest : Word) : (r.takeBit f bit fault suppressed address digest).phase ≠ .none := by
  rw [Round.takeBit_eq]
  show (placeAfter r.kind r.phase r.pos).1 ≠ .none
  unfold placeAfter
  cases hp : r.phase with
  | none => exact absurd hp h
  | body => dsimp only; split <;> nofun
  | check => dsimp only; split <;> nofun
  | code => nofun
  | objection => nofun

/-- Settles O37: the fault is that sample's, and the round takes its HIGH bit. -/
theorem driveFaultSuppresses : Obligations.DriveFaultSuppresses := by
  intro s hs he hl
  obtain ⟨hexec, hfault⟩ := exec_driveFault_pulling he hl
  refine ⟨fun hp h5 => ⟨?same, fun e hknown => ?known⟩, fun hp => ?objection, fun h => ?ordinary⟩
  case same =>
    rw [hexec, exec_codeRecognition_codeEnd hs he hp h5, State.sample_codeEnd hs he hp h5]
  case known =>
    obtain ⟨hobserver, hparticipant⟩ := s.atCode_cause .high
    rw [hfault] at hparticipant
    have hcode : (s.atCode .high).round.codeRead = (s.round.codeRead <<< 1) ||| 1 := s.atCode_codeRead .high
    have tround := s.known_round .high e
    have tonly := s.known_only .high e
    rw [hexec, State.sample_codeEnd hs he hp h5, State.recognise_known (s := s.atCode .high) (hcode ▸ hknown)]
    refine ⟨_, rfl, ?_, ?_, fun hr hc => ?_, fun h => ?_⟩
    · rw [tonly]
      simp [State.atCode, hfault]
    · rw [tonly]
      simp [State.atCode, hfault]
    · rw [tround]
      exact (hparticipant hr).trans (by simp [hc])
    · rw [tround]
      by_cases hr : s.round.role = .observer
      · exact hobserver hr
      · exact (hparticipant hr).trans (if_pos (h.resolve_left hr))
  case objection =>
    rw [hexec, exec_outcomeDelivery, State.onlyIf_true]
    simp [State.atObjection, he, hp]
  case ordinary =>
    obtain ⟨f, hfield, hc, ho⟩ := Round.field_ordinary h
    have hphase : s.round.phase ≠ .none := by
      rcases h with ⟨hp, _⟩ | hp | hp <;> rw [hp] <;> nofun
    obtain ⟨hobserver, hparticipant⟩ := s.round.noteFault_cause true
    have hcause := s.round.takeBit_cause f .high true s.line.suppressed s.image.settings.address s.control.digest (.inl rfl)
    rw [hexec, State.sample_round_inner hs he hfield hc ho, hfault]
    refine ⟨_, rfl, ?_, Round.takeBit_high_role _ _ _ _ _ _, Round.takeBit_phase hphase _ _ _ _ _ _, fun hr hn => ?_,
      fun hn => ?_⟩
    · rw [State.counted_high, Bool.or_true]
      rfl
    · exact hcause.trans ((hparticipant hr).trans (by simp [hn]))
    · refine hcause.trans ?_
      by_cases hr : s.round.role = .observer
      · exact hobserver hr
      · exact (hparticipant hr).trans (if_pos hn)

end Sys2Proof.Machine
end

section
/-! One crystal period (log entry 4): each timer by itself, what it leaves to the queue, and the period as the four timers
together. -/

namespace Sys2Proof.Machine

/-- A falling edge of LRXD in the period (R4). -/
def State.edgeDue (s : State) (lv : Level) : Prop := s.line.engine ≠ .off ∧ s.line.lrxd = .high ∧ lv = .low

/-- The sample point of the bit in the period (R3). -/
def State.sampleDue (s : State) (lv : Level) : Prop :=
  s.line.engine ≠ .off ∧ ¬ s.edgeDue lv ∧ s.line.bitTimer + 1 = samplePeriods s.image.settings.rate

/-- The end of the bit in the period (R3). -/
def State.boundaryDue (s : State) (lv : Level) : Prop :=
  s.line.engine ≠ .off ∧ ¬ s.edgeDue lv ∧ ¬ s.sampleDue lv ∧ bitPeriods s.image.settings.rate ≤ s.line.bitTimer + 1

/-- The end of the settle time at the µs tick (R73). -/
def State.settledAt (s : State) (n : Fin 16) : Prop :=
  s.meas.scan = .scanning ∧ s.meas.position = some n ∧ s.meas.held = none ∧
  2 * 4 ^ s.image.slots[n].settle.val ≤ s.meas.timer + 1

/-- The end of a conversion at the µs tick (R73). -/
def State.convertedAt (s : State) (n : Fin 16) : Prop :=
  s.meas.scan = .scanning ∧ s.meas.position = some n ∧ s.meas.held ≠ none ∧
  2 * 4 ^ s.image.slots[n].settle.val + 14 ≤ s.meas.timer + 1

/-- The bit timer in a period, case by case (R3, R4, R8). -/
theorem State.tickLine_cases (s : State) (lv : Level) :
    (s.line.engine = .off ∧ (s.tickLine lv).2 = [] ∧ (s.tickLine lv).1.line.bitTimer = s.line.bitTimer) ∨
    (s.edgeDue lv ∧ (s.tickLine lv).2 = [.lrxdFallingEdge] ∧ (s.tickLine lv).1.line.bitTimer = s.line.bitTimer) ∨
    (s.sampleDue lv ∧ (s.tickLine lv).2 = [.samplePoint lv] ∧ (s.tickLine lv).1.line.bitTimer = s.line.bitTimer) ∨
    (s.boundaryDue lv ∧ (s.tickLine lv).2 = [.bitBoundary lv] ∧ (s.tickLine lv).1.line.bitTimer = s.line.bitTimer) ∨
    (s.line.engine ≠ .off ∧ ¬ s.edgeDue lv ∧ ¬ s.sampleDue lv ∧ ¬ s.boundaryDue lv ∧ (s.tickLine lv).2 = [] ∧
      (s.tickLine lv).1.line.bitTimer = s.line.bitTimer + 1) := by
  unfold State.tickLine
  dsimp only
  split
  · next ho => exact .inl ⟨ho, rfl, rfl⟩
  next ho =>
  split
  · next he => exact .inr (.inl ⟨⟨ho, he⟩, rfl, rfl⟩)
  next he =>
  have hedge : ¬ s.edgeDue lv := fun h => he h.2
  split
  · next hs => exact .inr (.inr (.inl ⟨⟨ho, hedge, hs⟩, rfl, rfl⟩))
  next hs =>
  have hsample : ¬ s.sampleDue lv := fun h => hs h.2.2
  split
  · next hb => exact .inr (.inr (.inr (.inl ⟨⟨ho, hedge, hsample, hb⟩, rfl, rfl⟩)))
  · next hb => exact .inr (.inr (.inr (.inr ⟨ho, hedge, hsample, fun h => hb h.2.2.2, rfl, rfl⟩)))

/-- What the bit timer leaves to the queue. -/
theorem State.mem_tickLine (s : State) (lv : Level) (c : Instr) :
    c ∈ (s.tickLine lv).2 ↔ (c = .lrxdFallingEdge ∧ s.edgeDue lv) ∨ (c = .samplePoint lv ∧ s.sampleDue lv) ∨
      (c = .bitBoundary lv ∧ s.boundaryDue lv) := by
  have off : s.line.engine = .off → ¬ s.edgeDue lv ∧ ¬ s.sampleDue lv ∧ ¬ s.boundaryDue lv :=
    fun ho => ⟨fun h => h.1 ho, fun h => h.1 ho, fun h => h.1 ho⟩
  rcases s.tickLine_cases lv with ⟨ho, h, _⟩ | ⟨he, h, _⟩ | ⟨hs, h, _⟩ | ⟨hb, h, _⟩ | ⟨_, he, hs, hb, h, _⟩
  · obtain ⟨he, hs, hb⟩ := off ho
    simp [h, he, hs, hb]
  · have hs : ¬ s.sampleDue lv := fun h => h.2.1 he
    have hb : ¬ s.boundaryDue lv := fun h => h.2.1 he
    simp [h, he, hs, hb]
  · have he : ¬ s.edgeDue lv := hs.2.1
    have hb : ¬ s.boundaryDue lv := fun h => h.2.2.1 hs
    simp [h, he, hs, hb]
  · have he : ¬ s.edgeDue lv := hb.2.1
    have hs : ¬ s.sampleDue lv := hb.2.2.1
    simp [h, he, hs, hb]
  · simp [h, he, hs, hb]

/-- The bit timer stands in OFF and where an event falls due, which sets it itself, and advances else (R3). -/
theorem State.tickLine_bitTimer (s : State) (lv : Level) :
    (s.line.engine = .off ∨ s.edgeDue lv ∨ s.sampleDue lv ∨ s.boundaryDue lv →
      (s.tickLine lv).1.line.bitTimer = s.line.bitTimer) ∧
    (s.line.engine ≠ .off → ¬ s.edgeDue lv → ¬ s.sampleDue lv → ¬ s.boundaryDue lv →
      (s.tickLine lv).1.line.bitTimer = s.line.bitTimer + 1) := by
  rcases s.tickLine_cases lv with ⟨ho, _, h⟩ | ⟨he, _, h⟩ | ⟨hs, _, h⟩ | ⟨hb, _, h⟩ | ⟨ho, he, hs, hb, _, h⟩
  · exact ⟨fun _ => h, fun hn => absurd ho hn⟩
  · exact ⟨fun _ => h, fun _ hn => absurd he hn⟩
  · exact ⟨fun _ => h, fun _ _ hn => absurd hs hn⟩
  · exact ⟨fun _ => h, fun _ _ _ hn => absurd hb hn⟩
  · refine ⟨fun hc => ?_, fun _ _ _ _ => h⟩
    rcases hc with hc | hc | hc | hc
    · exact absurd hc ho
    · exact absurd hc he
    · exact absurd hc hs
    · exact absurd hc hb

/-- The conversion timer at a tick of the µs, case by case (R73). -/
theorem State.tickConversion_cases (s : State) (a : AnalogLevels) :
    ((∃ n, s.settledAt n) ∧ (s.tickConversion a).2 = [.settleEnd a] ∧ (s.tickConversion a).1.meas.timer = s.meas.timer) ∨
    ((∃ n, s.convertedAt n) ∧ (s.tickConversion a).2 = [.conversionComplete] ∧
      (s.tickConversion a).1.meas.timer = s.meas.timer) ∨
    ((∀ n, ¬ s.settledAt n) ∧ (∀ n, ¬ s.convertedAt n) ∧ (s.tickConversion a).2 = [] ∧
      (s.tickConversion a).1.meas.timer =
        if s.meas.scan = .scanning ∧ s.meas.position ≠ none then s.meas.timer + 1 else s.meas.timer) := by
  unfold State.tickConversion
  split
  · next n hs hp hh =>
    have hconverted : ∀ m, ¬ s.convertedAt m := fun m h => h.2.2.1 hh
    split
    · next h => exact .inl ⟨⟨n, hs, hp, hh, h⟩, rfl, rfl⟩
    · next h =>
      refine .inr (.inr ⟨fun m hm => h ?_, hconverted, rfl, (if_pos ⟨hs, by rw [hp]; nofun⟩).symm⟩)
      obtain ⟨_, hm, _, hle⟩ := hm
      cases hp.symm.trans hm
      exact hle
  · next n r hs hp hh =>
    have hsettled : ∀ m, ¬ s.settledAt m := fun m h => nomatch hh.symm.trans h.2.2.1
    split
    · next h => exact .inr (.inl ⟨⟨n, hs, hp, by rw [hh]; nofun, h⟩, rfl, rfl⟩)
    · next h =>
      refine .inr (.inr ⟨hsettled, fun m hm => h ?_, rfl, (if_pos ⟨hs, by rw [hp]; nofun⟩).symm⟩)
      obtain ⟨_, hm, _, hle⟩ := hm
      cases hp.symm.trans hm
      exact hle
  · next hnone hsome =>
    have hidle : ∀ n, s.meas.scan = .scanning → ¬ s.meas.position = some n := fun n hs hp => by
      cases hh : s.meas.held with
      | none => exact hnone n hs hp hh
      | some r => exact hsome n r hs hp hh
    refine .inr (.inr ⟨fun n h => hidle n h.1 h.2.1, fun n h => hidle n h.1 h.2.1, rfl, (if_neg ?_).symm⟩)
    rintro ⟨hs, hp⟩
    obtain ⟨n, hn⟩ := Option.ne_none_iff_exists'.1 hp
    exact hidle n hs hn

/-- What the conversion timer leaves to the queue. -/
theorem State.mem_tickConversion (s : State) (a : AnalogLevels) (c : Instr) :
    c ∈ (s.tickConversion a).2 ↔
      (c = .settleEnd a ∧ ∃ n, s.settledAt n) ∨ (c = .conversionComplete ∧ ∃ n, s.convertedAt n) := by
  rcases s.tickConversion_cases a with ⟨hs, h, _⟩ | ⟨hc, h, _⟩ | ⟨hs, hc, h, _⟩
  · have hn : ¬ ∃ n, s.convertedAt n := fun ⟨_, hc⟩ => hc.2.2.1 (hs.elim fun _ hs => hs.2.2.1)
    simp [h, hs, hn]
  · have hn : ¬ ∃ n, s.settledAt n := fun ⟨_, hs⟩ => hc.elim fun _ hc => hc.2.2.1 hs.2.2.1
    simp [h, hc, hn]
  · simp [h, hs, hc]

/-- The conversion timer advances while a conversion runs and no end of it falls due (R73). -/
theorem State.tickConversion_timer (s : State) (a : AnalogLevels) :
    (s.meas.scan = .scanning → s.meas.position ≠ none → (∀ n, ¬ s.settledAt n) → (∀ n, ¬ s.convertedAt n) →
      (s.tickConversion a).1.meas.timer = s.meas.timer + 1) ∧
    (s.meas.scan ≠ .scanning ∨ s.meas.position = none ∨ (∃ n, s.settledAt n) ∨ (∃ n, s.convertedAt n) →
      (s.tickConversion a).1.meas.timer = s.meas.timer) := by
  rcases s.tickConversion_cases a with ⟨⟨n, hs⟩, _, h⟩ | ⟨⟨n, hc⟩, _, h⟩ | ⟨hs, hc, _, h⟩
  · exact ⟨fun _ _ hn => absurd hs (hn n), fun _ => h⟩
  · exact ⟨fun _ _ _ hn => absurd hc (hn n), fun _ => h⟩
  · rw [h]
    refine ⟨fun hscan hp _ _ => if_pos ⟨hscan, hp⟩, fun hor => if_neg ?_⟩
    rintro ⟨hscan, hp⟩
    rcases hor with hor | hor | ⟨n, hn⟩ | ⟨n, hn⟩
    · exact hor hscan
    · exact hp hor
    · exact hs n hn
    · exact hc n hn

/-- The cycle timer at a tick of the µs (R51). -/
theorem State.tickCycle_eq (s : State) :
    s.tickCycle.2 = (if s.control.station.running = true ∧ s.image.settings.cycleLength * 1000 ≤ s.sched.timer + 1
      then [.cycleTimerExpiry] else []) ∧
    s.tickCycle.1.sched.timer = (if s.control.station.running = true ∧
      s.sched.timer + 1 < s.image.settings.cycleLength * 1000 then s.sched.timer + 1 else s.sched.timer) := by
  unfold State.tickCycle
  split
  · next hr =>
    split
    · next h => exact ⟨(if_pos ⟨hr, h⟩).symm, (if_neg fun hc => absurd h (Nat.not_le.2 hc.2)).symm⟩
    · next h => exact ⟨(if_neg fun hc => h hc.2).symm, (if_pos ⟨hr, Nat.not_le.1 h⟩).symm⟩
  · next hr => exact ⟨(if_neg fun hc => hr hc.1).symm, (if_neg fun hc => hr hc.1).symm⟩

/-- The digest computation ends at this tick of the µs (R179; log entry 2). -/
def State.commitDue (s : State) : Prop :=
  s.control.station = .committing ∧ Config.commitDelay s.clock.draws % 1000 + 1 ≤ s.control.commitTimer + 1

/-- The timer of the digest computation at a tick of the µs, case by case (R179). -/
theorem State.tickCommit_cases (s : State) :
    (s.commitDue ∧ s.tickCommit.2 = [.commitComplete] ∧ s.tickCommit.1.control.commitTimer = s.control.commitTimer) ∨
    (¬ s.commitDue ∧ s.tickCommit.2 = [] ∧ s.tickCommit.1.control.commitTimer =
      if s.control.station = .committing then s.control.commitTimer + 1 else s.control.commitTimer) := by
  unfold State.tickCommit
  split
  · next hc =>
    split
    · next h => exact .inl ⟨⟨hc, h⟩, rfl, rfl⟩
    · next h => exact .inr ⟨fun hd => h hd.2, rfl, rfl⟩
  · next hc => exact .inr ⟨fun hd => hc hd.1, rfl, rfl⟩

theorem State.mem_tickCommit (s : State) (c : Instr) : c ∈ s.tickCommit.2 ↔ c = .commitComplete ∧ s.commitDue := by
  rcases s.tickCommit_cases with ⟨hd, h, _⟩ | ⟨hd, h, _⟩ <;> simp [h, hd]

/-- The digest computation ends within 1 ms (R179). -/
theorem State.commitDue_of_last {s : State} (hc : s.control.station = .committing) (h : 999 ≤ s.control.commitTimer) :
    s.commitDue := by
  have := Nat.mod_lt (Config.commitDelay s.clock.draws) (show 0 < 1000 by decide)
  exact ⟨hc, by omega⟩

/-- The bit timer reads the line and the rate alone. -/
theorem State.tickLine_apart {s u : State} (hl : u.line = s.line) (hi : u.image = s.image) (lv : Level) :
    u.tickLine lv = ({ u with line := (s.tickLine lv).1.line }, (s.tickLine lv).2) := by
  unfold State.tickLine
  rw [hl, hi]
  dsimp only
  split_ifs <;> rfl

/-- The conversion timer reads the Measurement Engine and the slots alone. -/
theorem State.tickConversion_apart {s u : State} (hm : u.meas = s.meas) (hi : u.image = s.image) (a : AnalogLevels) :
    u.tickConversion a = ({ u with meas := (s.tickConversion a).1.meas }, (s.tickConversion a).2) := by
  have hu : u = { u with meas := s.meas, image := s.image } := by rw [← hm, ← hi]
  unfold State.tickConversion
  rw [hm, hi]
  split
  · split_ifs
    · exact Prod.ext hu rfl
    · rfl
  · split_ifs
    · exact Prod.ext hu rfl
    · rfl
  · exact Prod.ext hu rfl

/-- The timer of the digest computation reads Station Control and the draws alone. -/
theorem State.tickCommit_apart {s u : State} (hc : u.control = s.control) (hd : u.clock.draws = s.clock.draws) :
    u.tickCommit = ({ u with control := s.tickCommit.1.control }, s.tickCommit.2) := by
  have hu : u = { u with control := s.control } := by rw [← hc]
  unfold State.tickCommit
  rw [hc, hd]
  split_ifs
  · exact Prod.ext hu rfl
  · rfl
  · exact Prod.ext hu rfl

/-- The four timers at the end of a µs, each as it stands by itself, and their events in order (log entry 4). -/
theorem State.tickMicro_eq (s : State) (phase : Nat) (lv : Level) (a : AnalogLevels) :
    ({ s with clock.phase := phase } : State).tickMicro lv a = ({ s with
        clock.phase := phase
        sched := s.tickCycle.1.sched, line := (s.tickLine lv).1.line, meas := (s.tickConversion a).1.meas
        control := s.tickCommit.1.control },
      s.tickCycle.2 ++ (s.tickLine lv).2 ++ (s.tickConversion a).2 ++ s.tickCommit.2) := by
  have hcycle : ({ s with clock.phase := phase } : State).tickCycle =
      ({ s with clock.phase := phase, sched := s.tickCycle.1.sched }, s.tickCycle.2) := by
    unfold State.tickCycle
    dsimp only
    split_ifs <;> rfl
  unfold State.tickMicro Due.andThen
  have hline := State.tickLine_apart (s := s)
    (u := { s with clock.phase := phase, sched := s.tickCycle.1.sched }) rfl rfl lv
  have hconversion := State.tickConversion_apart (s := s)
    (u := { s with clock.phase := phase, sched := s.tickCycle.1.sched, line := (s.tickLine lv).1.line }) rfl rfl a
  have hcommit := State.tickCommit_apart (s := s)
    (u := { s with
      clock.phase := phase, sched := s.tickCycle.1.sched, line := (s.tickLine lv).1.line
      meas := (s.tickConversion a).1.meas }) rfl rfl
  dsimp only at hcycle hline hconversion hcommit ⊢
  simp only [hcycle, hline, hconversion, hcommit]

/-- The events of a period (log entry 4). -/
def State.periodEvents (s : State) (lv : Level) (a : AnalogLevels) : List Instr :=
  if s.clock.phase = 7 then s.tickCycle.2 ++ (s.tickLine lv).2 ++ (s.tickConversion a).2 ++ s.tickCommit.2
  else (s.tickLine lv).2

/-- A period of a station held in reset: LRXD alone moves (R165). -/
theorem State.tick_held {s : State} (hs : s.held = true) : s.tick = { s with
    line.lrxd := Config.lineLevel s.clock.periods, clock.periods := s.clock.periods + 1 } := by
  unfold State.tick State.tickWith
  rw [if_pos hs]

/-- A period of a station that is not held: every timer by itself, those of the µs at its end alone. -/
theorem State.tick_running {s : State} (hs : s.held = false) (hp : s.pending = []) :
    ∃ lv a, s.tick.line.lrxd = lv ∧ s.tick.pending = s.periodEvents lv a ∧
      s.tick.clock.phase = (if s.clock.phase = 7 then 0 else s.clock.phase + 1) ∧
      s.tick.line.bitTimer = (s.tickLine lv).1.line.bitTimer ∧
      s.tick.sched.timer = (if s.clock.phase = 7 then s.tickCycle.1.sched.timer else s.sched.timer) ∧
      s.tick.meas.timer = (if s.clock.phase = 7 then (s.tickConversion a).1.meas.timer else s.meas.timer) ∧
      s.tick.control.commitTimer =
        (if s.clock.phase = 7 then s.tickCommit.1.control.commitTimer else s.control.commitTimer) := by
  refine ⟨Config.lineLevel s.clock.periods, Config.analogLevels s.clock.periods, ?_⟩
  unfold State.tick
  generalize Config.lineLevel s.clock.periods = lv
  generalize Config.analogLevels s.clock.periods = a
  have hlrxd : (s.tickLine lv).1.line.lrxd = lv := by
    obtain ⟨_, _, h, _⟩ := s.tickLine_changes lv
    rw [h]
  have hheld : ¬ s.held = true := by rw [hs]; nofun
  unfold State.tickWith State.tickTimers State.periodEvents
  rw [if_neg hheld]
  by_cases h7 : s.clock.phase = 7
  · simp only [if_pos h7]
    rw [State.tickMicro_eq s 0]
    exact ⟨hlrxd, by simp only [hp, List.nil_append], rfl, rfl, rfl, rfl, rfl⟩
  · simp only [if_neg h7]
    rw [State.tickLine_apart (s := s) (u := { s with clock.phase := s.clock.phase + 1 }) rfl rfl]
    exact ⟨hlrxd, by simp only [hp, List.nil_append], rfl, rfl, rfl, rfl, rfl⟩

/-- The events of a period, one by one. -/
theorem State.mem_periodEvents (s : State) (lv : Level) (a : AnalogLevels) (c : Instr) :
    c ∈ s.periodEvents lv a ↔
      (c = .cycleTimerExpiry ∧ s.clock.phase = 7 ∧ s.control.station.running = true ∧
        s.image.settings.cycleLength * 1000 ≤ s.sched.timer + 1) ∨
      (c = .lrxdFallingEdge ∧ s.edgeDue lv) ∨ (c = .samplePoint lv ∧ s.sampleDue lv) ∨
      (c = .bitBoundary lv ∧ s.boundaryDue lv) ∨ (c = .settleEnd a ∧ s.clock.phase = 7 ∧ ∃ n, s.settledAt n) ∨
      (c = .conversionComplete ∧ s.clock.phase = 7 ∧ ∃ n, s.convertedAt n) ∨
      (c = .commitComplete ∧ s.clock.phase = 7 ∧ s.commitDue) := by
  have hcycle : c ∈ s.tickCycle.2 ↔ c = .cycleTimerExpiry ∧ s.control.station.running = true ∧
      s.image.settings.cycleLength * 1000 ≤ s.sched.timer + 1 := by
    rw [s.tickCycle_eq.1, List.mem_ite_nil_right, List.mem_singleton, and_comm]
  unfold State.periodEvents
  by_cases h7 : s.clock.phase = 7
  · rw [if_pos h7]
    simp only [List.mem_append, hcycle, s.mem_tickLine, s.mem_tickConversion, s.mem_tickCommit, h7, true_and, or_assoc]
  · rw [if_neg h7]
    simp only [s.mem_tickLine, h7, false_and, and_false, false_or, or_false]

/-- An expiry comes before the other events of its period (log entry 4). -/
theorem State.periodEvents_head {s : State} {lv : Level} {a : AnalogLevels}
    (h : Instr.cycleTimerExpiry ∈ s.periodEvents lv a) :
    (s.periodEvents lv a).head? = some .cycleTimerExpiry := by
  rw [State.mem_periodEvents] at h
  simp only [true_and, reduceCtorEq, false_and, or_false] at h
  unfold State.periodEvents
  rw [if_pos h.1, s.tickCycle_eq.1, if_pos h.2]
  rfl

/-- Settles O2: a held station's period moves LRXD alone; else each timer advances or leaves its event. -/
theorem idleStepPassesOnePeriod : Obligations.IdleStepPassesOnePeriod := by
  intro s hp
  have hstep : step s = .next s.tick := by
    unfold step
    rw [hp]
  obtain ⟨_, _, _, _, _, _, _, _, hframe, _⟩ := s.tick_effect
  have hperiods : s.tick.clock.periods = s.clock.periods + 1 := rfl
  refine ⟨s.tick, hstep, ?frame, ?held, ?expiry, ?events, ?running⟩
  case frame =>
    rw [← hperiods]
    rw [hframe]
  case held =>
    intro hs
    rw [State.tick_held hs]
    exact ⟨hp, rfl, rfl, rfl, rfl, rfl⟩
  case expiry =>
    cases hs : s.held with
    | true => simp [State.tick_held hs, hp]
    | false =>
      obtain ⟨lv, a, _, hpending, _⟩ := State.tick_running hs hp
      simp [hpending, State.mem_periodEvents]
  case events =>
    intro c hc
    cases hs : s.held with
    | true =>
      rw [State.tick_held hs] at hc
      simp [hp] at hc
    | false =>
      obtain ⟨lv, a, _, hpending, _⟩ := State.tick_running hs hp
      rw [hpending, State.mem_periodEvents] at hc
      rcases hc with ⟨h, _⟩ | ⟨h, _⟩ | ⟨h, _⟩ | ⟨h, _⟩ | ⟨h, _⟩ | ⟨h, _⟩ | ⟨h, _⟩ <;> simp [h]
  case running =>
    intro hs edge sample boundary settled converted
    obtain ⟨lv, a, hlrxd, hpending, hphase, hbit, hcycle, hconversion, hcommit⟩ := State.tick_running hs hp
    subst hlrxd
    obtain ⟨hbitStands, hbitRuns⟩ := s.tickLine_bitTimer s.tick.line.lrxd
    obtain ⟨hconversionRuns, hconversionStands⟩ := s.tickConversion_timer a
    have hmem := fun c => hpending ▸ s.mem_periodEvents s.tick.line.lrxd a c
    have hedge : Instr.lrxdFallingEdge ∈ s.tick.pending ↔ s.edgeDue s.tick.line.lrxd := by simp [hmem]
    have hsample : ∀ l, Instr.samplePoint l ∈ s.tick.pending ↔
        s.sampleDue s.tick.line.lrxd ∧ l = s.tick.line.lrxd := by simp [hmem, and_comm]
    have hboundary : ∀ l, Instr.bitBoundary l ∈ s.tick.pending ↔
        s.boundaryDue s.tick.line.lrxd ∧ l = s.tick.line.lrxd := by simp [hmem, and_comm]
    have hsettled : (∃ x, Instr.settleEnd x ∈ s.tick.pending) ↔ s.clock.phase = 7 ∧ ∃ n, s.settledAt n := by simp [hmem]
    have hconverted : Instr.conversionComplete ∈ s.tick.pending ↔ s.clock.phase = 7 ∧ ∃ n, s.convertedAt n := by
      simp [hmem]
    have hcomplete : Instr.commitComplete ∈ s.tick.pending ↔ s.clock.phase = 7 ∧ s.commitDue := by simp [hmem]
    refine ⟨hphase, fun h => ?_, hedge, hsample, hboundary, fun h => hbit.trans (hbitStands h),
      fun ho he hs hb => hbit.trans (hbitRuns ho he hs hb), hsettled, hconverted, fun h7 hscan hpos hn hc => ?_,
      fun h => ?_, ?_, fun h => ?_, fun h7 hc hl => hcomplete.2 ⟨h7, State.commitDue_of_last hc hl⟩, fun h7 hc hn => ?_,
      fun h => ?_⟩
    · rw [hpending] at h ⊢
      exact State.periodEvents_head h
    · rw [hconversion, if_pos h7]
      exact hconversionRuns hscan hpos hn hc
    · rw [hconversion]
      split
      · next h7 => exact hconversionStands (h.resolve_left (not_not_intro h7))
      · rfl
    · rw [hcycle, s.tickCycle_eq.2]
      by_cases h7 : s.clock.phase = 7 <;> simp [h7]
    · obtain ⟨h7, hd⟩ := hcomplete.1 h
      exact ⟨h7, hd.1⟩
    · have hnot : ¬ s.commitDue := fun hd => hn (hcomplete.2 ⟨h7, hd⟩)
      rw [hcommit, if_pos h7]
      rcases s.tickCommit_cases with ⟨hd, _⟩ | ⟨_, _, h⟩
      · exact absurd hd hnot
      · exact h.trans (if_pos hc)
    · rw [hcommit]
      split
      · next h7 =>
        rcases s.tickCommit_cases with ⟨_, _, ht⟩ | ⟨hd, _, ht⟩
        · exact ht
        · rcases h with h | h | h
          · exact absurd h7 h
          · exact ht.trans (if_neg h)
          · exact absurd (hcomplete.1 h).2 hd
      · rfl

end Sys2Proof.Machine
end

section
/-! The numbers of the MIN, MAX and ANCHOR rounds on the line (R27, R30, R32). -/

namespace Sys2Proof.Machine

/-- A value in range, sent in a MIN round, stands on the line above its least value (R27). -/
theorem encodeNumber_min_toNat {v : Int} (hlow : -32768 ≤ v) (hhigh : v ≤ 32767) :
    ((encodeNumber .min (.number v)).toNat : Int) = v + 32768 := by
  show ((BitVec.ofInt 16 (v + 32768)).toNat : Int) = _
  rw [BitVec.toNat_ofInt]
  omega

/-- A value in range, sent in a MAX round, stands on the line below its greatest value (R27). -/
theorem encodeNumber_max_toNat {v : Int} (hlow : -32768 ≤ v) (hhigh : v ≤ 32767) :
    ((encodeNumber .max (.number v)).toNat : Int) = 32767 - v := by
  show ((BitVec.ofInt 16 (32767 - v)).toNat : Int) = _
  rw [BitVec.toNat_ofInt]
  omega

/-- Settles O45: the two encodings count the values in range upward and downward from 0. -/
theorem numbersOnTheLine : Obligations.NumbersOnTheLine := by
  refine ⟨fun v hlow hhigh => ?_, fun v w hlow hlt hhigh => ?_, fun c => ⟨BitVec.not_not, ?_, BitVec.not_not, rfl⟩⟩
  · have hmin := encodeNumber_min_toNat hlow hhigh
    have hmax := encodeNumber_max_toNat hlow hhigh
    refine ⟨?_, ?_, hmin, hmax, BitVec.eq_of_toNat_eq ?_⟩
    · unfold decodeMin
      omega
    · unfold decodeMax
      omega
    · rw [BitVec.toNat_not]
      omega
  · have hminv := encodeNumber_min_toNat hlow (by omega : v ≤ 32767)
    have hminw := encodeNumber_min_toNat (by omega : -32768 ≤ w) hhigh
    have hmaxv := encodeNumber_max_toNat hlow (by omega : v ≤ 32767)
    have hmaxw := encodeNumber_max_toNat (by omega : -32768 ≤ w) hhigh
    rw [BitVec.lt_def, BitVec.lt_def]
    omega
  · exact BitVec.toNat_not

end Sys2Proof.Machine
end

section
/-! The check accumulator (R37, R182), and the outcome at the objection bit with its record (R40 to R42). -/

namespace Sys2Proof.Machine

/-- A bit taken reaches the check accumulator in the code and the body alone (R37). -/
theorem Round.takeBit_check {r : Round} {f : Field} (hf : r.field = some f) (bit : Level) (fault suppressed : Bool)
    (address : Address) (digest : Word) :
    (r.takeBit f bit fault suppressed address digest).check =
      if r.phase = .code ∨ r.phase = .body then crc8Bit r.check bit.bit else r.check := by
  rw [Round.takeBit_eq]
  exact if_congr (Round.accumulated_of_field hf) rfl rfl

/-- Settles O47: a step of the polynomial, the fields that take it, and a request's bytes bit by bit. -/
theorem checkTakesCodeAndBody : Obligations.CheckTakesCodeAndBody := by
  refine ⟨fun acc b => ?_, fun r f bit fault suppressed address digest hf => ?_, fun bytes => ?_⟩
  · unfold crc8Bit
    rw [show acc.msb = acc.getLsbD 7 from BitVec.msb_eq_getLsbD_last acc]
    by_cases h : acc.getLsbD 7 = b
    · rw [if_neg (fun hne => bne_iff_ne.1 hne h), if_pos h]
      exact BitVec.xor_zero.symm
    · rw [if_pos (bne_iff_ne.2 h), if_neg h]
  · rw [Round.takeBit_check hf]
    cases bit <;> rfl
  · unfold crc8 byteBits
    simp only [List.foldl_flatMap, List.foldl_map]

/-- A LOW objection bit voids the round (R40). -/
theorem Round.outcome_low (r : Round) : r.outcome .low = .void := rfl

/-- An observer with a mismatch takes the round as void (R40). -/
theorem Round.outcome_mismatch {r : Round} (hr : r.role = .observer) (hm : r.mismatch = true) (bit : Level) :
    r.outcome bit = .void := by
  unfold Round.outcome
  rw [if_pos (⟨hr, hm⟩ : r.role = .observer ∧ r.mismatch = true), ite_self]

/-- A round that nobody objects to, by its kind (R40). -/
theorem Round.outcome_high {r : Round} (h : r.role ≠ .observer ∨ r.mismatch = false) :
    r.outcome .high = match r.kind with
      | .roster => if r.set = 0 then .empty else .valid
      | .digest => if r.presence then (if r.dissent then .disagree else .agree) else .empty
      | .anchor | .min | .max | .any | .all => if r.presence then .valid else .empty := by
  have hno : ¬ (r.role = .observer ∧ r.mismatch = true) := by
    rintro ⟨hr, hm⟩
    rcases h with h | h
    · exact h hr
    · rw [hm] at h
      cases h
  unfold Round.outcome
  exact (if_neg nofun).trans (if_neg hno)

/-- The entry in the fault window: a participant's objection cause, an observer's mismatch (R41). -/
theorem Round.isFault_iff (r : Round) :
    r.isFault = true ↔ (r.role ≠ .observer ∧ r.cause ≠ .none) ∨ (r.role = .observer ∧ r.mismatch = true) := by
  unfold Round.isFault Round.participant
  by_cases hr : r.role = .observer <;> simp [hr]

/-- Settles O48: the outcome case by case, and what each outcome's record holds. -/
theorem outcomeByCases : Obligations.OutcomeByCases := by
  intro r bit
  have hcontent : (r.recordOf bit).content = r.content (r.outcome bit) := rfl
  refine ⟨?low, ?mismatch, ?high, r.isFault_iff, ?none, ?valid, ?digest, rfl, rfl, rfl⟩
  case low => rintro rfl; exact r.outcome_low
  case mismatch => exact fun _ hr hm => Round.outcome_mismatch hr hm bit
  case high =>
    rintro rfl h
    rw [Round.outcome_high h]
    refine ⟨fun hk => by rw [hk], fun hk hp => ?_, fun hk hp => by rw [hk, hp]; rfl, fun hk hk' hp => ?_⟩
    · rw [hp]
      cases hkind : r.kind with
      | roster => exact absurd hkind hk
      | _ => rfl
    · rw [hp]
      cases hkind : r.kind with
      | roster => exact absurd hkind hk
      | digest => exact absurd hkind hk'
      | _ => rfl
  case none =>
    rintro (h | h) <;> rw [hcontent, h] <;> rfl
  case valid =>
    intro h
    rw [hcontent, h]
    unfold Round.content
    cases r.kind with
    | anchor =>
      show Content.count (~~~r.number) = .count (65535 - r.number)
      rw [← BitVec.allOnes_sub_eq_not]
      rfl
    | _ => rfl
  case digest =>
    rintro (h | h) <;> rw [hcontent, h] <;> rfl

end Sys2Proof.Machine
end

section
/-! What a bit read does to each item of the round (chapter 2): one equation for each item, by the field of the bit. -/

namespace Sys2Proof.Machine

/-- A starter that sent 1 and reads LOW joins (R23). -/
theorem Round.codeContention_eq (r : Round) (f : Field) (bit : Level) (suppressed : Bool) (address : Address) :
    r.codeContention f bit suppressed address = { r with role :=
      if r.role = .starter ∧ suppressed = false ∧ r.bitOf address f = true ∧ bit = .low then .joiner else r.role } := by
  unfold Round.codeContention
  split <;> rfl

/-- A presence bit read LOW (R26). -/
theorem Round.takePresence_eq (r : Round) (bit : Level) (suppressed : Bool) :
    r.takePresence bit suppressed = { r with
      presence := r.presence || bit == .low
      sender := if bit = .low then r.participant && r.snapshot.isSome else r.sender
      contender := if bit = .low then r.participant && r.snapshot.isSome && contends r.kind && !suppressed
        else r.contender } := by
  unfold Round.takePresence
  cases bit with
  | low => rw [if_pos rfl, if_pos rfl, if_pos rfl, beq_self_eq_true, Bool.or_true]
  | high => rw [if_neg nofun, if_neg nofun, if_neg nofun, show (Level.high == .low) = false from rfl, Bool.or_false]

/-- A position read LOW enters the set (R33). -/
theorem Round.positionBit_eq (r : Round) (k : Nat) (bit : Level) :
    r.positionBit k bit = { r with set := if bit = .low then r.set ||| (1#32 <<< k) else r.set } := by
  unfold Round.positionBit
  split <;> rfl

section Items

variable (r : Round) (f : Field) (bit : Level) (fault suppressed : Bool) (address : Address) (digest : Word)

/-- What a bit read does in each field, item by item (R23 to R39). -/
theorem Round.takeField_eq : r.takeField f bit fault suppressed address digest = match f with
    | .code k => { r with
        role := if r.role = .starter ∧ suppressed = false ∧ r.ownCode.getMsbD k = true ∧ bit = .low then .joiner else r.role
        codeRead := shiftIn r.codeRead bit.bit }
    | .presence => { r with
        presence := r.presence || bit == .low
        sender := if bit = .low then r.participant && r.snapshot.isSome else r.sender
        contender := if bit = .low then r.participant && r.snapshot.isSome && contends r.kind && !suppressed
          else r.contender }
    | .number k => { r with
        contender := r.contender && !(fault || (r.numberSent.getMsbD k && bit == .low))
        number := shiftIn r.number bit.bit
        differs := r.differs ||
          (r.kind == .digest && ((r.sender || r.role == .observer) && digest.getMsbD k && bit == .low)) }
    | .address k => { r with
        contender := r.contender && !(fault || (address.getMsbD k && bit == .low))
        address := shiftIn r.address bit.bit }
    | .nonce k => { r with
        contender := r.contender && !(fault || (r.nonce.getMsbD k && bit == .low))
        lostInNonce := r.lostInNonce || (r.contender && !fault && r.nonce.getMsbD k && bit == .low)
        nonceRead := shiftIn r.nonceRead bit.bit }
    | .position k => { r with set := if bit = .low then r.set ||| (1#32 <<< k) else r.set }
    | .inverted k => { r with
        differs := r.differs || ((r.sender || r.role == .observer) && (~~~digest).getMsbD k && bit == .low)
        inverted := shiftIn r.inverted bit.bit }
    | .dissent => { r with dissent := bit == .low }
    | .check k => { r with
        cause := if r.participant && r.check.getMsbD k && bit == .low then r.cause.found .checkDisagreement else r.cause
        mismatch := r.mismatch || (!r.participant && bit != Level.ofBit (r.check.getMsbD k)) }
    | .objection => r := by
  cases f with
  | code k => rw [Round.takeField, Round.codeContention_eq]; rfl
  | presence => exact r.takePresence_eq bit suppressed
  | number k =>
    simp only [Round.takeField, Round.contention_eq, Round.digestBit_eq]
    by_cases hk : r.kind = .digest
    · rw [if_pos hk, hk]
      rfl
    · rw [if_neg hk, beq_eq_false_iff_ne.2 hk, Bool.false_and, Bool.or_false]
      rfl
  | address k => rw [Round.takeField, Round.contention_eq]; rfl
  | nonce k => rw [Round.takeField, Round.nonceLoss_eq, Round.contention_eq]; rfl
  | position k => exact r.positionBit_eq k bit
  | inverted k => rw [Round.takeField, Round.digestBit_eq]
  | dissent => rfl
  | check k => exact r.checkBit_eq (.check k) bit address
  | objection => rfl

/-- An item that neither the place nor the check accumulator nor an objection cause is, after a bit. -/
theorem Round.takeBit_item {α : Type} (item : Round → α)
    (h : ∀ (t : Round) phase pos check, item { t with phase := phase, pos := pos, check := check } = item t) :
    item (r.takeBit f bit fault suppressed address digest) =
      item ({ r with cause := (r.noteFault fault).cause }.takeField f bit fault suppressed address digest) := by
  rw [Round.takeBit_eq, ← Round.noteFault_eq]
  exact h _ _ _ _

/-- A code bit alone moves the role (R23). -/
theorem Round.takeBit_role : (r.takeBit f bit fault suppressed address digest).role = match f with
    | .code k => if r.role = .starter ∧ suppressed = false ∧ r.ownCode.getMsbD k = true ∧ bit = .low then .joiner else r.role
    | _ => r.role := by
  rw [r.takeBit_item _ _ _ _ _ _ Round.role fun _ _ _ _ => rfl, Round.takeField_eq]
  cases f <;> rfl

/-- The presence bit makes a contender, and a bit of the contention fields may end one (R26, R28). -/
theorem Round.takeBit_contender : (r.takeBit f bit fault suppressed address digest).contender = match f with
    | .presence => if bit = .low then r.participant && r.snapshot.isSome && contends r.kind && !suppressed else r.contender
    | .number _ | .address _ | .nonce _ => r.contender && !(fault || (r.bitOf address f && bit == .low))
    | _ => r.contender := by
  rw [r.takeBit_item _ _ _ _ _ _ Round.contender fun _ _ _ _ => rfl, Round.takeField_eq]
  cases f <;> rfl

/-- A code bit is shifted into the code read (R20). -/
theorem Round.takeBit_codeRead : (r.takeBit f bit fault suppressed address digest).codeRead = match f with
    | .code _ => shiftIn r.codeRead bit.bit
    | _ => r.codeRead := by
  rw [r.takeBit_item _ _ _ _ _ _ Round.codeRead fun _ _ _ _ => rfl, Round.takeField_eq]
  cases f <;> rfl

/-- A presence bit read LOW is noted (R26). -/
theorem Round.takeBit_presence : (r.takeBit f bit fault suppressed address digest).presence = match f with
    | .presence => r.presence || bit == .low
    | _ => r.presence := by
  rw [r.takeBit_item _ _ _ _ _ _ Round.presence fun _ _ _ _ => rfl, Round.takeField_eq]
  cases f <;> rfl

/-- A contributor whose presence bit reads LOW is a sender (R26). -/
theorem Round.takeBit_sender : (r.takeBit f bit fault suppressed address digest).sender = match f with
    | .presence => if bit = .low then r.participant && r.snapshot.isSome else r.sender
    | _ => r.sender := by
  rw [r.takeBit_item _ _ _ _ _ _ Round.sender fun _ _ _ _ => rfl, Round.takeField_eq]
  cases f <;> rfl

/-- The 16 bits after the presence bit are shifted into the number read (R19, R20). -/
theorem Round.takeBit_number : (r.takeBit f bit fault suppressed address digest).number = match f with
    | .number _ => shiftIn r.number bit.bit
    | _ => r.number := by
  rw [r.takeBit_item _ _ _ _ _ _ Round.number fun _ _ _ _ => rfl, Round.takeField_eq]
  cases f <;> rfl

/-- The address bits are shifted into the address read (R19, R20). -/
theorem Round.takeBit_address : (r.takeBit f bit fault suppressed address digest).address = match f with
    | .address _ => shiftIn r.address bit.bit
    | _ => r.address := by
  rw [r.takeBit_item _ _ _ _ _ _ Round.address fun _ _ _ _ => rfl, Round.takeField_eq]
  cases f <;> rfl

/-- The nonce bits are shifted into the nonce read (R19, R20). -/
theorem Round.takeBit_nonceRead : (r.takeBit f bit fault suppressed address digest).nonceRead = match f with
    | .nonce _ => shiftIn r.nonceRead bit.bit
    | _ => r.nonceRead := by
  rw [r.takeBit_item _ _ _ _ _ _ Round.nonceRead fun _ _ _ _ => rfl, Round.takeField_eq]
  cases f <;> rfl

/-- The bits of the inverse are shifted into the inverse read (R19, R20). -/
theorem Round.takeBit_inverted : (r.takeBit f bit fault suppressed address digest).inverted = match f with
    | .inverted _ => shiftIn r.inverted bit.bit
    | _ => r.inverted := by
  rw [r.takeBit_item _ _ _ _ _ _ Round.inverted fun _ _ _ _ => rfl, Round.takeField_eq]
  cases f <;> rfl

/-- A position read LOW enters the set (R33). -/
theorem Round.takeBit_set : (r.takeBit f bit fault suppressed address digest).set = match f with
    | .position k => if bit = .low then r.set ||| (1#32 <<< k) else r.set
    | _ => r.set := by
  rw [r.takeBit_item _ _ _ _ _ _ Round.set fun _ _ _ _ => rfl, Round.takeField_eq]
  cases f <;> rfl

/-- The dissent bit is what it reads (R35). -/
theorem Round.takeBit_dissent : (r.takeBit f bit fault suppressed address digest).dissent = match f with
    | .dissent => bit == .low
    | _ => r.dissent := by
  rw [r.takeBit_item _ _ _ _ _ _ Round.dissent fun _ _ _ _ => rfl, Round.takeField_eq]
  cases f <;> rfl

/-- A difference is found in the bits of a digest and of its inverse (R34, R36). -/
theorem Round.takeBit_differs : (r.takeBit f bit fault suppressed address digest).differs = match f with
    | .number k => r.differs || (r.kind == .digest && ((r.sender || r.role == .observer) && digest.getMsbD k && bit == .low))
    | .inverted k => r.differs || ((r.sender || r.role == .observer) && (~~~digest).getMsbD k && bit == .low)
    | _ => r.differs := by
  rw [r.takeBit_item _ _ _ _ _ _ Round.differs fun _ _ _ _ => rfl, Round.takeField_eq]
  cases f <;> rfl

/-- Only a drop-out in the nonce is lost in nonce (R31). -/
theorem Round.takeBit_lostInNonce : (r.takeBit f bit fault suppressed address digest).lostInNonce = match f with
    | .nonce k => r.lostInNonce || (r.contender && !fault && r.nonce.getMsbD k && bit == .low)
    | _ => r.lostInNonce := by
  rw [r.takeBit_item _ _ _ _ _ _ Round.lostInNonce fun _ _ _ _ => rfl, Round.takeField_eq]
  cases f <;> rfl

/-- An observer's check bit that reads other than its own is a mismatch (R39). -/
theorem Round.takeBit_mismatch : (r.takeBit f bit fault suppressed address digest).mismatch = match f with
    | .check k => r.mismatch || (!r.participant && bit != Level.ofBit (r.check.getMsbD k))
    | _ => r.mismatch := by
  rw [r.takeBit_item _ _ _ _ _ _ Round.mismatch fun _ _ _ _ => rfl, Round.takeField_eq]
  cases f <;> rfl

/-- The objection cause after a bit: that of its drive fault, and then a participant's check disagreement (R15, R38). -/
theorem Round.takeBit_causeFound : (r.takeBit f bit fault suppressed address digest).cause = match f with
    | .check k => if r.participant && r.check.getMsbD k && bit == .low then
        (r.noteFault fault).cause.found .checkDisagreement else (r.noteFault fault).cause
    | _ => (r.noteFault fault).cause := by
  rw [r.takeBit_item _ _ _ _ _ _ Round.cause fun _ _ _ _ => rfl, Round.takeField_eq]
  cases f <;> rfl

end Items

end Sys2Proof.Machine
end

section
/-! What a field's bit does, field by field, and the place of each field (chapter 2). -/

namespace Sys2Proof.Machine

/-- The inverse of a digest has sixteen bits, in a DIGEST alone (R19). -/
theorem Round.field_inverted {r : Round} {k : Nat} (h : r.field = some (.inverted k)) : r.kind = .digest ∧ k < 16 := by
  unfold Round.field at h
  cases hp : r.phase <;> rw [hp] at h
  case body =>
    replace h := Option.some.inj h
    unfold bodyField at h
    cases hk : r.kind <;> rw [hk] at h <;> dsimp only at h <;> (repeat' split at h) <;> cases h
    exact ⟨rfl, by omega⟩
  all_goals cases h

/-- The field of each place of a round (R19). -/
theorem Round.field_places {r : Round} {f : Field} (hf : r.field = some f) :
    (r.phase = .code → f = .code r.pos) ∧ (r.phase = .check → f = .check r.pos) ∧ (r.phase = .objection → f = .objection) ∧
    (r.phase = .body → f = bodyField r.kind r.pos) := by
  refine ⟨fun hp => ?_, fun hp => ?_, fun hp => ?_, fun hp => ?_⟩
  · exact (Option.some.inj ((Round.field_of_code hp).symm.trans hf)).symm
  · exact (Option.some.inj ((Round.field_of_check hp).symm.trans hf)).symm
  · exact (Option.some.inj ((Round.field_of_objection hp).symm.trans hf)).symm
  · exact (Option.some.inj ((Round.field_of_body hp).symm.trans hf)).symm

section Bit

variable (r : Round) (f : Field) (bit : Level) (fault suppressed : Bool) (address : Address) (digest : Word)

/-- The place after a bit, in the phase and the count (R21). -/
theorem Round.takeBit_placeAfter :
    let t := r.takeBit f bit fault suppressed address digest
    t.phase = (placeAfter r.kind r.phase r.pos).1 ∧ t.pos = (placeAfter r.kind r.phase r.pos).2 := by
  rw [Round.takeBit_eq]
  exact ⟨rfl, rfl⟩

/-- A bit leaves what the recognition of the code fixed (R25). -/
theorem Round.takeBit_fixed :
    let t := r.takeBit f bit fault suppressed address digest
    t.kind = r.kind ∧ t.cycle = r.cycle ∧ t.ownCode = r.ownCode ∧ t.snapshot = r.snapshot ∧ t.nonce = r.nonce := by
  obtain ⟨_, _, hkind, hcycle, _, hsnapshot, hnonce, hown⟩ :=
    (r.noteFault fault).takeField_keeps f bit fault suppressed address digest
  rw [Round.takeBit_eq]
  dsimp only
  rw [hkind, hcycle, hown, hsnapshot, hnonce, Round.noteFault_eq]
  exact ⟨rfl, rfl, rfl, rfl, rfl⟩

variable {r f bit fault suppressed address digest}

/-- A contender at a bit of its number, its address or its nonce stays one unless it drops out or has a drive fault (R28). -/
theorem Round.takeBit_contends (hc : r.contender = true)
    (hf : (∃ k, f = .number k) ∨ (∃ k, f = .address k) ∨ ∃ k, f = .nonce k) :
    (r.takeBit f bit fault suppressed address digest).contender = true ↔
      fault = false ∧ ¬(r.bitOf address f = true ∧ bit = .low) := by
  have ht : (r.takeBit f bit fault suppressed address digest).contender =
      (r.contender && !(fault || (r.bitOf address f && bit == .low))) := by
    rw [Round.takeBit_contender]
    rcases hf with ⟨k, rfl⟩ | ⟨k, rfl⟩ | ⟨k, rfl⟩ <;> rfl
  rw [ht, hc]
  cases r.bitOf address f <;> simp

/-- A contender stands at a bit of every field that is neither of the contention fields nor a LOW presence bit (R28). -/
theorem Round.takeBit_contender_stands (hnumber : ∀ k, f ≠ .number k) (haddress : ∀ k, f ≠ .address k)
    (hnonce : ∀ k, f ≠ .nonce k) (hpresence : f ≠ .presence ∨ bit = .high) :
    (r.takeBit f bit fault suppressed address digest).contender = r.contender := by
  rw [Round.takeBit_contender]
  cases f with
  | number k => exact absurd rfl (hnumber k)
  | address k => exact absurd rfl (haddress k)
  | nonce k => exact absurd rfl (hnonce k)
  | presence =>
    have hhigh : bit = .high := hpresence.resolve_left fun h => h rfl
    exact if_neg (by rw [hhigh]; nofun)
  | _ => rfl

/-- No station but one that reads its presence LOW becomes a contender (R26). -/
theorem Round.takeBit_contender_none (hpresence : f ≠ .presence ∨ bit = .high) (hc : r.contender = false) :
    (r.takeBit f bit fault suppressed address digest).contender = false := by
  rw [Round.takeBit_contender]
  cases f with
  | presence =>
    have hhigh : bit = .high := hpresence.resolve_left fun h => h rfl
    exact (if_neg (by rw [hhigh]; nofun)).trans hc
  | _ => simp [hc]

/-- A difference found in a digest: a sender's or an observer's own bit 1 on a LOW line (R34, R36). -/
theorem Round.takeBit_differs_iff (hf : r.field = some f) :
    (r.takeBit f bit fault suppressed address digest).differs = true ↔
      r.differs = true ∨ (r.sender = true ∨ r.role = .observer) ∧ bit = .low ∧ r.kind = .digest ∧
        ((∃ k, f = .number k ∧ digest.getMsbD k = true) ∨ ∃ k, f = .inverted k ∧ digest.getMsbD k = false) := by
  rw [Round.takeBit_differs]
  cases f with
  | number k =>
    simp
    tauto
  | inverted k =>
    obtain ⟨hk, hlt⟩ := Round.field_inverted hf
    simp [BitVec.getMsbD_not, hk, hlt]
    tauto
  | _ => simp

/-- A participant keeps the first objection cause: an earlier one, the bit's drive fault, or a check disagreement (R21). -/
theorem Round.takeBit_cause_participant (hf : r.field = some f) (hr : r.role ≠ .observer) :
    (r.takeBit f bit fault suppressed address digest).cause =
      if r.cause ≠ .none then r.cause
      else if fault = true then .driveFault
      else if r.phase = .check ∧ r.check.getMsbD r.pos = true ∧ bit = .low then .checkDisagreement
      else .none := by
  have hnote := (r.noteFault_cause fault).2 hr
  have hp : r.participant = true := by simpa [Round.participant] using hr
  rw [Round.takeBit_causeFound, hnote]
  by_cases hcheck : r.phase = .check
  · obtain rfl := (Round.field_places hf).2.1 hcheck
    cases hc : r.cause <;> cases fault <;> simp [hp, hcheck, ObjectionCause.found]
  · cases f with
    | check k => exact absurd (Round.field_check hf).1 hcheck
    | _ => simp [hcheck]

/-- An observer keeps no objection cause, and finds a mismatch in the check field (R39). -/
theorem Round.takeBit_observer (hf : r.field = some f) (hr : r.role = .observer) :
    let t := r.takeBit f bit fault suppressed address digest
    t.cause = r.cause ∧
      (t.mismatch = true ↔ r.mismatch = true ∨ (r.phase = .check ∧ bit.bit ≠ r.check.getMsbD r.pos)) := by
  have hnote := (r.noteFault_cause fault).1 hr
  have hp : r.participant = false := by simp [Round.participant, hr]
  have hbit : ∀ own : Bool, (bit != Level.ofBit own) = true ↔ bit.bit ≠ own := by cases bit <;> decide
  intro t
  rw [Round.takeBit_causeFound, Round.takeBit_mismatch, hnote]
  by_cases hcheck : r.phase = .check
  · obtain rfl := (Round.field_places hf).2.1 hcheck
    simp only [hp, Bool.false_and, Bool.false_eq_true, if_false, Bool.not_false, Bool.true_and, Bool.or_eq_true, hbit,
      hcheck, true_and]
  · cases f with
    | check k => exact absurd (Round.field_check hf).1 hcheck
    | _ => simp [hcheck]

/-- A bit shifted in, as the number it is on the line (R20). -/
theorem shiftIn_level {w : Nat} (x : BitVec w) (bit : Level) :
    shiftIn x bit.bit = (x <<< 1) ||| BitVec.setWidth w (if bit = .high then (1 : Word) else 0) := by
  unfold shiftIn
  cases bit with
  | low => simp [Level.bit]
  | high =>
    congr 1
    refine BitVec.eq_of_toNat_eq ?_
    simp [Level.bit]

/-- The same of a word. -/
theorem shiftIn_word (x : Word) (bit : Level) : shiftIn x bit.bit = (x <<< 1) ||| (if bit = .high then 1 else 0) := by
  rw [shiftIn_level, BitVec.setWidth_eq]

/-- The kinds with contention in their body (R27). -/
theorem contends_iff (k : Kind) : contends k = true ↔ k = .min ∨ k = .max ∨ k = .anchor := by
  cases k <;> decide

/-- A position read LOW enters the set, and no other position does (R33). -/
theorem Round.takeBit_set_position (k : Nat) {j : Nat} (hj : j < 32) :
    (r.takeBit (.position k) bit fault suppressed address digest).set.getLsbD j =
      (r.set.getLsbD j || decide (j = k ∧ bit = .low)) := by
  rw [Round.takeBit_set]
  cases bit with
  | high => simp
  | low =>
    have hbit : (1#32 <<< k).getLsbD j = decide (j = k) := by
      rw [BitVec.getLsbD_shiftLeft, BitVec.getLsbD_one]
      by_cases hjk : j = k
      · simp [hjk, hjk ▸ hj]
      · simp [hjk]
        omega
    simp [hbit]

end Bit

/-- Settles O49: the place, then each item of the round at the fields that concern it and at those that do not. -/
theorem fieldsFollowTheBits : Obligations.FieldsFollowTheBits := by
  intro r f bit fault suppressed address digest hf t one bodyLength
  obtain ⟨hcode, hcheck, hobjection, hbody⟩ := Round.field_places hf
  obtain ⟨hphase, hpos⟩ := r.takeBit_placeAfter f bit fault suppressed address digest
  have hlength : bodyLength = bodyBits r.kind := by
    unfold bodyLength bodyBits
    cases r.kind <;> rfl
  refine ⟨⟨hcode, hcheck, hobjection, fun hp => ?bodyFields⟩, ?places, ?role, ?position, ?set, ?contender,
    r.takeBit_fixed f bit fault suppressed address digest, ?codeBit, ?codeRead, ?addressBit, ?address, ?nonceBit, ?nonceRead,
    ?invertedBit, ?inverted, ?number, ?presenceBit, ?presence, ?dissentBit, ?dissent, Round.takeBit_differs_iff hf,
    ?numberBit, ?starter, ?numberContender, ?addressContender, ?nonceContender, ?lost,
    Round.takeBit_cause_participant hf, Round.takeBit_observer hf⟩
  case bodyFields =>
    rw [hbody hp]
    refine ⟨fun hk => by rw [hk]; rfl, fun hk h0 => by rw [h0]; exact bodyField_presence hk,
      fun hk h1 h16 => bodyField_number hk h1 h16,
      fun hk => ⟨fun h17 h21 => bodyField_address hk h17 h21, fun h22 _ => bodyField_nonce hk h22⟩,
      fun hk => ⟨fun h17 h32 => by rw [hk]; exact bodyField_inverted h17 h32, fun h33 => by rw [hk, h33]; rfl⟩⟩
  case places =>
    rw [hlength]
    refine ⟨fun hp => ?_, fun hp hn => ?_, fun hp hn => ?_, fun hp hn => ?_, fun hp hn => ?_⟩ <;>
      rw [hphase, hpos, hp, placeAfter]
    · exact ⟨rfl, rfl⟩
    · rw [if_neg hn]
      exact ⟨rfl, rfl⟩
    · rw [if_pos hn]
      exact ⟨rfl, rfl⟩
    · rw [if_neg (by omega)]
      exact ⟨rfl, rfl⟩
    · rw [if_pos (by omega)]
      exact ⟨rfl, rfl⟩
  case role =>
    intro h
    rw [Round.takeBit_role]
    cases f with
    | code k =>
      refine if_neg fun ⟨hr, hs, _⟩ => ?_
      rcases h with h | h | h
      · exact h k rfl
      · exact h hr
      · rw [hs] at h
        cases h
    | _ => rfl
  case position => rintro k rfl j hj; exact Round.takeBit_set_position k hj
  case set =>
    intro h
    rw [Round.takeBit_set]
    split
    exacts [absurd rfl (h _), rfl]
  case contender => exact Round.takeBit_contender_stands
  case codeBit => rintro k rfl; exact (r.takeBit_codeRead ..).trans (shiftIn_level _ _)
  case codeRead =>
    intro h
    rw [Round.takeBit_codeRead]
    split
    exacts [absurd rfl (h _), rfl]
  case addressBit => rintro k rfl; exact (r.takeBit_address ..).trans (shiftIn_level _ _)
  case address =>
    intro h
    rw [Round.takeBit_address]
    split
    exacts [absurd rfl (h _), rfl]
  case nonceBit => rintro k rfl; exact (r.takeBit_nonceRead ..).trans (shiftIn_level _ _)
  case nonceRead =>
    intro h
    rw [Round.takeBit_nonceRead]
    split
    exacts [absurd rfl (h _), rfl]
  case invertedBit => rintro k rfl; exact (r.takeBit_inverted ..).trans (shiftIn_word _ _)
  case inverted =>
    intro h
    rw [Round.takeBit_inverted]
    split
    exacts [absurd rfl (h _), rfl]
  case number =>
    intro h
    rw [Round.takeBit_number]
    split
    exacts [absurd rfl (h _), rfl]
  case numberBit => rintro k rfl; exact (r.takeBit_number ..).trans (shiftIn_word _ _)
  case presenceBit =>
    rintro rfl rfl
    rw [Round.takeBit_presence, Round.takeBit_sender, Round.takeBit_contender]
    simp [Round.participant, contends_iff, Option.isSome_iff_ne_none, and_assoc]
  case presence =>
    intro h
    refine ⟨?_, ?_, Round.takeBit_contender_none h⟩
    · rw [Round.takeBit_presence]
      cases f with
      | presence => simp [h.resolve_left fun h => h rfl]
      | _ => rfl
    · rw [Round.takeBit_sender]
      cases f with
      | presence => simp [h.resolve_left fun h => h rfl]
      | _ => rfl
  case dissentBit => rintro rfl; exact r.takeBit_dissent ..
  case dissent =>
    intro h
    rw [Round.takeBit_dissent]
    split
    exacts [absurd rfl h, rfl]
  case starter =>
    rintro k rfl hr hs
    rw [Round.takeBit_role]
    simp [hr, hs]
  case numberContender =>
    rintro k x rfl hx hc _
    have := Round.takeBit_contends (bit := bit) (fault := fault) (suppressed := suppressed) (address := address)
      (digest := digest) hc (.inl ⟨k, rfl⟩)
    simpa only [Round.bitOf, Round.numberSent, hx] using this
  case addressContender => rintro k rfl hc; exact Round.takeBit_contends hc (.inr (.inl ⟨k, rfl⟩))
  case nonceContender => rintro k rfl hc; exact Round.takeBit_contends hc (.inr (.inr ⟨k, rfl⟩))
  case lost =>
    rw [Round.takeBit_lostInNonce]
    cases f with
    | nonce k => simp [and_assoc]
    | _ => simp

/-- What a ROSTER round holds when the positions of a list of bits have been read (R33). -/
structure Round.HasRead (t : Round) (bits : List Level) : Prop where
  kind : t.kind = .roster
  phase : t.phase = if bits.length = 32 then .check else .body
  pos : t.pos = if bits.length = 32 then 0 else bits.length
  set : ∀ j < 32, t.set.getLsbD j = (bits[j]? == some .low)

/-- Before the end of the body the next bit is the next position (R33). -/
theorem Round.HasRead.field {t : Round} {bits : List Level} (h : t.HasRead bits) (hl : bits.length < 32) :
    t.field = some (.position bits.length) := by
  have hn : ¬ bits.length = 32 := by omega
  rw [Round.field_of_body (h.phase.trans (if_neg hn)), h.kind, h.pos, if_neg hn]
  rfl

/-- The next position read (R33). -/
theorem Round.HasRead.takeBit {t : Round} {bits : List Level} (h : t.HasRead bits) (hl : bits.length < 32) (bit : Level)
    (fault suppressed : Bool) (address : Address) (digest : Word) :
    (t.takeBit (.position bits.length) bit fault suppressed address digest).HasRead (bits ++ [bit]) := by
  have hn : ¬ bits.length = 32 := by omega
  have hbody : t.phase = .body := h.phase.trans (if_neg hn)
  have hpos : t.pos = bits.length := h.pos.trans (if_neg hn)
  obtain ⟨hphase, hplace⟩ := t.takeBit_placeAfter (.position bits.length) bit fault suppressed address digest
  have hlength : (bits ++ [bit]).length = bits.length + 1 := List.length_append
  rw [h.kind, hbody, hpos] at hphase hplace
  refine ⟨(t.takeBit_fixed ..).1.trans h.kind, ?_, ?_, fun j hj => ?_⟩
  · rw [hphase, hlength]
    exact apply_ite Prod.fst ..
  · rw [hplace, hlength]
    exact apply_ite Prod.snd ..
  · rw [Round.takeBit_set_position _ hj, h.set j hj]
    rcases Nat.lt_trichotomy j bits.length with hlt | rfl | hgt
    · simp [List.getElem?_append_left hlt, Nat.ne_of_lt hlt]
    · simpa using (beq_eq_decide ..).symm
    · have hold : bits[j]? = none := List.getElem?_eq_none (Nat.le_of_lt hgt)
      have hnew : (bits ++ [bit])[j]? = none := List.getElem?_eq_none (hlength ▸ hgt)
      simp [hold, hnew, Nat.ne_of_gt hgt]

/-- Settles O50, bit by bit: after the bits read so far the set holds their LOW positions. -/
theorem rosterReadsTheSet : Obligations.RosterReadsTheSet := by
  intro r bits address digest hphase hkind hpos hset hlength t
  have read : ∀ bits : List Level, bits.length ≤ 32 →
      (bits.foldl (fun x b => match x.field with
        | some f => x.takeBit f b false false address digest
        | none => x) r).HasRead bits := by
    intro bits
    induction bits using List.reverseRecOn with
    | nil => exact fun _ => ⟨hkind, hphase, hpos, fun j _ => by simp [hset]⟩
    | append_singleton bits bit ih =>
      intro hle
      rw [List.length_append, List.length_singleton] at hle
      have h := ih (by omega)
      rw [List.foldl_append, List.foldl_cons, List.foldl_nil, h.field (by omega)]
      exact h.takeBit (by omega) bit false false address digest
  have h := read bits (by omega)
  exact ⟨h.phase.trans (if_pos hlength), h.pos.trans (if_pos hlength), fun k => h.set k.val k.isLt⟩

end Sys2Proof.Machine
end

section
/-! OUTCOME_DELIVERY (R43): the ring by the flag of a code's entry, the sample as a delivery, and what the delivery leaves in
each block, moved from the state at the sample to the state before it. -/

namespace Sys2Proof.Machine

theorem ringFlagOn_iff (im : Image) (c : Code) :
    ringFlagOn im c = true ↔ ∃ e, findRound im c = some e ∧ e.ring = true := by
  unfold ringFlagOn
  cases findRound im c <;> simp

/-- A record whose code's entry has the ring flag ON is offered to the ring (R110). -/
theorem State.appendRecord_on {s : State} {r : Record} (h : ∃ e, findRound s.image r.code = some e ∧ e.ring = true) :
    s.appendRecord r = s.offerRing r := if_pos ((ringFlagOn_iff ..).2 h)

/-- Any other record is not (R110). -/
theorem State.appendRecord_off {s : State} {r : Record} (h : ¬ ∃ e, findRound s.image r.code = some e ∧ e.ring = true) :
    s.appendRecord r = s := if_neg fun hon => h ((ringFlagOn_iff ..).1 hon)

theorem RoundOutcome.completes_iff (o : RoundOutcome) : o.completes = true ↔ o ≠ .void ∧ o ≠ .lapsed := by
  cases o <;> decide

/-- The latest table after a record, entry by entry (R108). -/
theorem latestAfter_eq_map (l : List LatestEntry) (r : Record) :
    latestAfter l r = l.map fun e =>
      if e.code = r.code ∧ r.outcome ≠ .void ∧ r.outcome ≠ .lapsed then
        { e with last := some r.outcome, content := r.content, cycle := r.cycle, updates := e.updates + 1 }
      else e := by
  unfold latestAfter
  cases hc : r.outcome.completes with
  | true => simp [← RoundOutcome.completes_iff, hc, LatestEntry.take]
  | false => simp [← RoundOutcome.completes_iff, hc]

/-- The state in which the outcome at an objection bit is delivered: the sample counted, and the round left (R7, R15, R43). -/
def State.atDelivery (s : State) (bit : Level) : State :=
  { s with
    line := { s.line with
      engine := .recover, suppressed := false, lrxd := bit, idleRun := 0
      lowRun := if bit = .low then min 64 (s.line.lowRun + 1) else 0
      bitTimer := samplePeriods s.image.settings.rate }
    round := {}
    control.counters.driveFaults := if s.line.ltxd = .low ∧ bit = .high then satInc s.control.counters.driveFaults
      else s.control.counters.driveFaults }

/-- The sample of the objection bit delivers the record of the round (R40 to R43). -/
theorem exec_outcomeDelivery_objection {s : State} (hs : s.held = false) (he : s.line.engine = .round)
    (hp : s.round.phase = .objection) (bit : Level) :
    exec (.outcomeDelivery bit) s = .next ((s.atDelivery bit).deliverRecord (s.round.recordOf bit) s.round.isFault) := by
  rw [exec_outcomeDelivery, State.onlyIf_true (by simp [State.atObjection, he, hp]), State.sample_round_bit hs he]
  refine congrArg Host.Outcome.next ((State.roundBit_objection (by exact Round.field_of_objection hp) ..).trans ?_)
  unfold State.deliver State.atDelivery
  simp only [State.isDriveFault_eq, decide_eq_true_eq]
  rfl

/-- Only the count of the adopted cycle moves (R57). -/
theorem State.adopt_only (s : State) (r : Record) : s.adopt r = { s with sched.cycle := (s.adopt r).sched.cycle } := by
  unfold State.adopt
  split <;> rfl

/-- The count adopted reads the station state and the count alone (R57). -/
theorem State.adopt_apart {s u : State} (hc : s.control.station = u.control.station) (hq : s.sched.cycle = u.sched.cycle)
    (r : Record) : (s.adopt r).sched.cycle = (u.adopt r).sched.cycle := by
  unfold State.adopt
  split
  · exact congrArg₂ (adoptedCount · · _) hc hq
  · exact hq

/-- A record whose content is a count is that of an ANCHOR (R42). -/
theorem Round.recordOf_count {r : Round} {bit : Level} {n : Word} (ho : (r.recordOf bit).outcome = .valid)
    (hc : (r.recordOf bit).content = .count n) : (r.recordOf bit).kind = .anchor := by
  have hcontent : r.content .valid = .count n := (congrArg r.content ho).symm.trans hc
  show r.kind = .anchor
  unfold Round.content at hcontent
  cases hk : r.kind with
  | anchor => rfl
  | _ => rw [hk] at hcontent; cases hcontent

/-- No count is adopted but from a VALID anchor (R57). -/
theorem State.adopt_other (s : State) {r : Round} {bit : Level}
    (h : (r.recordOf bit).outcome ≠ .valid ∨ (r.recordOf bit).kind ≠ .anchor) : s.adopt (r.recordOf bit) = s := by
  unfold State.adopt
  split
  · next ho hc => exact absurd (Round.recordOf_count ho hc) (h.resolve_left fun h => h ho)
  · rfl

/-- The count that a VALID anchor carries, and the one adopted from it (R42, R57). -/
theorem State.adopt_anchor (s : State) {r : Round} {bit : Level} (ho : (r.recordOf bit).outcome = .valid)
    (hk : (r.recordOf bit).kind = .anchor) :
    ∃ n, (r.recordOf bit).content = .count n ∧ (s.adopt (r.recordOf bit)).sched.cycle =
      if s.control.station = .joining then n
      else if 1 ≤ (n - s.sched.cycle).toNat ∧ (n - s.sched.cycle).toNat ≤ 32767 then n else s.sched.cycle := by
  have hcontent : (r.recordOf bit).content = .count (~~~r.number) := by
    refine (congrArg r.content ho).trans ?_
    unfold Round.content
    rw [show r.kind = .anchor from hk]
  refine ⟨_, hcontent, ?_⟩
  unfold State.adopt
  rw [ho, hcontent]
  dsimp only
  unfold adoptedCount aheadOf
  simp only [decide_eq_true_eq]
  cases s.control.station <;> rfl

/-- Station Control at an outcome: the window takes its entry, a VOID and a duplicate address are counted (R157). -/
theorem State.controlTake_frame (s : State) (r : Record) (fault : Bool) :
    ∃ alerts dup, s.controlTake r fault = { s with control := { s.control with
      window := windowAfter s.control.window fault, alerts := alerts
      counters := { s.control.counters with
        voids := if r.outcome = .void then satInc s.control.counters.voids else s.control.counters.voids
        dupAddresses := dup }
      roundEnding := true
      anchorNoted := s.control.station == .joining && r.kind == .anchor && r.outcome == .valid } } := by
  obtain ⟨alerts, counters, hframe⟩ := s.controlTake_changes r fault
  obtain ⟨_, _, _, _, hvoids, _⟩ := s.controlTake_alerts r fault
  have hcounted : ∃ voids dup, (s.controlTake r fault).control.counters =
      { s.control.counters with voids := voids, dupAddresses := dup } := by
    unfold State.controlTake State.noteDuplicate State.noteDisagree State.countVoid
    dsimp only
    split_ifs <;> split <;> exact ⟨_, _, rfl⟩
  obtain ⟨voids, dup, hcounted⟩ := hcounted
  rw [hframe] at hcounted hvoids
  have hcounters : counters = { s.control.counters with voids := voids, dupAddresses := dup } := hcounted
  subst hcounters
  have hvoids' : voids = _ := hvoids
  exact ⟨alerts, dup, by rw [hframe, hvoids']⟩

/-- What the Result Store and the Peer Table make of a delivery, as they would on the state before it (R108 to R128). -/
theorem State.atDelivery_peersTake (s : State) (bit : Level) (r : Record) :
    let t := ((s.atDelivery bit).storeOutcome r).peersTake r
    t = { s.atDelivery bit with
      store := (s.storeOutcome r).store, peers := (s.peersTake r).peers, control.alerts := t.control.alerts } ∧
    ∃ ring lost, (∀ k, (s.storeOutcome r).control.alerts.getLsbD k = (s.control.alerts.getLsbD k || (k == 8 && ring))) ∧
      (∀ k, (s.peersTake r).control.alerts.getLsbD k = (s.control.alerts.getLsbD k || (k == 1 && lost))) ∧
      ∀ k, t.control.alerts.getLsbD k = (s.control.alerts.getLsbD k || (k == 8 && ring) || (k == 1 && lost)) := by
  intro t
  obtain ⟨hstore, ring, hring, hring'⟩ := State.storeOutcome_apart (s := s.atDelivery bit) (u := s) rfl rfl r
  obtain ⟨_, _, _, _, ha⟩ := (s.atDelivery bit).storeOutcome_changes r
  have ht : t = ((s.atDelivery bit).storeOutcome r).peersTake r := rfl
  generalize (s.atDelivery bit).storeOutcome r = a at ht hstore hring ha
  obtain ⟨hpeers, lost, hlost, hlost'⟩ := State.peersTake_apart (s := a) (u := s) (by rw [ha]; rfl) (by rw [ha]; rfl) r
  obtain ⟨_, _, hb⟩ := a.peersTake_changes r
  rw [← ht] at hpeers hlost hb
  refine ⟨?_, ring, lost, hring', hlost', fun k => (hlost k).trans (congrArg (· || (k == 1 && lost)) (hring k))⟩
  rw [← hstore, ← hpeers, hb, ha]

/-- What the Round Scheduler makes of it after them, its lapse in the ring behind the record (R57, R62 to R65). -/
theorem State.atDelivery_schedTake (s : State) (bit : Level) (r : Record) :
    let t := (((s.atDelivery bit).storeOutcome r).peersTake r).schedTake r
    t = { s.atDelivery bit with
      sched := { (s.pendingTake r).sched with cycle := (s.adopt r).sched.cycle }
      store := ((s.storeOutcome r).pendingTake r).store
      peers := (s.peersTake r).peers
      control.alerts := t.control.alerts } ∧
    t.control.alerts.getLsbD 1 = (s.peersTake r).control.alerts.getLsbD 1 ∧
    t.control.alerts.getLsbD 8 = ((s.storeOutcome r).pendingTake r).control.alerts.getLsbD 8 ∧
    t.control.alerts.getLsbD 10 = (s.pendingTake r).control.alerts.getLsbD 10 ∧
    ∀ k, k ≠ 1 → k ≠ 8 → k ≠ 10 → t.control.alerts.getLsbD k = s.control.alerts.getLsbD k := by
  intro t
  obtain ⟨hb, ring, lost, hring, hlost, hbit⟩ := s.atDelivery_peersTake bit r
  have ht : t = (((s.atDelivery bit).storeOutcome r).peersTake r).schedTake r := rfl
  generalize ((s.atDelivery bit).storeOutcome r).peersTake r = b at ht hb hbit
  have hbs : b.sched = s.sched := by rw [hb]; rfl
  obtain ⟨_, _, _, _, hu⟩ := s.storeOutcome_changes r
  obtain ⟨_, hstore, ring', lapse, hc, hu'⟩ := State.pendingTake_apart (s := b) (u := s.storeOutcome r)
    (by rw [hb, hu]; rfl) (by rw [hbs, hu]) (by rw [hb]) r
  have hsched : (b.pendingTake r).sched = (s.pendingTake r).sched := by
    obtain ⟨_, _, _, _, h⟩ := b.pendingTake_changes r
    obtain ⟨_, _, _, _, h'⟩ := s.pendingTake_changes r
    rw [h, h', hbs]
  have hlapse := State.pendingTake_lapse hbs (by rw [hbit]; simp) r
  obtain ⟨_, _, _, _, hframe⟩ := b.pendingTake_changes r
  have hadopt : ((b.pendingTake r).adopt r).sched.cycle = (s.adopt r).sched.cycle :=
    State.adopt_apart (by rw [hframe, hb]; rfl) (by rw [hframe, hbs]) r
  rw [State.schedTake, State.adopt_only, hadopt] at ht
  generalize b.pendingTake r = c at ht hstore hc hsched hlapse hframe
  have hbits : ∀ k, t.control.alerts.getLsbD k = (s.control.alerts.getLsbD k || (k == 8 && ring) || (k == 1 && lost) ||
      (k == 8 && ring') || (k == 10 && lapse)) := fun k => by rw [ht, hc, hbit]
  refine ⟨?_, ?_, ?_, ?_, fun k h1 h8 h10 => ?_⟩
  · rw [← hsched, ← hstore, ht, hframe, hb]
  · rw [hbits, hlost]
    simp
  · rw [hbits, hu', hring]
    simp
  · rw [ht]
    exact hlapse
  · rw [hbits, beq_eq_false_iff_ne.2 h1, beq_eq_false_iff_ne.2 h8, beq_eq_false_iff_ne.2 h10]
    simp only [Bool.false_and, Bool.or_false]

/-- The rules take a record, and their reports and posts reach the alerts, the ad hoc set and the lost posts (R134, R140). -/
theorem State.tripTake_frame (s : State) (r : Record) :
    ∃ adhoc alerts posts, s.tripTake r = { s with
      trip := Vector.ofFn fun n => s.trip[n].takeOutcome s.image.rules[n] s.image.settings.expected r
      sched.adhoc := adhoc, control.alerts := alerts, control.counters.postsLost := posts } := by
  obtain ⟨adhoc, alerts, counters, hframe⟩ := s.tripTake_changes r
  obtain ⟨posts, hposts⟩ := s.changeRules_counters fun rule x => x.takeOutcome rule s.image.settings.expected r
  rw [show s.changeRules _ = s.tripTake r from rfl, hframe] at hposts
  have hcounters : counters = { s.control.counters with postsLost := posts } := hposts
  exact ⟨adhoc, alerts, posts, by rw [hframe, hcounters]⟩

/-- What the Trip Unit makes of a record on a state with another's rules and image, its posts made on a third (R134, R140). -/
theorem State.tripTake_posts {c s p : State} (hi : c.image = s.image) (ht : c.trip = s.trip)
    (ha : c.sched.adhoc = p.sched.adhoc) (hp : c.control.counters.postsLost = p.control.counters.postsLost) (r : Record) :
    let t := c.tripTake r
    t = { c with
      trip := t.trip, sched.adhoc := (tripPosted s t p).sched.adhoc, control.alerts := t.control.alerts
      control.counters.postsLost := (tripPosted s t p).control.counters.postsLost } ∧
    (∀ n : Fin 8, t.trip[n] = s.trip[n].takeOutcome s.image.rules[n] s.image.settings.expected r) ∧
    ∃ b, (∀ k, t.control.alerts.getLsbD k = (c.control.alerts.getLsbD k ||
        (k == 0 && !((List.finRange 8).filter (latchedBetween s t)).isEmpty) || (k == 9 && b))) ∧
      ∀ k, (tripPosted s t p).control.alerts.getLsbD k = (p.control.alerts.getLsbD k || (k == 9 && b)) := by
  intro t
  obtain ⟨_, _, _, hframe⟩ := c.tripTake_frame r
  obtain ⟨hadhoc, hlost, b, hbit, hbit'⟩ := c.changeRules_posts p
    (fun rule x => x.takeOutcome rule c.image.settings.expected r) ha hp
  rw [show c.tripTake r = t from rfl] at hframe
  rw [show c.changeRules _ = t from rfl] at hadhoc hlost hbit
  clear_value t
  have htrip : ∀ n : Fin 8, t.trip[n] = s.trip[n].takeOutcome s.image.rules[n] s.image.settings.expected r := by
    intro n
    rw [← hi, ← ht, hframe]
    exact Vector.getElem_ofFn n.isLt
  have hlatched : (fun n : Fin 8 => latches s.trip[n] (s.trip[n].takeOutcome s.image.rules[n] s.image.settings.expected r)) =
      latchedBetween s t := funext fun n => by rw [← htrip]; rfl
  rw [hi, ht] at hadhoc hlost hbit hbit'
  simp only [hlatched] at hadhoc hlost hbit hbit'
  refine ⟨?_, htrip, b, hbit, hbit'⟩
  rw [← show t.sched.adhoc = (tripPosted s t p).sched.adhoc from hadhoc,
    ← show t.control.counters.postsLost = (tripPosted s t p).control.counters.postsLost from hlost, hframe]

/-- The window after an outcome, as the shift it is (R156). -/
theorem windowAfter_eq (w : BitVec 32) (fault : Bool) : windowAfter w fault = (w <<< 1) ||| (if fault then 1 else 0) := by
  cases fault <;> rfl

/-- What a delivery leaves in every block, as each block's operation does it on the state before it, and the reports it makes
(R43, R61, R65, R140, R157). -/
theorem State.deliverRecord_blocks (s : State) (bit : Level) (r : Record) (fault : Bool) :
    let t := (s.atDelivery bit).deliverRecord r fault
    let scheduled := (((s.atDelivery bit).storeOutcome r).peersTake r).schedTake r
    let posted := tripPosted s t (s.pendingTake r)
    t = { s.atDelivery bit with
      sched := { (s.pendingTake r).sched with adhoc := posted.sched.adhoc, cycle := (s.adopt r).sched.cycle }
      store := ((s.storeOutcome r).pendingTake r).store
      peers := (s.peersTake r).peers
      trip := t.trip
      control := { (s.atDelivery bit).control with
        window := windowAfter s.control.window fault
        alerts := t.control.alerts
        counters := { (s.atDelivery bit).control.counters with
          voids := if r.outcome = .void then satInc s.control.counters.voids else s.control.counters.voids
          postsLost := posted.control.counters.postsLost
          dupAddresses := t.control.counters.dupAddresses }
        roundEnding := true
        anchorNoted := s.control.station == .joining && r.kind == .anchor && r.outcome == .valid } } ∧
    (∀ n : Fin 8, t.trip[n] = s.trip[n].takeOutcome s.image.rules[n] s.image.settings.expected r) ∧
    ∃ dup lost, (dup = true ↔ r.outcome = .valid ∧ ∃ v h self, r.content = .extreme v h self true) ∧
      t.control.counters.dupAddresses =
        (if dup then satInc s.control.counters.dupAddresses else s.control.counters.dupAddresses) ∧
      (∀ k, posted.control.alerts.getLsbD k = ((s.pendingTake r).control.alerts.getLsbD k || (k == 9 && lost))) ∧
      ∀ k, t.control.alerts.getLsbD k = (scheduled.control.alerts.getLsbD k ||
        (k == 0 && !((List.finRange 8).filter (latchedBetween s t)).isEmpty) || (k == 9 && lost) ||
        (k == 2 && r.outcome == .disagree) || (k == 3 && dup)) := by
  intro t scheduled posted
  obtain ⟨hc, _⟩ := s.atDelivery_schedTake bit r
  have ht : t = (scheduled.tripTake r).controlTake r fault := rfl
  change scheduled = _ at hc
  clear_value scheduled
  obtain ⟨_, _, _, _, hp⟩ := s.pendingTake_changes r
  obtain ⟨hd, htrip, lost, hbit, hlost⟩ := State.tripTake_posts (c := scheduled) (s := s) (p := s.pendingTake r)
    (by rw [hc]; rfl) (by rw [hc]; rfl) (by rw [hc]) (by rw [hc, hp]; rfl) r
  obtain ⟨dup, hdup, hcount, _, _, hreports⟩ := (scheduled.tripTake r).controlTake_alerts r fault
  obtain ⟨_, _, hframe⟩ := (scheduled.tripTake r).controlTake_frame r fault
  rw [← ht] at hcount hreports hframe
  have hlatched : latchedBetween s t = latchedBetween s (scheduled.tripTake r) := by rw [hframe]; rfl
  have hposted : posted = tripPosted s (scheduled.tripTake r) (s.pendingTake r) := by
    unfold posted tripPosted
    rw [hlatched]
  clear_value posted t
  refine ⟨?_, fun n => by rw [← htrip n, hframe], dup, lost, hdup, ?_, ?_, fun k => ?_⟩
  · rw [← hposted] at hd
    rw [hd, hc] at hframe
    rw [hframe]
    rfl
  · rw [hcount, hd, hc]
    rfl
  · rw [hposted]
    exact hlost
  · rw [hreports, hbit, hlatched]

/-- A record at the Result Store: the latest table, then the ring (R108, R110). -/
theorem State.storeOutcome_eq (s : State) (r : Record) :
    s.storeOutcome r = ({ s with store.latest := s.store.latest.map fun e =>
      if e.code = r.code ∧ r.outcome ≠ .void ∧ r.outcome ≠ .lapsed then
        { e with last := some r.outcome, content := r.content, cycle := r.cycle, updates := e.updates + 1 }
      else e } : State).appendRecord r := by
  rw [State.storeOutcome, latestAfter_eq_map]

/-- A VALID record with the duplicate flag (R31, R157). -/
def Record.duplicated (r : Record) : Prop := r.outcome = .valid ∧ ∃ v h self, r.content = .extreme v h self true

/-- The alert causes and the duplicate counter after a delivery, cause by cause (R157, R160). -/
theorem State.deliverRecord_alerts (s : State) (bit : Level) (r : Record) (fault : Bool) :
    let t := (s.atDelivery bit).deliverRecord r fault
    (r.duplicated → t.control.counters.dupAddresses = satInc s.control.counters.dupAddresses) ∧
    (¬ r.duplicated → t.control.counters.dupAddresses = s.control.counters.dupAddresses) ∧
    (t.control.alerts.getLsbD 0 = true ↔ s.control.alerts.getLsbD 0 = true ∨ ∃ n, latchedBetween s t n = true) ∧
    t.control.alerts.getLsbD 1 = (s.peersTake r).control.alerts.getLsbD 1 ∧
    (t.control.alerts.getLsbD 2 = true ↔ s.control.alerts.getLsbD 2 = true ∨ r.outcome = .disagree) ∧
    (t.control.alerts.getLsbD 3 = true ↔ s.control.alerts.getLsbD 3 = true ∨ r.duplicated) ∧
    t.control.alerts.getLsbD 8 = ((s.storeOutcome r).pendingTake r).control.alerts.getLsbD 8 ∧
    t.control.alerts.getLsbD 9 = (tripPosted s t (s.pendingTake r)).control.alerts.getLsbD 9 ∧
    t.control.alerts.getLsbD 10 = (s.pendingTake r).control.alerts.getLsbD 10 ∧
    ∀ k, k = 4 ∨ k = 5 ∨ k = 6 ∨ k = 7 ∨ k = 11 → t.control.alerts.getLsbD k = s.control.alerts.getLsbD k := by
  dsimp only
  obtain ⟨_, _, dup, lost, hdup, hcount, hlost, hbits⟩ := s.deliverRecord_blocks bit r fault
  obtain ⟨_, hbit1, hbit8, hbit10, hbit⟩ := s.atDelivery_schedTake bit r
  obtain ⟨_, _, _, _, hpending, _⟩ := State.pendingTake_apart (s := s) (u := s) rfl rfl rfl r
  change dup = true ↔ r.duplicated at hdup
  generalize (s.atDelivery bit).deliverRecord r fault = t at *
  have hlatched : ((List.finRange 8).filter (latchedBetween s t)).isEmpty = false ↔ ∃ n, latchedBetween s t n = true := by
    simp [← Bool.not_eq_true, List.isEmpty_iff, List.filter_eq_nil_iff]
  refine ⟨fun h => by rw [hcount, if_pos (hdup.2 h)], fun h => by rw [hcount, if_neg fun hd => h (hdup.1 hd)],
    ?trip, ?peer, ?disagree, ?duplicate, ?ring, ?post, ?lapse, fun k hk => ?others⟩
  case trip =>
    rw [hbits, hbit 0 (by decide) (by decide) (by decide), ← hlatched]
    simp
  case peer =>
    rw [hbits, hbit1]
    simp
  case disagree =>
    rw [hbits, hbit 2 (by decide) (by decide) (by decide)]
    simp
  case duplicate =>
    rw [hbits, hbit 3 (by decide) (by decide) (by decide), ← hdup]
    simp
  case ring =>
    rw [hbits, hbit8]
    simp
  case post =>
    rw [hbits, hlost, hpending, hbit 9 (by decide) (by decide) (by decide)]
    simp
  case lapse =>
    rw [hbits, hbit10]
    simp
  case others =>
    rcases hk with rfl | rfl | rfl | rfl | rfl <;> rw [hbits, hbit _ (by decide) (by decide) (by decide)] <;> simp

/-- Settles O39: the sample is a delivery; each block's part of it stands as on the state before, and so do the alert causes. -/
theorem deliveryReachesEveryBlock : Obligations.DeliveryReachesEveryBlock := by
  refine ⟨fun s bit hs he hp => ⟨_, exec_outcomeDelivery_objection hs he hp bit, ?_⟩, fun s r =>
    ⟨fun h => ?_, fun h => ?_, fun h => ?_, fun h => ?_⟩⟩
  · obtain ⟨hframe, htrip, _⟩ := s.deliverRecord_blocks bit (s.round.recordOf bit) s.round.isFault
    have halerts := s.deliverRecord_alerts bit (s.round.recordOf bit) s.round.isFault
    obtain ⟨_, _, _, _, hpending⟩ := s.pendingTake_changes (s.round.recordOf bit)
    obtain ⟨_, _, _, _, hstore⟩ := s.storeOutcome_changes (s.round.recordOf bit)
    obtain ⟨_, _, _, _, hlapse⟩ := (s.storeOutcome (s.round.recordOf bit)).pendingTake_changes (s.round.recordOf bit)
    generalize (s.atDelivery bit).deliverRecord (s.round.recordOf bit) s.round.isFault = t at *
    have hcycle : t.sched.cycle = (s.adopt (s.round.recordOf bit)).sched.cycle := by rw [hframe]
    have hlatest : t.store.latest = latestAfter s.store.latest (s.round.recordOf bit) := by
      rw [hframe]
      dsimp only
      rw [hlapse, hstore]
    have hnoted : (s.control.station == .joining && (s.round.recordOf bit).kind == .anchor &&
        (s.round.recordOf bit).outcome == .valid) = decide (s.control.station = .joining ∧
          (s.round.recordOf bit).kind = .anchor ∧ (s.round.recordOf bit).outcome = .valid) := by
      rw [Bool.decide_and, Bool.decide_and, Bool.and_assoc]
      simp only [beq_eq_decide]
    refine ⟨?frame, hlatest, ?scheduled, ?timer, ?done, ?expiries, fun h => ?stands, fun ho hk => ?adopted, htrip,
      fun h => ?peers, halerts⟩
    case frame =>
      rw [hcycle, ← windowAfter_eq, ← hnoted]
      exact hframe
    case stands => rw [hcycle, State.adopt_other s h]
    case adopted =>
      obtain ⟨n, hn, hadopt⟩ := s.adopt_anchor ho hk
      exact ⟨n, hn, hcycle.trans hadopt⟩
    case peers => rw [hframe, State.peersTake_other h]
    all_goals rw [hframe, hpending]
  · rw [State.storeOutcome_eq]
    exact State.appendRecord_on (by exact h)
  · rw [State.storeOutcome_eq]
    exact State.appendRecord_off (by exact h)
  · rw [State.deliverLapse, State.appendRecord_on h]
    rfl
  · rw [State.deliverLapse, State.appendRecord_off h]
    rfl

end Sys2Proof.Machine
end

section
/-! What a sample comes to at the blocks behind the line: nothing, the recognition of a code, or a delivery. A property of
those blocks that the three keep, every sample keeps. -/

namespace Sys2Proof.Machine

/-- The effects of a sample, the line and the reports of the Line Interface apart: a bit that leaves the code in flight, the
sixth code bit (R25) and the objection bit (R43). -/
inductive SampleEffect (s : State) (lv : Level) : State → Prop
  | quiet (line : Lif) (round : Round) (alerts : BitVec 12) (counters : Counters)
      (h : (s.line.engine ≠ .round → s.round.phase = .none) → round.inFlight = s.round.inFlight) :
      SampleEffect s lv { s with line := line, round := round, control.alerts := alerts, control.counters := counters }
  | recognition (hp : s.round.phase = .code) : SampleEffect s lv (s.atCode lv).recognise
  | delivery (hp : s.round.phase = .objection) :
      SampleEffect s lv ((s.atDelivery lv).deliverRecord (s.round.recordOf lv) s.round.isFault)

/-- No round is in flight before its code is recognised (R25). -/
theorem Round.inFlight_code {r : Round} (h : r.phase = .code) : r.inFlight = none := by
  unfold Round.inFlight
  rw [h]

theorem Round.inFlight_none {r : Round} (h : r.phase = .none) : r.inFlight = none := by
  unfold Round.inFlight
  rw [h]

/-- From its recognition on, a round's code is in flight (R25, R54). -/
theorem Round.inFlight_some {r : Round} (hn : r.phase ≠ .none) (hc : r.phase ≠ .code) :
    r.inFlight = some (r.codeRead, r.kind) := by
  unfold Round.inFlight
  cases hp : r.phase with
  | none => exact absurd hp hn
  | code => exact absurd hp hc
  | _ => rfl

/-- A bit after the code leaves the round after its code (R21). -/
theorem placeAfter_past_code {kind : Kind} {phase : Phase} (pos : Nat) (hn : phase ≠ .none) (hc : phase ≠ .code) :
    (placeAfter kind phase pos).1 ≠ .none ∧ (placeAfter kind phase pos).1 ≠ .code := by
  unfold placeAfter
  cases phase with
  | none => exact absurd rfl hn
  | code => exact absurd rfl hc
  | objection => exact ⟨nofun, nofun⟩
  | _ =>
    dsimp only
    split <;> exact ⟨nofun, nofun⟩

/-- A bit inside a round leaves the code in flight (R21, R25). -/
theorem Round.takeBit_inFlight {r : Round} {f : Field} (hf : r.field = some f) (bit : Level)
    (fault suppressed : Bool) (address : Address) (digest : Word) :
    (r.takeBit f bit fault suppressed address digest).inFlight = r.inFlight := by
  obtain ⟨hphase, _⟩ := r.takeBit_placeAfter f bit fault suppressed address digest
  obtain ⟨hkind, _⟩ := r.takeBit_fixed f bit fault suppressed address digest
  have hn : r.phase ≠ .none := fun hp => by
    rw [Round.field_eq_none.2 hp] at hf
    cases hf
  by_cases hc : r.phase = .code
  · rw [hc] at hphase
    rw [Round.inFlight_code hc, Round.inFlight_code hphase]
  · obtain ⟨hn', hc'⟩ := placeAfter_past_code (kind := r.kind) r.pos hn hc
    rw [← hphase] at hn' hc'
    have hcode : (r.takeBit f bit fault suppressed address digest).codeRead = r.codeRead := by
      rw [Round.takeBit_codeRead]
      cases f with
      | code k => exact absurd (Round.field_code hf).1 hc
      | _ => rfl
    rw [Round.inFlight_some hn hc, Round.inFlight_some hn' hc', hcode, hkind]

/-- The sixth code bit leaves the round in its code (R21). -/
theorem State.atCode_phase {s : State} (hp : s.round.phase = .code) (bit : Level) : (s.atCode bit).round.phase = .code := by
  refine (s.round.takeBit_placeAfter (.code 5) bit _ _ _ _).1.trans ?_
  rw [hp]
  rfl

/-- The sample of the objection bit delivers the record of the round (R43). -/
theorem State.sample_objection {s : State} (hs : s.held = false) (he : s.line.engine = .round)
    (hp : s.round.phase = .objection) (lv : Level) :
    s.sample lv = (s.atDelivery lv).deliverRecord (s.round.recordOf lv) s.round.isFault := by
  have h := exec_outcomeDelivery_objection hs he hp lv
  rw [exec_outcomeDelivery, State.onlyIf_true (by simp [State.atObjection, he, hp])] at h
  exact Host.Outcome.next.inj h

/-- A sample outside a round leaves the blocks, and opens a round at most (R9 to R16). -/
theorem State.sample_outside_round_effect {s : State} (hs : s.held = false) (hr : s.line.engine ≠ .round) (lv : Level) :
    SampleEffect s lv (s.sample lv) := by
  have same : ∀ line alerts counters, SampleEffect s lv
      { s with line := line, control.alerts := alerts, control.counters := counters } :=
    fun line alerts counters => .quiet line s.round alerts counters fun _ => rfl
  cases he : s.line.engine with
  | off =>
    rw [State.sample_of_not_listens (State.listens_false (.inr he))]
    exact same s.line s.control.alerts s.control.counters
  | round => exact absurd he hr
  | recover =>
    rw [State.sample_recover hs he]
    unfold State.sampleRecover
    split
    · exact same _ s.control.alerts s.control.counters
    split
    · exact same _ _ s.control.counters
    · exact same _ s.control.alerts s.control.counters
  | stuck =>
    rw [State.sample_stuck hs he]
    unfold State.sampleStuck
    split
    · exact same _ s.control.alerts s.control.counters
    · exact same _ s.control.alerts s.control.counters
  | idle =>
    rw [State.sample_idle hs he]
    unfold State.sampleIdle State.sampleFirst
    split
    · cases lv with
      | low => exact .quiet _ _ s.control.alerts s.control.counters fun h => (Round.inFlight_none (h hr)).symm
      | high =>
        rw [State.sampleSecond_high]
        exact same _ s.control.alerts _
    · cases lv with
      | low => exact same _ s.control.alerts s.control.counters
      | high =>
        dsimp only
        split
        · exact same _ s.control.alerts _
        · exact same _ s.control.alerts s.control.counters

/-- A sample in a round is a bit of it (R12, R21). -/
theorem State.sample_inside_round_effect {s : State} (hs : s.held = false) (he : s.line.engine = .round) (lv : Level) :
    SampleEffect s lv (s.sample lv) := by
  cases hf : s.round.field with
  | none =>
    rw [State.sample_round_bit hs he]
    unfold State.roundBit
    rw [hf]
    exact .quiet _ s.round s.control.alerts _ fun _ => rfl
  | some f =>
    by_cases ho : f = .objection
    · subst ho
      have hp := Round.field_objection hf
      rw [State.sample_objection hs he hp]
      exact .delivery hp
    by_cases hc : f = .code 5
    · subst hc
      obtain ⟨hp, h5⟩ := Round.field_code hf
      rw [State.sample_codeEnd hs he hp h5]
      exact .recognition hp
    · rw [State.sample_round_inner hs he hf hc ho]
      exact .quiet _ _ s.control.alerts _ fun _ => Round.takeBit_inFlight hf ..

/-- A sample that is taken is one of the three (R7). -/
theorem State.sample_sampleEffect {s : State} (hl : s.listens = true) (lv : Level) : SampleEffect s lv (s.sample lv) := by
  have hs : s.held = false := by
    unfold State.listens at hl
    rw [Bool.and_eq_true, Bool.not_eq_true'] at hl
    exact hl.1
  by_cases he : s.line.engine = .round
  · exact State.sample_inside_round_effect hs he lv
  · exact State.sample_outside_round_effect hs he lv

/-- A station whose line engine runs is in JOINING, ACTIVE or SILENT (R8). -/
theorem State.running_of_listens {s : State} (hb : s.BlocksFollowStation) (hl : s.listens = true) :
    s.control.station.running = true := by
  cases hr : s.control.station.running with
  | true => rfl
  | false =>
    obtain ⟨hline, _⟩ := hb.1 hr
    rw [State.listens_false (.inr (by rw [hline]))] at hl
    cases hl

/-- A station that converts a slot is in JOINING, ACTIVE or SILENT (R93). -/
theorem State.running_of_scanning {s : State} (hb : s.BlocksFollowStation) (h : s.meas.scan = .scanning) :
    s.control.station.running = true := by
  cases hr : s.control.station.running with
  | true => rfl
  | false =>
    obtain ⟨_, _, _, hmeas, _⟩ := hb.1 hr
    rw [hmeas] at h
    cases h

/-- A running station's image has passed validation (R175). -/
theorem State.ImageSound.validated {s : State} (h : s.ImageSound) (hr : s.control.station.running = true) :
    validate s.image = none :=
  h.2.1 fun hc => by
    rw [hc] at hr
    cases hr

end Sys2Proof.Machine
end

section
/-! What a successful validation gives the Scheduler and the Trip Unit (R176, orders 5 and 7): no code twice, and posts of
ON_REQUEST codes alone. -/

namespace Sys2Proof.Machine

theorem validate_check {im : Image} (h : validate im = none) {check : Image → Option CommitFailure}
    (hc : check ∈ commitChecks) : check im = none :=
  List.findSome?_eq_none_iff.1 h check hc

/-- A validated table holds no code twice (R176, order 5). -/
theorem codes_nodup_of_validate {im : Image} (h : validate im = none) : ((imageEntries im).map RoundEntry.code).Nodup := by
  have hc : checkDuplicateCode im = none := validate_check h (by simp [commitChecks])
  have hfind : (indexedEntries im).find? (heldLower im) = none := Option.map_eq_none_iff.1 hc
  rw [← indexedEntries_map_snd, List.map_map, List.Nodup, List.pairwise_map]
  refine (indexedEntries_ascending im).imp_of_mem ?_
  intro p q hp hq hlt hcode
  refine List.find?_eq_none.1 hfind q hq (List.any_eq_true.2 ⟨p, hp, ?_⟩)
  rw [decide_eq_true hlt, Bool.true_and, beq_iff_eq]
  exact hcode

/-- A validated slot posts an ON_REQUEST code or none (R176, order 7). -/
theorem slotPost_fits {im : Image} (h : validate im = none) (n : Fin 16) : postFits im im.slots[n].post = true := by
  have hc : checkSlotPosts im = none := validate_check h (by simp [commitChecks])
  simpa using List.find?_eq_none.1 (Option.map_eq_none_iff.1 hc) n (List.mem_finRange n)

/-- A validated rule that is enabled posts an ON_REQUEST code or none (R176, order 7). -/
theorem rulePost_fits {im : Image} (h : validate im = none) {n : Fin 8} (he : im.rules[n].enabled = true) :
    postFits im im.rules[n].post = true := by
  have hc : checkTripPosts im = none := validate_check h (by simp [commitChecks])
  have hn := List.find?_eq_none.1 (Option.map_eq_none_iff.1 hc) n (List.mem_finRange n)
  rw [he] at hn
  simpa using hn

/-- A disabled rule stands at its state (R133). -/
theorem RuleState.takeOutcome_disabled {rule : TripRule} (h : rule.enabled = false) (r : RuleState) (expected : AddressSet)
    (rec : Record) : r.takeOutcome rule expected rec = r := by
  unfold RuleState.takeOutcome
  rw [h]
  rfl

theorem RuleState.takeBoundary_disabled {rule : TripRule} (h : rule.enabled = false) (r : RuleState) (cycle : Word) :
    r.takeBoundary rule cycle = r := by
  unfold RuleState.takeBoundary
  rw [h]
  rfl

/-- Only a rule that changes latches (R140). -/
theorem latches_self (r : RuleState) : latches r r = false := by
  unfold latches
  cases r.status <;> rfl

end Sys2Proof.Machine
end

section
/-! The pending sets (R58, R59) by themselves: `State.PendingSound` as two properties of lists, and what posts, outcomes,
ages and boundaries do to them. -/

namespace Sys2Proof.Machine

/-- A scheduled set of an image with a code in flight (R58, R66). -/
structure ScheduledSound (im : Image) (fl : Option (Code × Kind)) (l : List SchedEntry) : Prop where
  ascending : (l.map SchedEntry.code).Pairwise (· < ·)
  retries : ∀ e ∈ l, e.retries ≤ 2
  listed : ∀ e ∈ l, ∃ r ∈ imageEntries im, r.code = e.code ∧ isScheduled r = true
  flying : ∀ e ∈ l, e.part ≠ .current → isInFlight fl e.code = true

/-- An ad hoc set of an image (R59). -/
structure AdhocSound (im : Image) (l : List AdhocEntry) : Prop where
  ascending : (l.map AdhocEntry.code).Pairwise (· < ·)
  length : l.length ≤ 8
  retries : ∀ e ∈ l, e.retries ≤ 2
  age : ∀ e ∈ l, e.age ≤ 3
  onRequest : ∀ e ∈ l, isOnRequest im e.code = true

theorem State.pendingSound_iff (s : State) :
    s.PendingSound ↔ ScheduledSound s.image s.round.inFlight s.sched.scheduled ∧ AdhocSound s.image s.sched.adhoc :=
  ⟨fun ⟨h1, h2, h3, h4, h5⟩ =>
    ⟨⟨h1, fun e he => (h4 e he).1, fun e he => (h4 e he).2.1, fun e he => (h4 e he).2.2⟩,
      ⟨h2, h3, fun e he => (h5 e he).1, fun e he => (h5 e he).2.1, fun e he => (h5 e he).2.2⟩⟩,
    fun ⟨h, k⟩ => ⟨h.ascending, k.ascending, k.length, fun e he => ⟨h.retries e he, h.listed e he, h.flying e he⟩,
      fun e he => ⟨k.retries e he, k.age e he, k.onRequest e he⟩⟩⟩

/-- Empty sets are sound (R50). -/
theorem State.pendingSound_of_empty {s : State} (h : s.sched = {}) : s.PendingSound := by
  rw [State.pendingSound_iff, h]
  exact ⟨⟨.nil, nofun, nofun, nofun⟩, ⟨.nil, Nat.zero_le 8, nofun, nofun, nofun⟩⟩

/-- The pending sets are judged by the image, the code in flight and themselves alone. -/
theorem State.PendingSound.congr {s t : State} (h : s.PendingSound) (hi : t.image = s.image)
    (hf : t.round.inFlight = s.round.inFlight) (hs : t.sched.scheduled = s.sched.scheduled)
    (ha : t.sched.adhoc = s.sched.adhoc) : t.PendingSound := by
  rw [State.pendingSound_iff] at h ⊢
  rwa [hi, hf, hs, ha]

/-- With no code in flight every entry is CURRENT, and a round may come in flight (R25, R58). -/
theorem ScheduledSound.of_none {im : Image} {l : List SchedEntry} (h : ScheduledSound im none l)
    (fl : Option (Code × Kind)) : ScheduledSound im fl l :=
  { h with flying := fun e he hp => absurd (h.flying e he hp) nofun }

/-- Elements that keep their code, where a map keeps them at all, keep its order. -/
theorem filterMap_map_sublist {α β : Type} {key : α → Code} {key' : β → Code} {f : α → Option β}
    (hf : ∀ a b, f a = some b → key' b = key a) (l : List α) : ((l.filterMap f).map key').Sublist (l.map key) := by
  induction l with
  | nil => exact .slnil
  | cons a l ih =>
    rw [List.filterMap_cons, List.map_cons]
    cases hb : f a with
    | none => exact ih.cons _
    | some b =>
      rw [List.map_cons, hf a b hb]
      exact ih.cons_cons _

section Replace

variable {α : Type} (key : α → Code) (c : Code) {f : α → Option α}

/-- A replacement that keeps the code leaves the codes in their order. -/
theorem replaceCode_sublist (hf : ∀ e x, f e = some x → key x = key e) (l : List α) :
    ((replaceCode key c f l).map key).Sublist (l.map key) := by
  refine filterMap_map_sublist (fun e x hx => ?_) l
  split at hx
  · exact hf e x hx
  · cases hx
    rfl

/-- An entry of the set replaced: one of another code, or a replacement. -/
theorem mem_replaceCode {l : List α} {x : α} (h : x ∈ replaceCode key c f l) :
    (x ∈ l ∧ key x ≠ c) ∨ ∃ e ∈ l, key e = c ∧ f e = some x := by
  obtain ⟨e, he, hx⟩ := List.mem_filterMap.1 h
  by_cases hc : key e = c
  · rw [if_pos (beq_iff_eq.2 hc)] at hx
    exact .inr ⟨e, he, hc, hx⟩
  · rw [if_neg (by simpa using hc)] at hx
    cases hx
    exact .inl ⟨he, hc⟩

end Replace

/-- What stays of a completed entry (R63). -/
theorem SchedEntry.completed_some {e x : SchedEntry} (h : e.completed = some x) : x = { e with part := .current } := by
  unfold SchedEntry.completed at h
  split at h <;> cases h
  rfl

/-- What stays of a scheduled entry after a VOID: CURRENT, one retry more at most (R64). -/
theorem SchedEntry.voided_some {e x : SchedEntry} (h : e.voided.1 = some x) :
    x.code = e.code ∧ x.part = .current ∧ (e.retries ≤ 2 → x.retries ≤ 2) := by
  unfold SchedEntry.voided at h
  split at h
  · next hp =>
    split at h <;> cases h
    exact ⟨rfl, hp, fun _ => by dsimp only; omega⟩
  · cases h
  · cases h
    exact ⟨rfl, rfl, id⟩

/-- What stays of an ad hoc entry after a VOID (R64). -/
theorem AdhocEntry.voided_some {e x : AdhocEntry} (h : e.voided.1 = some x) :
    x.code = e.code ∧ x.age = e.age ∧ x.retries ≤ 2 := by
  unfold AdhocEntry.voided at h
  split at h <;> cases h
  exact ⟨rfl, rfl, by dsimp only; omega⟩

/-- An outcome replaces the entry of its code, by one that stands for the cycle it is in (R63, R64). -/
theorem ScheduledSound.replace {im : Image} {fl : Option (Code × Kind)} {l : List SchedEntry} (h : ScheduledSound im fl l)
    {c : Code} (hfl : ∀ d, isInFlight fl d = true → d = c) {f : SchedEntry → Option SchedEntry}
    (hf : ∀ e x, f e = some x → x.code = e.code ∧ x.part = .current ∧ (e.retries ≤ 2 → x.retries ≤ 2)) :
    ScheduledSound im none (replaceCode SchedEntry.code c f l) where
  ascending := h.ascending.sublist (replaceCode_sublist _ c (fun e x hx => (hf e x hx).1) l)
  retries x hx := by
    rcases mem_replaceCode _ c hx with ⟨he, _⟩ | ⟨e, he, _, hfe⟩
    · exact h.retries x he
    · exact (hf e x hfe).2.2 (h.retries e he)
  listed x hx := by
    rcases mem_replaceCode _ c hx with ⟨he, _⟩ | ⟨e, he, _, hfe⟩
    · exact h.listed x he
    · rw [(hf e x hfe).1]
      exact h.listed e he
  flying x hx hp := by
    rcases mem_replaceCode _ c hx with ⟨he, hc⟩ | ⟨e, _, _, hfe⟩
    · exact absurd (hfl _ (h.flying x he hp)) hc
    · exact absurd (hf e x hfe).2.1 hp

/-- The scheduled set after the outcome of the code in flight (R62 to R64). -/
theorem ScheduledSound.take {im : Image} {fl : Option (Code × Kind)} {l : List SchedEntry} (h : ScheduledSound im fl l)
    {c : Code} (hfl : ∀ d, isInFlight fl d = true → d = c) {o : RoundOutcome} (ho : o ≠ .lapsed) :
    ScheduledSound im none (scheduledTake l c o) := by
  have completed : ScheduledSound im none (replaceCode SchedEntry.code c SchedEntry.completed l) :=
    h.replace hfl fun e x hx => by
      rw [SchedEntry.completed_some hx]
      exact ⟨rfl, rfl, id⟩
  cases o with
  | lapsed => exact absurd rfl ho
  | void => exact h.replace hfl fun e x hx => SchedEntry.voided_some hx
  | _ => exact completed

/-- The ad hoc set after an outcome (R62 to R64). -/
theorem AdhocSound.take {im : Image} {l : List AdhocEntry} (h : AdhocSound im l) (c : Code) (o : RoundOutcome) :
    AdhocSound im (adhocTake l c o) := by
  have replaced : ∀ f : AdhocEntry → Option AdhocEntry,
      (∀ e x, f e = some x → x.code = e.code ∧ x.age = e.age ∧ x.retries ≤ 2) →
      AdhocSound im (replaceCode AdhocEntry.code c f l) := by
    intro f hf
    have hsub := replaceCode_sublist AdhocEntry.code c (fun e x hx => (hf e x hx).1) l
    have hlength := hsub.length_le
    rw [List.length_map, List.length_map] at hlength
    refine ⟨h.ascending.sublist hsub, hlength.trans h.length, fun x hx => ?_, fun x hx => ?_, fun x hx => ?_⟩ <;>
      rcases mem_replaceCode _ c hx with ⟨he, _⟩ | ⟨e, he, _, hfe⟩
    · exact h.retries x he
    · exact (hf e x hfe).2.2
    · exact h.age x he
    · exact (hf e x hfe).2.1.trans_le (h.age e he)
    · exact h.onRequest x he
    · rw [(hf e x hfe).1]
      exact h.onRequest e he
  cases o with
  | lapsed => exact h
  | void => exact replaced _ fun e x hx => AdhocEntry.voided_some hx
  | _ => exact replaced _ nofun

/-- An entry lapses by age at its fourth boundary, unless its code is in flight (R56). -/
theorem lapsesByAge_iff (fl : Option (Code × Kind)) (e : AdhocEntry) :
    lapsesByAge fl e = true ↔ isInFlight fl e.code = false ∧ 3 ≤ e.age := by
  unfold lapsesByAge
  rw [Bool.and_eq_true, Bool.not_eq_true', decide_eq_true_iff]
  rfl

/-- The ad hoc set after the lapses and ages of a boundary (R56). -/
theorem AdhocSound.aged {im : Image} {l : List AdhocEntry} (h : AdhocSound im l) (fl : Option (Code × Kind)) :
    AdhocSound im (adhocAfter fl l) := by
  unfold adhocAfter
  have hsub := List.filter_sublist (l := l) (p := fun e => !lapsesByAge fl e)
  have hcodes : (((l.filter fun e => !lapsesByAge fl e).map
      fun e => if isInFlight fl e.code then e else { e with age := e.age + 1 }).map AdhocEntry.code).Sublist
      (l.map AdhocEntry.code) := by
    rw [List.map_map]
    refine (List.map_congr_left fun e _ => ?_) ▸ hsub.map AdhocEntry.code
    show e.code = AdhocEntry.code (if isInFlight fl e.code then e else { e with age := e.age + 1 })
    split <;> rfl
  have hlength := hcodes.length_le
  rw [List.length_map, List.length_map (as := l)] at hlength
  refine ⟨h.ascending.sublist hcodes, hlength.trans h.length, fun x hx => ?_, fun x hx => ?_, fun x hx => ?_⟩ <;>
    obtain ⟨e, he, rfl⟩ := List.mem_map.1 hx <;> obtain ⟨hel, hstays⟩ := List.mem_filter.1 he
  · split <;> exact h.retries e hel
  · split
    · exact h.age e hel
    · next hf =>
      have hage : ¬ 3 ≤ e.age := fun hage => by
        rw [(lapsesByAge_iff fl e).2 ⟨Bool.eq_false_iff.2 hf, hage⟩] at hstays
        cases hstays
      show e.age + 1 ≤ 3
      omega
  · split <;> exact h.onRequest e hel

/-- A post of an ON_REQUEST code merges, adds or is dropped (R60, R61). -/
theorem AdhocSound.post {s : State} (h : AdhocSound s.image s.sched.adhoc) (o : Origin) {c : Code}
    (hc : isOnRequest s.image c = true) : AdhocSound s.image (s.post o c).sched.adhoc := by
  cases hm : holdsAdhoc s.sched.adhoc c with
  | true => rwa [State.post_merged hm]
  | false =>
    by_cases hl : s.sched.adhoc.length < 8
    · rw [State.post_added hm hl]
      have hmem : ∀ e, e ∈ insertByCode AdhocEntry.code (newAdhoc o c) s.sched.adhoc →
          e ∈ s.sched.adhoc ∨ e = newAdhoc o c := fun e he => (mem_insertByCode _).1 he
      refine ⟨insertByCode_ascending _ h.ascending (holdsAdhoc_false hm), ?_, fun e he => ?_, fun e he => ?_,
        fun e he => ?_⟩
      · rw [length_insertByCode]
        exact hl
      all_goals rcases hmem e he with he | rfl
      · exact h.retries e he
      · exact Nat.zero_le 2
      · exact h.age e he
      · exact Nat.zero_le 3
      · exact h.onRequest e he
      · exact hc
    · rw [State.post_lost hm (Nat.not_lt.1 hl)]
      exact h

theorem AdhocSound.postIf {s : State} (h : AdhocSound s.image s.sched.adhoc) (o : Origin) {c : Option Code}
    (hc : postFits s.image c = true) : AdhocSound s.image (s.postIf o c).sched.adhoc := by
  cases c with
  | none => exact h
  | some c => exact h.post o hc

/-- Posts that fit the table, one after another (R140). -/
theorem AdhocSound.posts {im : Image} (l : List (Fin 8)) (hl : ∀ n ∈ l, postFits im im.rules[n].post = true) {s : State}
    (hi : s.image = im) (h : AdhocSound im s.sched.adhoc) :
    AdhocSound im (l.foldl (fun t n => t.postIf .trip im.rules[n].post) s).sched.adhoc := by
  induction l generalizing s with
  | nil => exact h
  | cons n l ih =>
    obtain ⟨_, _, _, hx⟩ := s.postIf_changes .trip im.rules[n].post
    refine ih (fun m hm => hl m (List.mem_cons_of_mem _ hm)) ?image ?_
    case image => exact (congrArg State.image hx).trans hi
    subst hi
    exact h.postIf .trip (hl n List.mem_cons_self)

/-- The rules that latch are enabled, so that their posts fit the table (R140, R176). -/
theorem latched_fits {im : Image} (hv : validate im = none) {old new : Fin 8 → RuleState}
    (h : ∀ n : Fin 8, im.rules[n].enabled = false → new n = old n) :
    ∀ n ∈ (List.finRange 8).filter fun n => latches (old n) (new n), postFits im im.rules[n].post = true := by
  intro n hn
  cases he : im.rules[n].enabled with
  | true => exact rulePost_fits hv he
  | false =>
    have hlatch := (List.mem_filter.1 hn).2
    rw [h n he, latches_self] at hlatch
    cases hlatch

/-- The posts of the rules that latch (R140). -/
theorem AdhocSound.changeRules {s : State} (h : AdhocSound s.image s.sched.adhoc) (hv : validate s.image = none)
    {f : TripRule → RuleState → RuleState} (hf : ∀ rule r, rule.enabled = false → f rule r = r) :
    AdhocSound s.image (s.changeRules f).sched.adhoc := by
  rw [(s.changeRules_posts s f rfl rfl).1]
  exact AdhocSound.posts _ (latched_fits hv fun n => hf _ s.trip[n]) rfl h

/-- The scheduled set at the end of a commit (R69). -/
theorem scheduledAtCommit_sound {im : Image} (hn : ((imageEntries im).map RoundEntry.code).Nodup) :
    ScheduledSound im none (scheduledAtCommit im) where
  ascending := by
    refine sortByCode_ascending _ (hn.sublist ?_)
    rw [List.map_map]
    exact List.filter_sublist.map RoundEntry.code
  retries e he := (mem_scheduledAtCommit.1 he).1.trans_le (Nat.zero_le 2)
  listed e he := by
    obtain ⟨_, _, r, hr, hcode, hs⟩ := mem_scheduledAtCommit.1 he
    exact ⟨r, hr, hcode, (isScheduled_iff r).2 hs⟩
  flying e he hp := absurd (mem_scheduledAtCommit.1 he).2.1 hp

/-- An entry after a boundary is fresh, or is the entry of the code in flight carried over (R55). -/
theorem entryAfter_cases {fl : Option (Code × Kind)} {old : List SchedEntry} {cycle : Word} {r : RoundEntry} {e : SchedEntry}
    (h : entryAfter fl old cycle r = some e) :
    e = currentEntry r.code ∨
      isInFlight fl r.code = true ∧ (e.retries = 0 ∨ ∃ x ∈ old, e.retries = x.retries) := by
  unfold entryAfter at h
  split at h
  · next hf =>
    refine .inr ⟨hf, ?_⟩
    split at h
    · next x hx =>
      have hmem := List.mem_of_find?_eq_some hx
      split at h
      · cases h
        exact .inr ⟨x, hmem, rfl⟩
      split at h
      · cases h
        exact .inl rfl
      · cases h
        exact .inr ⟨x, hmem, rfl⟩
    · split at h <;> cases h
      exact .inl rfl
  · split at h <;> cases h
    exact .inl rfl

/-- The scheduled set after a boundary (R55). -/
theorem ScheduledSound.after {im : Image} (hn : ((imageEntries im).map RoundEntry.code).Nodup)
    {fl : Option (Code × Kind)} {old : List SchedEntry} (h : ScheduledSound im fl old) (cycle : Word) :
    ScheduledSound im fl (scheduledAfter im fl old cycle) := by
  have hmem : ∀ e ∈ scheduledAfter im fl old cycle,
      ∃ r ∈ imageEntries im, isScheduled r = true ∧ entryAfter fl old cycle r = some e := by
    intro e he
    obtain ⟨r, hr, hre⟩ := List.mem_filterMap.1 ((mem_sortByCode _).1 he)
    obtain ⟨hr, hs⟩ := List.mem_filter.1 hr
    exact ⟨r, hr, hs, hre⟩
  refine ⟨sortByCode_ascending _ (hn.sublist ?_), fun e he => ?_, fun e he => ?_, fun e he hp => ?_⟩
  · exact (filterMap_map_sublist (fun _ _ => entryAfter_code) _).trans (List.filter_sublist.map RoundEntry.code)
  · obtain ⟨r, _, _, hre⟩ := hmem e he
    rcases entryAfter_cases hre with rfl | ⟨_, h0 | ⟨x, hx, hxe⟩⟩
    · exact Nat.zero_le 2
    · exact h0.trans_le (Nat.zero_le 2)
    · exact hxe.trans_le (h.retries x hx)
  · obtain ⟨r, hr, hs, hre⟩ := hmem e he
    exact ⟨r, hr, (entryAfter_code hre).symm, hs⟩
  · obtain ⟨r, _, _, hre⟩ := hmem e he
    rw [entryAfter_code hre]
    rcases entryAfter_cases hre with rfl | ⟨hf, _⟩
    · exact absurd rfl hp
    · exact hf

end Sys2Proof.Machine
end

section
/-! Every step keeps the pending sets sound: a boundary, an anchor notice, a delivery and a post, each from its effect on the
two lists, and from these every effect of a step. -/

namespace Sys2Proof.Machine

/-- What an expiry's judgement changes (R154). -/
theorem State.judgeExpiry_only (s : State) : s.judgeExpiry = { s with
    line.ltxd := s.judgeExpiry.line.ltxd
    control := { s.control with
      station := s.judgeExpiry.control.station, anchorObserved := s.judgeExpiry.control.anchorObserved
      alerts := s.judgeExpiry.control.alerts } } := by
  by_cases hj : s.control.station = .joining
  · rw [State.judgeExpiry_joining hj]
    split_ifs <;> rfl
  · rw [State.judgeExpiry_other hj]

theorem State.judgeExpiry_round (s : State) : s.judgeExpiry.round = s.round ∧ s.judgeExpiry.image = s.image := by
  rw [State.judgeExpiry_only]
  exact ⟨rfl, rfl⟩

/-- The expiry of a running station's cycle timer (R51, R54, R154). -/
theorem State.expire_runs {s : State} (hs : s.held = false) (hr : s.control.station.running = true) :
    s.expire = s.cycleBoundary.restartTimer.judgeExpiry := by
  unfold State.expire
  rw [hs, hr]
  rfl

/-- A boundary carries the scheduled set by R55's table and ages the ad hoc set, with the posts of the rules that latch. -/
theorem State.cycleBoundary_pendingSound {s : State} (hv : validate s.image = none) (h : s.PendingSound) :
    s.cycleBoundary.PendingSound := by
  rw [State.pendingSound_iff] at h ⊢
  obtain ⟨hsched, hadhoc⟩ := h
  obtain ⟨_, hscheduled⟩ := s.cycleBoundary_cycle
  obtain ⟨hposted, _⟩ := s.cycleBoundary_posts
  have frame : s.cycleBoundary.image = s.image ∧ s.cycleBoundary.round = s.round := by
    obtain ⟨_, _, _, _, _, _, hx⟩ := s.cycleBoundary_changes
    rw [hx]
    exact ⟨rfl, rfl⟩
  rw [frame.1, frame.2, hscheduled, hposted]
  exact ⟨hsched.after (codes_nodup_of_validate hv) _,
    AdhocSound.posts _ (latched_fits hv fun n he => RuleState.takeBoundary_disabled he s.trip[n] _) rfl (hadhoc.aged _)⟩

/-- An anchor notice is a boundary where the anchor is done already, and leaves the pending sets elsewhere (R52, R53). -/
theorem State.anchorNotice_pendingSound {s : State} (hv : validate s.image = none) (h : s.PendingSound) :
    s.anchorNotice.PendingSound := by
  have frame : s.anchorNotice.image = s.image ∧ s.anchorNotice.round = s.round := by
    obtain ⟨_, _, _, _, _, _, _, _, _, _, _, _, _, _, _, _, hx⟩ := s.anchorNotice_changes
    rw [hx]
    exact ⟨rfl, rfl⟩
  cases hd : s.sched.anchorDone with
  | false =>
    obtain ⟨_, hscheduled, hadhoc, _⟩ := State.anchorNotice_aligns hd
    exact h.congr frame.1 (by rw [frame.2]) hscheduled hadhoc
  | true =>
    obtain ⟨_, hscheduled, hadhoc, _⟩ := State.anchorNotice_opens hd
    obtain ⟨_, _, _, _, _, _, hx⟩ := s.cycleBoundary_changes
    exact (State.cycleBoundary_pendingSound hv h).congr (by rw [frame.1, hx]) (by rw [frame.2, hx]) hscheduled hadhoc

/-- A recognition brings a round in flight, with every entry CURRENT before it, or leaves the round (R25). -/
theorem State.recognise_pendingSound {s : State} (hv : validate s.image = none) (hp : s.round.phase = .code)
    (h : s.PendingSound) : s.recognise.PendingSound := by
  have hfl := Round.inFlight_code hp
  cases hfind : findRound s.image s.round.codeRead with
  | none =>
    rw [State.recognise_unknown hfind]
    exact h.congr rfl hfl.symm rfl rfl
  | some e =>
    have opened : (s.bodyOpened e).PendingSound := by
      rw [State.pendingSound_iff] at h ⊢
      rw [hfl] at h
      exact ⟨h.1.of_none _, h.2⟩
    have noticed : (s.noticed e).PendingSound := by
      by_cases hk : e.kind = .anchor
      · rw [State.noticed_anchor hk]
        exact State.anchorNotice_pendingSound hv opened
      · rwa [State.noticed_other hk]
    rw [State.recognise_known hfind, State.takeSnapshot_only]
    exact noticed.congr rfl rfl rfl rfl

/-- An outcome is never LAPSED (R40). -/
theorem Round.outcome_ne_lapsed (r : Round) (bit : Level) : r.outcome bit ≠ .lapsed := by
  unfold Round.outcome
  (repeat' split) <;> nofun

/-- A record delivered to the Trip Unit: the posts of the rules that latch (R134, R140). -/
theorem State.tripTake_pendingSound {s : State} (hv : validate s.image = none) (h : s.PendingSound) (r : Record) :
    (s.tripTake r).PendingSound := by
  have hadhoc : AdhocSound s.image (s.tripTake r).sched.adhoc :=
    ((s.pendingSound_iff.1 h).2).changeRules hv fun _ x he => RuleState.takeOutcome_disabled he x _ r
  obtain ⟨_, _, _, hx⟩ := s.tripTake_changes r
  rw [State.pendingSound_iff] at h ⊢
  rw [hx] at hadhoc ⊢
  exact ⟨h.1, hadhoc⟩

/-- The delivery of the code in flight leaves every entry CURRENT (R43, R63, R64). -/
theorem State.delivery_pendingSound {s : State} (hv : validate s.image = none) (hp : s.round.phase = .objection)
    (h : s.PendingSound) (bit : Level) :
    ((s.atDelivery bit).deliverRecord (s.round.recordOf bit) s.round.isFault).PendingSound := by
  generalize hr : s.round.recordOf bit = r
  have hcode : r.code = s.round.codeRead := by
    rw [← hr]
    rfl
  have houtcome : r.outcome ≠ .lapsed := by
    rw [← hr]
    exact s.round.outcome_ne_lapsed bit
  have hfl : ∀ d, isInFlight s.round.inFlight d = true → d = r.code := by
    intro d hd
    rw [Round.inFlight_some (by rw [hp]; nofun) (by rw [hp]; nofun)] at hd
    rw [hcode]
    exact (beq_iff_eq.1 hd).symm
  have taken : ((((s.atDelivery bit).storeOutcome r).peersTake r).schedTake r).PendingSound ∧
      ((((s.atDelivery bit).storeOutcome r).peersTake r).schedTake r).image = s.image := by
    obtain ⟨_, _, _, _, h1⟩ := (s.atDelivery bit).storeOutcome_changes r
    obtain ⟨_, _, h2⟩ := ((s.atDelivery bit).storeOutcome r).peersTake_changes r
    obtain ⟨_, _, _, _, _, h3⟩ := (((s.atDelivery bit).storeOutcome r).peersTake r).schedTake_changes r
    rw [State.pendingSound_iff] at h ⊢
    rw [h3, h2, h1]
    exact ⟨⟨h.1.take hfl houtcome, h.2.take _ _⟩, rfl⟩
  obtain ⟨taken, himage⟩ := taken
  rw [State.deliverRecord]
  obtain ⟨_, _, h5⟩ :=
    (((((s.atDelivery bit).storeOutcome r).peersTake r).schedTake r).tripTake r).controlTake_changes r s.round.isFault
  exact (State.tripTake_pendingSound (himage ▸ hv) taken r).congr (by rw [h5]) (by rw [h5]) (by rw [h5]) (by rw [h5])

/-- A sample keeps the pending sets sound (R7). -/
theorem SampleEffect.pendingSound {s t : State} {lv : Level} (he : SampleEffect s lv t) (hv : validate s.image = none)
    (hl : s.LineSound) (h : s.PendingSound) : t.PendingSound := by
  cases he with
  | quiet line round alerts counters hround =>
    refine h.congr rfl (hround fun hr => ?_) rfl rfl
    by_contra hn
    exact hr (((s.lineSound_iff.1 hl).inRound).2 hn)
  | recognition hp =>
    refine State.recognise_pendingSound hv (State.atCode_phase hp lv) (h.congr rfl ?_ rfl rfl)
    rw [Round.inFlight_code hp, Round.inFlight_code (State.atCode_phase hp lv)]
  | delivery hp => exact State.delivery_pendingSound hv hp h lv

/-- A sample written posts an ON_REQUEST code at most (R85, R176). -/
theorem State.writeSample_pendingSound {s : State} (hv : validate s.image = none) (h : s.PendingSound) (n : Fin 16)
    (raw : Raw) (injected : Bool) : (s.writeSample n raw injected).PendingSound := by
  have hadhoc : AdhocSound s.image (s.writeSample n raw injected).sched.adhoc := by
    have hpost : ∀ t : State, t.image = s.image → t.sched.adhoc = s.sched.adhoc →
        AdhocSound s.image (t.limitEvent s.image.slots[n].post).sched.adhoc := by
      intro t hi ha
      have hsound : AdhocSound (t.setCause .limit).image (t.setCause .limit).sched.adhoc := by
        rw [State.setCause_image, State.setCause_sched, hi, ha]
        exact (s.pendingSound_iff.1 h).2
      have hfits : postFits (t.setCause .limit).image s.image.slots[n].post = true := by
        rw [State.setCause_image, hi]
        exact slotPost_fits hv n
      have := hsound.postIf .slot hfits
      rwa [State.setCause_image, hi] at this
    unfold State.writeSample
    dsimp only
    split
    · exact hpost _ rfl rfl
    · exact (s.pendingSound_iff.1 h).2
  obtain ⟨_, _, _, _, hx⟩ := s.writeSample_changes n raw injected
  rw [State.pendingSound_iff] at h ⊢
  rw [hx] at hadhoc ⊢
  exact ⟨h.1, hadhoc⟩

/-- The end of a conversion writes a sample and moves the scan engine (R80). -/
theorem State.completeConversion_pendingSound {s : State} (hv : validate s.image = none) (h : s.PendingSound) :
    s.completeConversion.PendingSound := by
  unfold State.completeConversion
  split
  · rename_i n raw _ _ _
    have written := State.writeSample_pendingSound hv h n raw false
    dsimp only
    split
    · exact written.congr rfl rfl rfl rfl
    · obtain ⟨_, _, _, _, _, hx⟩ := (s.writeSample n raw false).endScan_changes
      exact written.congr (by rw [hx]) (by rw [hx]) (by rw [hx]) (by rw [hx])
  · exact h

/-- A run command posts an ON_REQUEST code at most (R60, R91). -/
theorem RunEffect.pendingSound {s t : State} (he : RunEffect s t) (hv : validate s.image = none) (h : s.PendingSound) :
    t.PendingSound := by
  cases he with
  | post c hc =>
    have hadhoc := ((s.pendingSound_iff.1 h).2).post .command hc
    obtain ⟨_, _, _, hx⟩ := s.post_changes .command c
    rw [State.pendingSound_iff] at h ⊢
    rw [hx] at hadhoc ⊢
    exact ⟨h.1, hadhoc⟩
  | begin _ =>
    rw [State.beginScan_only]
    exact h.congr rfl rfl rfl rfl
  | resume _ =>
    rw [State.resume_only]
    exact h.congr rfl rfl rfl rfl
  | inject n raw _ => exact State.writeSample_pendingSound hv h n raw true
  | _ => exact h.congr rfl rfl rfl rfl

/-- A port command acts on a running station's sets, or the sets are empty (R50, R166, R187). -/
theorem PortEffect.pendingSound {s t : State} (he : PortEffect s t) (hb : s.BlocksFollowStation) (hi : s.ImageSound)
    (h : s.PendingSound) : t.PendingSound := by
  cases he with
  | none => exact h
  | softReset _ => exact State.pendingSound_of_empty rfl
  | image im _ hc _ =>
    obtain ⟨_, _, hsched, _⟩ := hb.1 (by rw [hc]; rfl)
    exact State.pendingSound_of_empty hsched
  | commit _ _ _ => exact h.congr rfl rfl rfl rfl
  | run t _ hr he => exact he.pendingSound (hi.validated hr) h

/-- Every effect keeps the pending sets sound. -/
theorem Effect.pendingSound {s t : State} (he : Effect s t) (hb : s.BlocksFollowStation) (hi : s.ImageSound)
    (hl : s.LineSound) (h : s.PendingSound) : t.PendingSound := by
  cases he with
  | port t p hp _ => exact (hp.pendingSound hb hi h).congr rfl rfl rfl rfl
  | hardReset => exact State.pendingSound_of_empty rfl
  | release _ => exact State.pendingSound_of_empty rfl
  | complete _ hc =>
    have hv : validate s.image = none := hi.2.1 (by rw [hc]; nofun)
    rw [State.resume_only, State.pendingSound_iff]
    exact ⟨scheduledAtCommit_sound (codes_nodup_of_validate hv), .nil, Nat.zero_le 8, nofun, nofun, nofun⟩
  | sample lv hlisten =>
    exact (State.sample_sampleEffect hlisten lv).pendingSound (hi.validated (State.running_of_listens hb hlisten)) hl h
  | boundary line _ =>
    obtain ⟨_, _, _, _, _, _, _, _, hx⟩ := s.boundary_changes line
    rw [hx]
    exact h.congr rfl rfl rfl rfl
  | expire _ hr =>
    obtain ⟨hsched, _⟩ := s.cycleBoundary.restartTimer.judgeExpiry_keeps
    obtain ⟨hround, himage⟩ := s.cycleBoundary.restartTimer.judgeExpiry_round
    exact (State.cycleBoundary_pendingSound (hi.validated hr) h).congr himage (by rw [hround]; rfl) (by rw [hsched]; rfl)
      (by rw [hsched]; rfl)
  | settle _ _ _ _ _ => exact h.congr rfl rfl rfl rfl
  | conversion n raw _ hs _ _ => exact State.completeConversion_pendingSound (hi.validated (State.running_of_scanning hb hs)) h

/-- A crystal period moves timers alone. -/
theorem TickEffect.pendingSound {s t : State} (ht : TickEffect s t) (h : s.PendingSound) : t.PendingSound := by
  obtain ⟨_, _, _, _, _, _, _, _, rfl, _⟩ := ht
  exact h.congr rfl rfl rfl rfl

/-- Settles O54: every effect keeps the pending sets sound, and so does a crystal period. -/
theorem stepKeepsPendingSound : Obligations.StepKeepsPendingSound := by
  intro s t hb _ hi hl h hs
  rcases step_effect hs with ⟨rest, he⟩ | ⟨_, ht⟩
  · exact Effect.pendingSound (s := { s with pending := rest }) he hb hi hl h
  · exact ht.pendingSound h

end Sys2Proof.Machine
end

section
/-! The Result Store and the timers through every step: what a record does to the ring and to the latest table, and what each
effect leaves of the cycle timer. -/

namespace Sys2Proof.Machine

/-- A record offered leaves at most 32 in the ring (R110, R113 to R115). -/
theorem State.appendRecord_ring {s : State} (h : s.store.ring.length ≤ 32) (r : Record) :
    (s.appendRecord r).store.ring.length ≤ 32 := by
  unfold State.appendRecord State.offerRing
  split
  · dsimp only
    split
    · next hroom =>
      rw [List.length_append]
      exact hroom
    · next hfull =>
      have h32 : ¬ s.store.ring.length < 32 := hfull
      split
      · exact h
      · rw [List.length_append, List.length_drop, List.length_singleton]
        omega
  · exact h

theorem State.deliverLapses_ring (l : List Record) {s : State} (h : s.store.ring.length ≤ 32) :
    (l.foldl State.deliverLapse s).store.ring.length ≤ 32 := by
  induction l generalizing s with
  | nil => exact h
  | cons r l ih => exact ih (s := s.deliverLapse r) (State.appendRecord_ring h r)

/-- The lapses of a boundary in the ring (R54, R65). -/
theorem State.cycleBoundary_ring {s : State} (h : s.store.ring.length ≤ 32) :
    s.cycleBoundary.store.ring.length ≤ 32 := by
  obtain ⟨_, _, hstore, _⟩ := s.cycleBoundary_posts
  rw [hstore]
  exact State.deliverLapses_ring _ h

/-- An outcome and the lapse it may make in the ring (R65, R110). -/
theorem State.outcome_ring {s : State} (h : s.store.ring.length ≤ 32) (r : Record) :
    ((s.storeOutcome r).pendingTake r).store.ring.length ≤ 32 := by
  have stored : (s.storeOutcome r).store.ring.length ≤ 32 := State.appendRecord_ring (by exact h) r
  generalize s.storeOutcome r = t at stored ⊢
  unfold State.pendingTake
  dsimp only
  split
  · exact State.appendRecord_ring (by exact stored) _
  · exact stored

/-- An outcome and its lapse at the latest table: the outcome alone changes it (R108). -/
theorem State.outcome_latest (s : State) (r : Record) :
    ((s.storeOutcome r).pendingTake r).store.latest = latestAfter s.store.latest r := by
  obtain ⟨_, _, _, _, h1⟩ := s.storeOutcome_changes r
  obtain ⟨_, _, _, _, h2⟩ := (s.storeOutcome r).pendingTake_changes r
  rw [h2, h1]

/-- A recognition in the ring and the latest table: an anchor that opens a cycle is a boundary there, and no other code changes
them (R25, R53). -/
theorem State.recognise_store (s : State) :
    s.recognise.store.latest = s.store.latest ∧
    (s.store.ring.length ≤ 32 → s.recognise.store.ring.length ≤ 32) := by
  refine ⟨?_, fun h => ?_⟩
  · obtain ⟨_, _, _, _, _, _, _, _, _, _, _, _, _, _, _, _, _, hx⟩ := s.recognise_changes
    rw [hx]
  · cases hfind : findRound s.image s.round.codeRead with
    | none =>
      rw [State.recognise_unknown hfind]
      exact h
    | some e =>
      obtain ⟨_, _, _, hstore, _⟩ := (s.noticed e).takeSnapshot_blocks e
      rw [State.recognise_known hfind, hstore]
      by_cases hk : e.kind = .anchor
      · rw [State.noticed_anchor hk]
        cases hd : s.sched.anchorDone with
        | false =>
          obtain ⟨_, _, _, hsame, _⟩ := State.anchorNotice_aligns (s := s.bodyOpened e) hd
          rw [hsame]
          exact h
        | true =>
          obtain ⟨_, _, _, hsame, _⟩ := State.anchorNotice_opens (s := s.bodyOpened e) hd
          rw [hsame]
          exact State.cycleBoundary_ring (s := s.bodyOpened e) h
      · rw [State.noticed_other hk]
        exact h

/-- A recognition at the cycle timer: the anchor's sets it to eight bit times (R52, R53). -/
theorem State.recognise_timer (s : State) :
    s.recognise.sched.timer = s.sched.timer ∨ s.recognise.sched.timer = eightBitTimes s.image.settings.rate := by
  cases hfind : findRound s.image s.round.codeRead with
  | none =>
    rw [State.recognise_unknown hfind]
    exact .inl rfl
  | some e =>
    obtain ⟨hsched, _⟩ := (s.noticed e).takeSnapshot_blocks e
    rw [State.recognise_known hfind, hsched]
    by_cases hk : e.kind = .anchor
    · rw [State.noticed_anchor hk]
      exact .inr (s.bodyOpened e).anchorNotice_timer.2.1
    · rw [State.noticed_other hk]
      exact .inl rfl

/-- What a sample leaves of the store and of the cycle timer (R43, R52, R108). -/
theorem SampleEffect.store_timer {s t : State} {lv : Level} (he : SampleEffect s lv t) :
    (t.store.latest = s.store.latest ∨ ∃ r, t.store.latest = latestAfter s.store.latest r) ∧
    (s.store.ring.length ≤ 32 → t.store.ring.length ≤ 32) ∧
    (t.sched.timer = s.sched.timer ∨ t.sched.timer = eightBitTimes s.image.settings.rate) := by
  cases he with
  | quiet line round alerts counters _ => exact ⟨.inl rfl, id, .inl rfl⟩
  | recognition _ =>
    obtain ⟨hlatest, hring⟩ := (s.atCode lv).recognise_store
    exact ⟨.inl hlatest, hring, (s.atCode lv).recognise_timer⟩
  | delivery _ =>
    obtain ⟨hframe, _⟩ := s.deliverRecord_blocks lv (s.round.recordOf lv) s.round.isFault
    generalize s.round.recordOf lv = r at *
    generalize (s.atDelivery lv).deliverRecord r s.round.isFault = t at *
    obtain ⟨_, _, _, _, hpending⟩ := s.pendingTake_changes r
    rw [hframe]
    exact ⟨.inr ⟨r, s.outcome_latest r⟩, fun h => State.outcome_ring h r, .inl (by rw [hpending])⟩

/-- A latest table keeps its codes and kinds through an outcome (R107, R108). -/
theorem latestAfter_codes (l : List LatestEntry) (r : Record) :
    (latestAfter l r).map (fun e => (e.code, e.kind)) = l.map fun e => (e.code, e.kind) := by
  rw [latestAfter_eq_map, List.map_map]
  refine List.map_congr_left fun e _ => ?_
  rw [Function.comp_apply]
  split <;> rfl

/-- No VOID and no LAPSED enters the latest table (R108). -/
theorem latestAfter_last {l : List LatestEntry} (h : ∀ e ∈ l, e.last ≠ some .void ∧ e.last ≠ some .lapsed) (r : Record) :
    ∀ e ∈ latestAfter l r, e.last ≠ some .void ∧ e.last ≠ some .lapsed := by
  rw [latestAfter_eq_map]
  intro e he
  obtain ⟨x, hx, rfl⟩ := List.mem_map.1 he
  split
  · next hr => exact ⟨fun h => hr.2.1 (Option.some.inj h), fun h => hr.2.2 (Option.some.inj h)⟩
  · exact h x hx

/-- The store is judged by the ring's length, and by the latest table against the image of a running station. -/
theorem State.StoreSound.congr {s t : State} (h : s.StoreSound) (hring : t.store.ring.length ≤ 32)
    (hl : t.store.latest = s.store.latest ∨ ∃ r, t.store.latest = latestAfter s.store.latest r)
    (hr : t.control.station.running = true → s.control.station.running = true ∧ t.image = s.image) : t.StoreSound := by
  obtain ⟨_, hcodes, hlast⟩ := h
  refine ⟨hring, fun hrun => ?_, ?_⟩
  · obtain ⟨hrun, himage⟩ := hr hrun
    rw [himage, ← hcodes hrun]
    rcases hl with hl | ⟨r, hl⟩ <;> rw [hl]
    exact latestAfter_codes _ r
  · rcases hl with hl | ⟨r, hl⟩ <;> rw [hl]
    · exact hlast
    · exact latestAfter_last hlast r

/-- The store at its reset values (R121). -/
theorem State.storeSound_of_reset {s : State} (hs : s.store = {}) (hc : s.control.station = .config) : s.StoreSound := by
  unfold State.StoreSound
  rw [hs, hc]
  exact ⟨Nat.zero_le 32, fun h => absurd h Bool.false_ne_true, fun e he => absurd he List.not_mem_nil⟩

/-- Eight bit times are less than a millisecond, and every cycle is at least that long (R2, R169). -/
theorem eightBitTimes_lt (rate : Fin 4) {l : Nat} (hl : 1 ≤ l) : eightBitTimes rate < l * 1000 := by
  have hrate : eightBitTimes rate < 1000 := by
    revert rate
    decide
  omega

/-- A command of a running station leaves its timers and its latest table, and takes records from the ring at most. -/
theorem RunEffect.keeps_timers {s t : State} (h : RunEffect s t) :
    t.sched.timer = s.sched.timer ∧ t.control.commitTimer = s.control.commitTimer ∧ t.clock = s.clock ∧
    t.store.latest = s.store.latest ∧ t.store.ring.length ≤ s.store.ring.length := by
  cases h with
  | results n => exact ⟨rfl, rfl, rfl, rfl, by simp⟩
  | post c _ =>
    obtain ⟨_, _, _, h⟩ := s.post_changes .command c
    rw [h]
    exact ⟨rfl, rfl, rfl, rfl, le_rfl⟩
  | begin _ =>
    rw [State.beginScan_only]
    exact ⟨rfl, rfl, rfl, rfl, le_rfl⟩
  | resume _ =>
    rw [State.resume_only]
    exact ⟨rfl, rfl, rfl, rfl, le_rfl⟩
  | inject n raw _ =>
    obtain ⟨_, _, _, _, h⟩ := s.writeSample_changes n raw true
    rw [h]
    exact ⟨rfl, rfl, rfl, rfl, le_rfl⟩
  | _ => exact ⟨rfl, rfl, rfl, rfl, le_rfl⟩

/-- A port command's effect on the store (R118, R121). -/
theorem PortEffect.storeSound {s t : State} (he : PortEffect s t) (h : s.StoreSound) : t.StoreSound := by
  cases he with
  | none => exact h
  | softReset _ => exact State.storeSound_of_reset rfl rfl
  | image im _ hc _ =>
    refine h.congr h.1 (.inl rfl) fun hr => ?_
    rw [show s.control.station = .config from hc] at hr
    cases hr
  | commit _ _ _ => exact h.congr h.1 (.inl rfl) nofun
  | run t _ hr he =>
    obtain ⟨_, _, _, hlatest, hring⟩ := he.keeps_timers
    obtain ⟨_, _, himage, _⟩ := he.keeps_line
    exact h.congr (hring.trans h.1) (.inl hlatest) fun _ => ⟨hr, himage⟩

/-- The two timers of the µs tick and the crystal phase, the port apart (R2, R51, R179). -/
def State.PeriodsSound (s : State) : Prop :=
  (s.control.station.running = true → s.sched.timer < s.image.settings.cycleLength * 1000) ∧
  s.control.commitTimer < 1000 ∧ s.clock.phase < 8

theorem State.timersSound_iff (s : State) : s.TimersSound ↔
    s.PeriodsSound ∧ s.port.bits.length < 8 ∧ (s.port.frameOpen = true → s.port.csn = .low) :=
  ⟨fun ⟨h1, h2, h3, h4⟩ => ⟨⟨h1, h2, h3⟩, h4⟩, fun ⟨⟨h1, h2, h3⟩, h4⟩ => ⟨h1, h2, h3, h4⟩⟩

/-- A port command's effect on the timers (R50, R166, R179). -/
theorem PortEffect.periodsSound {s t : State} (he : PortEffect s t) (h : s.PeriodsSound) : t.PeriodsSound := by
  obtain ⟨hcycle, hcommit, hphase⟩ := h
  cases he with
  | none => exact ⟨hcycle, hcommit, hphase⟩
  | softReset _ => exact ⟨nofun, Nat.zero_lt_succ 999, hphase⟩
  | image im _ hc _ =>
    refine ⟨fun hr => ?_, hcommit, hphase⟩
    rw [show s.control.station = .config from hc] at hr
    cases hr
  | commit _ _ _ => exact ⟨nofun, Nat.zero_lt_succ 999, hphase⟩
  | run t _ hr he =>
    obtain ⟨htimer, hcommit', hclock, _⟩ := he.keeps_timers
    obtain ⟨_, _, himage, _⟩ := he.keeps_line
    unfold State.PeriodsSound
    rw [htimer, hcommit', hclock, himage]
    exact ⟨fun _ => hcycle hr, hcommit, hphase⟩

/-- The timers are sound after an event that leaves the port, the crystal phase and the digest computation. -/
theorem State.TimersSound.congr {s t : State} (h : s.TimersSound)
    (hcycle : t.sched.timer < t.image.settings.cycleLength * 1000) (hcommit : t.control.commitTimer = s.control.commitTimer)
    (hphase : t.clock.phase = s.clock.phase) (hport : t.port = s.port) : t.TimersSound := by
  obtain ⟨_, h2, h3, h4⟩ := h
  unfold State.TimersSound
  rw [hcommit, hphase, hport]
  exact ⟨fun _ => hcycle, h2, h3, h4⟩

/-- Every effect keeps the store sound. -/
theorem Effect.storeSound {s t : State} (he : Effect s t) (hb : s.BlocksFollowStation) (h : s.StoreSound) : t.StoreSound := by
  cases he with
  | port t p hp _ => exact (hp.storeSound h).congr (hp.storeSound h).1 (.inl rfl) fun hr => ⟨hr, rfl⟩
  | hardReset => exact State.storeSound_of_reset rfl rfl
  | release _ => exact State.storeSound_of_reset rfl rfl
  | complete _ _ =>
    rw [State.resume_only]
    refine ⟨Nat.zero_le 32, fun _ => ?_, fun e he => ?_⟩
    · exact List.map_map
    · obtain ⟨_, _, rfl⟩ := List.mem_map.1 he
      exact ⟨nofun, nofun⟩
  | sample lv hl =>
    obtain ⟨hlatest, hring, _⟩ := (State.sample_sampleEffect hl lv).store_timer
    refine h.congr (hring h.1) hlatest fun _ => ⟨State.running_of_listens hb hl, ?_⟩
    obtain ⟨_, _, _, _, _, _, _, _, _, _, _, _, _, _, _, _, _, _, _, hx⟩ := s.sample_changes lv
    rw [hx]
  | boundary line hl =>
    obtain ⟨_, _, _, _, _, _, _, _, hx⟩ := s.boundary_changes line
    rw [hx]
    exact h.congr h.1 (.inl rfl) fun _ => ⟨State.running_of_listens hb hl, rfl⟩
  | expire _ hr =>
    obtain ⟨_, hstore, _⟩ := s.cycleBoundary.restartTimer.judgeExpiry_keeps
    obtain ⟨_, himage⟩ := s.cycleBoundary.restartTimer.judgeExpiry_round
    obtain ⟨_, _, _, _, _, _, hx⟩ := s.cycleBoundary_changes
    refine h.congr ?_ (.inl ?_) fun _ => ⟨hr, ?_⟩
    · rw [hstore]
      exact State.cycleBoundary_ring h.1
    · rw [hstore, State.restartTimer_store, hx]
    · rw [himage, State.restartTimer_image, hx]
  | settle _ _ _ _ _ => exact h
  | conversion n raw _ hs _ _ =>
    obtain ⟨_, _, _, _, _, hx⟩ := s.completeConversion_changes
    rw [hx]
    exact h

/-- Every effect keeps the timers sound. -/
theorem Effect.timersSound {s t : State} (he : Effect s t) (hb : s.BlocksFollowStation) (hi : s.ImageSound)
    (h : s.TimersSound) : t.TimersSound := by
  have hlength : 1 ≤ s.image.settings.cycleLength := hi.1.1.1
  cases he with
  | port t p hp hk =>
    rw [State.timersSound_iff] at h ⊢
    obtain ⟨hperiods, hbits, hframe⟩ := h
    exact ⟨hp.periodsSound hperiods, hk.1 hbits, hk.2.1 hframe⟩
  | hardReset => exact ⟨nofun, Nat.zero_lt_succ 999, h.2.2.1, Nat.zero_lt_succ 7, nofun⟩
  | release _ => exact ⟨nofun, Nat.zero_lt_succ 999, h.2.2.1, Nat.zero_lt_succ 7, nofun⟩
  | complete _ _ =>
    rw [State.resume_only]
    obtain ⟨_, _, hrest⟩ := h
    refine ⟨fun _ => ?_, Nat.zero_lt_succ 999, hrest⟩
    show 0 < s.image.settings.cycleLength * 1000
    omega
  | sample lv hl =>
    obtain ⟨_, _, htimer⟩ := (State.sample_sampleEffect hl lv).store_timer
    obtain ⟨_, _, _, _, _, _, _, _, _, _, _, _, _, _, _, _, _, _, _, hx⟩ := s.sample_changes lv
    refine h.congr ?_ (by rw [hx]) (by rw [hx]) (by rw [hx])
    have himage : (s.sample lv).image = s.image := by rw [hx]
    rw [himage]
    rcases htimer with ht | ht <;> rw [ht]
    · exact h.1 (State.running_of_listens hb hl)
    · exact eightBitTimes_lt _ hlength
  | boundary line hl =>
    obtain ⟨_, _, _, _, _, _, _, _, hx⟩ := s.boundary_changes line
    rw [hx]
    exact h.congr (h.1 (State.running_of_listens hb hl)) rfl rfl rfl
  | expire hs hr =>
    obtain ⟨hsched, _⟩ := s.cycleBoundary.restartTimer.judgeExpiry_keeps
    obtain ⟨_, _, _, _, _, _, _, _, _, _, hx⟩ := s.expire_changes
    rw [← State.expire_runs hs hr] at hsched ⊢
    refine h.congr ?_ (by rw [hx]) (by rw [hx]) (by rw [hx])
    rw [hsched, hx]
    show 0 < s.image.settings.cycleLength * 1000
    omega
  | settle _ _ _ _ hs => exact h.congr (h.1 (State.running_of_scanning hb hs)) rfl rfl rfl
  | conversion n raw _ hs _ _ =>
    obtain ⟨_, _, _, _, _, hx⟩ := s.completeConversion_changes
    rw [hx]
    exact h.congr (h.1 (State.running_of_scanning hb hs)) rfl rfl rfl

/-- A crystal period moves each timer inside its range (R2, R51, R179). -/
theorem TickEffect.timersSound {s t : State} (ht : TickEffect s t) (h : s.TimersSound) : t.TimersSound := by
  obtain ⟨_, _, _, _, _, _, _, _, rfl, hphase, _, _, htimer, hcommit, _⟩ := ht
  obtain ⟨h1, h2, h3, h4⟩ := h
  refine ⟨fun hr => ?_, ?_, hphase h3, h4⟩
  · rcases htimer with rfl | ⟨_, hlt⟩
    · exact h1 hr
    · exact hlt
  · rcases hcommit with rfl | ⟨_, hlt⟩
    · exact h2
    · exact hlt

/-- Settles O59: every effect keeps the store and the timers sound, and so does a crystal period. -/
theorem stepKeepsStoreAndTimersSound : Obligations.StepKeepsStoreAndTimersSound := by
  intro s t hb _ hi hstore htimers hs
  rcases step_effect hs with ⟨rest, he⟩ | ⟨_, ht⟩
  · exact ⟨Effect.storeSound (s := { s with pending := rest }) he hb hstore,
      Effect.timersSound (s := { s with pending := rest }) he hb hi htimers⟩
  · refine ⟨?_, ht.timersSound htimers⟩
    obtain ⟨_, _, _, _, _, _, _, _, rfl, _⟩ := ht
    exact hstore

end Sys2Proof.Machine
end

section
/-! Posts and outcomes at the pending sets (R60 to R65), and the count adopted from an anchor (R57). -/

namespace Sys2Proof.Machine

/-- POST_ROUND takes the byte of an ON_REQUEST code (R188). -/
theorem State.checkPost_code {s : State} {c : Code} (h : isOnRequest s.image c = true) :
    s.checkPost (c.setWidth 8) = some c := by
  unfold State.checkPost
  rw [codeByte_code, Option.bind_some, if_pos h]

/-- And no other byte (R188). -/
theorem State.checkPost_none {s : State} {b : Byte} (h : ∀ d : Code, isOnRequest s.image d = true → d.setWidth 8 ≠ b) :
    s.checkPost b = none := by
  unfold State.checkPost
  refine Option.bind_eq_none_iff.2 fun d hd => if_neg fun hon => ?_
  exact h d hon (codeByte_some hd)

/-- POST_ROUND of an ON_REQUEST code acts in JOINING, ACTIVE and SILENT (R60, R187). -/
theorem exec_postRound_acts {s : State} (hs : s.runs) {c : Code} (h : isOnRequest s.image c = true) :
    exec (.postRound (c.setWidth 8)) s = .next (s.postRound c) := by
  rw [exec_postRound, State.checkPost_code h, State.take_acts hs.1 (Gate.refusal_run hs.2)]

theorem State.postRound_merged {s : State} {c : Code} (h : holdsAdhoc s.sched.adhoc c = true) :
    s.postRound c = s.respond .merged := if_pos h

theorem State.postRound_added {s : State} {c : Code} (h : holdsAdhoc s.sched.adhoc c = false)
    (hl : s.sched.adhoc.length < 8) : s.postRound c = (s.post .command c).respond .ok := by
  unfold State.postRound
  rw [if_neg (by rw [h]; exact Bool.false_ne_true), if_pos (show s.sched.adhoc.length < adhocCapacity from hl)]

theorem State.postRound_full {s : State} {c : Code} (h : holdsAdhoc s.sched.adhoc c = false)
    (hl : 8 ≤ s.sched.adhoc.length) : s.postRound c = s.respond .full := by
  unfold State.postRound
  rw [if_neg (by rw [h]; exact Bool.false_ne_true), if_neg (show ¬ s.sched.adhoc.length < adhocCapacity from Nat.not_lt.2 hl)]

/-- Settles O20: the three cases of a post, by whether the set holds the code and whether it has room. -/
theorem postsReachTheAdHocSet : Obligations.PostsReachTheAdHocSet := by
  refine fun s c => ⟨fun hs hc => ⟨fun hm => ?merged, fun hm hl => ?added, fun hm hl => ?full⟩, fun hs b hb => ?refused,
    fun o => ⟨fun hm => State.post_merged hm o, fun hm hl => ?posted, fun hm hl => State.post_lost hm hl o⟩⟩
  case merged =>
    rw [exec_postRound_acts hs hc, State.postRound_merged hm]
    rfl
  case added =>
    refine ⟨_, exec_postRound_acts hs hc, ?_⟩
    rw [State.postRound_added hm hl, State.post_added hm hl]
    exact ⟨rfl, length_insertByCode _ _ _, fun e => mem_insertByCode _⟩
  case full =>
    rw [exec_postRound_acts hs hc, State.postRound_full hm hl]
    rfl
  case refused =>
    rw [exec_postRound, State.checkPost_none hb, State.take_bad hs.1 (Gate.refusal_run hs.2)]
    rfl
  case posted =>
    rw [State.post_added hm hl]
    exact ⟨rfl, fun e => mem_insertByCode _⟩

/-- A replacement, entry by entry. -/
theorem replaceCode_eq {α : Type} (key : α → Code) (c : Code) (f : α → Option α) (l : List α) :
    replaceCode key c f l = l.filterMap fun e => if key e = c then f e else some e := by
  unfold replaceCode
  simp only [beq_iff_eq]

/-- A code that no entry has is not replaced. -/
theorem replaceCode_absent {α : Type} {key : α → Code} {c : Code} (f : α → Option α) {l : List α}
    (h : ∀ e ∈ l, key e ≠ c) : replaceCode key c f l = l := by
  rw [replaceCode_eq]
  refine (List.filterMap_congr fun e he => if_neg (h e he)).trans List.filterMap_some

/-- The entries of a code removed. -/
theorem replaceCode_removed {α : Type} (key : α → Code) (c : Code) (l : List α) :
    replaceCode key c (fun _ => none) l = l.filter fun e => key e != c := by
  rw [replaceCode_eq, ← List.filterMap_eq_filter]
  congr 1
  funext e
  by_cases h : key e = c <;> simp [h, Option.guard]

theorem SchedEntry.completed_eq (e : SchedEntry) :
    e.completed = if e.part = .both then some { e with part := .current } else none := by
  unfold SchedEntry.completed
  cases e.part <;> rfl

/-- The scheduled set after a VOID (R64). -/
theorem replaceCode_voided_scheduled (c : Code) (l : List SchedEntry) :
    replaceCode SchedEntry.code c (fun e => e.voided.1) l = l.filterMap fun e =>
      if e.code = c then
        match e.part with
        | .current => if e.retries < 2 then some { e with retries := e.retries + 1 } else none
        | .old => none
        | .both => some { e with part := .current }
      else some e := by
  rw [replaceCode_eq]
  refine List.filterMap_congr fun e _ => if_congr Iff.rfl ?_ rfl
  unfold SchedEntry.voided
  cases e.part with
  | current => dsimp only; split <;> rfl
  | _ => rfl

/-- The lapse that a VOID makes of a scheduled entry (R64). -/
theorem SchedEntry.voided_lapse (e : SchedEntry) : e.voided.2 =
    if e.part = .current then (if e.retries < 2 then none else some .retries) else some .cycleEnd := by
  unfold SchedEntry.voided
  cases e.part with
  | current => dsimp only; split <;> rfl
  | _ => rfl

/-- The ad hoc set after a VOID (R64). -/
theorem replaceCode_voided_adhoc (c : Code) (l : List AdhocEntry) :
    replaceCode AdhocEntry.code c (fun e => e.voided.1) l = l.filterMap fun e =>
      if e.code = c then (if e.retries < 2 then some { e with retries := e.retries + 1 } else none) else some e := by
  rw [replaceCode_eq]
  refine List.filterMap_congr fun e _ => if_congr Iff.rfl ?_ rfl
  unfold AdhocEntry.voided
  split <;> rfl

/-- The lapse that a VOID makes of an ad hoc entry (R64). -/
theorem AdhocEntry.voided_lapse (e : AdhocEntry) : e.voided.2 = if e.retries < 2 then none else some .retries := by
  unfold AdhocEntry.voided
  split <;> rfl

/-- An outcome other than VOID makes no lapse (R63). -/
theorem State.pendingTake_completing {s : State} {r : Record} (h : r.outcome ≠ .void) :
    s.pendingTake r = { s with
      sched.scheduled := scheduledTake s.sched.scheduled r.code r.outcome
      sched.adhoc := adhocTake s.sched.adhoc r.code r.outcome } := by
  unfold State.pendingTake
  dsimp only
  split
  · exact absurd ‹_› h
  · rfl

/-- Settles O33: a completing outcome makes no lapse, and what stays of each entry is that of R63. -/
theorem completingOutcomeClearsThePart : Obligations.CompletingOutcomeClearsThePart := by
  intro s r ho
  have sets : scheduledTake s.sched.scheduled r.code r.outcome =
        replaceCode SchedEntry.code r.code SchedEntry.completed s.sched.scheduled ∧
      adhocTake s.sched.adhoc r.code r.outcome =
        replaceCode AdhocEntry.code r.code (fun _ => none) s.sched.adhoc := by
    rcases ho with ho | ho | ho | ho <;> rw [ho] <;> exact ⟨rfl, rfl⟩
  rw [State.pendingTake_completing fun hv => by simp [hv] at ho, sets.1, sets.2, replaceCode_removed, replaceCode_eq,
    funext SchedEntry.completed_eq]

/-- A VOID at the pending sets: they change by R64, and the lapse it makes is delivered on them. -/
theorem State.pendingTake_void {s : State} {r : Record} (h : r.outcome = .void) :
    (s.pendingTake r).sched = { s.sched with
      scheduled := replaceCode SchedEntry.code r.code (fun e => e.voided.1) s.sched.scheduled
      adhoc := replaceCode AdhocEntry.code r.code (fun e => e.voided.1) s.sched.adhoc } ∧
    s.pendingTake r = match voidLapse s.sched r.code with
      | some reason =>
        ({ s with sched := (s.pendingTake r).sched } : State).deliverLapse (lapseRecord s.image r.cycle reason r.code)
      | none => { s with sched := (s.pendingTake r).sched } := by
  have hsched : (s.pendingTake r).sched = { s.sched with
      scheduled := replaceCode SchedEntry.code r.code (fun e => e.voided.1) s.sched.scheduled
      adhoc := replaceCode AdhocEntry.code r.code (fun e => e.voided.1) s.sched.adhoc } := by
    obtain ⟨_, _, _, _, hx⟩ := s.pendingTake_changes r
    rw [hx, h]
    rfl
  refine ⟨hsched, ?_⟩
  rw [hsched]
  unfold State.pendingTake
  rw [h]
  cases voidLapse s.sched r.code <;> rfl

theorem voidLapse_scheduled {q : Scheduler} {c : Code} {e : SchedEntry}
    (h : q.scheduled.find? (fun x => x.code == c) = some e) : voidLapse q c = e.voided.2 := by
  unfold voidLapse
  rw [h]

theorem voidLapse_adhoc {q : Scheduler} {c : Code} (hs : ∀ x ∈ q.scheduled, x.code ≠ c) {e : AdhocEntry}
    (h : q.adhoc.find? (fun x => x.code == c) = some e) : voidLapse q c = e.voided.2 := by
  unfold voidLapse
  rw [List.find?_eq_none.2 fun x hx => by simpa using hs x hx, h]

theorem voidLapse_absent {q : Scheduler} {c : Code} (hs : ∀ x ∈ q.scheduled, x.code ≠ c)
    (ha : ∀ x ∈ q.adhoc, x.code ≠ c) : voidLapse q c = none := by
  unfold voidLapse
  rw [List.find?_eq_none.2 fun x hx => by simpa using hs x hx, List.find?_eq_none.2 fun x hx => by simpa using ha x hx]

/-- The count that a VALID anchor's record gives (R57). -/
theorem State.adopt_count {s : State} {r : Record} {n : Word} (ho : r.outcome = .valid) (hc : r.content = .count n) :
    s.adopt r = { s with sched.cycle :=
      if s.control.station = .joining then n
      else if 1 ≤ (n - s.sched.cycle).toNat ∧ (n - s.sched.cycle).toNat ≤ 32767 then n else s.sched.cycle } := by
  unfold State.adopt
  rw [ho, hc]
  dsimp only
  unfold adoptedCount aheadOf
  simp only [decide_eq_true_eq]
  cases s.control.station <;> rfl

/-- Settles O34: what stays of the entry that a VOID reaches and the lapse it makes, set by set; and the count adopted. -/
theorem voidRetriesAndAnchorAdoption : Obligations.VoidRetriesAndAnchorAdoption := by
  refine ⟨fun s r ho => ?_, fun s r n ho hc => State.adopt_count ho hc⟩
  obtain ⟨hsched, hlapse⟩ := State.pendingTake_void (s := s) ho
  refine ⟨?sets, fun hs ha => ?absent, fun e he => ⟨fun hp hr => ?retried, fun hp hr => ?lapsed, fun hp => ?old⟩,
    fun e hs he => ⟨fun hr => ?adhocRetried, fun hr => ?adhocLapsed⟩⟩
  case sets =>
    exact hsched.trans (congrArg₂ (fun a b => ({ s.sched with scheduled := a, adhoc := b } : Scheduler))
      (replaceCode_voided_scheduled _ _) (replaceCode_voided_adhoc _ _))
  case absent =>
    rw [voidLapse_absent hs ha, hsched, replaceCode_absent _ hs, replaceCode_absent _ ha] at hlapse
    exact hlapse
  case retried =>
    rw [voidLapse_scheduled he, SchedEntry.voided_lapse, if_pos hp, if_pos hr] at hlapse
    exact hlapse
  case lapsed =>
    rw [voidLapse_scheduled he, SchedEntry.voided_lapse, if_pos hp, if_neg (Nat.not_lt.2 hr)] at hlapse
    exact hlapse
  case old =>
    rw [voidLapse_scheduled he, SchedEntry.voided_lapse, if_neg hp] at hlapse
    exact hlapse
  case adhocRetried =>
    rw [voidLapse_adhoc hs he, AdhocEntry.voided_lapse, if_pos hr] at hlapse
    exact hlapse
  case adhocLapsed =>
    rw [voidLapse_adhoc hs he, AdhocEntry.voided_lapse, if_neg (Nat.not_lt.2 hr)] at hlapse
    exact hlapse

end Sys2Proof.Machine
end

section
/-! CYCLE_TIMER_EXPIRY (R51, R54, R154): R55's table entry by entry, the ad hoc set by age, the posts of the rules that latch,
and the judgement of a JOINING station. -/

namespace Sys2Proof.Machine

/-- The code in flight (R25, R54). -/
theorem Round.isInFlight_iff (r : Round) (c : Code) : isInFlight r.inFlight c = true ↔
    (r.phase = .body ∨ r.phase = .check ∨ r.phase = .objection) ∧ r.codeRead = c := by
  unfold Round.inFlight
  cases r.phase <;> simp [isInFlight]

/-- The anchor in flight (R54 step 3). -/
theorem Round.anchorInFlight_iff (r : Round) : anchorInFlight r.inFlight = true ↔
    (r.phase = .body ∨ r.phase = .check ∨ r.phase = .objection) ∧ r.kind = .anchor := by
  unfold Round.inFlight
  cases r.phase <;> simp [anchorInFlight]

/-- The cycles in which an entry is due (R49, R55). -/
theorem dueIn_iff (e : RoundEntry) (cycle : Word) : dueIn e cycle = true ↔
    match e.schedule with
    | .onRequest => False
    | .div1 => True
    | .div2 => cycle.toNat % 2 = 0
    | .div4 => cycle.toNat % 4 = 0
    | .div8 => cycle.toNat % 8 = 0
    | .div16 => cycle.toNat % 16 = 0 := by
  unfold dueIn divisor
  cases e.schedule <;> simp [Nat.mod_one]

/-- Only a scheduled entry is ever due (R49). -/
theorem isScheduled_of_dueIn {e : RoundEntry} {cycle : Word} (h : dueIn e cycle = true) : isScheduled e = true := by
  unfold dueIn at h
  unfold isScheduled
  split at h
  · next hd => rw [hd]; rfl
  · cases h

/-- The scheduled set after a boundary, from the table's entries (R55). -/
theorem mem_scheduledAfter_entry {im : Image} {fl : Option (Code × Kind)} {old : List SchedEntry} {cycle : Word}
    {e : SchedEntry} : e ∈ scheduledAfter im fl old cycle ↔
      ∃ r ∈ imageEntries im, r.code = e.code ∧ r.schedule ≠ .onRequest ∧ entryAfter fl old cycle r = some e := by
  unfold scheduledAfter
  rw [mem_sortByCode, List.mem_filterMap]
  refine exists_congr fun r => ?_
  rw [List.mem_filter, isScheduled_iff]
  exact ⟨fun ⟨⟨hr, hs⟩, he⟩ => ⟨hr, (entryAfter_code he).symm, hs, he⟩, fun ⟨hr, _, hs, he⟩ => ⟨⟨hr, hs⟩, he⟩⟩

/-- The entry of the code in flight is carried over: OLD for the anchor and where the new cycle has no round due, BOTH where
it has (R55). -/
theorem entryAfter_carried {fl : Option (Code × Kind)} {old : List SchedEntry} {cycle : Word} {r : RoundEntry}
    {x e : SchedEntry} (hf : isInFlight fl r.code = true) (hx : old.find? (fun x => x.code == r.code) = some x) :
    entryAfter fl old cycle r = some e ↔
      (r.kind = .anchor → e = { x with part := .old }) ∧
      (r.kind ≠ .anchor → dueIn r cycle = true → e = { x with part := .both, retries := 0 }) ∧
      (r.kind ≠ .anchor → ¬ dueIn r cycle = true → e = { x with part := .old }) := by
  have hsome : ∀ y : SchedEntry, some y = some e ↔ e = y := fun y => Option.some_inj.trans eq_comm
  unfold entryAfter
  rw [if_pos hf, hx]
  dsimp only
  by_cases hk : r.kind = .anchor
  · rw [if_pos hk, hsome]
    exact ⟨fun h => ⟨fun _ => h, fun hn => absurd hk hn, fun hn => absurd hk hn⟩, fun h => h.1 hk⟩
  · rw [if_neg hk]
    by_cases hd : dueIn r cycle = true
    · rw [if_pos hd, hsome]
      exact ⟨fun h => ⟨fun hn => absurd hn hk, fun _ _ => h, fun _ hn => absurd hd hn⟩, fun h => h.2.1 hk hd⟩
    · rw [if_neg hd, hsome]
      exact ⟨fun h => ⟨fun hn => absurd hn hk, fun _ hn => absurd hn hd, fun _ _ => h⟩, fun h => h.2.2 hk hd⟩

/-- A code in flight with no entry gets one where its round is due, unless it is the anchor's (R55). -/
theorem entryAfter_new {fl : Option (Code × Kind)} {old : List SchedEntry} {cycle : Word} {r : RoundEntry} {e : SchedEntry}
    (hf : isInFlight fl r.code = true) (hx : old.find? (fun x => x.code == r.code) = none) (hc : r.code = e.code) :
    entryAfter fl old cycle r = some e ↔
      r.kind ≠ .anchor ∧ dueIn r cycle = true ∧ e.retries = 0 ∧ e.part = .current := by
  have hfresh : currentEntry r.code = e ↔ e.retries = 0 ∧ e.part = .current := by
    obtain ⟨code, retries, part⟩ := e
    dsimp only at hc
    simp [currentEntry, hc, eq_comm]
  unfold entryAfter
  rw [if_pos hf, hx]
  dsimp only
  split
  · next h => simp [h.1, h.2, hfresh]
  · next h => exact iff_of_false nofun fun h' => h ⟨h'.1, h'.2.1⟩

/-- The ad hoc set after a boundary, by flight and age (R56). -/
theorem adhocAfter_eq (fl : Option (Code × Kind)) (l : List AdhocEntry) :
    adhocAfter fl l = (l.filter fun e => isInFlight fl e.code || decide (e.age < 3)).map
      fun e => if isInFlight fl e.code then e else { e with age := e.age + 1 } := by
  unfold adhocAfter
  refine congrArg (List.map _) (List.filter_congr fun e _ => ?_)
  unfold lapsesByAge
  rw [Bool.not_and, Bool.not_not, ← decide_not]
  exact congrArg _ (decide_eq_decide.2 Nat.not_le)

/-- The judgement of a JOINING station, and the level it leaves on LTXD (R1, R153, R154). -/
theorem State.judgeExpiry_station {s : State} (h : s.control.station = .joining) :
    s.judgeExpiry.control.anchorObserved = false ∧
    s.judgeExpiry.line.ltxd = (if s.judgeExpiry.control.station = .silent then .high else s.line.ltxd) ∧
    s.judgeExpiry.control.station =
      if 2 ≤ s.sched.expiries.toNat ∧ s.control.anchorObserved = false then
        (if s.faultCount < 6 then .active else .silent)
      else .joining := by
  rw [State.judgeExpiry_joining h]
  by_cases he : 2 ≤ s.sched.expiries.toNat ∧ s.control.anchorObserved = false
  · rw [if_pos he, if_pos he]
    by_cases hf : s.faultCount < 6
    · rw [if_pos hf, if_pos hf]
      exact ⟨rfl, rfl, rfl⟩
    · rw [if_neg hf, if_neg hf]
      exact ⟨rfl, rfl, rfl⟩
  · rw [if_neg he, if_neg he]
    have hn : ¬ s.control.station = .silent := by
      rw [h]
      nofun
    exact ⟨rfl, (if_neg hn).symm, h⟩

/-- The judgement sets SILENT_ENTERED where the station enters SILENT, and no other cause (R154). -/
theorem State.judgeExpiry_alerts (s : State) (k : Nat) :
    s.judgeExpiry.control.alerts.getLsbD k = (s.control.alerts.getLsbD k ||
      (k == 5 && s.judgeExpiry.control.station == .silent && s.control.station != .silent)) := by
  by_cases hj : s.control.station = .joining
  · rw [State.judgeExpiry_joining hj]
    split_ifs
    · simp
    · refine (s.setCause_bit .silentEntered k).trans ?_
      simp [hj, Cause.position, show (StationState.joining != .silent) = true from rfl]
    · simp [hj]
  · rw [State.judgeExpiry_other hj]
    simp

/-- A boundary in full, with the rules that latch read off the states before and after it (R54, R140). -/
theorem State.cycleBoundary_tripPosted {s t : State} (ht : t.trip = s.cycleBoundary.trip) :
    let posted := tripPosted s t { s with sched.adhoc := adhocAfter s.round.inFlight s.sched.adhoc }
    (∀ n : Fin 8, t.trip[n] = s.trip[n].takeBoundary s.image.rules[n] (s.sched.cycle + 1)) ∧
    s.cycleBoundary.sched.adhoc = posted.sched.adhoc ∧
    s.cycleBoundary.control.counters.postsLost = posted.control.counters.postsLost ∧
    ∀ k, s.cycleBoundary.control.alerts.getLsbD k = (s.control.alerts.getLsbD k ||
      (k == 0 && (List.finRange 8).any (latchedBetween s t)) ||
      (k == 8 && ((boundaryLapses s).foldl State.deliverLapse s).control.alerts.getLsbD 8) ||
      (k == 9 && posted.control.alerts.getLsbD 9) || (k == 10 && !(boundaryLapses s).isEmpty)) := by
  intro posted
  have htrip : ∀ n : Fin 8, t.trip[n] = s.trip[n].takeBoundary s.image.rules[n] (s.sched.cycle + 1) := by
    obtain ⟨_, _, _, _, _, _, hx⟩ := s.cycleBoundary_changes
    intro n
    rw [ht, hx]
    exact Vector.getElem_ofFn n.isLt
  have hlatched : (fun n : Fin 8 => latches s.trip[n] (s.trip[n].takeBoundary s.image.rules[n] (s.sched.cycle + 1))) =
      latchedBetween s t := funext fun n => by
    rw [← htrip]
    rfl
  have hany : (List.finRange 8).any (latchedBetween s t) = !((List.finRange 8).filter (latchedBetween s t)).isEmpty := by
    rw [Bool.eq_iff_iff]
    simp [List.filter_eq_nil_iff]
  obtain ⟨hadhoc, hlost, _, halerts⟩ := s.cycleBoundary_posts
  simp only [hlatched] at hadhoc hlost halerts
  rw [hany]
  exact ⟨htrip, hadhoc, hlost, halerts⟩

/-- What an expiry changes: of the counters, the lost posts alone, and not the latest table. -/
theorem State.expiry_only {s t : State} (h : s.cycleBoundary.restartTimer.judgeExpiry = t) : t = { s with
    line.ltxd := t.line.ltxd, sched := t.sched, store := { t.store with latest := s.store.latest }, trip := t.trip
    control := { s.control with
      station := t.control.station, anchorObserved := t.control.anchorObserved, alerts := t.control.alerts
      counters.postsLost := t.control.counters.postsLost } } := by
  obtain ⟨_, _, _, _, _, counters, hx⟩ := s.cycleBoundary_changes
  obtain ⟨_, hcounters⟩ := s.cycleBoundary_counters
  rw [hx] at hcounters
  have hcounters' : counters = _ := hcounters
  have honly := s.cycleBoundary.restartTimer.judgeExpiry_only
  rw [h, State.restartTimer, hx, hcounters'] at honly
  rw [honly]

/-- Settles O32: the expiry is a boundary with its timer restarted and a JOINING station judged, and each part is read off. -/
theorem expiryOpensANewCycle : Obligations.ExpiryOpensANewCycle := by
  intro s hs flying cycle due lapse lapses aged
  have hflying : ∀ c, isInFlight s.round.inFlight c = true ↔ flying c := s.round.isInFlight_iff
  have hdue : ∀ r, dueIn r cycle = true ↔ due r := fun r => dueIn_iff r cycle
  have hlapses : boundaryLapses s = lapses := rfl
  have haged : adhocAfter s.round.inFlight s.sched.adhoc = aged := adhocAfter_eq _ _
  refine ⟨hflying, _, congrArg Host.Outcome.next (State.expire_runs hs.1 hs.2), ?_⟩
  obtain ⟨hsched, hstore, htrip, hcounters, _⟩ := s.cycleBoundary.restartTimer.judgeExpiry_keeps
  have halerts := s.cycleBoundary.restartTimer.judgeExpiry_alerts
  have hstation := s.cycleBoundary.restartTimer.judgeExpiry_station
  have hother := s.cycleBoundary.restartTimer.judgeExpiry_other
  generalize ht : s.cycleBoundary.restartTimer.judgeExpiry = t at *
  obtain ⟨hrules, hadhoc, hlost, hcauses⟩ := State.cycleBoundary_tripPosted (s := s) (t := t) htrip
  obtain ⟨_, hscheduled⟩ := s.cycleBoundary_cycle
  obtain ⟨_, _, hring, _⟩ := s.cycleBoundary_posts
  obtain ⟨_, _, _, _, _, _, hx⟩ := s.cycleBoundary_changes
  rw [haged] at hadhoc hlost hcauses
  rw [hlapses] at hcauses hring
  refine ⟨State.expiry_only ht, ?cycle, ?timer, ?expiries, ?done, hrules, fun e he => ?landed, fun e he => ?carried, ?adhoc,
    ?lost, ?store, fun k => ?alerts, fun hj => ?stays, fun hj => ?judged⟩
  case cycle => rw [hsched, State.restartTimer_sched, hx]; rfl
  case timer => rw [hsched]; rfl
  case expiries => rw [hsched, State.restartTimer_sched, hx]; rfl
  case done =>
    rw [hsched, State.restartTimer_sched, hx]
    refine (s.round.anchorInFlight_iff).trans ?_
    exact ⟨fun h => ⟨⟨h.1, rfl⟩, h.2⟩, fun h => ⟨h.1.1, h.2⟩⟩
  case landed =>
    rw [hsched, State.restartTimer_sched, hscheduled, mem_scheduledAfter (Bool.eq_false_iff.2 fun h => he ((hflying _).1 h))]
    refine and_congr_right fun _ => and_congr_right fun _ => exists_congr fun r => and_congr_right fun _ =>
      and_congr_right fun _ => ?_
    exact ⟨fun h => (hdue r).1 h.1, fun h => ⟨(hdue r).2 h, isScheduled_of_dueIn ((hdue r).2 h)⟩⟩
  case carried =>
    rw [hsched, State.restartTimer_sched, hscheduled, mem_scheduledAfter_entry]
    refine exists_congr fun r => and_congr_right fun _ => and_congr_right fun hc => and_congr_right fun _ => ?_
    have hf : isInFlight s.round.inFlight r.code = true := hc ▸ (hflying _).2 he
    rw [← hdue, ← hc]
    split
    · next x hx => exact entryAfter_carried hf hx
    · next hx => exact entryAfter_new hf hx hc
  case adhoc => rw [hsched]; exact hadhoc
  case lost => rw [hcounters]; exact hlost
  case store => rw [hstore]; exact hring
  case alerts =>
    have silentLast : ∀ a trip silent ring post lapse : Bool,
        (a || trip || ring || post || lapse || silent) = (a || trip || silent || ring || post || lapse) := by decide
    rw [halerts, State.restartTimer_control, hcauses, hx]
    exact silentLast ..
  case stays =>
    have := hother (by rw [hx]; exact hj)
    rw [this, hx]
    exact ⟨rfl, rfl, rfl⟩
  case judged =>
    have := hstation (by rw [hx]; exact hj)
    rw [hx] at this
    exact this

end Sys2Proof.Machine
end

section
/-! The slot results and the scan engine's invariant (R76, R77, R82, R83): what a write, a reading, the beginning of a scan and
a completion keep of it, and from that every effect of a step. -/

namespace Sys2Proof.Machine

/-- The Measurement Engine under an image: each slot result is sound, a conversion is of a slot that scans take, and outside
SCANNING there is none. -/
def Measurement.Sound (im : Image) (m : Measurement) : Prop :=
  (∀ n : Fin 16, slotResultWf im.slots[n] m.results[n]) ∧
  (m.scan = .scanning →
    ∃ n : Fin 16, m.position = some n ∧ n.val < im.settings.scanLength ∧ im.slots[n].skip = false) ∧
  (m.scan ≠ .scanning → m.position = none ∧ m.held = none ∧ m.timer = 0)

theorem State.slotsSound_iff (s : State) : s.SlotsSound ↔ s.meas.Sound s.image := by
  unfold State.SlotsSound Measurement.Sound
  refine and_congr_right fun _ => ?_
  cases s.meas.scan <;> simp

/-- The reset values of the Measurement Engine are sound under every image (R93). -/
theorem Measurement.sound_start (im : Image) : ({} : Measurement).Sound im :=
  ⟨fun n => by
    rw [show ({} : Measurement).results[n] = {} from Vector.getElem_replicate _]
    exact slotResultWf_start _, nofun, fun _ => ⟨rfl, rfl, rfl⟩⟩

/-- A sample written is sound whatever stood in the record (R83, R85). -/
theorem SlotResult.write_wf (r : SlotResult) (c : SlotConfig) (raw : Raw) (cycle : Word) (injected : Bool) :
    slotResultWf c (r.write c raw cycle injected) := ⟨nofun, fun _ => ⟨rfl, rfl, rfl⟩⟩

/-- READ_SLOTS clears flags that soundness does not look at, and that are clear in an invalid record (R92, R93). -/
theorem SlotResult.read_wf {c : SlotConfig} {r : SlotResult} (h : slotResultWf c r) : slotResultWf c r.read := by
  obtain ⟨hinvalid, hvalid⟩ := h
  refine ⟨fun hv => ?_, hvalid⟩
  rw [hinvalid hv]
  rfl

/-- The results after a sample written in slot n (R83). -/
theorem Measurement.Sound.written {im : Image} {m : Measurement} (h : m.Sound im) (k : Fin 16) (raw : Raw) (cycle : Word)
    (injected : Bool) (n : Fin 16) :
    slotResultWf im.slots[n] (m.results.set k (m.results[k].write im.slots[k] raw cycle injected))[n] := by
  by_cases hn : n = k
  · subst hn
    rw [show (m.results.set n _ _)[n] = _ from Vector.getElem_set_self _]
    exact SlotResult.write_wf ..
  · rw [show (m.results.set k _ _)[n] = m.results[n] from
      Vector.getElem_set_ne k.isLt n.isLt fun e => hn (Fin.ext e.symm)]
    exact h.1 n

/-- The scan engine at rest (R77). -/
theorem Measurement.sound_rest {im : Image} {m : Measurement} (h : ∀ n : Fin 16, slotResultWf im.slots[n] m.results[n])
    {st : ScanState} (hst : st ≠ .scanning) :
    ({ m with scan := st, position := none, timer := 0, held := none } : Measurement).Sound im :=
  ⟨h, fun hs => absurd hs hst, fun _ => ⟨rfl, rfl, rfl⟩⟩

/-- The conversion of a slot that scans take (R80). -/
theorem Measurement.sound_convert {im : Image} {m : Measurement} (h : ∀ n : Fin 16, slotResultWf im.slots[n] m.results[n])
    {start : Nat} {k : Fin 16} (hk : nextTaken im start = some k) :
    ({ m with scan := .scanning, position := some k, timer := 0, held := none } : Measurement).Sound im := by
  obtain ⟨_, hlength, hskip, _⟩ := nextTaken_eq_some.1 hk
  exact ⟨h, fun _ => ⟨k, rfl, hlength, hskip⟩, fun hs => absurd rfl hs⟩

/-- A scan begun takes a slot that scans take, or none (R80, R81). -/
theorem Measurement.sound_begun {im : Image} {old new : Measurement}
    (h : ∀ n : Fin 16, slotResultWf im.slots[n] old.results[n]) (hb : scanBegun im old new) : new.Sound im := by
  obtain ⟨htaken, hnone⟩ := hb
  cases hk : nextTaken im 0 with
  | some k =>
    rw [htaken k (nextTaken_eq_some.1 hk)]
    exact sound_convert h hk
  | none =>
    rw [hnone (nextTaken_eq_none.1 hk)]
    exact sound_rest h nofun

/-- A resuming scan engine is at rest in IDLE or begins a scan (R90, R94). -/
theorem State.resume_slotsSound {s : State} (h : ∀ n : Fin 16, slotResultWf s.image.slots[n] s.meas.results[n]) :
    s.resume.meas.Sound s.image := by
  by_cases hm : s.image.settings.scanMode = .continuous
  · rw [State.resume_continuous hm]
    exact Measurement.sound_begun h s.beginScan_scanBegun
  · rw [State.resume_rest hm]
    exact Measurement.sound_rest h nofun

/-- The end of a scan: at rest in IDLE, or in the next scan (R81). -/
theorem State.endScan_slotsSound {s : State} (h : ∀ n : Fin 16, slotResultWf s.image.slots[n] s.meas.results[n]) :
    s.endScan.meas.Sound s.image := by
  by_cases hm : s.image.settings.scanMode = .continuous
  · rw [State.endScan_continuous hm]
    exact Measurement.sound_begun (old := s.countScan.meas) h s.countScan.beginScan_scanBegun
  · rw [State.endScan_rest hm]
    exact Measurement.sound_rest (m := s.countScan.meas) h nofun

/-- The end of a conversion writes its sample, and goes on to a slot that scans take or ends the scan (R80, R81). -/
theorem State.completeConversion_slotsSound {s : State} (h : s.meas.Sound s.image) :
    s.completeConversion.meas.Sound s.image := by
  unfold State.completeConversion
  split
  · rename_i n raw _ _ _
    obtain ⟨_, _, _, _, hx⟩ := s.writeSample_changes n raw false
    have himage : (s.writeSample n raw false).image = s.image := by rw [hx]
    have hresults : ∀ k : Fin 16, slotResultWf s.image.slots[k] (s.writeSample n raw false).meas.results[k] := by
      rw [hx]
      exact h.written n raw s.sched.cycle false
    dsimp only
    split
    · next m hm => exact Measurement.sound_convert hresults hm
    · rw [← himage] at hresults ⊢
      exact State.endScan_slotsSound hresults
  · exact h

/-- A recognition leaves the Measurement Engine, or begins a scan in it (R78, R79). -/
theorem State.recognise_meas (s : State) :
    s.recognise.meas = s.meas ∨ scanBegun s.image s.meas s.recognise.meas := by
  cases hfind : findRound s.image s.round.codeRead with
  | none =>
    rw [State.recognise_unknown hfind]
    exact .inl rfl
  | some e =>
    obtain ⟨_, hmeas, _⟩ := (s.noticed e).takeSnapshot_blocks e
    rw [State.recognise_known hfind, hmeas]
    by_cases hk : e.kind = .anchor
    · rw [State.noticed_anchor hk]
      obtain ⟨begins, overruns, rests⟩ := (s.bodyOpened e).anchorNotice_scans
      by_cases hmode : s.image.settings.scanMode = .anchored
      · cases hscan : s.meas.scan with
        | stopped => exact .inl (rests (.inr hscan)).1
        | idle => exact .inr (begins hmode hscan).1
        | scanning => exact .inl (overruns hmode hscan).1
      · exact .inl (rests (.inl hmode)).1
    · rw [State.noticed_other hk]
      exact .inl rfl

/-- A sample leaves the Measurement Engine, or begins a scan in it (R25, R79). -/
theorem SampleEffect.meas_begun {s t : State} {lv : Level} (he : SampleEffect s lv t) :
    t.meas = s.meas ∨ scanBegun s.image s.meas t.meas := by
  cases he with
  | quiet _ _ _ _ _ => exact .inl rfl
  | recognition _ => exact (s.atCode lv).recognise_meas
  | delivery _ =>
    obtain ⟨_, _, _, _, _, _, _, _, hx⟩ :=
      (s.atDelivery lv).deliverRecord_changes (s.round.recordOf lv) s.round.isFault
    rw [hx]
    exact .inl rfl

/-- Every run command keeps the Measurement Engine sound. -/
theorem RunEffect.measSound {s t : State} (he : RunEffect s t) (h : s.meas.Sound s.image) : t.meas.Sound s.image := by
  cases he with
  | slots first count =>
    refine ⟨fun n => ?_, h.2⟩
    rw [show (Vector.ofFn _)[n] = _ from Vector.getElem_ofFn _]
    split
    · exact SlotResult.read_wf (h.1 n)
    · exact h.1 n
  | post c _ =>
    obtain ⟨_, _, _, hx⟩ := s.post_changes .command c
    rw [hx]
    exact h
  | begin _ => exact Measurement.sound_begun h.1 s.beginScan_scanBegun
  | stop => exact Measurement.sound_rest h.1 nofun
  | resume _ => exact State.resume_slotsSound h.1
  | inject n raw _ =>
    obtain ⟨_, _, _, _, hx⟩ := s.writeSample_changes n raw true
    rw [hx]
    exact ⟨h.written n raw s.sched.cycle true, h.2⟩
  | _ => exact h

/-- A port command acts on a sound engine, or the engine is at its reset values, which every image leaves sound (R166, R187). -/
theorem PortEffect.measSound {s t : State} (he : PortEffect s t) (hb : s.BlocksFollowStation) (h : s.meas.Sound s.image) :
    t.meas.Sound t.image := by
  cases he with
  | none => exact h
  | softReset _ => exact Measurement.sound_start _
  | image im _ hc _ =>
    obtain ⟨_, _, _, hmeas, _⟩ := hb.1 (by rw [hc]; rfl)
    show s.meas.Sound im
    rw [hmeas]
    exact Measurement.sound_start im
  | commit _ _ _ => exact h
  | run t _ _ he =>
    obtain ⟨_, _, himage, _⟩ := he.keeps_line
    rw [himage]
    exact he.measSound h

/-- Every effect keeps the Measurement Engine sound. -/
theorem Effect.measSound {s t : State} (he : Effect s t) (hb : s.BlocksFollowStation) (h : s.meas.Sound s.image) :
    t.meas.Sound t.image := by
  cases he with
  | port t p hp _ => exact hp.measSound hb h
  | hardReset => exact Measurement.sound_start _
  | release _ => exact Measurement.sound_start _
  | complete _ _ =>
    obtain ⟨_, _, himage⟩ := s.blocksAtCommit_resume_line
    rw [himage]
    exact State.resume_slotsSound (s := s.blocksAtCommit) (Measurement.sound_start s.image).1
  | sample lv hl =>
    obtain ⟨_, _, _, _, _, _, _, _, _, _, _, _, _, _, _, _, _, _, _, hx⟩ := s.sample_changes lv
    have himage : (s.sample lv).image = s.image := by rw [hx]
    rw [himage]
    rcases (State.sample_sampleEffect hl lv).meas_begun with hm | hbegun
    · rw [hm]
      exact h
    · exact Measurement.sound_begun h.1 hbegun
  | boundary line _ =>
    obtain ⟨_, _, _, _, _, _, _, _, hx⟩ := s.boundary_changes line
    rw [hx]
    exact h
  | expire hs hr =>
    obtain ⟨_, _, _, _, _, _, _, _, _, _, hx⟩ := s.expire_changes
    rw [← State.expire_runs hs hr, hx]
    exact h
  | settle raw timer draws _ hs => exact ⟨h.1, h.2.1, fun hn => absurd hs hn⟩
  | conversion _ _ _ _ _ _ =>
    obtain ⟨_, _, _, _, _, hx⟩ := s.completeConversion_changes
    have himage : s.completeConversion.image = s.image := by rw [hx]
    rw [himage]
    exact State.completeConversion_slotsSound h

/-- A crystal period moves the conversion timer in SCANNING alone (R73). -/
theorem TickEffect.measSound {s t : State} (ht : TickEffect s t) (h : s.meas.Sound s.image) : t.meas.Sound t.image := by
  obtain ⟨_, _, _, _, timer, _, _, _, rfl, _, _, htimer, _⟩ := ht
  refine ⟨h.1, h.2.1, fun hn => ?_⟩
  rcases htimer with rfl | hs
  · exact h.2.2 hn
  · exact absurd hs hn

/-- Settles O57: every effect keeps the Measurement Engine sound, and so does a crystal period. -/
theorem stepKeepsSlotsSound : Obligations.StepKeepsSlotsSound := by
  intro s t hb h hs
  rw [State.slotsSound_iff] at h ⊢
  rcases step_effect hs with ⟨rest, he⟩ | ⟨_, ht⟩
  · exact Effect.measSound (s := { s with pending := rest }) he hb h
  · exact ht.measSound h

end Sys2Proof.Machine
end

section
/-! The scan commands (R88 to R90). -/

namespace Sys2Proof.Machine

/-- A run command whose argument is good acts in JOINING, ACTIVE and SILENT (R186, R187). -/
theorem State.runs.take {α : Type} {s : State} (hs : s.runs) {arg : Option α} {a : α} (ha : arg = some a)
    (act : α → State → State) : s.take .run arg act = act a s := by
  obtain ⟨hheld, hrunning⟩ := hs
  rw [ha, State.take_acts hheld (Gate.refusal_run hrunning)]

theorem State.startScan_idle {s : State} (h : s.meas.scan = .idle) : s.startScan () = s.beginScan.respond .ok := by
  unfold State.startScan
  rw [h]

theorem State.startScan_scanning {s : State} (h : s.meas.scan = .scanning) : s.startScan () = s.respond .busy := by
  unfold State.startScan
  rw [h]

theorem State.startScan_stopped {s : State} (h : s.meas.scan = .stopped) : s.startScan () = s.respond .wrongState := by
  unfold State.startScan
  rw [h]

theorem State.resumeScan_stopped {s : State} (h : s.meas.scan = .stopped) : s.resumeScan () = s.resume.respond .ok := by
  unfold State.resumeScan
  rw [h]

theorem State.resumeScan_other {s : State} (h : s.meas.scan ≠ .stopped) : s.resumeScan () = s.respond .ok := by
  unfold State.resumeScan
  split
  · exact absurd ‹_› h
  · rfl
  · rfl

/-- Settles O21: each command in each state of the scan engine; a scan begins, or the engine comes to rest. -/
theorem scanCommandsMoveTheEngine : Obligations.ScanCommandsMoveTheEngine := by
  intro s hs
  rw [exec_startScan, exec_stopScan, exec_resumeScan, hs.take rfl, hs.take rfl, hs.take rfl]
  refine ⟨fun hi => ?begins, fun hi => by rw [State.startScan_scanning hi]; rfl,
    fun hi => by rw [State.startScan_stopped hi]; rfl, rfl, fun hi => by rw [State.resumeScan_other hi]; rfl,
    fun hi => ?resumes⟩
  case begins =>
    rw [State.startScan_idle hi]
    refine ⟨_, rfl, s.beginScan_scanBegun, ?_⟩
    rw [State.beginScan_only]
    rfl
  case resumes =>
    rw [State.resumeScan_stopped hi]
    refine ⟨_, rfl, ?_, fun hm => ?_, fun hm => ?_⟩
    · rw [State.resume_only]
      rfl
    · rw [State.resume_rest hm]
      rfl
    · rw [State.resume_continuous hm]
      exact s.beginScan_scanBegun

end Sys2Proof.Machine
end

section
/-! A written sample (R83 to R87): the record, the sticky bits, and the hand-offs of a limit event (R61, R85). -/

namespace Sys2Proof.Machine

/-- A crossing event is a RISE or a FALL that the mode selects (R87). -/
theorem isCrossing_iff (mode : CrossingMode) (old new : Side) :
    isCrossing mode old new = true ↔ crossingEvent mode old new := by
  unfold crossingEvent
  cases old <;> cases new <;> cases mode <;> decide

theorem isLimitEvent_iff (old new : LimitState) : isLimitEvent old new = true ↔ new ≠ .within ∧ new ≠ old := by
  unfold isLimitEvent
  rw [Bool.and_eq_true, bne_iff_ne, bne_iff_ne]

/-- The record after a sample (R83 to R87). -/
theorem SlotResult.write_sampleResult (r : SlotResult) (cfg : SlotConfig) (raw : Raw) (cycle : Word) (injected : Bool) :
    sampleResult cfg r (r.write cfg raw cycle injected) raw cycle injected := by
  refine ⟨rfl, rfl, rfl, rfl, rfl, rfl, decide_eq_true_iff, rfl, isLimitEvent_iff _ _, rfl, ?_⟩
  show (r.crossing || isCrossing _ _ _) = true ↔ _
  rw [Bool.or_eq_true, isCrossing_iff]
  rfl

/-- Slot n's record after a sample. -/
def State.recordAfter (s : State) (n : Fin 16) (raw : Raw) (injected : Bool) : SlotResult :=
  s.meas.results[n].write s.image.slots[n] raw s.sched.cycle injected

/-- A sample in its record and in the sticky bits, before the hand-offs of a limit event (R83 to R87). -/
def State.recorded (s : State) (n : Fin 16) (raw : Raw) (injected : Bool) : State :=
  ({ s with meas.results := s.meas.results.set n (s.recordAfter n raw injected) }).setFlags
    (flagIf (s.recordAfter n raw injected).limitEvent 0x0004 |||
      flagIf (isCrossing s.image.slots[n].crossing s.meas.results[n].side (s.recordAfter n raw injected).side) 0x0008 |||
      flagIf (s.recordAfter n raw injected).saturated 0x0080)

theorem State.writeSample_quiet {s : State} {n : Fin 16} {raw : Raw} {injected : Bool}
    (h : (s.recordAfter n raw injected).limitEvent = false) : s.writeSample n raw injected = s.recorded n raw injected :=
  if_neg fun hevent => Bool.false_ne_true (h.symm.trans hevent)

theorem State.writeSample_event {s : State} {n : Fin 16} {raw : Raw} {injected : Bool}
    (h : (s.recordAfter n raw injected).limitEvent = true) :
    s.writeSample n raw injected = ((s.recorded n raw injected).setCause .limit).postIf .slot s.image.slots[n].post :=
  if_pos h

theorem State.recorded_results (s : State) (n : Fin 16) (raw : Raw) (injected : Bool) :
    (s.recorded n raw injected).meas.results[n] = s.recordAfter n raw injected ∧
    ∀ m : Fin 16, m ≠ n → (s.recorded n raw injected).meas.results[m] = s.meas.results[m] :=
  ⟨Vector.getElem_set_self _, fun m hm => Vector.getElem_set_ne n.isLt m.isLt fun e => hm (Fin.ext e.symm)⟩

/-- The sticky bits a sample sets (R102, R103). -/
theorem State.recorded_flag (s : State) (n : Fin 16) (raw : Raw) (injected : Bool) (k : Nat) :
    (s.recorded n raw injected).source.flags.getLsbD k = (s.source.flags.getLsbD k ||
      ((s.recordAfter n raw injected).limitEvent && decide (2 = k)) ||
      (isCrossing s.image.slots[n].crossing s.meas.results[n].side (s.recordAfter n raw injected).side && decide (3 = k)) ||
      ((s.recordAfter n raw injected).saturated && decide (7 = k))) := by
  have bit : ∀ (b : Bool) (i : Nat), i < 16 →
      (flagIf b (BitVec.twoPow 16 i)).getLsbD k = (b && decide (i = k)) := fun b i hi => by
    rw [flagIf, getLsbD_maskIf, BitVec.getLsbD_twoPow, decide_eq_true hi, Bool.true_and]
  show (s.source.flags ||| (flagIf _ (BitVec.twoPow 16 2) ||| flagIf _ (BitVec.twoPow 16 3) |||
    flagIf _ (BitVec.twoPow 16 7))).getLsbD k = _
  rw [BitVec.getLsbD_or, BitVec.getLsbD_or, BitVec.getLsbD_or, bit _ 2 (by decide), bit _ 3 (by decide),
    bit _ 7 (by decide), Bool.or_assoc, Bool.or_assoc, Bool.or_assoc]

/-- Whether a post that may be NONE meets a full set (R61). -/
def postDropped (l : List AdhocEntry) : Option Code → Bool
  | none => false
  | some c => !holdsAdhoc l c && decide (8 ≤ l.length)

theorem State.postIf_some (s : State) (o : Origin) (c : Code) : s.postIf o (some c) = s.post o c := rfl

theorem postDropped_some (l : List AdhocEntry) (c : Code) :
    postDropped l (some c) = (!holdsAdhoc l c && decide (8 ≤ l.length)) := rfl

theorem postDropped_iff (l : List AdhocEntry) (post : Option Code) :
    postDropped l post = true ↔ ∃ c, post = some c ∧ holdsAdhoc l c = false ∧ 8 ≤ l.length := by
  cases post <;> simp [postDropped]

/-- A post changes the ad hoc set, the alerts and the lost-post counter (R61). -/
theorem State.postIf_only (s : State) (o : Origin) (post : Option Code) :
    s.postIf o post = { s with
      sched.adhoc := (s.postIf o post).sched.adhoc
      control.alerts := (s.postIf o post).control.alerts
      control.counters.postsLost := (s.postIf o post).control.counters.postsLost } := by
  cases post with
  | none => rfl
  | some c => exact s.post_only o c

/-- A dropped post sets POST_LOST and is counted, and no other post is (R61). -/
theorem State.postIf_reports (s : State) (o : Origin) (post : Option Code) :
    (∀ k, (s.postIf o post).control.alerts.getLsbD k =
      (s.control.alerts.getLsbD k || (k == 9 && postDropped s.sched.adhoc post))) ∧
    (s.postIf o post).control.counters.postsLost =
      if postDropped s.sched.adhoc post then satInc s.control.counters.postsLost else s.control.counters.postsLost := by
  cases post with
  | none => exact ⟨fun k => by simp [State.postIf, postDropped], rfl⟩
  | some c =>
    rw [State.postIf_some, postDropped_some]
    cases h : holdsAdhoc s.sched.adhoc c with
    | true =>
      rw [State.post_merged h]
      exact ⟨fun k => by simp, rfl⟩
    | false =>
      by_cases hl : s.sched.adhoc.length < 8
      · rw [State.post_added h hl, decide_eq_false (Nat.not_le.2 hl)]
        exact ⟨fun k => by simp, rfl⟩
      · rw [State.post_lost h (Nat.not_lt.1 hl), decide_eq_true (Nat.not_lt.1 hl)]
        refine ⟨fun k => ?_, rfl⟩
        rw [Bool.not_false, Bool.true_and, Bool.and_true]
        exact s.setCause_bit .postLost k

/-- Whether a sample makes a limit event whose post meets a full set (R61, R85). -/
def State.sampleDrops (s : State) (n : Fin 16) (raw : Raw) (injected : Bool) : Bool :=
  (s.recordAfter n raw injected).limitEvent && postDropped s.sched.adhoc s.image.slots[n].post

theorem State.sampleDrops_iff (s : State) (n : Fin 16) (raw : Raw) (injected : Bool) :
    s.sampleDrops n raw injected = true ↔ (s.recordAfter n raw injected).limitEvent = true ∧
      ∃ c, s.image.slots[n].post = some c ∧ holdsAdhoc s.sched.adhoc c = false ∧ 8 ≤ s.sched.adhoc.length := by
  rw [State.sampleDrops, Bool.and_eq_true, postDropped_iff]

/-- What a sample leaves beside its record and its sticky bits: the hand-offs of a limit event (R61, R85). -/
theorem State.writeSample_only (s : State) (n : Fin 16) (raw : Raw) (injected : Bool) :
    s.writeSample n raw injected = { s.recorded n raw injected with
      sched := (s.writeSample n raw injected).sched
      control.alerts := (s.writeSample n raw injected).control.alerts
      control.counters.postsLost := (s.writeSample n raw injected).control.counters.postsLost } := by
  cases he : (s.recordAfter n raw injected).limitEvent with
  | false => rw [State.writeSample_quiet he]
  | true =>
    rw [State.writeSample_event he]
    conv => lhs; rw [State.postIf_only]
    rw [State.postIf_only]
    rfl

/-- The alert causes and the lost-post counter after a sample: LIMIT at a limit event, and POST_LOST, counted, where its post
is dropped (R61, R85). -/
theorem State.writeSample_reports (s : State) (n : Fin 16) (raw : Raw) (injected : Bool) :
    (∀ k, (s.writeSample n raw injected).control.alerts.getLsbD k =
      (s.control.alerts.getLsbD k || (k == 11 && (s.recordAfter n raw injected).limitEvent) ||
        (k == 9 && s.sampleDrops n raw injected))) ∧
    (s.writeSample n raw injected).control.counters.postsLost =
      if s.sampleDrops n raw injected then satInc s.control.counters.postsLost else s.control.counters.postsLost := by
  unfold State.sampleDrops
  cases he : (s.recordAfter n raw injected).limitEvent with
  | false =>
    rw [State.writeSample_quiet he]
    exact ⟨fun k => by simp [State.recorded], rfl⟩
  | true =>
    obtain ⟨halerts, hlost⟩ := ((s.recorded n raw injected).setCause .limit).postIf_reports .slot s.image.slots[n].post
    rw [State.writeSample_event he]
    refine ⟨fun k => ?_, hlost⟩
    rw [halerts, State.setCause_bit, Bool.and_true, Bool.true_and]
    rfl

/-- The post of a limit event at the ad hoc set (R61, R85). -/
theorem State.writeSample_post {s : State} {n : Fin 16} {raw : Raw} {injected : Bool}
    (he : (s.recordAfter n raw injected).limitEvent = true) :
    (s.image.slots[n].post = none → (s.writeSample n raw injected).sched = s.sched) ∧
    ∀ c, s.image.slots[n].post = some c →
      (holdsAdhoc s.sched.adhoc c = true → (s.writeSample n raw injected).sched = s.sched) ∧
      (holdsAdhoc s.sched.adhoc c = false → s.sched.adhoc.length < 8 → (s.writeSample n raw injected).sched =
        { s.sched with adhoc := insertByCode AdhocEntry.code (newAdhoc .slot c) s.sched.adhoc }) ∧
      (holdsAdhoc s.sched.adhoc c = false → 8 ≤ s.sched.adhoc.length →
        (s.writeSample n raw injected).sched = s.sched) := by
  rw [State.writeSample_event he]
  refine ⟨fun hp => by rw [hp]; rfl, fun c hp => ?_⟩
  rw [hp, State.postIf_some]
  refine ⟨fun h => ?_, fun h hl => ?_, fun h hl => ?_⟩
  · rw [State.post_merged (s := (s.recorded n raw injected).setCause .limit) h]
    rfl
  · rw [State.post_added (s := (s.recorded n raw injected).setCause .limit) h hl]
    rfl
  · rw [State.post_lost (s := (s.recorded n raw injected).setCause .limit) h hl]
    rfl

/-- A written sample, whatever else the scan engine and the port do beside it (R61, R83 to R87). -/
theorem State.writeSample_sampleWritten {s t : State} {n : Fin 16} {raw : Raw} {injected : Bool}
    (ht : t = { s.writeSample n raw injected with meas := t.meas, port := t.port })
    (hm : t.meas.results = (s.writeSample n raw injected).meas.results) : sampleWritten s t n raw injected := by
  obtain ⟨hself, hothers⟩ := s.recorded_results n raw injected
  obtain ⟨halerts, hlost⟩ := s.writeSample_reports n raw injected
  have honly := s.writeSample_only n raw injected
  have hflag := s.recorded_flag n raw injected
  have hresults : t.meas.results = (s.recorded n raw injected).meas.results := by rw [hm, honly]
  have hnew : t.meas.results[n] = s.recordAfter n raw injected := by rw [hresults]; exact hself
  have hsource : t.source = (s.recorded n raw injected).source := by rw [ht, honly]
  have hsched : t.sched = (s.writeSample n raw injected).sched := by rw [ht]
  have hcontrol : t.control = (s.writeSample n raw injected).control := by rw [ht]
  unfold sampleWritten
  rw [hnew, hsource, hsched, hcontrol]
  refine ⟨SlotResult.write_sampleResult .., fun m hne => ?others, rfl, ?limit, ?crossing, ?saturated,
    fun k h2 h3 h7 => ?flags, fun he => ?quiet, fun he => ⟨?cause, ?post⟩, ?lost, fun hd => ?counted, fun hd => ?uncounted,
    fun k h9 h11 => ?alerts, ?frame⟩
  case others => rw [hresults]; exact hothers m hne
  case limit => rw [hflag]; simp
  case crossing => rw [hflag, ← isCrossing_iff]; simp
  case saturated => rw [hflag]; simp
  case flags => rw [hflag]; simp [h2.symm, h3.symm, h7.symm]
  case quiet => rw [State.writeSample_quiet he]; exact ⟨rfl, rfl⟩
  case cause => rw [halerts, he]; simp
  case post =>
    obtain ⟨hnone, hsome⟩ := State.writeSample_post he
    cases hp : s.image.slots[n].post with
    | none => exact hnone hp
    | some c =>
      obtain ⟨hmerged, hadded, hfull⟩ := hsome c hp
      refine ⟨hmerged, fun h hl => ?_, hfull⟩
      rw [hadded h hl]
      exact ⟨rfl, fun e => mem_insertByCode _⟩
  case lost => rw [halerts, ← State.sampleDrops_iff]; simp
  case counted => rw [hlost, if_pos (State.sampleDrops_iff .. |>.2 hd)]
  case uncounted => rw [hlost, if_neg fun h => hd (State.sampleDrops_iff .. |>.1 h)]
  case alerts => rw [halerts, beq_false_of_ne h9, beq_false_of_ne h11]; simp
  case frame =>
    refine ht.trans ?_
    conv => lhs; rw [honly]
    rfl

end Sys2Proof.Machine
end

section
/-! INJECT (R91) and the end of a conversion (R80, R81): a sample written, and what the scan engine does beside it. -/

namespace Sys2Proof.Machine

/-- INJECT takes a slot number and a raw code in range (R188). -/
theorem checkInject_inRange (n : Fin 16) (raw : Raw) : checkInject (numByte n.val) (raw.setWidth 16) = some (n, raw) := by
  have hraw : (raw.setWidth 16).toNat = raw.toNat := by
    rw [BitVec.toNat_setWidth]
    exact Nat.mod_eq_of_lt (Nat.lt_trans raw.isLt (by decide))
  unfold checkInject
  rw [indexBelow_number n (by decide)]
  dsimp only
  rw [if_pos (hraw ▸ raw.isLt)]
  congr 2
  exact BitVec.eq_of_toNat_eq (by rw [BitVec.toNat_setWidth, hraw, Nat.mod_eq_of_lt raw.isLt])

theorem State.inject_stopped {s : State} (h : s.meas.scan = .stopped) (n : Fin 16) (raw : Raw) :
    s.inject (n, raw) = (s.writeSample n raw true).respond .ok := by
  unfold State.inject
  rw [h]

theorem State.inject_other {s : State} (h : s.meas.scan ≠ .stopped) (arg : Fin 16 × Raw) :
    s.inject arg = s.respond .wrongState := by
  unfold State.inject
  split
  · exact absurd ‹_› h
  · rfl
  · rfl

/-- A sample leaves the scan engine and the port (R82). -/
theorem State.writeSample_keeps (s : State) (n : Fin 16) (raw : Raw) (injected : Bool) :
    (s.writeSample n raw injected).meas =
      { s.meas with results := s.meas.results.set n (s.recordAfter n raw injected) } ∧
    (s.writeSample n raw injected).port = s.port ∧ (s.writeSample n raw injected).image = s.image := by
  rw [State.writeSample_only]
  exact ⟨rfl, rfl, rfl⟩

/-- Settles O22: in STOPPED the sample is written and answered, and in IDLE and SCANNING the command is refused. -/
theorem injectWritesASample : Obligations.InjectWritesASample := by
  intro s hs n raw
  rw [exec_inject, hs.take (checkInject_inRange n raw)]
  refine ⟨fun hstop => ?_, fun hrun => ?_⟩
  · obtain ⟨hmeas, hport, _⟩ := s.writeSample_keeps n raw true
    rw [State.inject_stopped hstop]
    refine ⟨_, rfl, State.writeSample_sampleWritten rfl rfl, ?_, ?_⟩
    · rw [State.respond_meas, hmeas]
    · rw [State.respond_port, hport]
  · rw [State.inject_other hrun]
    rfl

/-- With no level taken there is no completion (R73; log entry 5). -/
theorem State.completeConversion_none {s : State}
    (h : s.meas.scan ≠ .scanning ∨ s.meas.position = none ∨ s.meas.held = none) : s.completeConversion = s := by
  unfold State.completeConversion
  split
  · rename_i hscan hposition hheld
    rcases h with h | h | h
    · exact absurd hscan h
    · exact nomatch hposition.symm.trans h
    · exact nomatch hheld.symm.trans h
  · rfl

/-- The completion of a conversion whose level has been taken (R80, R81). -/
theorem State.completeConversion_some {s : State} (hscan : s.meas.scan = .scanning) {n : Fin 16}
    (hposition : s.meas.position = some n) {raw : Raw} (hheld : s.meas.held = some raw) :
    (∀ m, nextTaken s.image (n.val + 1) = some m → s.completeConversion = (s.writeSample n raw false).convert m) ∧
    (nextTaken s.image (n.val + 1) = none → s.completeConversion = (s.writeSample n raw false).endScan) := by
  unfold State.completeConversion
  rw [hscan, hposition, hheld]
  dsimp only
  exact ⟨fun m hm => by rw [hm], fun hm => by rw [hm]⟩

/-- The end of a scan moves the scan engine alone (R81). -/
theorem State.endScan_only (s : State) :
    s.endScan = { s with meas := s.endScan.meas } ∧ s.endScan.meas.results = s.meas.results ∧
    s.endScan.port = s.port := by
  obtain ⟨_, _, _, _, _, h⟩ := s.endScan_changes
  rw [h]
  exact ⟨rfl, rfl, rfl⟩

/-- Settles O24: the sample is written, and the engine converts the next slot, or the scan ends. -/
theorem conversionCompleteWritesAndMovesOn : Obligations.ConversionCompleteWritesAndMovesOn := by
  intro s hs
  rw [exec_conversionComplete, if_neg (by rw [hs]; exact Bool.false_ne_true)]
  refine ⟨fun h => by rw [State.completeConversion_none h], fun hscan n hposition raw hheld => ?_⟩
  obtain ⟨hmeas, hport, himage⟩ := s.writeSample_keeps n raw false
  obtain ⟨hnext, hend⟩ := State.completeConversion_some hscan hposition hheld
  cases hk : nextTaken s.image (n.val + 1) with
  | some k =>
    have hnotNone : ¬ noneTaken s.image (n.val + 1) := fun h => by rw [nextTaken_eq_none.2 h] at hk; cases hk
    rw [hnext k hk]
    refine ⟨_, rfl, State.writeSample_sampleWritten rfl rfl, hport, fun m hm => ?_, fun h => absurd h hnotNone,
      fun h => absurd h hnotNone⟩
    cases hk.symm.trans (nextTaken_eq_some.2 hm)
    rw [State.convert_meas, hmeas, ← hscan]
  | none =>
    obtain ⟨honly, hresults, hendPort⟩ := (s.writeSample n raw false).endScan_only
    rw [hend hk]
    refine ⟨_, rfl, State.writeSample_sampleWritten (honly.trans ?_) hresults, hendPort.trans hport,
      fun m hm => absurd (nextTaken_eq_some.2 hm) (by rw [hk]; nofun), fun _ hmode => ?_, fun _ hmode => ?_⟩
    · rw [hendPort]
    · rw [State.endScan_rest (by rw [himage]; exact hmode), State.restScan_meas, State.countScan_meas, hmeas]
    · have hbegun := (s.writeSample n raw false).countScan.beginScan_scanBegun
      rw [State.countScan_meas, State.countScan_image, himage, hmeas] at hbegun
      rw [hresults, State.endScan_continuous (by rw [himage]; exact hmode), hmeas]
      exact hbegun

end Sys2Proof.Machine
end

section
/-! The end of a settle time (R71 to R73): the raw code of a slot with and without a positive reference span. -/

namespace Sys2Proof.Machine

/-- A clamped code is its number where that is a code, and the nearer end of the range elsewhere (R71, R72). -/
theorem clampRaw_toNat (v : Int) : ((clampRaw v).toNat : Int) = max 0 (min 4095 v) := by
  unfold clampRaw
  rw [BitVec.toNat_ofInt]
  omega

/-- The nearest whole number, a half rounding upward (R71, R72). -/
theorem roundHalfUp_eq_iff {num den : Int} (h : 0 < den) (q : Int) :
    roundHalfUp num den = q ↔ 2 * den * q ≤ 2 * num + den ∧ 2 * num + den < 2 * den * (q + 1) := by
  have hpos : 0 < 2 * den := by omega
  unfold roundHalfUp
  rw [mul_comm (2 * den) q, mul_comm (2 * den) (q + 1), ← Int.le_ediv_iff_mul_le hpos, ← Int.ediv_lt_iff_lt_mul hpos]
  omega

/-- A single-ended code: an end of the range at or beyond its reference, and between them the nearest whole code (R71). -/
theorem rawSingle_spec {plus vrefn span : Int} (h : 0 < span) :
    (plus ≤ vrefn → (rawSingle plus vrefn span).toNat = 0) ∧
    (vrefn + span ≤ plus → (rawSingle plus vrefn span).toNat = 4095) ∧
    (vrefn ≤ plus → plus ≤ vrefn + span →
      2 * span * (rawSingle plus vrefn span).toNat ≤ 2 * 4095 * (plus - vrefn) + span ∧
      2 * 4095 * (plus - vrefn) + span < 2 * span * ((rawSingle plus vrefn span).toNat + 1)) := by
  unfold rawSingle
  have hraw := clampRaw_toNat (roundHalfUp ((plus - vrefn) * 4095) span)
  obtain ⟨hlow, hhigh⟩ := (roundHalfUp_eq_iff (num := (plus - vrefn) * 4095) h _).1 rfl
  generalize roundHalfUp ((plus - vrefn) * 4095) span = q at *
  generalize clampRaw q = raw at *
  refine ⟨fun hp => ?_, fun hp => ?_, fun hp hp' => ?_⟩
  · have : q < 1 := by nlinarith
    omega
  · have : 4094 < q := by nlinarith
    omega
  · have h0 : -1 < q := by nlinarith
    have h1 : q < 4096 := by nlinarith
    have : (raw.toNat : Int) = q := by omega
    rw [this]
    exact ⟨by linarith, by linarith⟩

/-- A differential code: the nearest whole code of the difference, from 2048, clamped (R72). -/
theorem rawDifferential_spec {plus minus span q : Int} (h : 0 < span)
    (hlow : 2 * span * q ≤ 2 * 2048 * (plus - minus) + span)
    (hhigh : 2 * 2048 * (plus - minus) + span < 2 * span * (q + 1)) :
    ((rawDifferential plus minus span).toNat : Int) = max 0 (min 4095 (2048 + q)) := by
  have hround : roundHalfUp ((plus - minus) * 2048) span = q :=
    (roundHalfUp_eq_iff h q).2 ⟨by linarith, by linarith⟩
  rw [rawDifferential, clampRaw_toNat, hround]

theorem rawOf_single {cfg : SlotConfig} {a : AnalogLevels} (hm : cfg.minus = none) (h : a.vrefn < a.vrefp) :
    rawOf cfg a = some (rawSingle a.inputs[cfg.plus] a.vrefn (a.vrefp - a.vrefn)) := by
  unfold rawOf
  rw [hm]
  exact if_pos (by omega)

theorem rawOf_differential {cfg : SlotConfig} {a : AnalogLevels} {m : Fin 16} (hm : cfg.minus = some m)
    (h : a.vrefn < a.vrefp) :
    rawOf cfg a = some (rawDifferential a.inputs[cfg.plus] a.inputs[m] (a.vrefp - a.vrefn)) := by
  unfold rawOf
  rw [hm]
  exact if_pos (by omega)

/-- With a positive reference span every slot has a code (R71, R72). -/
theorem rawOf_isSome (cfg : SlotConfig) {a : AnalogLevels} (h : a.vrefn < a.vrefp) : ∃ raw, rawOf cfg a = some raw := by
  cases hm : cfg.minus with
  | none => exact ⟨_, rawOf_single hm h⟩
  | some m => exact ⟨_, rawOf_differential hm h⟩

/-- Without a positive reference span a code that the spec states is taken, and any other is free (log entry 3). -/
theorem rawOf_statedWithoutSpan (cfg : SlotConfig) {a : AnalogLevels} (h : a.vrefp ≤ a.vrefn) (free : Raw) :
    statedWithoutSpan cfg a ((rawOf cfg a).getD free) := by
  have hspan : ¬ 0 < a.vrefp - a.vrefn := by omega
  unfold statedWithoutSpan rawOf
  cases cfg.minus with
  | none =>
    dsimp only
    rw [if_neg hspan]
    unfold rawSingleNoSpan
    refine ⟨fun hp => by rw [if_pos hp]; rfl, fun hp => ?_⟩
    rw [if_neg (by omega), if_pos hp]
    rfl
  | some m =>
    dsimp only
    rw [if_neg hspan]
    unfold rawDifferentialNoSpan
    refine ⟨fun he => by rw [if_pos he]; rfl, fun hv hlt => ?_, fun hv hlt => ?_⟩
    · rw [if_neg (by omega), if_pos (by omega), if_pos hlt]
      rfl
    · rw [if_neg (by omega), if_pos (by omega), if_neg (by omega)]
      rfl

/-- With no conversion waiting for its level there is no such end (log entry 5). -/
theorem State.settle_none {s : State} (a : AnalogLevels)
    (h : s.meas.scan ≠ .scanning ∨ s.meas.position = none ∨ s.meas.held ≠ none) : s.settle a = s := by
  unfold State.settle
  split
  · rename_i hscan hposition hheld
    rcases h with h | h | h
    · exact absurd hscan h
    · rw [h] at hposition
      cases hposition
    · exact absurd hheld h
  · rfl

/-- The converter takes the level of the slot in conversion (R73). -/
theorem State.settle_takes {s : State} (a : AnalogLevels) (hscan : s.meas.scan = .scanning) {n : Fin 16}
    (hposition : s.meas.position = some n) (hheld : s.meas.held = none) :
    s.settle a = { s with
      meas.held := some ((rawOf s.image.slots[n] a).getD (Config.rawWithoutSpan s.clock.draws))
      meas.timer := 2 * 4 ^ s.image.slots[n].settle.val
      clock.draws := s.clock.draws + (if (rawOf s.image.slots[n] a).isNone then 1 else 0) } := by
  unfold State.settle
  rw [hscan, hposition, hheld]
  rfl

/-- Settles O23: the level is taken as the code of R71 or R72, or without a positive span as far as they state one. -/
theorem settleEndTakesTheLevel : Obligations.SettleEndTakesTheLevel := by
  intro s a hs
  rw [exec_settleEnd, if_neg (by rw [hs]; exact Bool.false_ne_true)]
  refine ⟨fun h => by rw [State.settle_none a h], fun hspan hscan n hposition hheld => ?spanned,
    fun hspan hscan n hposition hheld => ?unspanned⟩
  case spanned =>
    obtain ⟨raw, hraw⟩ := rawOf_isSome s.image.slots[n] hspan
    refine ⟨raw, ?_, fun hm => ?_, fun m hm q hlow hhigh => ?_⟩
    · rw [State.settle_takes a hscan hposition hheld, hraw]
      rfl
    · cases hraw.symm.trans (rawOf_single hm hspan)
      obtain ⟨hbelow, habove, hbetween⟩ := rawSingle_spec (plus := a.inputs[s.image.slots[n].plus]) (vrefn := a.vrefn)
        (Int.sub_pos_of_lt hspan)
      rw [add_sub_cancel] at habove hbetween
      exact ⟨hbelow, habove, hbetween⟩
    · cases hraw.symm.trans (rawOf_differential hm hspan)
      exact rawDifferential_spec (Int.sub_pos_of_lt hspan) hlow hhigh
  case unspanned =>
    rw [State.settle_takes a hscan hposition hheld]
    exact ⟨_, _, rfl, rawOf_statedWithoutSpan _ hspan _⟩

end Sys2Proof.Machine
end

section
/-! The tables on the port (section 11.7): records of one width after a head, the entries of a range, and the bytes of a peer,
slot and rule record. -/

namespace Sys2Proof.Machine

section Records

variable {α : Type} {record : α → List Byte} {width : Nat}

/-- Records of one width stand one after another (section 11.7). -/
theorem length_records (hw : ∀ a, (record a).length = width) (l : List α) :
    (l.flatMap record).length = width * l.length := by
  rw [List.length_flatMap, funext hw, List.map_const', List.sum_replicate, smul_eq_mul, mul_comm]

/-- The record at a place. -/
theorem record_at (hw : ∀ a, (record a).length = width) {l : List α} {i : Nat} (hi : i < l.length) :
    ((l.flatMap record).drop (width * i)).take width = record l[i] := by
  induction l generalizing i with
  | nil => exact absurd hi (Nat.not_lt_zero i)
  | cons a l ih =>
    rw [List.flatMap_cons]
    cases i with
    | zero => exact List.take_left' (hw a)
    | succ i =>
      rw [show width * (i + 1) = (record a).length + width * i by rw [hw a]; ring, List.drop_length_add_append]
      exact ih (Nat.lt_of_succ_lt_succ hi)

/-- The record at a place after the head of a response. -/
theorem record_after (hw : ∀ a, (record a).length = width) (head : List Byte) {l : List α} {i : Nat} (hi : i < l.length) :
    ((head ++ l.flatMap record).drop (head.length + width * i)).take width = record l[i] := by
  rw [List.drop_length_add_append]
  exact record_at hw hi

end Records

/-- The entries of a range, in ascending index. -/
theorem filter_range {size first count : Nat} (h : first + count ≤ size) {p : Fin size → Bool}
    (hp : ∀ a, p a = true ↔ first ≤ a.val ∧ a.val < first + count) :
    (List.finRange size).filter p =
      List.ofFn fun i : Fin count => (⟨first + i.val, by omega⟩ : Fin size) := by
  refine List.Pairwise.eq_of_mem_iff ((List.pairwise_lt_finRange size).filter _) ?_ fun a => ?_
  · rw [List.pairwise_ofFn]
    exact fun i j hij => Nat.add_lt_add_left hij first
  · rw [List.mem_filter, hp, List.mem_ofFn]
    constructor
    · rintro ⟨_, hfirst, hlast⟩
      exact ⟨⟨a.val - first, by omega⟩, Fin.ext (by simp; omega)⟩
    · rintro ⟨i, rfl⟩
      exact ⟨List.mem_finRange _, Nat.le_add_right _ _, Nat.add_lt_add_left i.isLt first⟩

/-- A table read answers its head and the records of its range, and nothing more (section 11.7). -/
theorem table_records {size first count width : Nat} (h : first + count ≤ size) {p : Fin size → Bool}
    (hp : ∀ a, p a = true ↔ first ≤ a.val ∧ a.val < first + count) {record : Fin size → List Byte}
    (hw : ∀ a, (record a).length = width) (head : List Byte) :
    (head ++ ((List.finRange size).filter p).flatMap record).length = head.length + width * count ∧
    ∀ a : Fin size, ∀ i < count, a.val = first + i →
      ((head ++ ((List.finRange size).filter p).flatMap record).drop (head.length + width * i)).take width = record a := by
  rw [filter_range h hp]
  refine ⟨by rw [List.length_append, length_records hw, List.length_ofFn], fun a i hi ha => ?_⟩
  rw [record_after hw head (by rw [List.length_ofFn]; exact hi), List.getElem_ofFn]
  exact congrArg record (Fin.ext ha.symm)

/-- A range of R188 passes its check. -/
theorem checkRange_inRange {size : Nat} {first count : Byte} (h1 : 1 ≤ count.toNat) (h8 : count.toNat ≤ 8)
    (h : first.toNat + count.toNat ≤ size) : checkRange size first count = some (first.toNat, count.toNat) :=
  if_pos ⟨by omega, h1, h8, h⟩

theorem inRange_iff (first count : Nat) (n : Fin 16) :
    inRange first count n = true ↔ first ≤ n.val ∧ n.val < first + count := by
  rw [inRange, Bool.and_eq_true, decide_eq_true_iff, decide_eq_true_iff]

/-- Each result after READ_SLOTS: ready and the crossing flag cleared in the range, and the others as they stood (R92). -/
theorem State.readSlots_result (s : State) (first count : Nat) (n : Fin 16) :
    (s.readSlots (first, count)).meas.results[n] =
      if inRange first count n then { s.meas.results[n] with ready := false, crossing := false }
      else s.meas.results[n] :=
  Vector.getElem_ofFn n.isLt

theorem peerBytes_eq (n : Nat) (p : Peer) : peerBytes n p =
    [numByte n,
     numByte ((if p.expected then 128 else 0) +
       match p.state with
       | .unknown => 0
       | .present => 1
       | .missing => 2
       | .lost => 3),
     numByte p.absence] ++ wordBytes p.lastSeen ++ wordBytes p.extremes := by
  unfold peerBytes peerStateNumber
  rfl

theorem slotBytes_eq (n : Nat) (r : SlotResult) : slotBytes n r =
    [numByte n] ++ wordBytes (r.raw.setWidth 16) ++ wordBytes (BitVec.ofInt 16 r.corrected) ++ wordBytes r.cycle ++
      [numByte (4 * (match r.side with
          | .none => 0
          | .pos => 1
          | .neg => 2) +
        match r.limit with
        | .within => 0
        | .below => 1
        | .above => 2),
       numByte ((if r.injected then 32 else 0) + (if r.saturated then 16 else 0) + (if r.crossing then 8 else 0) +
         (if r.limitEvent then 4 else 0) + (if r.ready then 2 else 0) + (if r.valid then 1 else 0))] := by
  unfold slotBytes sideNumber limitNumber
  rfl

/-- The six bytes of a rule record before its trip data (section 11.7). -/
def ruleHead (rule : TripRule) (r : RuleState) : List Byte :=
  [numByte ((if rule.enabled then 128 else 0) + 16 * outputNumber rule.output + ruleStatusNumber r.status),
   rule.watched.setWidth 8, numByte rule.persistence, numByte rule.blind, numByte r.persistence, numByte r.blind]

theorem ruleBytes_eq (rule : TripRule) (r : RuleState) : ruleBytes rule r = ruleHead rule r ++ tripDataBytes r.data := rfl

theorem tripValueBytes_length (v : TripValue) : (tripValueBytes v).length = 4 := by
  cases v <;> rfl

theorem tripDataBytes_length (d : Option TripData) : (tripDataBytes d).length = 7 := by
  cases d with
  | none => rfl
  | some d =>
    show (_ :: _ :: _ :: tripValueBytes d.value).length = 7
    rw [List.length_cons, List.length_cons, List.length_cons, tripValueBytes_length]

theorem ruleBytes_length (rule : TripRule) (r : RuleState) : (ruleBytes rule r).length = 13 := by
  rw [ruleBytes_eq, List.length_append, tripDataBytes_length]
  rfl

/-- A rule that is not TRIPPED has no trip data (R141). -/
theorem ruleStateWf_data {rule : TripRule} {r : RuleState} (h : ruleStateWf rule r) (ht : r.status ≠ .tripped) :
    r.data = none := by
  obtain ⟨_, _, _, _, hstatus⟩ := h
  cases hr : r.status with
  | clear => rw [hr] at hstatus; exact hstatus.2
  | counting => rw [hr] at hstatus; exact hstatus.2.2
  | tripped => exact absurd hr ht

/-- READ_TRIPS at one rule: the record's head, then its trip data (R145, section 11.7). -/
theorem tripsPayload_rule (s : State) (n : Fin 8) :
    ((tripsPayload s).drop (1 + 13 * n.val)).take 6 = ruleHead s.image.rules[n] s.trip[n] ∧
    ((tripsPayload s).drop (7 + 13 * n.val)).take 7 = tripDataBytes s.trip[n].data := by
  have hrecord : ((tripsPayload s).drop (1 + 13 * n.val)).take 13 = ruleBytes s.image.rules[n] s.trip[n] := by
    unfold tripsPayload
    refine (record_after (fun k => ruleBytes_length s.image.rules[k] s.trip[k]) [_]
      (l := List.finRange 8) (i := n.val) (by simp)).trans ?_
    rw [List.getElem_finRange]
    rfl
  rw [ruleBytes_eq] at hrecord
  have hsix : (ruleHead s.image.rules[n] s.trip[n]).length = 6 := rfl
  constructor
  · have := congrArg (List.take 6) hrecord
    rwa [List.take_take, List.take_left' hsix] at this
  · have := congrArg (List.drop 6) hrecord
    rw [List.drop_take, List.drop_drop, List.drop_left' hsix] at this
    rwa [show 7 + 13 * n.val = 1 + 13 * n.val + 6 by omega]

theorem tripsPayload_length (s : State) : (tripsPayload s).length = 105 := by
  unfold tripsPayload
  rw [List.length_append, length_records (fun k => ruleBytes_length s.image.rules[k] s.trip[k]), List.length_finRange]
  rfl

theorem ruleHead_eq (rule : TripRule) (r : RuleState) : ruleHead rule r =
    [numByte ((if rule.enabled then 128 else 0) + (if rule.output = .trip1 then 16 else 0) +
       match r.status with
       | .clear => 0
       | .counting => 1
       | .tripped => 2),
     rule.watched.setWidth 8, numByte rule.persistence, numByte rule.blind, numByte r.persistence, numByte r.blind] := by
  unfold ruleHead ruleStatusNumber
  cases rule.output <;> rfl

theorem tripDataBytes_some (d : TripData) : tripDataBytes (some d) =
    ([match d.reason with
      | .condition => 1
      | .blind => 2] : List Byte) ++ wordBytes d.cycle ++
      match d.value with
      | .none => [0, 0, 0, 0]
      | .extreme v h => wordBytes (BitVec.ofInt 16 v) ++ [h.setWidth 8, 0]
      | .word w => wordBytes w ++ [0, 0]
      | .absent a => setBytes a
      | .digest g => wordBytes g ++ [0, 0] := by
  obtain ⟨reason, cycle, value⟩ := d
  unfold tripDataBytes tripValueBytes
  cases reason <;> rfl

/-- Settles O18: the head of each answer, then its records one after another. -/
theorem tableReadsAnswer : Obligations.TableReadsAnswer := by
  intro s hs
  refine ⟨fun first count h1 h8 h => ?peers, fun first count h1 h8 h => ?slots, ?trips, fun _ => rfl, fun _ => rfl⟩
  case peers =>
    obtain ⟨hlength, hrecords⟩ := table_records h (fun a => decide_eq_true_iff)
      (record := fun a : Fin 32 => peerBytes a.val s.peers.entries[a]) (width := 7) (fun _ => rfl)
      [numByte s.image.settings.missLimit, s.peers.losses]
    rw [exec_readPeers, checkPeers, hs.take (checkRange_inRange h1 h8 h)]
    refine ⟨peersPayload s first.toNat count.toNat, rfl, hlength, rfl, fun a i hi ha => ?_⟩
    exact (hrecords a i hi ha).trans (peerBytes_eq ..)
  case slots =>
    obtain ⟨hlength, hrecords⟩ := table_records h (inRange_iff first.toNat count.toNat)
      (record := fun n : Fin 16 => slotBytes n.val s.meas.results[n]) (width := 9) (fun _ => rfl)
      ([numByte (scanStateNumber s.meas.scan), positionByte s.meas.position] ++ wordBytes s.meas.counter)
    rw [exec_readSlots, checkSlots, hs.take (checkRange_inRange h1 h8 h)]
    refine ⟨_, slotsPayload s first.toNat count.toNat, rfl, rfl, hlength, ?head, fun n => ⟨fun i hi hn => ⟨?bytes, ?cleared⟩,
      fun hn => ?kept⟩⟩
    case head =>
      unfold slotsPayload scanStateNumber positionByte
      cases s.meas.scan <;> rfl
    case bytes => exact (hrecords n i hi hn).trans (slotBytes_eq ..)
    case cleared => rw [State.readSlots_result, if_pos ((inRange_iff ..).2 (by omega))]
    case kept => rw [State.readSlots_result, if_neg fun hin => by have := (inRange_iff ..).1 hin; omega]
  case trips =>
    rw [exec_readTrips, hs.take rfl]
    refine ⟨tripsPayload s, rfl, tripsPayload_length s, rfl, fun n => ?_⟩
    obtain ⟨hhead, hdata⟩ := tripsPayload_rule s n
    dsimp only
    rw [hhead, hdata]
    refine ⟨ruleHead_eq .., fun hnone => by rw [hnone]; rfl, fun hsound ht => ?_, fun d hd => ?_⟩
    · rw [ruleStateWf_data (hsound n) ht]
      rfl
    · rw [hd]
      exact tripDataBytes_some d

end Sys2Proof.Machine
end

section
/-! The Source Unit (chapter 5): which bits of the flag word its commands write (R102 to R104), and the value of each source at a
snapshot (R97 to R101). -/

namespace Sys2Proof.Machine

/-- At a held position the flag word shows the flag memory alone (R102). -/
theorem State.flagWordFor_held (s : State) (ref : Word) {k : Nat} (h : heldFlags.getLsbD k = true) :
    (s.flagWordFor ref).getLsbD k = s.source.flags.getLsbD k := by
  rw [s.flagWordFor_bit, h, s.liveFlags_held ref ⟨k, BitVec.lt_of_getLsbD h⟩ h, Bool.and_true, Bool.or_false]

/-- At every other position the flag word shows the live bits alone (R102). -/
theorem State.flagWordFor_live (s : State) (ref : Word) {k : Nat} (h : heldFlags.getLsbD k = false) :
    (s.flagWordFor ref).getLsbD k = (s.liveFlags ref).getLsbD k := by
  rw [s.flagWordFor_bit, h, Bool.and_false, Bool.false_or]

/-- What a command writes to the flag memory shows at the held positions; the live bits stay. -/
theorem State.flagWord_flagsWritten (s : State) (f : Word) (r : Response) (k : Nat) :
    ({ s with source.flags := f, port.slot := r } : State).flagWord.getLsbD k =
      if heldFlags.getLsbD k = true then f.getLsbD k else s.flagWord.getLsbD k := by
  unfold State.flagWord
  split
  case isTrue h => exact State.flagWordFor_held _ _ h
  case isFalse h =>
    have hlive := eq_false_of_ne_true h
    rw [State.flagWordFor_live _ _ hlive, State.flagWordFor_live _ _ hlive]
    rfl

/-- The user bits of the flag word are all held (R102). -/
theorem heldFlags_user {k : Nat} (hk : k < 16) (h8 : 8 ≤ k) : heldFlags.getLsbD k = true :=
  (by decide : ∀ k < 16, 8 ≤ k → heldFlags.getLsbD k = true) k hk h8

/-- The sticky bits stand at positions 2, 3, 6 and 7 (R102). -/
theorem stickyFlags_bit {k : Nat} (hk : k < 16) :
    stickyFlags.getLsbD k = (k == 2 || k == 3 || k == 6 || k == 7) :=
  (by decide : ∀ k < 16, stickyFlags.getLsbD k = (k == 2 || k == 3 || k == 6 || k == 7)) k hk

/-- A sticky bit is a held one (R102). -/
theorem heldFlags_sticky {k : Nat} (h : stickyFlags.getLsbD k = true) : heldFlags.getLsbD k = true :=
  (by decide : ∀ k < 16, stickyFlags.getLsbD k = true → heldFlags.getLsbD k = true) k (BitVec.lt_of_getLsbD h) h

/-- The flag memory after SET_USER_FLAGS: the low byte kept, the high byte replaced (R104). -/
theorem userFlagsWritten_bit (w : Word) (f : Byte) {k : Nat} (hk : k < 16) :
    ((w &&& 0x00FF#16) ||| (f.setWidth 16 <<< 8)).getLsbD k =
      if k < 8 then w.getLsbD k else f.getLsbD (k - 8) := by
  have hlow : (0x00FF#16).getLsbD k = decide (k < 8) :=
    (by decide : ∀ k < 16, (0x00FF#16).getLsbD k = decide (k < 8)) k hk
  rw [BitVec.getLsbD_or, BitVec.getLsbD_and, hlow, BitVec.getLsbD_shiftLeft, BitVec.getLsbD_setWidth]
  by_cases h : k < 8
  · simp [h]
  · have : k - 8 < 16 := by omega
    simp [h, hk, this]

/-- SET_USER_FLAGS gives the flag word its high byte (R104). -/
theorem State.setUserFlags_flagWord (s : State) (f : Byte) {k : Nat} (hk : k < 16) :
    (s.setUserFlags f).flagWord.getLsbD k = if k < 8 then s.flagWord.getLsbD k else f.getLsbD (k - 8) := by
  refine (s.flagWord_flagsWritten _ _ k).trans ?_
  rw [userFlagsWritten_bit _ _ hk]
  by_cases h8 : k < 8
  · rw [if_pos h8, if_pos h8, ite_eq_right_iff]
    exact fun hheld => (s.flagWordFor_held _ hheld).symm
  · rw [if_neg h8, if_neg h8, if_pos (heldFlags_user hk (Nat.le_of_not_lt h8))]

/-- CLEAR_FLAGS clears the sticky bits of its mask in the flag word (R103). -/
theorem State.clearFlags_flagWord (s : State) (m : Word) {k : Nat} (hk : k < 16) :
    (s.clearFlags m).flagWord.getLsbD k = (s.flagWord.getLsbD k && !(m.getLsbD k && stickyFlags.getLsbD k)) := by
  refine (s.flagWord_flagsWritten _ _ k).trans ?_
  split
  case isTrue hheld =>
    rw [BitVec.getLsbD_and, BitVec.getLsbD_not, BitVec.getLsbD_and, decide_eq_true hk, Bool.true_and]
    exact congrArg (· && _) (s.flagWordFor_held _ hheld).symm
  case isFalse hlive =>
    rw [eq_false_of_ne_true (mt heldFlags_sticky hlive), Bool.and_false, Bool.not_false, Bool.and_true]

/-- Settles O25: each command acts at once, and the flag word follows from what it writes to the flag memory. -/
theorem sourceCommandsWriteTheirPart : Obligations.SourceCommandsWriteTheirPart := by
  intro s hs
  refine ⟨fun v => ?value, fun f => ?userFlags, fun m => ?clear⟩
  case value =>
    rw [exec_setUserValue, hs.take rfl]
    rfl
  case userFlags =>
    rw [exec_setUserFlags, hs.take rfl]
    exact ⟨_, rfl, rfl, fun k hk => s.setUserFlags_flagWord f hk⟩
  case clear =>
    rw [exec_clearFlags, hs.take rfl]
    refine ⟨_, rfl, rfl, fun k hk => ?_⟩
    rw [s.clearFlags_flagWord m hk, stickyFlags_bit hk]

theorem State.sourceValue_slot (s : State) (ref : Word) (n : Fin 16) :
    s.sourceValue ref (.slot n) =
      if resultFresh ref s.meas.results[n] = true then some (.number s.meas.results[n].corrected) else none := rfl

theorem State.sourceValue_groupMax (s : State) (ref : Word) (g : Fin 4) :
    s.sourceValue ref (.groupMax g) = (largest (s.groupValues ref g)).map .number := rfl

theorem State.sourceValue_groupMin (s : State) (ref : Word) (g : Fin 4) :
    s.sourceValue ref (.groupMin g) = (smallest (s.groupValues ref g)).map .number := rfl

theorem State.sourceValue_flags (s : State) (ref : Word) :
    s.sourceValue ref .flags = some (.word (s.flagWordFor ref)) := rfl

theorem State.sourceValue_userValue_none {s : State} (h : s.source.userValue = none) (ref : Word) :
    s.sourceValue ref .userValue = none := by
  unfold State.sourceValue
  rw [h]

theorem State.sourceValue_userValue_some {s : State} {u : UserValue} (h : s.source.userValue = some u) (ref : Word) :
    s.sourceValue ref .userValue = if u.cycle = ref ∨ u.cycle = ref - 1 then some (.number u.value) else none := by
  unfold State.sourceValue
  simp only [h, freshFor_iff]

/-- A slot that gives its group a value: it is in the group, and its result is fresh (R99). -/
def State.groupMember (s : State) (ref : Word) (g : Fin 4) (n : Fin 16) : Prop :=
  s.image.slots[n].group = some g ∧ resultFresh ref s.meas.results[n] = true

theorem State.groupValues_eq_nil {s : State} {ref : Word} {g : Fin 4} (h : ∀ n, ¬ s.groupMember ref g n) :
    s.groupValues ref g = [] := by
  refine List.eq_nil_iff_forall_not_mem.2 fun v hv => ?_
  obtain ⟨n, hn, -⟩ := (s.mem_groupValues ref g v).1 hv
  exact h n hn

/-- An extreme of a group with a fresh slot is the value of a fresh slot, and bounds the values of all of them (R99). -/
theorem State.groupValues_extreme {s : State} {ref : Word} {g : Fin 4} (h : ∃ n, s.groupMember ref g n)
    {pick : List Int → Option Int} {bounds : Int → Int → Prop}
    (hpick : ∀ {l : List Int}, l ≠ [] → ∃ v ∈ l, pick l = some v ∧ ∀ x ∈ l, bounds v x) :
    ∃ n, s.groupMember ref g n ∧ pick (s.groupValues ref g) = some s.meas.results[n].corrected ∧
      ∀ m, s.groupMember ref g m → bounds s.meas.results[n].corrected s.meas.results[m].corrected := by
  have hmem : ∀ m, s.groupMember ref g m → s.meas.results[m].corrected ∈ s.groupValues ref g :=
    fun m hm => (s.mem_groupValues ref g _).2 ⟨m, hm, rfl⟩
  obtain ⟨n₀, hn₀⟩ := h
  obtain ⟨v, hv, hpicked, hbound⟩ := hpick (List.ne_nil_of_mem (hmem n₀ hn₀))
  obtain ⟨n, hn, rfl⟩ := (s.mem_groupValues ref g v).1 hv
  exact ⟨n, hn, hpicked, fun m hm => hbound _ (hmem m hm)⟩

theorem State.groupMax_spec {s : State} {ref : Word} {g : Fin 4} (h : ∃ n, s.groupMember ref g n) :
    ∃ n, s.groupMember ref g n ∧ s.sourceValue ref (.groupMax g) = some (.number s.meas.results[n].corrected) ∧
      ∀ m, s.groupMember ref g m → s.meas.results[m].corrected ≤ s.meas.results[n].corrected := by
  obtain ⟨n, hn, hpicked, hbound⟩ := State.groupValues_extreme h (bounds := (· ≥ ·)) largest_spec
  exact ⟨n, hn, by rw [s.sourceValue_groupMax, hpicked, Option.map_some], hbound⟩

theorem State.groupMin_spec {s : State} {ref : Word} {g : Fin 4} (h : ∃ n, s.groupMember ref g n) :
    ∃ n, s.groupMember ref g n ∧ s.sourceValue ref (.groupMin g) = some (.number s.meas.results[n].corrected) ∧
      ∀ m, s.groupMember ref g m → s.meas.results[n].corrected ≤ s.meas.results[m].corrected := by
  obtain ⟨n, hn, hpicked, hbound⟩ := State.groupValues_extreme h (bounds := (· ≤ ·)) smallest_spec
  exact ⟨n, hn, by rw [s.sourceValue_groupMin, hpicked, Option.map_some], hbound⟩

/-- The live bits of the flag word by position (R102). -/
theorem State.flagWordFor_liveBits (s : State) (ref : Word) :
    (s.flagWordFor ref).getLsbD 0 = s.someFresh ref .above ∧ (s.flagWordFor ref).getLsbD 1 = s.someFresh ref .below ∧
    (s.flagWordFor ref).getLsbD 4 = s.tripOutput .trip0 ∧ (s.flagWordFor ref).getLsbD 5 = s.tripOutput .trip1 := by
  refine ⟨?_, ?_, ?_, ?_⟩ <;>
    · rw [s.flagWordFor_live ref (by decide), s.liveFlags_bit]
      simp

/-- Every position without a live bit is a held one (R102). -/
theorem heldFlags_of_not_live {k : Nat} (hk : k < 16) (h0 : k ≠ 0) (h1 : k ≠ 1) (h4 : k ≠ 4) (h5 : k ≠ 5) :
    heldFlags.getLsbD k = true :=
  (by decide : ∀ k < 16, k ≠ 0 → k ≠ 1 → k ≠ 4 → k ≠ 5 → heldFlags.getLsbD k = true) k hk h0 h1 h4 h5

/-- Settles O26: source by source, with freshness as the model judges it (`resultFresh_iff`). -/
theorem sourcesGiveFreshValues : Obligations.SourcesGiveFreshValues := by
  intro s k
  simp only [← resultFresh_iff]
  refine ⟨fun n => ⟨fun h => ?fresh, fun h => ?stale⟩, fun g hnone => ⟨?noMax, ?noMin⟩,
    fun g hsome => ⟨State.groupMax_spec hsome, State.groupMin_spec hsome⟩,
    fun h => State.sourceValue_userValue_none h k, fun u h => State.sourceValue_userValue_some h k,
    s.flagWordFor k, s.sourceValue_flags k, ?flags⟩
  case fresh => rw [s.sourceValue_slot, if_pos h]
  case stale => rw [s.sourceValue_slot, if_neg h]
  case noMax => rw [s.sourceValue_groupMax, State.groupValues_eq_nil hnone]; rfl
  case noMin => rw [s.sourceValue_groupMin, State.groupValues_eq_nil hnone]; rfl
  case flags =>
    obtain ⟨habove, hbelow, htrip0, htrip1⟩ := s.flagWordFor_liveBits k
    refine ⟨?_, ?_, htrip0, htrip1, fun i hi h0 h1 h4 h5 => s.flagWordFor_held k (heldFlags_of_not_live hi h0 h1 h4 h5)⟩
    · rw [habove, s.someFresh_iff]
    · rw [hbelow, s.someFresh_iff]

end Sys2Proof.Machine
end

section
/-! The Result Store on the port and at a record (chapter 6): READ_RESULTS and READ_LATEST with the layouts of R191, and a record
offered to the ring. -/

namespace Sys2Proof.Machine

/-- The count of READ_RESULTS passes its check from 1 to 8 (R188). -/
theorem checkResults_inRange {n : Byte} (h1 : 1 ≤ n.toNat) (h8 : n.toNat ≤ 8) : checkResults n = some n.toNat :=
  if_pos ⟨h1, h8⟩

/-- The head of READ_RESULTS in numbers: how many records are returned, and how many are left (R118). -/
theorem resultsPayload_eq (s : State) (n : Nat) : resultsPayload s n =
    [numByte (min n s.store.ring.length), numByte (s.store.ring.length - n), s.store.lost] ++
      (s.store.ring.take n).flatMap ringRecordBytes := by
  rw [resultsPayload, List.length_take, List.length_drop]

/-- The tail of a record, content by content (R191). -/
theorem contentBytes_eq (c : Content) : contentBytes c = match c with
    | .none => []
    | .extreme v h self dup => intBytes v ++ [numByte ((if dup then 64 else 0) + (if self then 32 else 0) + h.toNat)]
    | .count w => wordBytes w
    | .word w => wordBytes w
    | .set a => setBytes a
    | .digest d differs => wordBytes d ++ [if differs then 1 else 0]
    | .reason q => [match q with | .cycleEnd => 0 | .retries => 1 | .age => 2] := by
  cases c with
  | reason q => cases q <;> rfl
  | _ => rfl

/-- Settles O15: the ring is cut at n, and each record on the port is its head of six bytes and its content. -/
theorem readResultsRemovesTheOldest : Obligations.ReadResultsRemovesTheOldest := by
  refine ⟨rfl, rfl, fun s hs n h1 h8 => ⟨?_, fun r => ⟨rfl, ?_⟩⟩⟩
  · rw [exec_readResults, hs.take (checkResults_inRange h1 h8), State.readResults, resultsPayload_eq]
    rfl
  · exact contentBytes_eq r.record.content

/-- A ring with room takes the record as its newest (R113). -/
theorem State.offerRing_room {s : State} (h : s.store.ring.length < 32) (r : Record) :
    s.offerRing r = { s with
      store.seq := s.store.seq + 1
      store.ring := s.store.ring ++ [{ seq := s.store.seq + 1, record := r }] } := if_pos h

/-- A full ring under KEEP_OLDEST drops the record (R114). -/
theorem State.offerRing_keepOldest {s : State} (h : s.store.ring.length = 32) (hp : s.image.settings.ringPolicy = .keepOldest)
    (r : Record) : s.offerRing r = { s.countLoss with store.seq := s.store.seq + 1 } := by
  refine (if_neg (Nat.not_lt.2 h.ge)).trans ?_
  rw [hp]

/-- A full ring under KEEP_NEWEST drops its oldest record (R115). -/
theorem State.offerRing_keepNewest {s : State} (h : s.store.ring.length = 32) (hp : s.image.settings.ringPolicy = .keepNewest)
    (r : Record) : s.offerRing r = { s.countLoss with
      store.seq := s.store.seq + 1
      store.ring := s.store.ring.drop 1 ++ [{ seq := s.store.seq + 1, record := r }] } := by
  refine (if_neg (Nat.not_lt.2 h.ge)).trans ?_
  rw [hp]

/-- RING_LEVEL follows the fill of a running station (R117). -/
theorem State.ringLevel_iff {s : State} (h : s.control.station.running = true) :
    s.ringLevel = true ↔ s.image.settings.ringThreshold ≤ s.store.ring.length := by
  rw [State.ringLevel, h, Bool.true_and, decide_eq_true_iff]

/-- Settles O16: the offer by the ring's fill and its policy. -/
theorem ringTakesOffers : Obligations.RingTakesOffers := by
  refine fun s r => ⟨fun hroom => ⟨State.offerRing_room hroom r, fun hrunning hlevel => ?level⟩, fun hfull hp => ?oldest,
    fun hfull hp => ?newest⟩
  case level =>
    rw [State.ringLevel_iff, State.offerRing_room hroom r, List.length_append]
    · exact hlevel.ge
    · rw [State.offerRing_room hroom r]
      exact hrunning
  case oldest =>
    rw [State.offerRing_keepOldest hfull hp]
    rfl
  case newest =>
    rw [State.offerRing_keepNewest hfull hp, List.drop_one]
    rfl

/-- READ_LATEST finds the entry of a code's byte (R188). -/
theorem State.checkLatest_code (s : State) (c : Code) : s.checkLatest (c.setWidth 8) = s.latestOf c := by
  rw [State.checkLatest, codeByte_code, Option.bind_some]

/-- READ_LATEST finds no entry for a byte that no entry's code spells (R188). -/
theorem State.checkLatest_none {s : State} {b : Byte} (h : ∀ e ∈ s.store.latest, e.code.setWidth 8 ≠ b) :
    s.checkLatest b = none := by
  refine Option.bind_eq_none_iff.2 fun c hc => List.find?_eq_none.2 fun e he hcode => h e he ?_
  rw [eq_of_beq hcode]
  exact codeByte_some hc

/-- Settles O17: the entry found by its code, or none; and the table after a record, entry by entry. -/
theorem latestTableFollowsOutcomes : Obligations.LatestTableFollowsOutcomes := by
  refine fun s => ⟨fun hs e he => ?found, fun hs c hc => ?missing, fun r => ?stored⟩
  case found =>
    rw [exec_readLatest, hs.take ((s.checkLatest_code e.code).trans he)]
    rfl
  case missing =>
    rw [exec_readLatest, State.checkLatest_none hc, State.take_bad hs.1 (Gate.refusal_run hs.2)]
    rfl
  case stored =>
    obtain ⟨_, _, _, _, h⟩ := s.storeOutcome_changes r
    rw [h]
    exact latestAfter_eq_map s.store.latest r

end Sys2Proof.Machine
end

section
/-! Station Control on the port (chapter 9): the settings the blocks hold, the alert causes with ALERTN, and the status record. -/

namespace Sys2Proof.Machine

/-- A running station holds the committed settings (R121). -/
theorem State.settings_running {s : State} (h : s.control.station.running = true) : s.settings = s.image.settings := by
  rw [State.settings, if_pos h]

/-- Any other station holds those of the last reset, its address apart (R164; log entry 10). -/
theorem State.settings_idle {s : State} (h : s.control.station.running = false) :
    s.settings = { s.kept with address := 0 } := by
  rw [State.settings, if_neg (Bool.eq_false_iff.1 h)]

/-- Each alert cause: RING_LEVEL at position 7 is live, and the others are the sticky ones (R117, R160). -/
theorem State.alertCauses_bit (s : State) {k : Nat} (hk : k < 12) :
    s.alertCauses.getLsbD k = if k = 7 then s.ringLevel else s.control.alerts.getLsbD k := by
  have hmask : ringLevelMask.getLsbD k = decide (k = 7) :=
    (by decide : ∀ k < 12, ringLevelMask.getLsbD k = decide (k = 7)) k hk
  have hlive : (if s.ringLevel then ringLevelMask else 0).getLsbD k = (s.ringLevel && decide (k = 7)) := by
    rw [← hmask]
    cases s.ringLevel <;> simp
  rw [State.alertCauses, BitVec.getLsbD_or, BitVec.getLsbD_and, BitVec.getLsbD_not, hmask, hlive]
  by_cases h : k = 7 <;> simp [h, hk]

/-- Two words meet in a position exactly where their conjunction is not zero. -/
theorem word_and_ne_zero_iff {w : Nat} (x y : BitVec w) :
    x &&& y ≠ 0 ↔ ∃ k < w, x.getLsbD k = true ∧ y.getLsbD k = true := by
  rw [Ne, BitVec.eq_of_getLsbD_eq_iff]
  simp

/-- ALERTN is LOW exactly while a cause that is set is enabled (R161). -/
theorem State.alertn_low_iff (s : State) : s.alertn = .low ↔
    ∃ k < 12, s.alertCauses.getLsbD k = true ∧ s.settings.alertMask.getLsbD k = true := by
  rw [← word_and_ne_zero_iff, State.alertn]
  split
  case isTrue h => exact ⟨nofun, fun hne => absurd h hne⟩
  case isFalse h => exact ⟨fun _ => h, fun _ => rfl⟩

/-- CLEAR_ALERTS at each cause: the sticky ones of the mask are cleared, and RING_LEVEL has no memory to clear (R162). -/
theorem State.clearAlerts_bit (s : State) (m : BitVec 12) {k : Nat} (hk : k < 12) :
    (s.clearAlerts m).alertCauses.getLsbD k = (s.alertCauses.getLsbD k && (k == 7 || !m.getLsbD k)) := by
  have hlevel : (s.clearAlerts m).ringLevel = s.ringLevel := rfl
  have halerts : (s.clearAlerts m).control.alerts.getLsbD k = (s.control.alerts.getLsbD k && !m.getLsbD k) := by
    show (s.control.alerts &&& ~~~m).getLsbD k = _
    rw [BitVec.getLsbD_and, BitVec.getLsbD_not, decide_eq_true hk, Bool.true_and]
  rw [State.alertCauses_bit _ hk, State.alertCauses_bit _ hk, hlevel, halerts]
  by_cases h : k = 7
  · rw [if_pos h, if_pos h, beq_iff_eq.2 h, Bool.true_or, Bool.and_true]
  · rw [if_neg h, if_neg h, beq_eq_false_iff_ne.2 h, Bool.false_or]

/-- Settles O31: the causes bit by bit, and ALERTN by the settings a running station holds. -/
theorem clearAlertsAndAlertn : Obligations.ClearAlertsAndAlertn := by
  refine fun s => ⟨fun hs m => ?_, fun hrunning => ⟨?_, ?_⟩⟩
  · rw [exec_clearAlerts, hs.take (causeMask_mask m)]
    exact ⟨_, rfl, rfl, fun k hk => s.clearAlerts_bit m hk⟩
  · rw [s.alertCauses_bit (by decide), if_pos rfl, State.ringLevel_iff hrunning]
  · rw [s.alertn_low_iff, State.settings_running hrunning]

/-- The pending sets of the status record take two bytes for each entry, and one for each set's length (section 11.8). -/
theorem pendingBytes_length (q : Scheduler) :
    (pendingBytes q).length = 2 + 2 * (q.scheduled.length + q.adhoc.length) := by
  have hscheduled := length_records (record := schedEntryBytes) (width := 2) (fun _ => rfl) q.scheduled
  have hadhoc := length_records (record := adhocEntryBytes) (width := 2) (fun _ => rfl) q.adhoc
  simp only [pendingBytes, List.length_append, List.length_singleton, hscheduled, hadhoc]
  omega

/-- The status record holds 40 bytes before the pending sets (section 11.8). -/
theorem statusPayload_length (s : State) :
    (statusPayload s).length = 42 + 2 * (s.sched.scheduled.length + s.sched.adhoc.length) := by
  have hfixed : (controlBytes s ++ counterBytes s.control.counters ++ runBytes s ++ storeBytes s).length = 40 := rfl
  rw [statusPayload, List.length_append, hfixed, pendingBytes_length]
  omega

/-- The enable mask in the status record is that of the settings held (R164, section 11.8). -/
theorem statusPayload_mask (s : State) :
    ((statusPayload s).drop 11).take 2 = wordBytes (s.settings.alertMask.setWidth 16) := rfl

/-- The user value in the status record, with its write cycle and its status (section 11.8). -/
theorem statusPayload_user (s : State) : ((statusPayload s).drop 28).take 5 =
    intBytes ((s.source.userValue.map UserValue.value).getD 0) ++
      wordBytes ((s.source.userValue.map UserValue.cycle).getD 0) ++ [numByte s.userStatus] := rfl

/-- Ring policy, ring threshold and address in the status record are those of the settings held (R164, section 11.8). -/
theorem statusPayload_settings (s : State) : ((statusPayload s).drop 37).take 3 =
    [numByte (policyNumber s.settings.ringPolicy), numByte s.settings.ringThreshold, s.settings.address.setWidth 8] := rfl

/-- The user status of a value that is written: 2 where it is fresh, and 1 where it is not (R97, section 11.8). -/
theorem State.userStatus_byte {s : State} {u : UserValue} (h : s.source.userValue = some u) :
    numByte s.userStatus = if u.cycle = s.sched.cycle ∨ u.cycle = s.sched.cycle - 1 then 2 else 1 := by
  simp only [State.userStatus, h, freshFor_iff]
  split <;> rfl

/-- Settles O5: the record field by field. The fields before the pending sets have fixed widths, so a field that shows a stored
value stands at its offset by evaluation; the others go through the settings held and the user value. -/
theorem nopAndStatusAnswer : Obligations.NopAndStatusAnswer := by
  intro s hs
  rw [exec_nop, exec_readStatus, State.take_acts hs rfl, State.take_acts hs rfl]
  refine ⟨rfl, statusPayload s, rfl, statusPayload_length s, rfl, rfl, rfl, fun hrunning => ?maskRunning, fun hidle => ?maskIdle,
    rfl, rfl, rfl, fun hnone => ?neverWritten, fun u hu => ?written, rfl, fun hrunning => ?storeRunning,
    fun hidle => ?storeIdle, rfl, rfl, rfl, rfl, rfl, rfl, rfl⟩
  case maskRunning => rw [statusPayload_mask, State.settings_running hrunning]
  case maskIdle => rw [statusPayload_mask, State.settings_idle hidle]
  case neverWritten =>
    rw [statusPayload_user, State.userStatus, hnone]
    rfl
  case written =>
    rw [statusPayload_user, State.userStatus_byte hu, hu]
    rfl
  case storeRunning => rw [statusPayload_settings, State.settings_running hrunning]
  case storeIdle =>
    rw [statusPayload_settings, State.settings_idle hidle]
    rfl

end Sys2Proof.Machine
end

section
/-! The Peer Table after a record (chapter 7): the entries that a roster moves, the losses it counts, and the records that leave
the table. -/

namespace Sys2Proof.Machine

/-- A record that carries neither a set nor a holder leaves the table (R123). -/
theorem State.peersTake_of_content {r : Record} (hset : ∀ set, r.content ≠ .set set)
    (hholder : ∀ v h self dup, r.content ≠ .extreme v h self dup) (s : State) : s.peersTake r = s := by
  unfold State.peersTake
  split
  · next hc => exact absurd hc (hset _)
  · next hc => exact absurd hc (hholder _ _ _ _)
  · rfl

/-- Only a ROSTER round's record carries a set (R42). -/
theorem Round.recordOf_set {r : Round} {bit : Level} {set : AddressSet} (h : (r.recordOf bit).content = .set set) :
    r.kind = .roster := by
  change r.content (r.outcome bit) = _ at h
  unfold Round.content at h
  cases ho : r.outcome bit with
  | valid =>
    rw [ho] at h
    cases hk : r.kind with
    | roster => rfl
    | _ => rw [hk] at h; cases h
  | _ => rw [ho] at h; cases h

/-- Only the record of a MIN or MAX round carries a holder (R42). -/
theorem Round.recordOf_extreme {r : Round} {bit : Level} {v : Int} {holder : Address} {self dup : Bool}
    (h : (r.recordOf bit).content = .extreme v holder self dup) : r.kind = .min ∨ r.kind = .max := by
  change r.content (r.outcome bit) = _ at h
  unfold Round.content at h
  cases ho : r.outcome bit with
  | valid =>
    rw [ho] at h
    cases hk : r.kind with
    | min => exact .inl rfl
    | max => exact .inr rfl
    | _ => rw [hk] at h; cases h
  | _ => rw [ho] at h; cases h

/-- An address that was never seen and is not expected is not counted absent (R125). -/
theorem Peer.missed_unexpected {p : Peer} (hs : p.state = .unknown) (he : p.expected = false) (missLimit : Nat) :
    p.missed missLimit = p := by
  unfold Peer.missed
  rw [hs, he]
  rfl

/-- The first absence of an address that was present, or is expected and was never seen (R125). -/
theorem Peer.missed_first {p : Peer} (h : p.state = .present ∨ p.state = .unknown ∧ p.expected = true) (missLimit : Nat) :
    p.missed missLimit = p.absentAt 1 missLimit := by
  unfold Peer.missed
  rcases h with hs | ⟨hs, he⟩
  · rw [hs]
  · rw [hs, he]
    rfl

theorem Peer.missed_missing {p : Peer} (hs : p.state = .missing) (missLimit : Nat) :
    p.missed missLimit = p.absentAt (p.absence + 1) missLimit := by
  unfold Peer.missed
  rw [hs]

theorem Peer.missed_lost {p : Peer} (hs : p.state = .lost) (missLimit : Nat) :
    p.missed missLimit = { p with absence := min 15 (p.absence + 1) } := by
  unfold Peer.missed
  rw [hs]

/-- An address in a VALID roster's set (R124). -/
theorem State.applyRoster_seen (s : State) {set : AddressSet} {a : Fin 32} (h : set.getLsbD a.val = true) (cycle : Word) :
    (s.applyRoster set cycle).peers.entries[a] = s.peers.entries[a].seen cycle := by
  rw [State.applyRoster_entry, h]
  rfl

/-- An address that a VALID roster's set lacks (R125). -/
theorem State.applyRoster_missed (s : State) {set : AddressSet} {a : Fin 32} (h : set.getLsbD a.val = false) (cycle : Word) :
    (s.applyRoster set cycle).peers.entries[a] = s.peers.entries[a].missed s.image.settings.missLimit := by
  rw [State.applyRoster_entry, h]
  rfl

/-- The entries that a roster makes LOST, told from the table before and after it (R126). -/
theorem State.lostAt_eq (s : State) (set : AddressSet) (cycle : Word) :
    lostAt s.peers.entries set cycle s.image.settings.missLimit = (List.finRange 32).filter fun a =>
      s.peers.entries[a].state != .lost && (s.applyRoster set cycle).peers.entries[a].state == .lost := by
  simp only [State.applyRoster_entry]
  rfl

/-- The causes after a roster: PEER_LOST is set where an entry enters LOST (R126). -/
theorem State.applyRoster_peerLost (s : State) (set : AddressSet) (cycle : Word) :
    (s.applyRoster set cycle).control.alerts.getLsbD 1 = true ↔ s.control.alerts.getLsbD 1 = true ∨
      ∃ a : Fin 32, s.peers.entries[a].state ≠ .lost ∧ (s.applyRoster set cycle).peers.entries[a].state = .lost := by
  have hempty : (lostAt s.peers.entries set cycle s.image.settings.missLimit).isEmpty = true ↔
      ¬ ∃ a : Fin 32, s.peers.entries[a].state ≠ .lost ∧ (s.applyRoster set cycle).peers.entries[a].state = .lost := by
    rw [State.lostAt_eq]
    simp
  rw [State.applyRoster_alerts]
  split
  · next h => simp only [hempty.1 h, or_false]
  · next h =>
    have hlost := not_not.1 fun hn => h (hempty.2 hn)
    have hbit : (s.control.alerts ||| 0x002).getLsbD 1 = true := by
      rw [BitVec.getLsbD_or]
      exact Bool.or_true _
    exact iff_of_true hbit (.inr hlost)

/-- A VALID MIN or MAX counts for its holder, and every other entry stands (R128). -/
theorem State.applyHolder_eq (s : State) (holder : Address) : s.applyHolder holder = { s with
    peers.entries := Vector.ofFn fun a : Fin 32 =>
      if a.val = holder.toNat then { s.peers.entries[a] with extremes := satInc16 s.peers.entries[a].extremes }
      else s.peers.entries[a] } := by
  have hentries : (s.applyHolder holder).peers.entries = Vector.ofFn fun a : Fin 32 =>
      if a.val = holder.toNat then { s.peers.entries[a] with extremes := satInc16 s.peers.entries[a].extremes }
      else s.peers.entries[a] := by
    refine Vector.ext fun k hk => ?_
    rw [Vector.getElem_ofFn]
    exact s.applyHolder_entry holder ⟨k, hk⟩
  rw [← hentries]
  rfl

/-- Settles O19: a roster entry by entry, with its losses; a holder; and the records that carry neither. -/
theorem peerTableFollowsRecords : Obligations.PeerTableFollowsRecords := by
  refine ⟨fun s r => State.peersTake_other, fun s q bit hk => ?otherKind, fun s r hr => ⟨fun w hc => ?otherContent,
    fun set hc => ?roster, fun v h self dup hc => ?holder⟩⟩
  case otherKind =>
    refine State.peersTake_of_content (fun set hc => ?_) (fun v h self dup hc => ?_) s
    · rw [Round.recordOf_set hc] at hk
      simp at hk
    · rcases Round.recordOf_extreme hc with h | h <;> rw [h] at hk <;> simp at hk
  case otherContent =>
    refine State.peersTake_of_content (fun set h => ?_) (fun v h self dup h => ?_) s <;>
      rcases hc with hc | hc <;> rw [hc] at h <;> cases h
  case roster =>
    rw [State.peersTake_roster hr hc]
    refine ⟨_, rfl, ?_, fun a ha => s.applyRoster_seen ha r.cycle, fun a ha => ?_, ?_, s.applyRoster_peerLost set r.cycle⟩
    · obtain ⟨_, _, h⟩ := s.applyRoster_changes set r.cycle
      rw [h]
    · rw [s.applyRoster_missed ha r.cycle]
      exact ⟨fun hs he => Peer.missed_unexpected hs he _, fun h => Peer.missed_first h _, fun h => Peer.missed_missing h _,
        fun h => Peer.missed_lost h _⟩
    · rw [State.applyRoster_losses, State.lostAt_eq, List.countP_eq_length_filter]
  case holder =>
    rw [State.peersTake_holder hr hc]
    exact s.applyHolder_eq h

end Sys2Proof.Machine
end

section
/-! The trip rules and the peer entries through every step (R122, R125, R133): the moves that a rule and an entry can make, the
soundness of each move, and the moves that each effect makes. -/

namespace Sys2Proof.Machine

/-- What can happen to a trip rule while the station runs (R134, R139, R143). -/
inductive RuleMove (rule : TripRule) (r : RuleState) : RuleState → Prop
  | stays : RuleMove rule r r
  | outcome (expected : AddressSet) (rec : Record) : RuleMove rule r (r.takeOutcome rule expected rec)
  | boundary (cycle : Word) : RuleMove rule r (r.takeBoundary rule cycle)
  | unlatch (he : rule.enabled = true) (hb : rule.blind ≠ 0 → r.blind < rule.blind) : RuleMove rule r r.unlatched

/-- What can happen to a peer entry while the station runs (R123). -/
inductive PeerMove (missLimit : Nat) (p : Peer) : Peer → Prop
  | stays : PeerMove missLimit p p
  | roster (inSet : Bool) (cycle : Word) : PeerMove missLimit p (p.afterRoster inSet cycle missLimit)
  | holder (extremes : Word) : PeerMove missLimit p { p with extremes := extremes }

/-- A qualifying outcome at a rule that is not TRIPPED: the count rises to the persistence, or starts again at 0 (R135). -/
theorem RuleState.judge_wf {rule : TripRule} {r : RuleState} (h : ruleStateWf rule r) (hr : ruleInRange rule)
    (he : rule.enabled = true) (ht : r.status ≠ .tripped) (expected : AddressSet) (rec : Record) :
    ruleStateWf rule (r.judge rule expected rec) := by
  obtain ⟨_, _, _, _, hstatus⟩ := h
  obtain ⟨_, _, hpersistence, _, _⟩ := hr
  have enabled : ∀ {x : RuleState}, rule.enabled = false → x = {} :=
    fun hd => absurd (he.symm.trans hd) nofun
  have below : rule.blind ≠ 0 → ¬ rule.blind ≤ 0 := fun h0 h => h0 (Nat.le_zero.1 h)
  have hcount : r.persistence < rule.persistence := by
    cases hs : r.status with
    | clear => rw [hs] at hstatus; omega
    | counting => rw [hs] at hstatus; exact hstatus.2.1
    | tripped => exact absurd hs ht
  unfold RuleState.judge
  split
  · split
    · next hreached => exact ⟨enabled, Nat.zero_le 15, fun _ => rfl, fun _ _ => rfl, hreached.le, rfl⟩
    · next hnot =>
      exact ⟨enabled, Nat.zero_le 15, fun _ => rfl, fun h0 h => absurd h (below h0), Nat.le_add_left 1 _,
        Nat.lt_of_le_of_ne hcount hnot, rfl⟩
  · exact ⟨enabled, Nat.zero_le 15, fun _ => rfl, fun h0 h => absurd h (below h0), rfl, rfl⟩

/-- A rule whose blind count starts again at 0 keeps its status, counts and data sound (R138). -/
theorem ruleStateWf.seen {rule : TripRule} {r : RuleState} (h : ruleStateWf rule r) (he : rule.enabled = true) :
    ruleStateWf rule { r with blind := 0 } := by
  obtain ⟨_, _, _, _, hstatus⟩ := h
  exact ⟨fun hd => absurd (he.symm.trans hd) nofun, Nat.zero_le 15, fun _ => rfl, fun h0 h => absurd (Nat.le_zero.1 h) h0,
    hstatus⟩

/-- A rule below its blind limit stays sound when it becomes CLEAR with no counts or data but the blind count (R136, R143). -/
theorem ruleStateWf.cleared {rule : TripRule} {r : RuleState} (h : ruleStateWf rule r) (he : rule.enabled = true)
    (hb : rule.blind ≠ 0 → r.blind < rule.blind) : ruleStateWf rule r.unlatched := by
  obtain ⟨_, hblind, hzero, _, _⟩ := h
  exact ⟨fun hd => absurd (he.symm.trans hd) nofun, hblind, hzero, fun h0 h => absurd (hb h0) (Nat.not_lt.2 h), rfl, rfl⟩

/-- Below TRIPPED there is no trip data, and the blind count is below the limit (R139, R141). -/
theorem ruleStateWf.untripped {rule : TripRule} {r : RuleState} (h : ruleStateWf rule r) (ht : r.status ≠ .tripped) :
    r.data = none ∧ (rule.blind ≠ 0 → r.blind < rule.blind) := by
  obtain ⟨_, _, _, hlimit, hstatus⟩ := h
  refine ⟨?_, fun h0 => Nat.lt_of_not_le fun hle => ht (hlimit h0 hle)⟩
  cases hs : r.status with
  | clear => rw [hs] at hstatus; exact hstatus.2
  | counting => rw [hs] at hstatus; exact hstatus.2.2
  | tripped => exact absurd hs ht

/-- An outcome record at a rule (R134 to R138). -/
theorem RuleState.takeOutcome_wf {rule : TripRule} {r : RuleState} (h : ruleStateWf rule r) (hr : ruleInRange rule)
    (expected : AddressSet) (rec : Record) : ruleStateWf rule (r.takeOutcome rule expected rec) := by
  unfold RuleState.takeOutcome
  split
  case isFalse => exact h
  case isTrue hw =>
    have he : rule.enabled = true := (Bool.and_eq_true_iff.1 hw).1
    have qualifying : ruleStateWf rule
        (if r.status = .tripped then { r with blind := 0 } else r.judge rule expected rec) := by
      split
      · exact h.seen he
      · next ht => exact RuleState.judge_wf h hr he ht expected rec
    cases rec.outcome with
    | valid | agree | disagree => exact qualifying
    | empty =>
      dsimp only
      split
      · exact h
      · next ht =>
        obtain ⟨hdata, hblind⟩ := h.untripped ht
        have := h.cleared he hblind
        rwa [RuleState.unlatched, ← hdata] at this
    | void | lapsed => exact h

/-- A boundary at a rule: the blind count rises, and latches the rule where it reaches the limit (R139). -/
theorem RuleState.takeBoundary_wf {rule : TripRule} {r : RuleState} (h : ruleStateWf rule r) (hr : ruleInRange rule)
    (cycle : Word) : ruleStateWf rule (r.takeBoundary rule cycle) := by
  unfold RuleState.takeBoundary
  split
  case isFalse => exact h
  case isTrue hw =>
    rw [Bool.and_eq_true, bne_iff_ne] at hw
    obtain ⟨he, h0⟩ := hw
    have enabled : ∀ {x : RuleState}, rule.enabled = false → x = {} :=
      fun hd => absurd (he.symm.trans hd) nofun
    obtain ⟨_, _, _, _, hlimit⟩ := hr
    have huntripped := fun ht => (h.untripped ht).2 h0
    obtain ⟨_, _, _, _, hstatus⟩ := h
    dsimp only
    split
    · next hlatch =>
      refine ⟨enabled, min_le_left .., fun h => absurd h h0, fun _ _ => rfl, ?_, rfl⟩
      obtain ⟨ht, _⟩ := hlatch
      show r.persistence ≤ rule.persistence
      cases hs : r.status with
      | clear => rw [hs] at hstatus; omega
      | counting => rw [hs] at hstatus; omega
      | tripped => exact absurd hs ht
    · next hnot =>
      refine ⟨enabled, min_le_left .., fun h => absurd h h0, fun _ hle => ?_, hstatus⟩
      by_contra ht
      have hne : min 15 (r.blind + 1) ≠ rule.blind := fun e => hnot ⟨ht, e⟩
      have hlt := huntripped ht
      change rule.blind ≤ min 15 (r.blind + 1) at hle
      omega

/-- Every move of a rule keeps it sound. -/
theorem RuleMove.wf {rule : TripRule} {r t : RuleState} (hm : RuleMove rule r t) (hr : ruleInRange rule)
    (h : ruleStateWf rule r) : ruleStateWf rule t := by
  cases hm with
  | stays => exact h
  | outcome expected rec => exact RuleState.takeOutcome_wf h hr expected rec
  | boundary cycle => exact RuleState.takeBoundary_wf h hr cycle
  | unlatch he hb => exact h.cleared he hb

/-- An absence count from 1 to 15 judged against the miss limit (R125). -/
theorem Peer.absentAt_wf {count missLimit : Nat} (h1 : 1 ≤ count) (h15 : count ≤ 15) (p : Peer) :
    peerWf missLimit (p.absentAt count missLimit) := by
  by_cases h : missLimit ≤ count
  · rw [Peer.absentAt, if_pos h]
    exact ⟨h, h15⟩
  · rw [Peer.absentAt, if_neg h]
    exact ⟨h1, Nat.lt_of_not_le h⟩

/-- An absence at an entry (R125). -/
theorem Peer.missed_wf {missLimit : Nat} {p : Peer} (h : peerWf missLimit p) (hm : missLimit ≤ 15) :
    peerWf missLimit (p.missed missLimit) := by
  have hp := h
  unfold peerWf at hp
  cases hs : p.state with
  | unknown =>
    cases he : p.expected with
    | false => rwa [Peer.missed_unexpected hs he]
    | true =>
      rw [Peer.missed_first (.inr ⟨hs, he⟩)]
      exact Peer.absentAt_wf le_rfl (by decide) p
  | present =>
    rw [Peer.missed_first (.inl hs)]
    exact Peer.absentAt_wf le_rfl (by decide) p
  | missing =>
    rw [hs] at hp
    rw [Peer.missed_missing hs]
    exact Peer.absentAt_wf (Nat.le_add_left 1 _) (by omega) p
  | lost =>
    rw [hs] at hp
    rw [Peer.missed_lost hs]
    unfold peerWf
    rw [hs]
    dsimp only at hp ⊢
    omega

/-- Every move of an entry keeps it sound. -/
theorem PeerMove.wf {missLimit : Nat} {p t : Peer} (hmove : PeerMove missLimit p t) (hm : missLimit ≤ 15)
    (h : peerWf missLimit p) : peerWf missLimit t := by
  cases hmove with
  | stays => exact h
  | roster inSet cycle =>
    cases inSet with
    | true => exact show (p.seen cycle).absence = 0 from rfl
    | false => exact Peer.missed_wf h hm
  | holder extremes => exact h

/-- The image stands, and every rule and every peer entry makes one of its moves. -/
def State.MovesTables (s t : State) : Prop :=
  t.image = s.image ∧ (∀ n : Fin 8, RuleMove s.image.rules[n] s.trip[n] t.trip[n]) ∧
  ∀ a : Fin 32, PeerMove s.image.settings.missLimit s.peers.entries[a] t.peers.entries[a]

/-- Every rule and every peer entry stands at its starting values (R130, R147, R148). -/
def State.TablesAtStart (s : State) : Prop :=
  s.trip = Vector.replicate 8 {} ∧ ∀ a : Fin 32, ∃ expected, s.peers.entries[a] = { expected }

theorem State.MovesTables.sound {s t : State} (h : s.MovesTables t) (hi : imageInRange s.image) (ht : s.TripsSound)
    (hp : s.PeersSound) : t.TripsSound ∧ t.PeersSound := by
  obtain ⟨himage, htrip, hpeers⟩ := h
  obtain ⟨⟨_, _, _, hlimit, _⟩, _, hrules⟩ := hi
  unfold State.TripsSound State.PeersSound
  rw [himage]
  exact ⟨fun n => (htrip n).wf (hrules n) (ht n), fun a => (hpeers a).wf hlimit (hp a)⟩

/-- The starting values are sound under every image. -/
theorem State.TablesAtStart.sound {s : State} (h : s.TablesAtStart) : s.TripsSound ∧ s.PeersSound := by
  obtain ⟨htrip, hpeers⟩ := h
  refine ⟨fun n => ?_, fun a => ?_⟩
  · rw [htrip, show (Vector.replicate 8 ({} : RuleState))[n] = {} from Vector.getElem_replicate _]
    exact ruleStateWf_start _
  · obtain ⟨expected, he⟩ := hpeers a
    rw [he]
    exact peerWf_start _ expected

/-- The two tables at the values of a reset (R130, R147). -/
theorem State.tablesAtStart_of_reset {s : State} (ht : s.trip = Vector.replicate 8 {}) (hp : s.peers = {}) :
    s.TablesAtStart := by
  refine ⟨ht, fun a => ⟨false, ?_⟩⟩
  rw [hp]
  exact Vector.getElem_replicate _

/-- An event that reaches neither table. -/
theorem State.movesTables_of_eq {s t : State} (hi : t.image = s.image) (ht : t.trip = s.trip) (hp : t.peers = s.peers) :
    s.MovesTables t := by
  unfold State.MovesTables
  rw [ht, hp]
  exact ⟨hi, fun _ => .stays, fun _ => .stays⟩

/-- A boundary is a boundary notice to every rule, and leaves the Peer Table (R54, R139). -/
theorem State.cycleBoundary_movesTables (s : State) : s.MovesTables s.cycleBoundary := by
  obtain ⟨_, _, _, _, _, _, h⟩ := s.cycleBoundary_changes
  rw [h]
  refine ⟨rfl, fun n => ?_, fun _ => .stays⟩
  rw [show (Vector.ofFn _)[n] = _ from Vector.getElem_ofFn _]
  exact .boundary _

/-- An anchor notice is a boundary to the rules where it opens a cycle, and leaves both tables elsewhere (R52, R53). -/
theorem State.anchorNotice_movesTables (s : State) : s.MovesTables s.anchorNotice := by
  obtain ⟨_, _, _, _, _, _, _, _, _, _, _, _, _, _, _, _, hx⟩ := s.anchorNotice_changes
  have hframe : s.anchorNotice.image = s.image ∧ s.anchorNotice.peers = s.peers := by
    rw [hx]
    exact ⟨rfl, rfl⟩
  obtain ⟨himage, hpeers⟩ := hframe
  cases hd : s.sched.anchorDone with
  | false =>
    obtain ⟨_, _, _, _, htrip, _⟩ := State.anchorNotice_aligns hd
    exact State.movesTables_of_eq himage htrip hpeers
  | true =>
    obtain ⟨_, _, _, _, htrip, _⟩ := State.anchorNotice_opens hd
    obtain ⟨_, hrules, _⟩ := s.cycleBoundary_movesTables
    unfold State.MovesTables
    rw [htrip, hpeers]
    exact ⟨himage, hrules, fun _ => .stays⟩

/-- A recognition gives an anchor notice at most (R25). -/
theorem State.recognise_movesTables (s : State) : s.MovesTables s.recognise := by
  cases hfind : findRound s.image s.round.codeRead with
  | none =>
    rw [State.recognise_unknown hfind]
    exact State.movesTables_of_eq rfl rfl rfl
  | some e =>
    rw [State.recognise_known hfind, State.takeSnapshot_only]
    by_cases hk : e.kind = .anchor
    · rw [State.noticed_anchor hk]
      exact (s.bodyOpened e).anchorNotice_movesTables
    · rw [State.noticed_other hk]
      exact State.movesTables_of_eq rfl rfl rfl

/-- A record at the Peer Table: a roster at every entry, a holder at its own, and nothing else (R123). -/
theorem State.peersTake_move (s : State) (r : Record) (a : Fin 32) :
    PeerMove s.image.settings.missLimit s.peers.entries[a] (s.peersTake r).peers.entries[a] := by
  unfold State.peersTake
  split
  · rw [State.applyRoster_entry]
    exact .roster _ _
  · rw [State.applyHolder_entry]
    split
    · exact .holder _
    · exact .stays
  · exact .stays

/-- A sample moves the tables by the notice of an anchor or by a record delivered (R25, R43). -/
theorem SampleEffect.movesTables {s t : State} {lv : Level} (he : SampleEffect s lv t) : s.MovesTables t := by
  cases he with
  | quiet _ _ _ _ _ => exact State.movesTables_of_eq rfl rfl rfl
  | recognition _ => exact (s.atCode lv).recognise_movesTables
  | delivery _ =>
    obtain ⟨hframe, htrip, _⟩ := s.deliverRecord_blocks lv (s.round.recordOf lv) s.round.isFault
    generalize s.round.recordOf lv = r at *
    generalize (s.atDelivery lv).deliverRecord r s.round.isFault = t at *
    have hpeers : t.peers = (s.peersTake r).peers := by rw [hframe]
    have himage : t.image = s.image := by
      rw [hframe]
      rfl
    refine ⟨himage, fun n => ?_, fun a => ?_⟩
    · rw [htrip n]
      exact .outcome _ _
    · rw [hpeers]
      exact s.peersTake_move r a

/-- CLEAR_TRIP is the one run command that reaches the tables (R143). -/
theorem RunEffect.movesTables {s t : State} (he : RunEffect s t) : s.MovesTables t := by
  cases he with
  | post c _ =>
    obtain ⟨_, _, _, h⟩ := s.post_changes .command c
    rw [h]
    exact State.movesTables_of_eq rfl rfl rfl
  | begin _ =>
    rw [State.beginScan_only]
    exact State.movesTables_of_eq rfl rfl rfl
  | resume _ =>
    rw [State.resume_only]
    exact State.movesTables_of_eq rfl rfl rfl
  | inject n raw _ =>
    obtain ⟨_, _, _, _, h⟩ := s.writeSample_changes n raw true
    rw [h]
    exact State.movesTables_of_eq rfl rfl rfl
  | unlatch k _ he hb =>
    refine ⟨rfl, fun n => ?_, fun _ => .stays⟩
    by_cases hn : n = k
    · subst hn
      rw [show (s.trip.set n _)[n] = _ from Vector.getElem_set_self _]
      exact .unlatch he hb
    · rw [show (s.trip.set k _)[n] = s.trip[n] from Vector.getElem_set_ne k.isLt n.isLt fun e => hn (Fin.ext e.symm)]
      exact .stays
  | _ => exact State.movesTables_of_eq rfl rfl rfl

/-- A port command moves the tables, or leaves them at their starting values: a reset, and a write of the image, which is taken
in CONFIG alone (R166, R187). -/
theorem PortEffect.tables {s t : State} (he : PortEffect s t) (hb : s.BlocksFollowStation) :
    s.MovesTables t ∨ t.TablesAtStart := by
  cases he with
  | none => exact .inl (State.movesTables_of_eq rfl rfl rfl)
  | softReset _ => exact .inr (State.tablesAtStart_of_reset rfl rfl)
  | image im _ hc _ =>
    obtain ⟨_, _, _, _, _, _, hpeers, htrip, _⟩ := hb.1 (by rw [hc]; rfl)
    exact .inr (State.tablesAtStart_of_reset htrip hpeers)
  | commit _ _ _ => exact .inl (State.movesTables_of_eq rfl rfl rfl)
  | run t _ _ he => exact .inl he.movesTables

/-- Every effect moves the tables, or leaves them at their starting values. -/
theorem Effect.tables {s t : State} (he : Effect s t) (hb : s.BlocksFollowStation) : s.MovesTables t ∨ t.TablesAtStart := by
  cases he with
  | port t p hp _ => exact hp.tables hb
  | hardReset => exact .inr (State.tablesAtStart_of_reset rfl rfl)
  | release _ => exact .inr (State.tablesAtStart_of_reset rfl rfl)
  | complete _ _ =>
    rw [State.resume_only]
    exact .inr ⟨rfl, fun a => ⟨_, peersAtCommit_entry _ a⟩⟩
  | sample lv hl => exact .inl (State.sample_sampleEffect hl lv).movesTables
  | boundary line _ =>
    obtain ⟨_, _, _, _, _, _, _, _, h⟩ := s.boundary_changes line
    rw [h]
    exact .inl (State.movesTables_of_eq rfl rfl rfl)
  | expire _ _ =>
    rw [State.judgeExpiry_only]
    exact .inl s.cycleBoundary_movesTables
  | settle _ _ _ _ _ => exact .inl (State.movesTables_of_eq rfl rfl rfl)
  | conversion _ _ _ _ _ _ =>
    obtain ⟨_, _, _, _, _, h⟩ := s.completeConversion_changes
    rw [h]
    exact .inl (State.movesTables_of_eq rfl rfl rfl)

/-- A crystal period reaches neither table. -/
theorem TickEffect.movesTables {s t : State} (ht : TickEffect s t) : s.MovesTables t := by
  obtain ⟨_, _, _, _, _, _, _, _, rfl, _⟩ := ht
  exact State.movesTables_of_eq rfl rfl rfl

/-- Settles O56: a step moves the tables, and every move keeps its rule or entry sound, or leaves them at their starting
values. -/
theorem stepKeepsTripsAndPeersSound : Obligations.StepKeepsTripsAndPeersSound := by
  intro s t hb _ hi htrips hpeers hs
  rcases step_effect hs with ⟨rest, he⟩ | ⟨_, ht⟩
  · rcases Effect.tables (s := { s with pending := rest }) he hb with hmoves | hstart
    · exact hmoves.sound hi.1 htrips hpeers
    · exact hstart.sound
  · exact ht.movesTables.sound hi.1 htrips hpeers

end Sys2Proof.Machine
end

section
/-! The Trip Unit (chapter 8): the six conditions (R132), a rule at a record (R134 to R138) and at a boundary (R139), CLEAR_TRIP
(R143) and the two outputs (R142). -/

namespace Sys2Proof.Machine

/-- One word has a bit that another lacks exactly where its part outside the other is not zero. -/
theorem word_and_not_ne_zero_iff {w : Nat} (x y : BitVec w) :
    x &&& ~~~y ≠ 0 ↔ ∃ k < w, x.getLsbD k = true ∧ y.getLsbD k = false := by
  rw [word_and_ne_zero_iff]
  refine exists_congr fun k => and_congr_right fun hk => and_congr_right fun _ => ?_
  rw [BitVec.getLsbD_not, decide_eq_true hk, Bool.true_and, Bool.not_eq_true']

section Conditions
variable {rule : TripRule} (expected : AddressSet) (o : RoundOutcome)

theorem conditionHolds_above (h : rule.condition = .above) (v : Int) (holder : Address) (self dup : Bool) :
    conditionHolds rule expected o (.extreme v holder self dup) = true ↔ rule.threshold < v := by
  unfold conditionHolds
  rw [h]
  exact decide_eq_true_iff

theorem conditionHolds_below (h : rule.condition = .below) (v : Int) (holder : Address) (self dup : Bool) :
    conditionHolds rule expected o (.extreme v holder self dup) = true ↔ v < rule.threshold := by
  unfold conditionHolds
  rw [h]
  exact decide_eq_true_iff

theorem conditionHolds_maskSet (h : rule.condition = .maskSet) (w : Word) :
    conditionHolds rule expected o (.word w) = true ↔ ∃ k < 16, rule.mask.getLsbD k = true ∧ w.getLsbD k = true := by
  rw [← word_and_ne_zero_iff, BitVec.and_comm]
  unfold conditionHolds
  rw [h]
  exact bne_iff_ne

theorem conditionHolds_maskClear (h : rule.condition = .maskClear) (w : Word) :
    conditionHolds rule expected o (.word w) = true ↔ ∃ k < 16, rule.mask.getLsbD k = true ∧ w.getLsbD k = false := by
  rw [← word_and_not_ne_zero_iff, BitVec.and_comm]
  unfold conditionHolds
  rw [h]
  exact bne_iff_ne

theorem conditionHolds_rosterShort (h : rule.condition = .rosterShort) (a : AddressSet) :
    conditionHolds rule expected o (.set a) = true ↔ ∃ k < 32, expected.getLsbD k = true ∧ a.getLsbD k = false := by
  rw [← word_and_not_ne_zero_iff]
  unfold conditionHolds
  rw [h]
  exact bne_iff_ne

theorem conditionHolds_disagree (h : rule.condition = .disagree) (g : Word) (differs : Bool) :
    conditionHolds rule expected o (.digest g differs) = true ↔ o = .disagree := by
  unfold conditionHolds
  rw [h]
  exact beq_iff_eq

/-- No condition fits the content of an anchor round (R132). -/
theorem conditionHolds_count (n : Word) : conditionHolds rule expected o (.count n) = false := by
  unfold conditionHolds
  cases rule.condition <;> rfl

theorem conditionHolds_none : conditionHolds rule expected o .none = false := by
  unfold conditionHolds
  cases rule.condition <;> rfl

end Conditions

/-- The qualifying outcomes (R132). -/
theorem RoundOutcome.qualifies_iff (o : RoundOutcome) :
    o.qualifies = true ↔ o = .valid ∨ o = .agree ∨ o = .disagree := by
  cases o <;> decide

section Records
variable {rule : TripRule} {r : RuleState} {rec : Record}

/-- A record reaches the enabled rules that watch its code, and no other (R134). -/
theorem RuleState.takeOutcome_unreached (h : rule.enabled = false ∨ rule.watched ≠ rec.code) (expected : AddressSet) :
    r.takeOutcome rule expected rec = r := by
  refine if_neg fun hreached => ?_
  obtain ⟨he, hw⟩ := Bool.and_eq_true_iff.1 hreached
  exact h.elim (fun hd => Bool.false_ne_true (hd.symm.trans he)) fun hne => hne (beq_iff_eq.1 hw)

/-- At an enabled rule that watches the record's code (R135 to R138): what the outcome decides. -/
theorem RuleState.takeOutcome_reached (he : rule.enabled = true) (hw : rule.watched = rec.code) (expected : AddressSet) :
    r.takeOutcome rule expected rec =
      if rec.outcome.qualifies then
        if r.status = .tripped then { r with blind := 0 } else r.judge rule expected rec
      else if rec.outcome = .empty ∧ r.status ≠ .tripped then { r with status := .clear, persistence := 0 }
      else r := by
  refine (if_pos (Bool.and_eq_true_iff.2 ⟨he, beq_iff_eq.2 hw⟩)).trans ?_
  cases rec.outcome with
  | valid | agree | disagree | void | lapsed => rfl
  | empty => by_cases ht : r.status = .tripped <;> simp [RoundOutcome.qualifies, ht]

theorem RuleState.takeOutcome_empty (he : rule.enabled = true) (hw : rule.watched = rec.code) (ho : rec.outcome = .empty)
    (ht : r.status ≠ .tripped) (expected : AddressSet) :
    r.takeOutcome rule expected rec = { r with status := .clear, persistence := 0 } := by
  rw [RuleState.takeOutcome_reached he hw, if_neg (by rw [ho]; exact Bool.false_ne_true), if_pos ⟨ho, ht⟩]

/-- VOID and LAPSED leave every rule, and EMPTY a TRIPPED one (R137, R138). -/
theorem RuleState.takeOutcome_passed (hq : rec.outcome.qualifies = false)
    (h : rec.outcome ≠ .empty ∨ r.status = .tripped) (expected : AddressSet) : r.takeOutcome rule expected rec = r := by
  by_cases hreached : rule.enabled = true ∧ rule.watched = rec.code
  · obtain ⟨he, hw⟩ := hreached
    rw [RuleState.takeOutcome_reached he hw, if_neg (ne_true_of_eq_false hq),
      if_neg fun hbreaks => h.elim (fun hne => hne hbreaks.1) hbreaks.2]
  · refine RuleState.takeOutcome_unreached ?_ expected
    rwa [not_and_or, Bool.not_eq_true] at hreached

theorem RuleState.takeOutcome_tripped (he : rule.enabled = true) (hw : rule.watched = rec.code)
    (hq : rec.outcome.qualifies = true) (ht : r.status = .tripped) (expected : AddressSet) :
    r.takeOutcome rule expected rec = { r with blind := 0 } := by
  rw [RuleState.takeOutcome_reached he hw, if_pos hq, if_pos ht]

theorem RuleState.takeOutcome_judged (he : rule.enabled = true) (hw : rule.watched = rec.code)
    (hq : rec.outcome.qualifies = true) (ht : r.status ≠ .tripped) (expected : AddressSet) :
    r.takeOutcome rule expected rec = r.judge rule expected rec := by
  rw [RuleState.takeOutcome_reached he hw, if_pos hq, if_neg ht]

variable {expected : AddressSet}

theorem RuleState.judge_unmet (h : conditionHolds rule expected rec.outcome rec.content = false) :
    r.judge rule expected rec = {} :=
  if_neg (ne_true_of_eq_false h)

theorem RuleState.judge_counts (h : conditionHolds rule expected rec.outcome rec.content = true)
    (hp : r.persistence + 1 ≠ rule.persistence) :
    r.judge rule expected rec = { status := .counting, persistence := r.persistence + 1, blind := 0, data := none } :=
  (if_pos h).trans (if_neg hp)

theorem RuleState.judge_latches (h : conditionHolds rule expected rec.outcome rec.content = true)
    (hp : r.persistence + 1 = rule.persistence) :
    r.judge rule expected rec = { status := .tripped, persistence := rule.persistence, blind := 0
                                  data := some { reason := .condition, cycle := rec.cycle
                                                 value := tripValueOf expected rec.content } } := by
  rw [← hp]
  exact (if_pos h).trans (if_pos hp)

end Records

section Boundaries
variable {rule : TripRule} {r : RuleState}

/-- A boundary leaves a disabled rule and a rule without a blind limit (R139). -/
theorem RuleState.takeBoundary_unlimited (h : rule.enabled = false ∨ rule.blind = 0) (cycle : Word) :
    r.takeBoundary rule cycle = r := by
  refine if_neg fun hreached => ?_
  obtain ⟨he, hb⟩ := Bool.and_eq_true_iff.1 hreached
  exact h.elim (fun hd => Bool.false_ne_true (hd.symm.trans he)) (bne_iff_ne.1 hb)

theorem RuleState.takeBoundary_limited (he : rule.enabled = true) (hb : rule.blind ≠ 0) (cycle : Word) :
    r.takeBoundary rule cycle =
      if r.status ≠ .tripped ∧ min 15 (r.blind + 1) = rule.blind then
        { r with
          status := .tripped, blind := min 15 (r.blind + 1)
          data := some { reason := .blind, cycle := cycle, value := .none } }
      else { r with blind := min 15 (r.blind + 1) } :=
  if_pos (Bool.and_eq_true_iff.2 ⟨he, bne_iff_ne.2 hb⟩)

theorem RuleState.takeBoundary_rises (he : rule.enabled = true) (hb : rule.blind ≠ 0)
    (h : r.status = .tripped ∨ min 15 (r.blind + 1) ≠ rule.blind) (cycle : Word) :
    r.takeBoundary rule cycle = { r with blind := min 15 (r.blind + 1) } := by
  rw [RuleState.takeBoundary_limited he hb,
    if_neg fun hlatch => h.elim hlatch.1 fun hne => hne hlatch.2]

theorem RuleState.takeBoundary_latches (he : rule.enabled = true) (hb : rule.blind ≠ 0) (ht : r.status ≠ .tripped)
    (hn : min 15 (r.blind + 1) = rule.blind) (cycle : Word) :
    r.takeBoundary rule cycle = { r with
      status := .tripped, blind := rule.blind, data := some { reason := .blind, cycle := cycle, value := .none } } := by
  rw [RuleState.takeBoundary_limited he hb, if_pos ⟨ht, hn⟩, hn]

end Boundaries

/-- Settles O28: outcome by outcome, from the equations of a record at a rule. -/
theorem tripRulesThroughRecords : Obligations.TripRulesThroughRecords := by
  refine ⟨fun _ expected _ _ h => RuleState.takeOutcome_unreached h expected,
    fun _ _ cycle h => RuleState.takeBoundary_unlimited (.inl h) cycle,
    fun rule expected r rec he hw => ⟨fun ho ht => RuleState.takeOutcome_empty he hw ho ht expected,
      fun ho => ?passed, fun ht hq => ?seen, fun ht ho => ?empty⟩⟩
  case passed =>
    rcases ho with ho | ho <;>
      exact RuleState.takeOutcome_passed (by rw [ho]; rfl) (.inl (by rw [ho]; exact nofun)) expected
  case seen => exact RuleState.takeOutcome_tripped he hw (rec.outcome.qualifies_iff.2 hq) ht expected
  case empty => exact RuleState.takeOutcome_passed (by rw [ho]; rfl) (.inr ht) expected

/-- Settles O29: the conditions on their contents, a qualifying record judged, and a boundary at the blind count. -/
theorem tripRulesLatch : Obligations.TripRulesLatch := by
  refine ⟨fun rule expected o => ⟨fun v holder self dup => ?extreme, fun w => ?word, fun a => ?set, fun g differs => ?digest,
    conditionHolds_count expected o, conditionHolds_none expected o⟩,
    fun rule expected r rec cycle he => ⟨fun hw ht hq => ?record,
      fun h0 => RuleState.takeBoundary_unlimited (.inr h0) cycle,
      fun hb h => RuleState.takeBoundary_rises he hb h cycle,
      fun hb ht hn => RuleState.takeBoundary_latches he hb ht hn cycle⟩⟩
  case extreme =>
    exact ⟨fun h => conditionHolds_above expected o h v holder self dup,
      fun h => conditionHolds_below expected o h v holder self dup, rfl⟩
  case word =>
    exact ⟨fun h => conditionHolds_maskSet expected o h w, fun h => conditionHolds_maskClear expected o h w, rfl⟩
  case set => exact ⟨fun h => conditionHolds_rosterShort expected o h a, rfl⟩
  case digest => exact ⟨fun h => conditionHolds_disagree expected o h g differs, rfl⟩
  case record =>
    rw [RuleState.takeOutcome_judged he hw (rec.outcome.qualifies_iff.2 hq) ht]
    exact ⟨RuleState.judge_unmet, RuleState.judge_counts, RuleState.judge_latches⟩

/-- The reason of a trip stands where the condition holds on a qualifying latest entry, or the rule is blind (R143). -/
theorem State.reasonStands_iff (s : State) (n : Fin 8) : s.reasonStands n = true ↔
    (∃ e o, s.latestOf s.image.rules[n].watched = some e ∧ e.last = some o ∧ o.qualifies = true ∧
      conditionHolds s.image.rules[n] s.image.settings.expected o e.content = true) ∨
    (s.image.rules[n].blind ≠ 0 ∧ s.image.rules[n].blind ≤ s.trip[n].blind) := by
  unfold State.reasonStands
  rw [Bool.or_eq_true]
  refine or_congr ?onLatest (by rw [Bool.and_eq_true, bne_iff_ne, decide_eq_true_iff])
  case onLatest =>
    cases s.latestOf s.image.rules[n].watched with
    | none => simp
    | some e => cases hlast : e.last <;> simp [hlast]

theorem State.clearTrip_untripped {s : State} {n : Fin 8} (h : s.trip[n].status ≠ .tripped) :
    s.clearTrip n = s.respond .ok :=
  if_neg fun hlatched => h hlatched.1

theorem State.clearTrip_tripped {s : State} {n : Fin 8} (h : s.trip[n].status = .tripped)
    (he : s.image.rules[n].enabled = true) : s.clearTrip n =
      if s.reasonStands n then s.respond .conditionHolds
      else ({ s with trip := s.trip.set n s.trip[n].unlatched }).respond .ok :=
  if_pos ⟨h, he⟩

/-- Only an enabled rule is ever TRIPPED (R133). -/
theorem ruleStateWf.enabled {rule : TripRule} {r : RuleState} (h : ruleStateWf rule r) (ht : r.status = .tripped) :
    rule.enabled = true := by
  obtain ⟨hdisabled, _⟩ := h
  by_contra he
  rw [hdisabled (eq_false_of_ne_true he)] at ht
  cases ht

theorem checkRule_number (n : Fin 8) : checkRule (numByte n.val) = some n := indexBelow_number n (by decide)

/-- Settles O27: the three answers of CLEAR_TRIP, by the rule's state and whether its reason stands. -/
theorem clearTripUnlatches : Obligations.ClearTripUnlatches := by
  intro s hs hsound n
  dsimp only
  rw [exec_clearTrip, hs.take (checkRule_number n), ← s.reasonStands_iff n]
  refine ⟨fun ht => ?_, fun ht hstands => ?_, fun ht hgone => ?_⟩
  · rw [State.clearTrip_untripped ht]
    rfl
  · rw [State.clearTrip_tripped ht ((hsound n).enabled ht), if_pos hstands]
    rfl
  · rw [State.clearTrip_tripped ht ((hsound n).enabled ht), if_neg hgone]
    rfl

/-- A TRIP output is asserted while an enabled rule assigned to it is TRIPPED (R142). -/
theorem State.tripOutput_iff (s : State) (o : TripOutput) : s.tripOutput o = true ↔
    ∃ n : Fin 8, s.image.rules[n].enabled = true ∧ s.image.rules[n].output = o ∧ s.trip[n].status = .tripped := by
  unfold State.tripOutput
  simp only [List.any_eq_true, List.mem_finRange, true_and, Bool.and_eq_true, beq_iff_eq, and_assoc]

/-- In CONFIG and COMMITTING no rule is TRIPPED (R142). -/
theorem State.BlocksFollowStation.untripped {s : State} (h : s.BlocksFollowStation)
    (hrest : s.control.station.running = false) (n : Fin 8) : s.trip[n].status ≠ .tripped := by
  obtain ⟨_, _, _, _, _, _, _, htrip, _⟩ := h.1 hrest
  rw [htrip, show (Vector.replicate 8 ({} : RuleState))[n] = {} from Vector.getElem_replicate _]
  exact nofun

/-- Settles O30: an output from the rules assigned to it, and its bit from the live bits of the flag word. -/
theorem tripOutputsFollowTheRules : Obligations.TripOutputsFollowTheRules := by
  intro s hb
  obtain ⟨_, _, htrip0, htrip1⟩ := s.flagWordFor_liveBits s.sched.cycle
  refine ⟨s.tripOutput_iff, fun hrest => ⟨hb.untripped hrest, fun o => eq_false_of_ne_true fun hout => ?_⟩, htrip0, htrip1⟩
  obtain ⟨n, _, _, ht⟩ := (s.tripOutput_iff o).1 hout
  exact hb.untripped hrest n ht

end Sys2Proof.Machine
end

section
/-! The judgement of a round (R153, R157 to R159): the station state it gives on the count of FAULT entries, the cause it sets,
and ROUND_END, the boundary around it. -/

namespace Sys2Proof.Machine

/-- The station state that the judgement of a round gives, on the count of FAULT entries (R153, R158, R159). -/
def stationAfterRound (station : StationState) (anchorNoted : Bool) (faults : Nat) : StationState :=
  match station with
  | .joining => if anchorNoted then (if faults < 6 then .active else .silent) else .joining
  | .active => if 6 ≤ faults then .silent else .active
  | .silent => if faults ≤ 1 then .active else .silent
  | x => x

theorem stationAfterRound_running {station : StationState} (h : station.running = true) (anchorNoted : Bool) (faults : Nat) :
    (stationAfterRound station anchorNoted faults).running = true := by
  unfold stationAfterRound
  split
  · split_ifs <;> rfl
  · split <;> rfl
  · split <;> rfl
  · exact h

/-- The judgement leaves an ACTIVE station with fewer than 6 FAULT entries, and a SILENT one with at least 2 (R158, R159). -/
theorem stationAfterRound_confines (station : StationState) (anchorNoted : Bool) (faults : Nat) :
    (stationAfterRound station anchorNoted faults = .active → faults < 6) ∧
    (stationAfterRound station anchorNoted faults = .silent → 2 ≤ faults) := by
  unfold stationAfterRound
  cases station with
  | joining =>
    dsimp only
    split_ifs
    · exact ⟨fun _ => ‹_›, nofun⟩
    · exact ⟨nofun, fun _ => by omega⟩
    · exact ⟨nofun, nofun⟩
  | active =>
    dsimp only
    split_ifs
    · exact ⟨nofun, fun _ => by omega⟩
    · exact ⟨fun _ => by omega, nofun⟩
  | silent =>
    dsimp only
    split_ifs
    · exact ⟨fun _ => by omega, nofun⟩
    · exact ⟨nofun, fun _ => by omega⟩
  | config => exact ⟨nofun, nofun⟩
  | committing => exact ⟨nofun, nofun⟩

/-- SILENT_ENTERED is set where a station enters SILENT, and nowhere else (R153, R158). -/
def alertsAfterRound (old new : StationState) (alerts : BitVec 12) : BitVec 12 :=
  if new = .silent ∧ old ≠ .silent then alerts ||| 0x020 else alerts

theorem alertsAfterRound_same (station : StationState) (alerts : BitVec 12) :
    alertsAfterRound station station alerts = alerts := if_neg fun h => h.2 h.1

theorem alertsAfterRound_enter {station : StationState} (h : station ≠ .silent) (alerts : BitVec 12) :
    alertsAfterRound station .silent alerts = alerts ||| 0x020 := if_pos ⟨rfl, h⟩

theorem alertsAfterRound_active (station : StationState) (alerts : BitVec 12) :
    alertsAfterRound station .active alerts = alerts := if_neg fun h => nomatch h.1

/-- A station that enters SILENT sets its cause and lets LTXD go (R1, R153, R158). -/
theorem State.enterSilent_eq {s : State} (h : s.control.station ≠ .silent) : s.enterSilent = { s with
    line.ltxd := .high
    control := { s.control with
      station := .silent, alerts := alertsAfterRound s.control.station .silent s.control.alerts } } := by
  rw [alertsAfterRound_enter h]
  rfl

theorem State.enterActive_eq (s : State) : s.enterActive = { s with
    control := { s.control with
      station := .active, alerts := alertsAfterRound s.control.station .active s.control.alerts } } := by
  rw [alertsAfterRound_active]
  rfl

/-- The judgement of a round: LTXD, the station state and SILENT_ENTERED (R157 to R159). -/
theorem State.judgeRound_eq (s : State) (anchorNoted : Bool) :
    ∃ ltxd, s.judgeRound anchorNoted = { s with
      line.ltxd := ltxd
      control := { s.control with
        station := stationAfterRound s.control.station anchorNoted s.faultCount
        alerts := alertsAfterRound s.control.station (stationAfterRound s.control.station anchorNoted s.faultCount)
          s.control.alerts } } := by
  have stays : ∃ ltxd, s = { s with
      line.ltxd := ltxd
      control := { s.control with
        station := s.control.station
        alerts := alertsAfterRound s.control.station s.control.station s.control.alerts } } :=
    ⟨s.line.ltxd, by rw [alertsAfterRound_same]⟩
  have entersActive := s.enterActive_eq
  have entersSilent := s.enterSilent_eq
  unfold State.judgeRound State.leaveJoining stationAfterRound silentFaults
  cases hst : s.control.station with
  | joining =>
    rw [hst] at stays entersActive entersSilent
    dsimp only
    split_ifs
    · exact ⟨s.line.ltxd, entersActive⟩
    · exact ⟨.high, entersSilent nofun⟩
    · exact stays
  | active =>
    rw [hst] at stays entersSilent
    dsimp only
    split_ifs
    · exact ⟨.high, entersSilent nofun⟩
    · exact stays
  | silent =>
    rw [hst] at stays entersActive
    dsimp only
    split_ifs
    · exact ⟨s.line.ltxd, entersActive⟩
    · exact stays
  | config =>
    rw [hst] at stays
    exact stays
  | committing =>
    rw [hst] at stays
    exact stays

/-- In RECOVER a boundary drives LTXD HIGH (R1, R6, R12). -/
theorem State.driveNext_recover {s : State} (he : s.line.engine = .recover) (hm : s.line.ownMark = .none) (line : Level) :
    s.driveNext line = { s with line.ltxd := .high } := by
  have hdrive : s.driveLevel = .high := by
    rw [State.driveLevel_eq, he]
    cases s.control.station <;> rfl
  rw [State.driveNext_follows (by rw [hm]; nofun), hdrive]
  unfold State.startCode
  rw [he, if_neg fun h => nomatch h.2.1]

/-- The boundary that ends an objection bit (R153, R157 to R159): the round judged, and LTXD HIGH. -/
theorem State.boundary_ending {s : State} (hs : s.held = false) (he : s.line.engine = .recover)
    (hend : s.control.roundEnding = true) (hm : s.line.ownMark = .none) (line : Level) :
    s.boundary line = { s with
      line := { s.line with ltxd := .high, lrxd := line, bitTimer := 0 }
      control := { s.control with
        roundEnding := false, anchorNoted := false
        station := stationAfterRound s.control.station s.control.anchorNoted s.faultCount
        alerts := alertsAfterRound s.control.station
          (stationAfterRound s.control.station s.control.anchorNoted s.faultCount) s.control.alerts } } := by
  rw [State.boundary_of_listens (State.listens_of hs (by rw [he]; nofun)), State.endRound, if_pos hend]
  obtain ⟨_, hjudge⟩ := State.judgeRound_eq { s with
    line := { s.line with lrxd := line, bitTimer := 0 }
    control.roundEnding := false, control.anchorNoted := false } s.control.anchorNoted
  rw [hjudge, State.driveNext_recover (by exact he) (by exact hm)]
  rfl

/-- Settles O40: a boundary in RECOVER with a round ending. -/
theorem roundEndJudgesTheWindow : Obligations.RoundEndJudgesTheWindow := by
  intro s line hs he hend hm _
  refine ⟨_, by rw [exec_roundEnd, State.onlyIf_true hend, State.boundary_ending hs he hend hm], rfl, ?_, rfl⟩
  show stationAfterRound s.control.station s.control.anchorNoted s.faultCount = _
  unfold stationAfterRound
  cases s.control.station <;> rfl

end Sys2Proof.Machine
end

section
/-! Station states through every step (chapter 9): which effects a held station, a resting one and a running one meet, and from
that the blocks at rest in CONFIG and COMMITTING. -/

namespace Sys2Proof.Machine

/-- Every block at its reset values (R150, R151): what stands in CONFIG and COMMITTING. -/
def State.AtRest (s : State) : Prop :=
  s.line = { lrxd := s.line.lrxd } ∧ s.round = {} ∧ s.sched = {} ∧ s.meas = {} ∧ s.source = {} ∧ s.store = {} ∧
  s.peers = {} ∧ s.trip = Vector.replicate 8 {} ∧
  s.control = { station := s.control.station, resetCause := s.control.resetCause, commitTimer := s.control.commitTimer }

/-- Outside JOINING, ACTIVE and SILENT the blocks are to be at rest (R150, R151). -/
theorem State.blocksFollowStation_of_atRest {s : State} (hr : s.control.station.running = false) (h : s.AtRest) :
    s.BlocksFollowStation :=
  ⟨fun _ => h, fun hr' => absurd (hr.symm.trans hr') Bool.false_ne_true⟩

/-- In JOINING, ACTIVE and SILENT the line engine is to be out of OFF (R8). -/
theorem State.blocksFollowStation_of_running {s : State} (hr : s.control.station.running = true)
    (he : s.line.engine ≠ .off) : s.BlocksFollowStation :=
  ⟨fun hr' => absurd (hr'.symm.trans hr) Bool.false_ne_true, fun _ => he⟩

/-- Every reset leaves the blocks at rest (R165, R166). -/
theorem State.resetBlocks_atRest (s : State) (cause : ResetCause) : (s.resetBlocks cause).AtRest :=
  ⟨rfl, rfl, rfl, rfl, rfl, rfl, rfl, rfl, rfl⟩

/-- With RESETN HIGH nothing is asked of the values of a held station (R165). -/
theorem State.heldAtReset_of_released {s : State} (h : s.held = false) : s.HeldAtReset :=
  fun hs => absurd (h.symm.trans hs) Bool.false_ne_true

theorem State.held_congr {s t : State} (h : t.resetn = s.resetn) : t.held = s.held := by
  unfold State.held
  rw [h]

/-- The line engine takes samples and boundaries only out of reset and outside OFF (R8). -/
theorem State.listens_iff (s : State) : s.listens = true ↔ s.held = false ∧ s.line.engine ≠ .off := by
  unfold State.listens
  simp

/-- A run command leaves RESETN, and of Station Control changes the alerts and the counters alone. -/
theorem RunEffect.keeps_control {s t : State} (h : RunEffect s t) :
    t.resetn = s.resetn ∧
      t.control = { s.control with alerts := t.control.alerts, counters := t.control.counters } := by
  cases h with
  | post c _ =>
    obtain ⟨_, _, _, h⟩ := s.post_changes .command c
    rw [h]
    exact ⟨rfl, rfl⟩
  | begin _ =>
    rw [State.beginScan_only]
    exact ⟨rfl, rfl⟩
  | resume _ =>
    rw [State.resume_only]
    exact ⟨rfl, rfl⟩
  | inject n raw _ =>
    obtain ⟨_, _, _, _, h⟩ := s.writeSample_changes n raw true
    rw [h]
    exact ⟨rfl, rfl⟩
  | _ => exact ⟨rfl, rfl⟩

/-- A port command leaves RESETN, and is not taken while it is LOW (R165). -/
theorem PortEffect.keeps_held {s t : State} (h : PortEffect s t) : t.held = s.held ∧ (s.held = true → t = s) := by
  have refused : s.held = false → s.held = true → t = s := fun hn hs => absurd (hn.symm.trans hs) Bool.false_ne_true
  cases h with
  | none => exact ⟨rfl, fun _ => rfl⟩
  | softReset hn => exact ⟨rfl, refused hn⟩
  | image im hn _ _ => exact ⟨rfl, refused hn⟩
  | commit hn _ _ => exact ⟨rfl, refused hn⟩
  | run t hn _ he => exact ⟨State.held_congr he.keeps_control.1, refused hn⟩

/-- No sample stops the line engine (R8 to R16). -/
theorem State.sample_engine {s : State} (h : s.listens = true) (lv : Level) : (s.sample lv).line.engine ≠ .off := by
  obtain ⟨hs, ho⟩ := s.listens_iff.1 h
  cases he : s.line.engine with
  | off => exact absurd he ho
  | recover =>
    rw [State.sample_recover hs he]
    unfold State.sampleRecover
    split
    · exact nofun
    split
    · exact nofun
    · exact ho
  | stuck =>
    rw [State.sample_stuck hs he]
    unfold State.sampleStuck
    split
    · exact nofun
    · exact ho
  | idle =>
    rw [State.sample_idle hs he]
    unfold State.sampleIdle State.sampleFirst
    split
    · cases lv with
      | low => exact nofun
      | high =>
        rw [State.sampleSecond_high]
        exact nofun
    · cases lv with
      | low => exact ho
      | high =>
        dsimp only
        split
        · exact ho
        · exact ho
  | round =>
    rcases State.sample_inside_round hs he lv with hl | hl
    · rw [hl]
      exact ho
    · rw [hl]
      exact nofun

/-- The end of a round leaves a running station running (R157 to R159). -/
theorem State.endRound_running {s : State} (h : s.control.station.running = true) :
    s.endRound.control.station.running = true := by
  unfold State.endRound
  split
  · obtain ⟨_, hjudge⟩ :=
      ({ s with control.roundEnding := false, control.anchorNoted := false } : State).judgeRound_eq s.control.anchorNoted
    rw [hjudge]
    exact stationAfterRound_running h _ _
  · exact h

/-- An expiry leaves a running station running (R154). -/
theorem State.judgeExpiry_running {s : State} (h : s.control.station.running = true) :
    s.judgeExpiry.control.station.running = true := by
  by_cases hj : s.control.station = .joining
  · rw [State.judgeExpiry_joining hj]
    split_ifs
    · rfl
    · rfl
    · exact h
  · rwa [State.judgeExpiry_other hj]

/-- A boundary leaves a running station running, and its line engine where it is (R6). -/
theorem State.boundary_running {s : State} (hl : s.listens = true) (hr : s.control.station.running = true) (line : Level) :
    (s.boundary line).control.station.running = true ∧ (s.boundary line).line.engine = s.line.engine := by
  have ended := State.endRound_running (s := { s with line := { s.line with lrxd := line, bitTimer := 0 } }) hr
  obtain ⟨_, _, _, _, _, hend⟩ := State.endRound_changes { s with line := { s.line with lrxd := line, bitTimer := 0 } }
  obtain ⟨_, _, hdrive⟩ :=
    ({ s with line := { s.line with lrxd := line, bitTimer := 0 } } : State).endRound.driveNext_changes line
  rw [State.boundary_of_listens hl, hdrive]
  refine ⟨ended, ?_⟩
  rw [hend]

/-- A port command keeps the blocks with the station state: it leaves both, resets both, or acts in CONFIG on the image and the
station state alone (R166, R175, R187). -/
theorem PortEffect.blocksFollowStation {s t : State} (he : PortEffect s t) (h : s.BlocksFollowStation) :
    t.BlocksFollowStation := by
  cases he with
  | none => exact h
  | softReset _ => exact State.blocksFollowStation_of_atRest rfl (s.resetBlocks_atRest .soft)
  | image im _ _ _ => exact h
  | commit _ hc _ =>
    obtain ⟨hline, hround, hsched, hmeas, hsource, hstore, hpeers, htrip, hcontrol⟩ := h.1 (by rw [hc]; rfl)
    refine State.blocksFollowStation_of_atRest rfl ⟨hline, hround, hsched, hmeas, hsource, hstore, hpeers, htrip, ?_⟩
    show { s.control with station := .committing, commitTimer := 0 } = _
    rw [hcontrol]
    rfl
  | run t _ hr he =>
    obtain ⟨hline, _, _, hstation⟩ := he.keeps_line
    refine State.blocksFollowStation_of_running ?_ ?_
    · rwa [hstation]
    · rw [hline]
      exact h.2 hr

/-- Every effect keeps the blocks with the station state. -/
theorem Effect.blocksFollowStation {s t : State} (he : Effect s t) (h : s.BlocksFollowStation) : t.BlocksFollowStation := by
  cases he with
  | port t p hp _ => exact hp.blocksFollowStation h
  | hardReset => exact State.blocksFollowStation_of_atRest rfl (s.resetBlocks_atRest .hard)
  | release _ => exact State.blocksFollowStation_of_atRest rfl (s.resetBlocks_atRest .hard)
  | complete _ _ =>
    rw [State.resume_only]
    exact State.blocksFollowStation_of_running rfl nofun
  | sample lv hl =>
    have hr := State.running_of_listens h hl
    refine State.blocksFollowStation_of_running ?_ (State.sample_engine hl lv)
    obtain ⟨_, _, _, _, _, _, _, _, _, _, _, _, _, _, _, _, _, _, _, hx⟩ := s.sample_changes lv
    rw [hx]
    exact hr
  | boundary line hl =>
    obtain ⟨hr, hengine⟩ := State.boundary_running hl (State.running_of_listens h hl) line
    refine State.blocksFollowStation_of_running hr ?_
    rw [hengine]
    exact (s.listens_iff.1 hl).2
  | expire _ hr =>
    obtain ⟨_, _, _, _, _, _, hx⟩ := s.cycleBoundary_changes
    refine State.blocksFollowStation_of_running (State.judgeExpiry_running ?_) ?_
    · rw [State.restartTimer_control, hx]
      exact hr
    · rw [State.judgeExpiry_only]
      show s.cycleBoundary.line.engine ≠ .off
      rw [hx]
      exact h.2 hr
  | settle _ _ _ _ hs =>
    have hr := State.running_of_scanning h hs
    exact State.blocksFollowStation_of_running hr (h.2 hr)
  | conversion _ _ _ hs _ _ =>
    have hr := State.running_of_scanning h hs
    obtain ⟨_, _, _, _, _, hx⟩ := s.completeConversion_changes
    rw [hx]
    exact State.blocksFollowStation_of_running hr (h.2 hr)

/-- At rest a crystal period moves LRXD and the timer of the digest computation at most: every other timer is stopped (R8,
R50, R93, R179). -/
theorem TickEffect.blocksFollowStation {s t : State} (ht : TickEffect s t) (h : s.BlocksFollowStation) :
    t.BlocksFollowStation := by
  obtain ⟨_, _, lrxd, bitTimer, convTimer, cycleTimer, commitTimer, _, rfl, _, hbit, hconv, hcycle, _⟩ := ht
  cases hr : s.control.station.running with
  | true => exact State.blocksFollowStation_of_running hr (h.2 hr)
  | false =>
    obtain ⟨hline, hround, hsched, hmeas, hsource, hstore, hpeers, htrip, hcontrol⟩ := h.1 hr
    have bit : bitTimer = s.line.bitTimer := hbit.resolve_right fun ⟨ho, _⟩ => ho (by rw [hline])
    have conv : convTimer = s.meas.timer := hconv.resolve_right fun hs => by
      rw [hmeas] at hs
      cases hs
    have cycle : cycleTimer = s.sched.timer := hcycle.resolve_right fun ⟨hr', _⟩ =>
      absurd (hr.symm.trans hr') Bool.false_ne_true
    subst bit conv cycle
    refine State.blocksFollowStation_of_atRest hr ⟨?_, hround, hsched, hmeas, hsource, hstore, hpeers, htrip, ?_⟩
    · show { s.line with lrxd := lrxd } = ({ lrxd := lrxd } : Lif)
      rw [hline]
    · show { s.control with commitTimer := commitTimer } = _
      rw [hcontrol]

/-- Every effect keeps a held station at the values of a hard reset: while RESETN is LOW nothing but the port's wires moves
(R165, R184). -/
theorem Effect.heldAtReset {s t : State} (he : Effect s t) (h : s.HeldAtReset) : t.HeldAtReset := by
  cases he with
  | port t p hp hk =>
    obtain ⟨hheld, hsame⟩ := hp.keeps_held
    intro ht
    have hs : s.held = true := hheld.symm.trans ht
    obtain ⟨hstation, hcause, himage, hkept, hslot, hopen, hmiso⟩ := h hs
    obtain ⟨hslot', hmiso', hopen'⟩ := hk.2.2 hs
    rw [hsame hs]
    refine ⟨hstation, hcause, himage, hkept, hslot'.trans hslot, eq_false_of_ne_true fun ho => ?_, hmiso'.trans hmiso⟩
    exact Bool.false_ne_true (hopen.symm.trans (hopen' ho))
  | hardReset => exact fun _ => ⟨rfl, rfl, rfl, rfl, rfl, rfl, rfl⟩
  | release _ => exact State.heldAtReset_of_released rfl
  | complete hs _ =>
    rw [State.resume_only]
    exact State.heldAtReset_of_released hs
  | sample lv hl =>
    obtain ⟨_, _, _, _, _, _, _, _, _, _, _, _, _, _, _, _, _, _, _, hx⟩ := s.sample_changes lv
    rw [hx]
    exact State.heldAtReset_of_released (s.listens_iff.1 hl).1
  | boundary line hl =>
    obtain ⟨_, _, _, _, _, _, _, _, hx⟩ := s.boundary_changes line
    rw [hx]
    exact State.heldAtReset_of_released (s.listens_iff.1 hl).1
  | expire hs hr =>
    obtain ⟨_, _, _, _, _, _, _, _, _, _, hx⟩ := s.expire_changes
    rw [← State.expire_runs hs hr, hx]
    exact State.heldAtReset_of_released hs
  | settle _ _ _ hs _ => exact State.heldAtReset_of_released hs
  | conversion _ _ hs _ _ _ =>
    obtain ⟨_, _, _, _, _, hx⟩ := s.completeConversion_changes
    rw [hx]
    exact State.heldAtReset_of_released hs

/-- A crystal period leaves RESETN, the station state, the image and the port (R165). -/
theorem TickEffect.heldAtReset {s t : State} (ht : TickEffect s t) (h : s.HeldAtReset) : t.HeldAtReset := by
  obtain ⟨_, _, _, _, _, _, _, _, rfl, _⟩ := ht
  exact h

/-- Settles O52: every effect keeps both properties, and so does a crystal period. -/
theorem stepKeepsBlocksAtRest : Obligations.StepKeepsBlocksAtRest := by
  intro s t hb hh hs
  rcases step_effect hs with ⟨rest, he⟩ | ⟨_, ht⟩
  · exact ⟨Effect.blocksFollowStation (s := { s with pending := rest }) he hb,
      Effect.heldAtReset (s := { s with pending := rest }) he hh⟩
  · exact ⟨ht.blocksFollowStation hb, ht.heldAtReset hh⟩

end Sys2Proof.Machine
end

section
/-! Confinement by the fault window (R153 to R159): every judgement leaves a confined station, and between judgements nothing
that confinement looks at moves, unless a round is ending. -/

namespace Sys2Proof.Machine

/-- Confinement looks at the station state, the fault window and the ending round alone. -/
theorem State.ConfinementSound.congr {s t : State} (h : s.ConfinementSound) (hs : t.control.station = s.control.station)
    (hw : t.control.window = s.control.window) (he : t.control.roundEnding = s.control.roundEnding) :
    t.ConfinementSound := by
  unfold State.ConfinementSound State.faultCount
  rw [hs, hw, he]
  exact h

/-- Outside ACTIVE and SILENT the fault window confines nothing (R158, R159). -/
theorem State.confinementSound_of_other {s : State} (ha : s.control.station ≠ .active)
    (hs : s.control.station ≠ .silent) : s.ConfinementSound :=
  ⟨fun h => absurd h ha, fun h => absurd h hs⟩

/-- From an objection bit's sample to its end the window awaits its judgement (R157). -/
theorem State.confinementSound_of_ending {s : State} (h : s.control.roundEnding = true) : s.ConfinementSound :=
  ⟨fun _ => .inr h, fun _ => .inr h⟩

/-- The judgement of a round confines the station, whatever the window held (R157 to R159). -/
theorem State.judgeRound_confined (s : State) (anchorNoted : Bool) : (s.judgeRound anchorNoted).ConfinementSound := by
  obtain ⟨hactive, hsilent⟩ := stationAfterRound_confines s.control.station anchorNoted s.faultCount
  obtain ⟨_, hjudge⟩ := s.judgeRound_eq anchorNoted
  rw [hjudge]
  exact ⟨fun h => .inl (hactive h), fun h => .inl (hsilent h)⟩

theorem State.endRound_confined {s : State} (h : s.ConfinementSound) : s.endRound.ConfinementSound := by
  unfold State.endRound
  split
  · exact State.judgeRound_confined _ _
  · exact h

/-- An expiry judges a JOINING station on the side of the window's count, or none (R153, R154). -/
theorem State.judgeExpiry_confined {s : State} (h : s.ConfinementSound) : s.judgeExpiry.ConfinementSound := by
  by_cases hj : s.control.station = .joining
  · rw [State.judgeExpiry_joining hj]
    split_ifs with _ hcount
    · exact ⟨fun _ => .inl hcount, nofun⟩
    · exact ⟨nofun, fun _ => .inl (Nat.le_trans (by decide) (Nat.le_of_not_lt hcount))⟩
    · exact h
  · rwa [State.judgeExpiry_other hj]

theorem PortEffect.confined {s t : State} (he : PortEffect s t) (h : s.ConfinementSound) : t.ConfinementSound := by
  cases he with
  | none => exact h
  | softReset _ => exact State.confinementSound_of_other nofun nofun
  | image im _ _ _ => exact h
  | commit _ _ _ => exact State.confinementSound_of_other nofun nofun
  | run t _ _ he =>
    obtain ⟨_, hcontrol⟩ := he.keeps_control
    exact h.congr (by rw [hcontrol]) (by rw [hcontrol]) (by rw [hcontrol])

/-- A sample moves the fault window at a delivery alone, and from there on the round is ending (R41, R157). -/
theorem SampleEffect.confined {s t : State} {lv : Level} (he : SampleEffect s lv t) (h : s.ConfinementSound) :
    t.ConfinementSound := by
  cases he with
  | quiet _ _ _ _ _ => exact h
  | recognition _ =>
    obtain ⟨_, _, _, _, _, _, _, _, _, _, _, _, _, _, _, _, _, hx⟩ := (s.atCode lv).recognise_changes
    rw [hx]
    exact h
  | delivery _ =>
    obtain ⟨_, _, _, _, _, _, _, _, hx⟩ :=
      (s.atDelivery lv).deliverRecord_changes (s.round.recordOf lv) s.round.isFault
    rw [hx]
    exact State.confinementSound_of_ending rfl

/-- Every effect keeps the station confined. -/
theorem Effect.confined {s t : State} (he : Effect s t) (h : s.ConfinementSound) : t.ConfinementSound := by
  cases he with
  | port t p hp _ => exact hp.confined h
  | hardReset => exact State.confinementSound_of_other nofun nofun
  | release _ => exact State.confinementSound_of_other nofun nofun
  | complete _ _ =>
    rw [State.resume_only]
    exact State.confinementSound_of_other nofun nofun
  | sample lv hl => exact (State.sample_sampleEffect hl lv).confined h
  | boundary line hl =>
    rw [State.boundary_of_listens hl]
    generalize hu : ({ s with line := { s.line with lrxd := line, bitTimer := 0 } } : State) = u
    have hconfined : u.ConfinementSound := by
      rw [← hu]
      exact h
    obtain ⟨_, _, hdrive⟩ := u.endRound.driveNext_changes line
    rw [hdrive]
    exact State.endRound_confined hconfined
  | expire _ _ =>
    refine State.judgeExpiry_confined ?_
    obtain ⟨_, _, _, _, _, _, hx⟩ := s.cycleBoundary_changes
    rw [hx]
    exact h
  | settle _ _ _ _ _ => exact h
  | conversion _ _ _ _ _ _ =>
    obtain ⟨_, _, _, _, _, hx⟩ := s.completeConversion_changes
    rw [hx]
    exact h

/-- A crystal period reaches nothing that confinement looks at. -/
theorem TickEffect.confined {s t : State} (ht : TickEffect s t) (h : s.ConfinementSound) : t.ConfinementSound := by
  obtain ⟨_, _, _, _, _, _, _, _, rfl, _⟩ := ht
  exact h

/-- Settles O58: every effect keeps the station confined, and so does a crystal period. -/
theorem stepKeepsConfinement : Obligations.StepKeepsConfinement := by
  intro s t _ h hs
  rcases step_effect hs with ⟨rest, he⟩ | ⟨_, ht⟩
  · exact Effect.confined (s := { s with pending := rest }) he h
  · exact ht.confined h

end Sys2Proof.Machine
end

section
/-! The resets (R165, R166, R184): every block's values after each, and the machine right after a hard one. -/

namespace Sys2Proof.Machine

/-- A reset against the machine right after power-on: RESETN, the clock, LRXD, the image, the port and the queue are its
other parts. -/
theorem State.resetBlocks_eq (s : State) (cause : ResetCause) : s.resetBlocks cause = { State.reset with
    resetn := s.resetn, clock := s.clock, line := { lrxd := s.line.lrxd }, control.resetCause := cause
    image := s.image, kept := keptBy cause s.image, port := s.port, pending := s.pending } := rfl

/-- RESETN LOW (R165, R168, R184). -/
theorem State.hardReset_eq (s : State) : s.hardReset = { State.reset with
    resetn := .low, clock := s.clock, line := { lrxd := s.line.lrxd }
    port := { csn := s.port.csn, sck := s.port.sck, mosi := s.port.mosi }, pending := s.pending } := by
  rw [State.hardReset, State.resetBlocks_eq]
  rfl

/-- RESETN rises (R165). -/
theorem State.releaseReset_held {s : State} (h : s.held = true) : s.releaseReset = { s.hardReset with resetn := .high } :=
  if_pos h

theorem State.releaseReset_released {s : State} (h : s.held = false) : s.releaseReset = s := by
  unfold State.releaseReset
  rw [h]
  rfl

/-- SOFT_RESET (R166, R184). -/
theorem State.softReset_eq (s : State) : s.softReset () = { State.reset with
    resetn := s.resetn, clock := s.clock, line := { lrxd := s.line.lrxd }, control.resetCause := .soft, image := s.image
    kept := s.image.settings
    port := { s.port with buffer := [], bits := [], slot := { status := .resetDone, payload := [1] } }
    pending := s.pending } := by
  rw [State.softReset, State.resetBlocks_eq]
  rfl

/-- Settles O4: each reset from its equation; the port takes SOFT_RESET in every station state. -/
theorem resetsSetEveryBlock : Obligations.ResetsSetEveryBlock := by
  intro s
  refine ⟨?_, fun h => ?_, fun h => ?_, fun h => ?_⟩
  · rw [exec_hardReset, State.hardReset_eq]
  · rw [exec_resetRelease, State.releaseReset_held h, State.hardReset_eq]
    rfl
  · rw [exec_resetRelease, State.releaseReset_released h]
  · rw [exec_softReset, State.take_acts h rfl, State.softReset_eq]

/-- The default slot configurations lie in the ranges of R173. -/
theorem defaultSlot_inRange (n : Fin 16) : slotInRange (defaultSlot n) := by
  unfold slotInRange slotNumberInRange
  decide +revert

/-- The default image lies in its ranges (R168, R169, R173, R174). -/
theorem defaultImage_inRange : imageInRange defaultImage := by
  refine ⟨?_, fun n => ?_, fun n => ?_⟩
  · unfold settingsInRange
    decide
  · rw [show defaultImage.slots[n] = defaultSlot n from Vector.getElem_ofFn n.isLt]
    exact defaultSlot_inRange n
  · rw [show defaultImage.rules[n] = defaultRule from Vector.getElem_replicate n.isLt]
    unfold ruleInRange
    decide

/-- In CONFIG an image in its ranges is all that is asked of it (R170, R175). -/
theorem State.imageSound_of_config {s : State} (hc : s.control.station = .config) (h : imageInRange s.image) :
    s.ImageSound := by
  refine ⟨h, fun hn => absurd hc hn, fun hr => ?_⟩
  rw [hc] at hr
  cases hr

/-- The machine right after reset stands at rest (R165). -/
theorem State.reset_blocksFollowStation : State.reset.BlocksFollowStation :=
  State.blocksFollowStation_of_atRest rfl ⟨rfl, rfl, rfl, rfl, rfl, rfl, rfl, rfl, rfl⟩

/-- Settles O60: each property at the reset values of its block. -/
theorem resetIsSound : Obligations.ResetIsSound := by
  have hblocks := State.reset_blocksFollowStation
  obtain ⟨_, hrest, _⟩ := tripOutputsFollowTheRules State.reset hblocks
  obtain ⟨_, houtput⟩ := hrest rfl
  obtain ⟨htrips, hpeers⟩ := (State.tablesAtStart_of_reset (s := State.reset) rfl rfl).sound
  have hline : State.reset.LineSound := (State.lineSound_iff _).2 (Lif.Sound.at_start _ .high .off (.inl rfl))
  have hslots : State.reset.SlotsSound := (State.slotsSound_iff _).2 (Measurement.sound_start _)
  have htimers : State.reset.TimersSound := ⟨nofun, Nat.zero_lt_succ 999, Nat.zero_lt_succ 7, Nat.zero_lt_succ 7, nofun⟩
  exact ⟨rfl, rfl, rfl, rfl, rfl, houtput .trip0, houtput .trip1, rfl, rfl, nofun, hblocks,
    State.heldAtReset_of_released rfl, State.imageSound_of_config rfl defaultImage_inRange,
    State.pendingSound_of_empty rfl, hline, htrips, hpeers, hslots, State.confinementSound_of_other nofun nofun,
    State.storeSound_of_reset rfl rfl, htimers⟩

end Sys2Proof.Machine
end

section
/-! The configuration image through every step (R168, R175, R176, R178): it changes in CONFIG alone, a COMMIT that validation
accepts is the one way out of CONFIG, and the digest is computed as the commit completes. -/

namespace Sys2Proof.Machine

/-- A running station keeps its image sound while the image and the digest stand. -/
theorem State.ImageSound.of_running {s t : State} (h : s.ImageSound) (hr : s.control.station.running = true)
    (himage : t.image = s.image) (hdigest : t.control.digest = s.control.digest) : t.ImageSound := by
  unfold State.ImageSound
  rw [himage, hdigest]
  obtain ⟨hrange, hvalid, hdig⟩ := h
  exact ⟨hrange, fun _ => hvalid (fun hc => by rw [hc] at hr; cases hr), fun _ => hdig hr⟩

/-- A port command writes values in range in CONFIG, and leaves CONFIG only with a validated image (R170 to R176). -/
theorem PortEffect.imageSound {s t : State} (he : PortEffect s t) (h : s.ImageSound) : t.ImageSound := by
  cases he with
  | none => exact h
  | softReset _ => exact State.imageSound_of_config rfl h.1
  | image im _ hc hr => exact State.imageSound_of_config hc (hr h.1)
  | commit _ _ hv => exact ⟨h.1, fun _ => hv, nofun⟩
  | run t _ hr he =>
    obtain ⟨_, _, himage, _⟩ := he.keeps_line
    obtain ⟨_, hcontrol⟩ := he.keeps_control
    exact h.of_running hr himage (by rw [hcontrol])

/-- The end of a commit leaves the digest of the image committed (R151, R178). -/
theorem State.blocksAtCommit_resume_digest (s : State) : s.blocksAtCommit.resume.control.digest = digestOf s.image := by
  rw [State.resume_only, State.blocksAtCommit]

/-- Every effect keeps the image sound. -/
theorem Effect.imageSound {s t : State} (he : Effect s t) (hb : s.BlocksFollowStation) (h : s.ImageSound) : t.ImageSound := by
  cases he with
  | port t p hp _ => exact hp.imageSound h
  | hardReset => exact State.imageSound_of_config rfl defaultImage_inRange
  | release _ => exact State.imageSound_of_config rfl defaultImage_inRange
  | complete _ hc =>
    obtain ⟨_, _, himage⟩ := s.blocksAtCommit_resume_line
    obtain ⟨hrange, hvalid, _⟩ := h
    unfold State.ImageSound
    rw [himage, s.blocksAtCommit_resume_digest]
    exact ⟨hrange, fun _ => hvalid (by rw [hc]; nofun), fun _ => rfl⟩
  | sample lv hl =>
    obtain ⟨_, _, _, _, _, _, _, _, _, _, _, _, _, _, _, _, _, _, _, hx⟩ := s.sample_changes lv
    exact h.of_running (State.running_of_listens hb hl) (by rw [hx]) (by rw [hx])
  | boundary line hl =>
    obtain ⟨_, _, _, _, _, _, _, _, hx⟩ := s.boundary_changes line
    exact h.of_running (State.running_of_listens hb hl) (by rw [hx]) (by rw [hx])
  | expire hs hr =>
    obtain ⟨_, _, _, _, _, _, _, _, _, _, hx⟩ := s.expire_changes
    rw [← State.expire_runs hs hr]
    exact h.of_running hr (by rw [hx]) (by rw [hx])
  | settle _ _ _ _ _ => exact h
  | conversion _ _ _ hs _ _ =>
    obtain ⟨_, _, _, _, _, hx⟩ := s.completeConversion_changes
    exact h.of_running (State.running_of_scanning hb hs) (by rw [hx]) (by rw [hx])

/-- A crystal period leaves the image, the station state and the digest. -/
theorem TickEffect.imageSound {s t : State} (ht : TickEffect s t) (h : s.ImageSound) : t.ImageSound := by
  obtain ⟨_, _, _, _, _, _, _, _, rfl, _⟩ := ht
  exact h

/-- Settles O53: every effect keeps the image sound, and so does a crystal period. -/
theorem stepKeepsImageSound : Obligations.StepKeepsImageSound := by
  intro s t _ hb h hs
  rcases step_effect hs with ⟨rest, he⟩ | ⟨_, ht⟩
  · exact Effect.imageSound (s := { s with pending := rest }) he hb h
  · exact ht.imageSound h

end Sys2Proof.Machine
end

section
/-! The station state and the arguments before a command acts (R186 to R188): the gate of each command, the argument that an
ill-formed one lacks, and the ranges of the arguments in numbers. -/

namespace Sys2Proof.Machine

/-- A check that does not pass gives no argument. -/
theorem eq_none_of_not_isSome {α : Type} {o : Option α} (h : o.isSome = false) : o = none :=
  Option.isNone_iff_eq_none.1 (Option.isSome_eq_false_iff.1 h)

/-- COMMIT and the writes pass the configuration gate, and an ill-formed one brings no argument to it (R187, R188). -/
theorem exec_configCommand {c : Instr} (h : configCommand c = true) (s : State) :
    ∃ (α : Type) (arg : Option α) (act : α → State → State),
      exec c s = .next (s.take .config arg act) ∧ (c.wellFormed = false → arg = none) := by
  cases c with
  | commit => exact ⟨_, _, _, exec_commit s, nofun⟩
  | writeSettings a => exact ⟨_, _, _, exec_writeSettings a s, eq_none_of_not_isSome⟩
  | writeRound a => exact ⟨_, _, _, exec_writeRound a s, eq_none_of_not_isSome⟩
  | clearRound n => exact ⟨_, _, _, exec_clearRound n s, eq_none_of_not_isSome⟩
  | writeSlot a => exact ⟨_, _, _, exec_writeSlot a s, eq_none_of_not_isSome⟩
  | writeTripRule a => exact ⟨_, _, _, exec_writeTripRule a s, eq_none_of_not_isSome⟩
  | _ => cases h

/-- The run commands pass the run gate, and an ill-formed one brings no argument to it (R187, R188). -/
theorem exec_runCommand {c : Instr} (h : runCommand c = true) (s : State) :
    ∃ (α : Type) (arg : Option α) (act : α → State → State),
      exec c s = .next (s.take .run arg act) ∧ (c.wellFormed = false → arg = none) := by
  have noCode : ∀ {β : Type} {b : Byte} (f : Code → Option β), (codeByte b).isSome = false → (codeByte b).bind f = none :=
    fun f hb => by rw [eq_none_of_not_isSome hb]; rfl
  cases c with
  | readResults n => exact ⟨_, _, _, exec_readResults n s, eq_none_of_not_isSome⟩
  | readLatest n => exact ⟨_, _, _, exec_readLatest n s, noCode _⟩
  | readPeers a n => exact ⟨_, _, _, exec_readPeers a n s, eq_none_of_not_isSome⟩
  | readSlots a n => exact ⟨_, _, _, exec_readSlots a n s, eq_none_of_not_isSome⟩
  | readTrips => exact ⟨_, _, _, exec_readTrips s, nofun⟩
  | postRound n => exact ⟨_, _, _, exec_postRound n s, noCode _⟩
  | startScan => exact ⟨_, _, _, exec_startScan s, nofun⟩
  | stopScan => exact ⟨_, _, _, exec_stopScan s, nofun⟩
  | resumeScan => exact ⟨_, _, _, exec_resumeScan s, nofun⟩
  | inject n raw => exact ⟨_, _, _, exec_inject n raw s, eq_none_of_not_isSome⟩
  | setUserValue v => exact ⟨_, _, _, exec_setUserValue v s, nofun⟩
  | setUserFlags f => exact ⟨_, _, _, exec_setUserFlags f s, nofun⟩
  | clearFlags m => exact ⟨_, _, _, exec_clearFlags m s, nofun⟩
  | clearTrip n => exact ⟨_, _, _, exec_clearTrip n s, eq_none_of_not_isSome⟩
  | clearAlerts m => exact ⟨_, _, _, exec_clearAlerts m s, eq_none_of_not_isSome⟩
  | _ => cases h

/-- NOP, READ_STATUS and SOFT_RESET pass every station state (R187). -/
theorem exec_everyStateCommand {c : Instr} (h : everyStateCommand c = true) (s : State) :
    ∃ act : Unit → State → State, exec c s = .next (s.take .always (some ()) act) := by
  cases c with
  | nop => exact ⟨_, exec_nop s⟩
  | readStatus => exact ⟨_, exec_readStatus s⟩
  | softReset => exact ⟨_, exec_softReset s⟩
  | _ => cases h

/-- Settles O6: every command of the three classes passes its gate. -/
theorem stationGatesCommands : Obligations.StationGatesCommands := by
  intro c s
  refine ⟨fun hs hc => ?_, fun hs hc hst => ?_, fun hs hc hr => ?_, fun hs hc hst => ?_⟩
  · rcases hc with hc | hc | hc
    · obtain ⟨_, _, _, he, _⟩ := exec_configCommand hc s
      rw [he, State.take_held hs]
    · obtain ⟨_, _, _, he, _⟩ := exec_runCommand hc s
      rw [he, State.take_held hs]
    · obtain ⟨_, he⟩ := exec_everyStateCommand hc s
      rw [he, State.take_held hs]
  · rcases hc with hc | hc
    · obtain ⟨_, _, _, he, _⟩ := exec_configCommand hc s
      rw [he, State.take_refused hs (by rw [hst]; rfl), State.respond]
    · obtain ⟨_, _, _, he, _⟩ := exec_runCommand hc s
      rw [he, State.take_refused hs (by rw [hst]; rfl), State.respond]
  · obtain ⟨_, _, _, he, _⟩ := exec_configCommand hc s
    rw [he, State.take_refused hs (Gate.refusal_config_running hr), State.respond]
  · obtain ⟨_, _, _, he, _⟩ := exec_runCommand hc s
    rw [he, State.take_refused hs (by rw [hst]; rfl), State.respond]

/-- A command let through without an argument (R186 step 3). -/
theorem exec_illFormed {c : Instr} {s : State} (hw : c.wellFormed = false)
    (h : (configCommand c = true ∧ s.configuring) ∨ (runCommand c = true ∧ s.runs)) :
    exec c s = .next (s.respond .badArgument) := by
  rcases h with ⟨hc, hs, hst⟩ | ⟨hc, hs, hr⟩
  · obtain ⟨_, arg, act, he, hnone⟩ := exec_configCommand hc s
    rw [he, hnone hw, State.take_bad hs (by rw [hst]; rfl)]
  · obtain ⟨_, arg, act, he, hnone⟩ := exec_runCommand hc s
    rw [he, hnone hw, State.take_bad hs (Gate.refusal_run hr)]

theorem indexBelow_isSome (n : Nat) (b : Byte) : (indexBelow n b).isSome = true ↔ b.toNat < n := by
  unfold indexBelow
  split <;> simp [*]

theorem numberIn_isSome (lo hi : Nat) (b : Byte) : (numberIn lo hi b).isSome = true ↔ lo ≤ b.toNat ∧ b.toNat ≤ hi := by
  unfold numberIn
  split <;> simp [*]

theorem codeByte_isSome (b : Byte) : (codeByte b).isSome = true ↔ b.toNat < 64 := by
  unfold codeByte
  split <;> simp [*]

theorem checkRange_isSome (size : Nat) (first count : Byte) : (checkRange size first count).isSome = true ↔
    first.toNat < size ∧ 1 ≤ count.toNat ∧ count.toNat ≤ 8 ∧ first.toNat + count.toNat ≤ size := by
  unfold checkRange
  split <;> simp [*]

theorem checkInject_isSome (n : Byte) (raw : Word) :
    (checkInject n raw).isSome = true ↔ n.toNat < 16 ∧ raw.toNat < 4096 := by
  rw [← indexBelow_isSome]
  unfold checkInject
  cases indexBelow 16 n with
  | none => simp
  | some i =>
    dsimp only
    split <;> simp [*]

/-- The bits of a word from a position on are clear exactly where the word is below the power of that position. -/
theorem toNat_lt_pow_iff {w : Nat} (m : BitVec w) (i : Nat) : m.toNat < 2 ^ i ↔ ∀ k, i ≤ k → m.getLsbD k = false :=
  ⟨fun h _ hk => Nat.testBit_lt_two_pow (Nat.lt_of_lt_of_le h (Nat.pow_le_pow_right Nat.two_pos hk)),
    fun h => Nat.lt_pow_two_of_testBit _ h⟩

theorem causeMask_isSome (m : Word) : (causeMask m).isSome = true ↔ m.toNat < 2 ^ 12 := by
  unfold causeMask
  split <;> simp [*]

/-- Settles O7: the gate lets the command through with no argument, and each check passes exactly on its range. -/
theorem illFormedIsBadArgument : Obligations.IllFormedIsBadArgument := by
  refine ⟨fun c s hw h => exec_illFormed hw h, fun n => ⟨?_, ?_, ?_, ?_, ?_⟩, fun first count => ⟨?_, ?_⟩,
    fun n raw => ?_, fun m => ?_⟩
  · exact (indexBelow_isSome 24 n).trans Nat.lt_succ_iff
  · exact numberIn_isSome 1 8 n
  · exact (codeByte_isSome n).trans Nat.lt_succ_iff
  · exact (codeByte_isSome n).trans Nat.lt_succ_iff
  · exact (indexBelow_isSome 8 n).trans Nat.lt_succ_iff
  · exact (checkRange_isSome 32 first count).trans (and_congr_left' Nat.lt_succ_iff)
  · exact (checkRange_isSome 16 first count).trans (and_congr_left' Nat.lt_succ_iff)
  · exact (checkInject_isSome n raw).trans (and_congr Nat.lt_succ_iff Nat.lt_succ_iff)
  · exact (causeMask_isSome m).trans (toNat_lt_pow_iff m 12)

end Sys2Proof.Machine
end

section
/-! The writes of the configuration image and COMMIT (R170 to R175): in CONFIG a write acts exactly on the fields that spell a
record in range, and a COMMIT answers what validation finds. -/

namespace Sys2Proof.Machine

section Configuring

variable {s : State} {α : Type}

/-- In CONFIG a request with its argument acts (R187). -/
theorem State.configuring.take_acts (h : s.configuring) (a : α) (act : α → State → State) :
    s.take .config (some a) act = act a s := by
  obtain ⟨hs, hc⟩ := h
  exact State.take_acts hs (by rw [hc]; rfl) a act

/-- In CONFIG a request without an argument answers BAD_ARGUMENT (R186). -/
theorem State.configuring.take_bad (h : s.configuring) (act : α → State → State) :
    s.take .config none act = s.respond .badArgument := by
  obtain ⟨hs, hc⟩ := h
  exact State.take_bad hs (by rw [hc]; rfl) act

end Configuring

theorem checkSettings_none {a : SettingsArgs} (h : ∀ r, settingsInRange r → settingsFields r ≠ a) : checkSettings a = none := by
  refine Option.eq_none_iff_forall_ne_some.2 fun r hr => ?_
  obtain ⟨hrange, hfields⟩ := checkSettings_some hr
  exact h r hrange hfields

theorem checkRound_none {a : RoundArgs} (h : ∀ n e, roundFields n e ≠ a) : checkRound a = none :=
  Option.eq_none_iff_forall_ne_some.2 fun p hp => h p.1 p.2 (checkRound_some hp)

theorem checkSlot_none {a : SlotArgs} (h : ∀ n c, slotInRange c → slotFields n c ≠ a) : checkSlot a = none := by
  refine Option.eq_none_iff_forall_ne_some.2 fun p hp => ?_
  obtain ⟨hrange, hfields⟩ := checkSlot_some hp
  exact h p.1 p.2 hrange hfields

theorem checkTrip_none {a : TripArgs} (h : ∀ n r, ruleInRange r → tripFields n r ≠ a) : checkTrip a = none := by
  refine Option.eq_none_iff_forall_ne_some.2 fun p hp => ?_
  obtain ⟨hrange, hfields⟩ := checkTrip_some hp
  exact h p.1 p.2 hrange hfields

/-- Settles O8: the check of the fields is inverse to their spelling. -/
theorem writeSettingsReplacesTheRecord : Obligations.WriteSettingsReplacesTheRecord := by
  intro s hs
  refine ⟨fun r hr => ?_, fun a ha => ?_⟩
  · rw [exec_writeSettings, checkSettings_fields r hr, hs.take_acts, State.writeSettings]
    rfl
  · rw [exec_writeSettings, checkSettings_none ha, hs.take_bad, State.respond]

/-- WRITE_ROUND, WRITE_SLOT and WRITE_TRIP_RULE in CONFIG with fields that spell an entry (R171, R173, R174). -/
theorem exec_writeRound_fields {s : State} (hs : s.configuring) (n : Fin 24) (e : RoundEntry) :
    exec (.writeRound (roundFields n e)) s =
      .next (({ s with image.rounds := s.image.rounds.set n (some e) } : State).respond .ok) := by
  rw [exec_writeRound, checkRound_fields, hs.take_acts, State.writeRound]

theorem exec_writeSlot_fields {s : State} (hs : s.configuring) (n : Fin 16) {c : SlotConfig} (hc : slotInRange c) :
    exec (.writeSlot (slotFields n c)) s =
      .next (({ s with image.slots := s.image.slots.set n c } : State).respond .ok) := by
  rw [exec_writeSlot, checkSlot_fields n c hc, hs.take_acts, State.writeSlot]

theorem exec_writeTripRule_fields {s : State} (hs : s.configuring) (n : Fin 8) {r : TripRule} (hr : ruleInRange r) :
    exec (.writeTripRule (tripFields n r)) s =
      .next (({ s with image.rules := s.image.rules.set n r } : State).respond .ok) := by
  rw [exec_writeTripRule, checkTrip_fields n r hr, hs.take_acts, State.writeTripRule]

/-- Settles O9: the numbers of each field kind by kind, and the check of the fields inverse to their spelling. -/
theorem entryWritesReplaceOneEntry : Obligations.EntryWritesReplaceOneEntry := by
  refine ⟨fun r => ?settings, fun n e => ?round, fun n c => ?slot, fun n r => ?trip, fun s hs =>
    ⟨exec_writeRound_fields hs, fun a ha => ?noRound, fun n _ => exec_writeSlot_fields hs n, fun a ha => ?noSlot,
      fun n _ => exec_writeTripRule_fields hs n, fun a ha => ?noTrip⟩⟩
  case settings =>
    unfold settingsFields
    congr 1
    · cases r.ringPolicy <;> rfl
    · cases r.scanMode <;> rfl
  case round =>
    unfold roundFields
    congr 1
    · cases e.kind <;> rfl
    · cases e.schedule <;> rfl
    · cases e.source <;> rfl
  case slot =>
    unfold slotFields
    congr 1
    cases c.crossing <;> rfl
  case trip =>
    unfold tripFields
    congr 1
    cases r.condition <;> rfl
  case noRound => rw [exec_writeRound, checkRound_none ha, hs.take_bad, State.respond]
  case noSlot => rw [exec_writeSlot, checkSlot_none ha, hs.take_bad, State.respond]
  case noTrip => rw [exec_writeTripRule, checkTrip_none ha, hs.take_bad, State.respond]

/-- Settles O10: the index check passes below 24, and an empty entry cleared stays empty. -/
theorem clearRoundRemovesTheEntry : Obligations.ClearRoundRemovesTheEntry := by
  intro s hs n
  refine ⟨fun h => ?_, fun h hempty => ?_, fun h => ?_⟩
  · have hindex : checkIndex n = some ⟨n.toNat, h⟩ := dif_pos h
    rw [exec_clearRound, hindex, hs.take_acts, State.clearRound]
    rfl
  · rw [← hempty, Vector.set_getElem_self]
  · have hindex : checkIndex n = none := dif_neg (Nat.not_lt.2 h)
    rw [exec_clearRound, hindex, hs.take_bad, State.respond]

/-- COMMIT in CONFIG, where validation finds no failure (R151, R175). -/
theorem State.commit_valid {s : State} (h : validate s.image = none) : s.commit () = s.beginCommit.respond .ok := by
  rw [State.commit, h]

/-- COMMIT in CONFIG, where validation finds a failure (R175, R176). -/
theorem State.commit_failed {s : State} {f : CommitFailure} (h : validate s.image = some f) :
    s.commit () = s.respond .imageInvalid (failurePayload s.image f) := by
  rw [State.commit, h]

/-- Settles O11: COMMIT answers what validation finds, and the payload of a failure is read by the class of its item. -/
theorem commitEntersCommitting : Obligations.CommitEntersCommitting := by
  intro s hs
  refine ⟨fun h => ?_, fun f h => ⟨failurePayload s.image f, ?_, ?_⟩⟩
  · rw [exec_commit, hs.take_acts, State.commit_valid h, State.beginCommit, State.respond]
  · rw [exec_commit, hs.take_acts, State.commit_failed h, State.respond]
  · unfold failurePayload
    cases f.item <;> exact ⟨rfl, rfl, rfl⟩

end Sys2Proof.Machine
end

section
/-! What validation finds (R176): the first and the second of the indices that meet a predicate as searches of ascending lists,
each check of the table against its row, and the checks in the table's order. -/

namespace Sys2Proof.Machine

section Searches

variable {α β : Type} {rank : α → Nat} {l : List α}

/-- What a search through an ascending list finds: the answer of the lowest element that has one. -/
theorem findSome?_ascending {f : α → Option β} (hl : l.Pairwise fun x y => rank x < rank y) {b : β} :
    l.findSome? f = some b ↔ ∃ a ∈ l, f a = some b ∧ ∀ x ∈ l, rank x < rank a → f x = none := by
  rw [List.findSome?_eq_some_iff]
  constructor
  · rintro ⟨before, a, after, rfl, ha, hnone⟩
    rw [List.pairwise_append, List.pairwise_cons] at hl
    obtain ⟨_, ⟨hafter, _⟩, _⟩ := hl
    refine ⟨a, by simp, ha, fun x hx hlt => ?_⟩
    rcases List.mem_append.1 hx with hx | hx
    · exact hnone x hx
    · rcases List.mem_cons.1 hx with rfl | hx
      · exact absurd hlt (Nat.lt_irrefl _)
      · exact absurd hlt (Nat.lt_asymm (hafter x hx))
  · rintro ⟨a, ha, hb, hnone⟩
    obtain ⟨before, after, rfl⟩ := List.append_of_mem ha
    rw [List.pairwise_append] at hl
    obtain ⟨_, _, hbefore⟩ := hl
    exact ⟨before, a, after, rfl, hb, fun x hx => hnone x (by simp [hx]) (hbefore x hx a (by simp))⟩

/-- The first element of an ascending list that meets a predicate is the lowest. -/
theorem find?_ascending {p : α → Bool} (hl : l.Pairwise fun x y => rank x < rank y) {a : α} :
    l.find? p = some a ↔ a ∈ l ∧ p a = true ∧ ∀ x ∈ l, rank x < rank a → p x = false := by
  rw [List.find?_eq_findSome?_guard, findSome?_ascending hl]
  simp [Option.guard_eq_some_iff, and_assoc]

/-- The second element of an ascending list is the one with exactly one element below it. -/
theorem second_ascending (hl : l.Pairwise fun x y => rank x < rank y) {a : α} :
    l[1]? = some a ↔ a ∈ l ∧ ∃ m ∈ l, rank m < rank a ∧ ∀ x ∈ l, rank x < rank a → x = m := by
  match l with
  | [] => simp
  | [x] => simp +contextual
  | x :: y :: rest =>
    rw [List.pairwise_cons, List.pairwise_cons] at hl
    obtain ⟨hx, hy, _⟩ := hl
    have hxy : rank x < rank y := hx y List.mem_cons_self
    constructor
    · intro h
      obtain rfl : y = a := by simpa using h
      refine ⟨by simp, x, by simp, hxy, fun z hz hlt => ?_⟩
      rcases List.mem_cons.1 hz with rfl | hz
      · rfl
      · rcases List.mem_cons.1 hz with rfl | hz
        · exact absurd hlt (Nat.lt_irrefl _)
        · exact absurd hlt (Nat.lt_asymm (hy z hz))
    · rintro ⟨ha, m, hm, hlt, honly⟩
      rcases List.mem_cons.1 ha with rfl | ha
      · rcases List.mem_cons.1 hm with rfl | hm
        · exact absurd hlt (Nat.lt_irrefl _)
        · exact absurd hlt (Nat.lt_asymm (hx m hm))
      · rcases List.mem_cons.1 ha with rfl | ha
        · rfl
        · have hxm : x = m := honly x (by simp) (hxy.trans (hy a ha))
          have hym : y = m := honly y (by simp) (hy a ha)
          rw [hxm, hym] at hxy
          exact absurd hxy (Nat.lt_irrefl _)

/-- The first index that meets a predicate is the lowest. -/
theorem find?_finRange {k : Nat} {p : Fin k → Bool} {n : Fin k} :
    (List.finRange k).find? p = some n ↔ lowestAt (fun m => p m = true) n := by
  rw [find?_ascending (rank := Fin.val) (List.pairwise_lt_finRange k)]
  simp [lowestAt]

theorem lowestAt_congr {k : Nat} {p q : Fin k → Prop} (h : ∀ m, p m ↔ q m) (n : Fin k) : lowestAt p n ↔ lowestAt q n := by
  rw [show p = q from funext fun m => propext (h m)]

end Searches

section Table

variable {im : Image}

/-- The entries with their indices are the table (R49). -/
theorem mem_indexedEntries {n : Fin 24} {e : RoundEntry} : (n, e) ∈ indexedEntries im ↔ im.rounds[n] = some e := by
  unfold indexedEntries
  simp

/-- The first entry that meets a predicate stands at the lowest index of such entries. -/
theorem find?_indexedEntries {p : Fin 24 × RoundEntry → Bool} {n : Fin 24} :
    (∃ e, (indexedEntries im).find? p = some (n, e)) ↔
      lowestAt (fun m => ∃ e, im.rounds[m] = some e ∧ p (m, e) = true) n := by
  simp only [find?_ascending (rank := fun x : Fin 24 × RoundEntry => x.1.val) (indexedEntries_ascending im), lowestAt,
    mem_indexedEntries, Prod.forall, Fin.lt_def]
  constructor
  · rintro ⟨e, he, hp, hbelow⟩
    exact ⟨⟨e, he, hp⟩, fun m hm ⟨x, hx, hpx⟩ => by rw [hbelow m x hx hm] at hpx; cases hpx⟩
  · rintro ⟨⟨e, he, hp⟩, hbelow⟩
    exact ⟨e, he, hp, fun m x hx hm => eq_false_of_ne_true fun hpx => hbelow m hm ⟨x, hx, hpx⟩⟩

/-- The entries of a kind are those of the table's indices that hold it. -/
theorem mem_entriesOfKind {k : Kind} {n : Fin 24} {e : RoundEntry} :
    (n, e) ∈ entriesOfKind im k ↔ im.rounds[n] = some e ∧ e.kind = k := by
  unfold entriesOfKind
  rw [List.mem_filter, mem_indexedEntries, beq_iff_eq]

/-- The second entry of a kind stands at the second index that holds the kind. -/
theorem second_entriesOfKind {k : Kind} {n : Fin 24} :
    (∃ e, (entriesOfKind im k)[1]? = some (n, e)) ↔ secondAt (kindAt im k) n := by
  have hl : (entriesOfKind im k).Pairwise fun p q => p.1.val < q.1.val := (indexedEntries_ascending im).filter _
  simp only [second_ascending (rank := fun x : Fin 24 × RoundEntry => x.1.val) hl, secondAt, kindAt, Prod.exists, Prod.forall,
    mem_entriesOfKind, Fin.lt_def]
  constructor
  · rintro ⟨e, he, m, x, hx, hlt, honly⟩
    refine ⟨⟨e, he⟩, m, hlt, ⟨x, hx⟩, fun j hj ⟨y, hy⟩ => ?_⟩
    exact congrArg Prod.fst (honly j y hy hj)
  · rintro ⟨⟨e, he⟩, m, hlt, ⟨x, hx⟩, honly⟩
    refine ⟨e, he, m, x, hx, hlt, fun j y hy hj => ?_⟩
    obtain rfl := honly j hj ⟨y, hy⟩
    have hxy : some x = some y := hx.1.symm.trans hy.1
    rw [Option.some.inj hxy]

end Table

section Predicates

variable {im : Image}

/-- A source fits its kind: a value for MIN and MAX, the flags for ANY and ALL, none for the others (R176, order 6). -/
theorem sourceFits_iff (e : RoundEntry) : sourceFits e = true ↔
    (e.kind = .min ∨ e.kind = .max → e.source ≠ .none ∧ e.source ≠ .flags) ∧
    (e.kind = .any ∨ e.kind = .all → e.source = .flags) ∧
    (e.kind = .anchor ∨ e.kind = .roster ∨ e.kind = .digest → e.source = .none) := by
  have hvalue : isValueSource e.source = true ↔ e.source ≠ .none ∧ e.source ≠ .flags := by
    cases e.source <;> simp [isValueSource]
  unfold sourceFits
  cases e.kind <;> simp [hvalue]

/-- A code stands at a lower index too (R176, order 5). -/
theorem heldLower_iff {m : Fin 24} {e : RoundEntry} :
    heldLower im (m, e) = true ↔ ∃ j, j < m ∧ ∃ f, im.rounds[j] = some f ∧ f.code = e.code := by
  unfold heldLower
  simp only [List.any_eq_true, Prod.exists, mem_indexedEntries, Bool.and_eq_true, decide_eq_true_eq, beq_iff_eq]
  exact ⟨fun ⟨j, f, hf, hj, hc⟩ => ⟨j, hj, f, hf, hc⟩, fun ⟨j, hj, f, hf, hc⟩ => ⟨j, f, hf, hj, hc⟩⟩

/-- No code stands twice exactly where none stands at a lower index too. -/
theorem codes_nodup_iff :
    ((imageEntries im).map RoundEntry.code).Nodup ↔ ∀ p ∈ indexedEntries im, heldLower im p = false := by
  rw [← indexedEntries_map_snd, List.map_map]
  constructor
  · rintro hn ⟨m, e⟩ hp
    refine eq_false_of_ne_true fun hheld => ?_
    obtain ⟨j, hj, f, hf, hcode⟩ := heldLower_iff.1 hheld
    have hsame : (j, f) = (m, e) := eq_of_key_nodup _ hn (mem_indexedEntries.2 hf) hp hcode
    exact absurd (congrArg Prod.fst hsame) (Fin.ne_of_lt hj)
  · intro hnone
    rw [List.Nodup, List.pairwise_map]
    refine (indexedEntries_ascending im).imp_of_mem fun {p q} hp hq hlt hcode => ?_
    have hheld : heldLower im q = true := heldLower_iff.2 ⟨p.1, hlt, p.2, mem_indexedEntries.1 hp, hcode⟩
    exact Bool.false_ne_true ((hnone q hq).symm.trans hheld)

variable (hn : ((imageEntries im).map RoundEntry.code).Nodup)
include hn

/-- A post code fits: NONE, or an ON_REQUEST code of the table (R176, order 7). -/
theorem postFits_iff (post : Option Code) : postFits im post = true ↔
    ∀ c, post = some c → ∃ e ∈ imageEntries im, e.code = c ∧ e.schedule = .onRequest := by
  cases post with
  | none => simp [postFits]
  | some c => simp [postFits, isOnRequest_iff hn]

theorem postFits_eq_false_iff (post : Option Code) : postFits im post = false ↔ badPost im post := by
  rw [← Bool.not_eq_true, postFits_iff hn]
  unfold badPost
  push Not
  rfl

/-- A rule's watch fits: disabled, or a code of the table of a kind that fits its condition (R132; R176, order 8). -/
theorem watchFits_iff (r : TripRule) : watchFits im r = true ↔
    (r.enabled = true → ∃ e ∈ imageEntries im, e.code = r.watched ∧ fits r.condition e.kind) := by
  have hfits : ∀ k, conditionFits r.condition k = true ↔ fits r.condition k := by
    cases r.condition <;> simp [conditionFits, fits]
  unfold watchFits
  cases r.enabled with
  | false => simp
  | true =>
    rw [Bool.not_true, Bool.false_or, forall_prop_of_true rfl]
    split
    · next e he =>
      rw [hfits]
      obtain ⟨hmem, hcode⟩ := findRound_some he
      refine ⟨fun h => ⟨e, hmem, hcode, h⟩, fun ⟨x, hx, hxcode, h⟩ => ?_⟩
      have hfound : findRound im r.watched = some x := hxcode ▸ findRound_of_mem hn hx
      rw [Option.some.inj (he.symm.trans hfound)]
      exact h
    · next hnone => exact ⟨nofun, fun ⟨x, hx, hxcode, _⟩ => absurd hxcode (findRound_none hnone x hx)⟩

/-- A rule's watch with the kinds of each condition spelled out (R132). -/
theorem watchFits_iff_kinds (r : TripRule) : watchFits im r = true ↔
    (r.enabled = true → ∃ e ∈ imageEntries im, e.code = r.watched ∧
      match r.condition with
      | .above | .below => e.kind = .min ∨ e.kind = .max
      | .maskSet | .maskClear => e.kind = .any ∨ e.kind = .all
      | .rosterShort => e.kind = .roster
      | .disagree => e.kind = .digest) := by
  rw [watchFits_iff hn]
  cases r.condition <;> rfl

theorem watchFits_eq_false_iff (r : TripRule) : watchFits im r = false ↔
    r.enabled = true ∧ ∀ e ∈ imageEntries im, e.code = r.watched → ¬ fits r.condition e.kind := by
  rw [← Bool.not_eq_true, watchFits_iff hn]
  push Not
  rfl

end Predicates

/-- The schedule time by kinds is the round bits with the idle spacing (R19, R68). -/
theorem scheduleTime_eq (im : Image) : scheduleTime im = scheduleMicros im := by
  have hfilter : isScheduled = fun e => e.schedule != .onRequest := by
    funext e
    rw [Bool.eq_iff_iff, isScheduled_iff, bne_iff_ne]
  unfold scheduleTime scheduleMicros bitMicros
  rw [hfilter]
  congr 3
  funext e
  cases e.kind <;> rfl

section Checks

variable {im : Image} {f : CommitFailure}

/-- A failure at an entry meets its row where the entry found stands at the row's index. -/
theorem failRound_iff {reason : CommitReason} {o : Option (Fin 24 × RoundEntry)} {row : Item → Prop} (hnone : ¬ row .none)
    (hslot : ∀ n, ¬ row (.slot n)) (htrip : ∀ n, ¬ row (.trip n)) (hround : ∀ n, (∃ e, o = some (n, e)) ↔ row (.round n)) :
    failRound reason o = some f ↔ f.reason = reason ∧ row f.item := by
  unfold failRound
  rw [Option.map_eq_some_iff]
  constructor
  · rintro ⟨⟨n, e⟩, ho, rfl⟩
    exact ⟨rfl, (hround n).1 ⟨e, ho⟩⟩
  · obtain ⟨r, i⟩ := f
    rintro ⟨rfl, hi⟩
    cases i with
    | none => exact absurd hi hnone
    | slot n => exact absurd hi (hslot n)
    | trip n => exact absurd hi (htrip n)
    | round n =>
      obtain ⟨e, ho⟩ := (hround n).2 hi
      exact ⟨(n, e), ho, rfl⟩

/-- A failure at the lowest index, of slots or of trip rules, that meets a predicate. -/
theorem failAt_iff {k : Nat} {item : Fin k → Item} {reason : CommitReason} {p : Fin k → Bool} {q : Fin k → Prop}
    (h : ∀ n, p n = true ↔ q n) :
    (((List.finRange k).find? p).map fun n => ({ reason, item := item n } : CommitFailure)) = some f ↔
      f.reason = reason ∧ ∃ n, f.item = item n ∧ lowestAt q n := by
  simp only [Option.map_eq_some_iff, find?_finRange, lowestAt_congr h]
  constructor
  · rintro ⟨n, hn, rfl⟩
    exact ⟨rfl, n, rfl, hn⟩
  · obtain ⟨r, i⟩ := f
    rintro ⟨rfl, n, rfl, hn⟩
    exact ⟨n, hn, rfl⟩

/-- A failure with no item. -/
theorem failNone_iff {reason : CommitReason} {c : Prop} [Decidable c] {row : Item → Prop} (hround : ∀ n, ¬ row (.round n))
    (hslot : ∀ n, ¬ row (.slot n)) (htrip : ∀ n, ¬ row (.trip n)) (hnone : c ↔ row .none) :
    (if c then some { reason, item := .none } else none) = some f ↔ f.reason = reason ∧ row f.item := by
  rw [Option.ite_none_right_eq_some]
  constructor
  · rintro ⟨hc, h⟩
    cases h
    exact ⟨rfl, hnone.1 hc⟩
  · obtain ⟨r, i⟩ := f
    rintro ⟨rfl, hi⟩
    cases i with
    | none => exact ⟨hnone.2 hi, rfl⟩
    | slot n => exact absurd hi (hslot n)
    | trip n => exact absurd hi (htrip n)
    | round n => exact absurd hi (hround n)

theorem checkNoAnchor_iff : checkNoAnchor im = some f ↔ f.reason = .noAnchor ∧ checkFails im .noAnchor f.item := by
  refine failNone_iff (fun _ => id) (fun _ => id) (fun _ => id) ?_
  rw [List.isEmpty_iff, List.eq_nil_iff_forall_not_mem]
  simp only [Prod.forall, mem_entriesOfKind]
  exact ⟨fun h n ⟨e, he⟩ => h n e he, fun h n e he => h n ⟨e, he⟩⟩

theorem checkTwoAnchors_iff : checkTwoAnchors im = some f ↔ f.reason = .twoAnchors ∧ checkFails im .twoAnchors f.item :=
  failRound_iff id (fun _ => id) (fun _ => id) fun _ => second_entriesOfKind

theorem checkAnchorDivisor_iff :
    checkAnchorDivisor im = some f ↔ f.reason = .anchorDivisor ∧ checkFails im .anchorDivisor f.item := by
  refine failRound_iff id (fun _ => id) (fun _ => id) fun n => ?_
  rw [entriesOfKind, List.find?_filter, find?_indexedEntries, checkFails]
  exact lowestAt_congr (fun m => exists_congr fun e => and_congr_right' (by simp)) n

theorem checkTwoDigests_iff : checkTwoDigests im = some f ↔ f.reason = .twoDigests ∧ checkFails im .twoDigests f.item :=
  failRound_iff id (fun _ => id) (fun _ => id) fun _ => second_entriesOfKind

theorem checkDuplicateCode_iff :
    checkDuplicateCode im = some f ↔ f.reason = .duplicateCode ∧ checkFails im .duplicateCode f.item := by
  refine failRound_iff id (fun _ => id) (fun _ => id) fun n => ?_
  rw [find?_indexedEntries]
  exact lowestAt_congr (fun m => exists_congr fun e => and_congr_right' heldLower_iff) n

theorem checkBadSource_iff : checkBadSource im = some f ↔ f.reason = .badSource ∧ checkFails im .badSource f.item := by
  refine failRound_iff id (fun _ => id) (fun _ => id) fun n => ?_
  rw [find?_indexedEntries, checkFails]
  refine lowestAt_congr (fun m => exists_congr fun e => and_congr_right' ?_) n
  rw [Bool.not_eq_true', ← Bool.not_eq_true, sourceFits_iff]
  cases e.kind <;> simp [imp_iff_not_or]

section Codes

variable (hn : ((imageEntries im).map RoundEntry.code).Nodup)
include hn

/-- The slots of order 7 come before its trip rules (R176). -/
theorem checkBadPostCode_iff : (checkSlotPosts im).or (checkTripPosts im) = some f ↔
    f.reason = .badPostCode ∧ checkFails im .badPostCode f.item := by
  have hslots : ∀ {g : CommitFailure}, checkSlotPosts im = some g ↔ g.reason = .badPostCode ∧
      ∃ n, g.item = .slot n ∧ lowestAt (fun m : Fin 16 => badPost im im.slots[m].post) n :=
    failAt_iff fun n => by rw [Bool.not_eq_true', postFits_eq_false_iff hn]
  have htrips : checkTripPosts im = some f ↔ f.reason = .badPostCode ∧ ∃ n, f.item = .trip n ∧
      lowestAt (fun m : Fin 8 => im.rules[m].enabled = true ∧ badPost im im.rules[m].post) n :=
    failAt_iff fun n => by rw [Bool.and_eq_true, Bool.not_eq_true', postFits_eq_false_iff hn]
  have hnone : checkSlotPosts im = none ↔ ∀ m : Fin 16, ¬ badPost im im.slots[m].post := by
    unfold checkSlotPosts
    simp [← postFits_eq_false_iff hn]
  rw [Option.or_eq_some_iff, hslots, htrips, hnone]
  cases f.item <;> simp [checkFails, and_left_comm]

theorem checkBadTrip_iff : checkBadTrip im = some f ↔ f.reason = .badTrip ∧ checkFails im .badTrip f.item := by
  refine (failAt_iff fun n => by rw [Bool.not_eq_true', watchFits_eq_false_iff hn]).trans (and_congr_right' ?_)
  cases f.item <;> simp [checkFails]

end Codes

theorem checkBadLimits_iff : checkBadLimits im = some f ↔ f.reason = .badLimits ∧ checkFails im .badLimits f.item := by
  refine (failAt_iff fun n => decide_eq_true_iff).trans (and_congr_right' ?_)
  cases f.item <;> simp [checkFails]

theorem checkScheduleLength_iff :
    checkScheduleLength im = some f ↔ f.reason = .scheduleTooLong ∧ checkFails im .scheduleTooLong f.item :=
  failNone_iff (fun _ => id) (fun _ => id) (fun _ => id) (by rw [checkFails, scheduleTime_eq])

end Checks

/-- The reasons in the table's order (R176). -/
def commitReasons : List CommitReason :=
  [.noAnchor, .twoAnchors, .anchorDivisor, .twoDigests, .duplicateCode, .badSource, .badPostCode, .badTrip, .badLimits,
    .scheduleTooLong]

/-- The check of a reason: order 7 has two parts, the slots before the trip rules (R176). -/
def reasonCheck (im : Image) : CommitReason → Option CommitFailure
  | .noAnchor => checkNoAnchor im
  | .twoAnchors => checkTwoAnchors im
  | .anchorDivisor => checkAnchorDivisor im
  | .twoDigests => checkTwoDigests im
  | .duplicateCode => checkDuplicateCode im
  | .badSource => checkBadSource im
  | .badPostCode => (checkSlotPosts im).or (checkTripPosts im)
  | .badTrip => checkBadTrip im
  | .badLimits => checkBadLimits im
  | .scheduleTooLong => checkScheduleLength im

/-- Validation goes through the reasons in the table's order. -/
theorem validate_eq (im : Image) : validate im = commitReasons.findSome? (reasonCheck im) := by
  unfold validate commitChecks commitReasons
  simp only [List.findSome?_cons, List.findSome?_nil, reasonCheck]
  cases checkSlotPosts im <;> rfl

theorem mem_commitReasons (r : CommitReason) : r ∈ commitReasons := by cases r <;> decide

theorem commitReasons_ascending : commitReasons.Pairwise fun r q => reasonNumber r < reasonNumber q := by decide

/-- Each check finds its row's failure. The rows after DUPLICATE_CODE look a code up, so they count on no code twice. -/
theorem reasonCheck_iff {im : Image} {r : CommitReason} {f : CommitFailure}
    (hn : reasonNumber .duplicateCode < reasonNumber r → ((imageEntries im).map RoundEntry.code).Nodup) :
    reasonCheck im r = some f ↔ f.reason = r ∧ checkFails im r f.item := by
  cases r with
  | noAnchor => exact checkNoAnchor_iff
  | twoAnchors => exact checkTwoAnchors_iff
  | anchorDivisor => exact checkAnchorDivisor_iff
  | twoDigests => exact checkTwoDigests_iff
  | duplicateCode => exact checkDuplicateCode_iff
  | badSource => exact checkBadSource_iff
  | badPostCode => exact checkBadPostCode_iff (hn (by decide))
  | badTrip => exact checkBadTrip_iff (hn (by decide))
  | badLimits => exact checkBadLimits_iff
  | scheduleTooLong => exact checkScheduleLength_iff

/-- A check passes where its row holds of no item. -/
theorem reasonCheck_none_iff {im : Image} {r : CommitReason}
    (hn : reasonNumber .duplicateCode < reasonNumber r → ((imageEntries im).map RoundEntry.code).Nodup) :
    reasonCheck im r = none ↔ ∀ i, ¬ checkFails im r i := by
  rw [Option.eq_none_iff_forall_ne_some]
  exact ⟨fun h i hi => h ⟨r, i⟩ ((reasonCheck_iff hn).2 ⟨rfl, hi⟩), fun h f hf => h f.item ((reasonCheck_iff hn).1 hf).2⟩

theorem checkDuplicateCode_none {im : Image} :
    checkDuplicateCode im = none ↔ ((imageEntries im).map RoundEntry.code).Nodup := by
  rw [codes_nodup_iff, checkDuplicateCode, failRound, Option.map_eq_none_iff, List.find?_eq_none]
  simp only [Bool.not_eq_true]

/-- What validation finds: the failure of the first reason in the table's order whose check fails (R176). -/
theorem validate_eq_some_iff {im : Image} {f : CommitFailure} : validate im = some f ↔
    ∃ r, reasonCheck im r = some f ∧ ∀ q, reasonNumber q < reasonNumber r → reasonCheck im q = none := by
  rw [validate_eq, findSome?_ascending commitReasons_ascending]
  simp only [mem_commitReasons, true_and, true_imp_iff]

/-- The failure found is the first row of the table that fails, with the row's item (R176). -/
theorem validate_eq_some_iff_checkFails (im : Image) (f : CommitFailure) : validate im = some f ↔
    checkFails im f.reason f.item ∧ ∀ r i, reasonNumber r < reasonNumber f.reason → ¬ checkFails im r i := by
  rw [validate_eq_some_iff]
  constructor
  · rintro ⟨r, hr, hbelow⟩
    have hn : reasonNumber .duplicateCode < reasonNumber r → ((imageEntries im).map RoundEntry.code).Nodup :=
      fun h => checkDuplicateCode_none.1 (hbelow _ h)
    obtain ⟨rfl, hrow⟩ := (reasonCheck_iff hn).1 hr
    exact ⟨hrow, fun q i hq => (reasonCheck_none_iff fun h => hn (h.trans hq)).1 (hbelow q hq) i⟩
  · rintro ⟨hrow, hbelow⟩
    have hn : reasonNumber .duplicateCode < reasonNumber f.reason → ((imageEntries im).map RoundEntry.code).Nodup :=
      fun h => checkDuplicateCode_none.1
        ((reasonCheck_none_iff (r := .duplicateCode) fun h' => absurd h' (Nat.lt_irrefl _)).2 fun i => hbelow _ i h)
    exact ⟨f.reason, (reasonCheck_iff hn).2 ⟨rfl, hrow⟩,
      fun q hq => (reasonCheck_none_iff fun h => hn (h.trans hq)).2 fun i => hbelow q i hq⟩

section Accepted

variable {im : Image}

/-- The entries of a kind, counted with and without their indices. -/
theorem entriesOfKind_length (k : Kind) :
    (entriesOfKind im k).length = ((imageEntries im).filter fun e => e.kind == k).length := by
  rw [← indexedEntries_map_snd, List.filter_map, List.length_map]
  rfl

theorem checkNoAnchor_none :
    checkNoAnchor im = none ↔ 1 ≤ ((imageEntries im).filter fun e => e.kind == .anchor).length := by
  unfold checkNoAnchor
  rw [← entriesOfKind_length, Nat.one_le_iff_ne_zero, Ne, List.length_eq_zero_iff, ← List.isEmpty_iff]
  simp

theorem failSecond_none {reason : CommitReason} {k : Kind} :
    failRound reason (entriesOfKind im k)[1]? = none ↔ ((imageEntries im).filter fun e => e.kind == k).length ≤ 1 := by
  rw [failRound, Option.map_eq_none_iff, List.getElem?_eq_none_iff, entriesOfKind_length]

/-- No entry meets a predicate that does not look at the index. -/
theorem find?_indexedEntries_none {p : RoundEntry → Bool} :
    (indexedEntries im).find? (fun x => p x.2) = none ↔ ∀ e ∈ imageEntries im, p e = false := by
  rw [← indexedEntries_map_snd, List.find?_eq_none]
  simp only [List.forall_mem_map, Bool.not_eq_true]

theorem checkAnchorDivisor_none :
    checkAnchorDivisor im = none ↔ ∀ e ∈ imageEntries im, e.kind = .anchor → e.schedule = .div1 := by
  rw [checkAnchorDivisor, failRound, Option.map_eq_none_iff, entriesOfKind, List.find?_filter,
    find?_indexedEntries_none (p := fun e => (e.kind == .anchor) = true ∧ (e.schedule != .div1) = true)]
  simp

theorem checkBadSource_none :
    checkBadSource im = none ↔ ∀ e ∈ imageEntries im, sourceFits e = true := by
  rw [checkBadSource, failRound, Option.map_eq_none_iff, find?_indexedEntries_none (p := fun e => !sourceFits e)]
  simp only [Bool.not_eq_false']

theorem checkSlotPosts_none : checkSlotPosts im = none ↔ ∀ n : Fin 16, postFits im im.slots[n].post = true := by
  unfold checkSlotPosts
  simp

theorem checkTripPosts_none : checkTripPosts im = none ↔
    ∀ n : Fin 8, im.rules[n].enabled = true → postFits im im.rules[n].post = true := by
  unfold checkTripPosts
  simp

theorem checkBadTrip_none : checkBadTrip im = none ↔ ∀ n : Fin 8, watchFits im im.rules[n] = true := by
  unfold checkBadTrip
  simp

theorem checkBadLimits_none : checkBadLimits im = none ↔ ∀ n : Fin 16, im.slots[n].low ≤ im.slots[n].high := by
  unfold checkBadLimits
  simp

theorem checkScheduleLength_none :
    checkScheduleLength im = none ↔ scheduleTime im ≤ im.settings.cycleLength * 1000 := by
  unfold checkScheduleLength
  rw [scheduleTime_eq]
  simp

end Accepted

/-- Validation passes the images that pass every check (R176). -/
theorem validate_eq_none_iff (im : Image) : validate im = none ↔
    checkNoAnchor im = none ∧ checkTwoAnchors im = none ∧ checkAnchorDivisor im = none ∧ checkTwoDigests im = none ∧
    checkDuplicateCode im = none ∧ checkBadSource im = none ∧ checkSlotPosts im = none ∧ checkTripPosts im = none ∧
    checkBadTrip im = none ∧ checkBadLimits im = none ∧ checkScheduleLength im = none := by
  rw [validate, List.findSome?_eq_none_iff]
  simp [commitChecks]

/-- Settles O12: each row of the table is its check, in the table's order; and the images that pass are those that pass each. -/
theorem validationAcceptsExactly : Obligations.ValidationAcceptsExactly := by
  refine ⟨validate_eq_some_iff_checkFails, rfl, fun im => ?_⟩
  rw [validate_eq_none_iff, checkNoAnchor_none, checkTwoAnchors, failSecond_none, checkAnchorDivisor_none, checkTwoDigests,
    failSecond_none, checkDuplicateCode_none, checkBadSource_none, checkSlotPosts_none, checkTripPosts_none, checkBadTrip_none,
    checkBadLimits_none, checkScheduleLength_none]
  constructor
  · rintro ⟨hanchor, hanchors, hdivisor, hdigests, hn, hsource, hslots, htrips, hwatch, hlimits, htime⟩
    exact ⟨le_antisymm hanchors hanchor, hdivisor, hdigests, hn, fun e he => (sourceFits_iff e).1 (hsource e he),
      fun n => (postFits_iff hn _).1 (hslots n),
      fun n he => ⟨(postFits_iff hn _).1 (htrips n he), (watchFits_iff_kinds hn _).1 (hwatch n) he⟩,
      hlimits, htime⟩
  · rintro ⟨hanchor, hdivisor, hdigests, hn, hsource, hslots, hrules, hlimits, htime⟩
    exact ⟨hanchor.ge, hanchor.le, hdivisor, hdigests, hn, fun e he => (sourceFits_iff e).2 (hsource e he),
      fun n => (postFits_iff hn _).2 (hslots n), fun n he => (postFits_iff hn _).2 (hrules n he).1,
      fun n => (watchFits_iff_kinds hn _).2 fun he => (hrules n he).2, hlimits, htime⟩

end Sys2Proof.Machine
end

section
/-! The configuration digest (R177, R178): sorting by code finds the one ascending order of a table, so the digest takes in the
shared part of the entries and nothing of their indices. -/

namespace Sys2Proof.Machine

section Sorting

variable {α β : Type} {key : α → Code} {l m : List α}

/-- In ascending order no code stands twice. -/
theorem nodup_of_ascending (h : (m.map key).Pairwise (· < ·)) : (m.map key).Nodup :=
  h.imp BitVec.ne_of_lt

/-- Sorting by code finds the ascending order of a list, if there is one. -/
theorem sortByCode_eq (hp : m.Perm l) (h : (m.map key).Pairwise (· < ·)) : sortByCode key l = m := by
  have hn : (l.map key).Nodup := (hp.map key).nodup_iff.1 (nodup_of_ascending h)
  exact eq_of_ascending key (sortByCode_ascending key hn) h fun x => (mem_sortByCode key).trans hp.mem_iff.symm

/-- Sorting by code does not look at the order it begins with. -/
theorem sortByCode_eq_of_perm (hn : (l.map key).Nodup) (hp : l.Perm m) : sortByCode key l = sortByCode key m :=
  (sortByCode_eq ((sortByCode_perm key l).trans hp) (sortByCode_ascending key hn)).symm

theorem insertByCode_map {k : β → Code} (f : α → β) (hf : ∀ x, k (f x) = key x) (x : α) (l : List α) :
    (insertByCode key x l).map f = insertByCode k (f x) (l.map f) := by
  induction l with
  | nil => rfl
  | cons y ys ih =>
    rw [insertByCode, List.map_cons, insertByCode, hf, hf, ← ih]
    split <;> rfl

/-- A map that keeps the codes goes through sorting. -/
theorem sortByCode_map {k : β → Code} (f : α → β) (hf : ∀ x, k (f x) = key x) (l : List α) :
    (sortByCode key l).map f = sortByCode k (l.map f) := by
  induction l with
  | nil => rfl
  | cons x l ih => exact (insertByCode_map f hf x _).trans (congrArg (insertByCode k (f x)) ih)

end Sorting

/-- What the stations of a line share of an entry (R177). -/
def sharedPart (e : RoundEntry) : Code × Kind × Schedule := (e.code, e.kind, e.schedule)

/-- The bytes of an entry's shared part in the digest (R177). -/
def sharedBytes (p : Code × Kind × Schedule) : List Byte :=
  [p.1.setWidth 8, BitVec.ofNat 8 (kindNumber p.2.1), BitVec.ofNat 8 (scheduleNumber p.2.2)]

/-- The digest's bytes in the shared parts, sorted (R177). -/
theorem digestBytes_shared (im : Image) : digestBytes im =
    BitVec.ofNat 8 im.settings.rate.val :: BitVec.ofNat 8 im.settings.cycleLength ::
      (sortByCode Prod.fst ((imageEntries im).map sharedPart)).flatMap sharedBytes := by
  rw [← sortByCode_map (key := RoundEntry.code) sharedPart (fun _ => rfl), List.flatMap_map]
  rfl

/-- The digest's bytes, the entries of the table in ascending code (R177). -/
theorem digestBytes_ascending {im : Image} {entries : List RoundEntry} (hp : entries.Perm (imageEntries im))
    (h : (entries.map RoundEntry.code).Pairwise (· < ·)) : digestBytes im =
    [BitVec.ofNat 8 im.settings.rate.val, BitVec.ofNat 8 im.settings.cycleLength] ++
      entries.flatMap fun e =>
        [e.code.setWidth 8, BitVec.ofNat 8 (kindNumber e.kind), BitVec.ofNat 8 (scheduleNumber e.schedule)] := by
  rw [digestBytes, sortByCode_eq hp h]
  rfl

/-- The bits of a byte by their weights, the highest first. -/
theorem byteBits_eq (b : Byte) : byteBits b = [7, 6, 5, 4, 3, 2, 1, 0].map fun k => b.getLsbD k := rfl

/-- One bit of the 16-bit check: the polynomial is added where the bit shifted out and the bit taken differ (R178). -/
theorem crc16Bit_eq (acc : Word) (b : Bool) :
    crc16Bit acc b = (acc <<< 1) ^^^ (if acc.getLsbD 15 = b then 0 else 0x1021) := by
  have hmsb : acc.msb = acc.getLsbD 15 := BitVec.msb_eq_getLsbD_last acc
  rw [← hmsb, crc16Bit]
  by_cases h : acc.msb = b <;> simp [h]

/-- Settles O14: the table sorted is its ascending order, and the sorted shared parts are all that the digest reads. -/
theorem digestTakesTheSharedPart : Obligations.DigestTakesTheSharedPart := by
  refine ⟨fun im entries hp h => ?_, fun a b hrate hlength hn hp => ?_⟩
  · have hbits : byteBits = fun b => [7, 6, 5, 4, 3, 2, 1, 0].map fun k => b.getLsbD k := funext byteBits_eq
    have hcrc : crc16Bit = fun (acc : Word) b => (acc <<< 1) ^^^ (if acc.getLsbD 15 = b then 0 else 0x1021) :=
      funext₂ crc16Bit_eq
    dsimp only
    rw [digestOf, digestBytes_ascending hp h, hbits, hcrc]
    congr 4
    funext e
    congr 2
    · cases e.kind <;> rfl
    · congr 1
      cases e.schedule <;> rfl
  · have hsorted := sortByCode_eq_of_perm (key := Prod.fst) (l := (imageEntries a).map sharedPart)
      (m := (imageEntries b).map sharedPart)      (by rw [List.map_map]; exact hn) hp
    rw [digestOf, digestOf, digestBytes_shared, digestBytes_shared, hrate, hlength, hsorted]

end Sys2Proof.Machine
end

section
/-! The frames of the port (R180 to R187): each edge of its wires case by case, the request in the buffer judged and taken, and
a whole frame from the falling edge of CSN to the rising one. -/

namespace Sys2Proof.Machine

section Wires

variable {s : State}

/-- A falling edge of CSN opens a frame (R180). -/
theorem State.frameOpen_opens (hs : s.held = false) (hc : s.port.csn = .high) :
    s.frameOpen = { s with port := Port.openFrame { s.port with csn := .low } } := by
  unfold State.frameOpen
  rw [if_pos hc, hs]
  rfl

/-- While RESETN is low no frame opens (R184). -/
theorem State.frameOpen_held (hs : s.held = true) (hc : s.port.csn = .high) :
    s.frameOpen = { s with port.csn := .low } := by
  unfold State.frameOpen
  rw [if_pos hc, hs]
  rfl

/-- With CSN LOW there is no falling edge of it (log entry 5). -/
theorem State.frameOpen_low (hc : s.port.csn = .low) : s.frameOpen = s :=
  if_neg (by rw [hc]; nofun)

/-- An edge of SCK in an open frame (R180). -/
theorem State.sckEdge_clocks {sck : Level} (hs : s.held = false) (ho : s.port.frameOpen = true) (hn : s.port.sck ≠ sck)
    (mosi : Level) :
    s.sckEdge sck mosi = { s with port := Port.clockEdge { s.port with sck := sck, mosi := mosi } sck mosi } :=
  if_pos ⟨hn, ho, hs⟩

/-- Outside a frame, or without a change of SCK, the wires alone move (log entry 24). -/
theorem State.sckEdge_wires {sck : Level} (h : s.port.frameOpen = false ∨ s.held = true ∨ s.port.sck = sck) (mosi : Level) :
    s.sckEdge sck mosi = { s with port := { s.port with sck := sck, mosi := mosi } } := by
  refine if_neg fun ⟨hn, ho, hs⟩ => ?_
  rcases h with h | h | h
  · exact Bool.false_ne_true (h.symm.trans ho)
  · exact Bool.false_ne_true (hs.symm.trans h)
  · exact hn h

/-- A rising edge of CSN that ends a frame of the port (R181). -/
theorem State.frameEnd_judges (hs : s.held = false) (hc : s.port.csn = .low) (ho : s.port.frameOpen = true) :
    s.frameEnd = s.closeFrame.judgeFrame s.port.buffer := by
  unfold State.frameEnd
  rw [if_pos hc, if_pos ⟨ho, hs⟩]

/-- A frame that is none of the port's is ignored (R184). -/
theorem State.frameEnd_ignored (h : s.port.frameOpen = false ∨ s.held = true) (hc : s.port.csn = .low) :
    s.frameEnd = s.closeFrame := by
  unfold State.frameEnd
  rw [if_pos hc]
  refine if_neg fun ⟨ho, hs⟩ => ?_
  rcases h with h | h
  · exact Bool.false_ne_true (h.symm.trans ho)
  · exact Bool.false_ne_true (hs.symm.trans h)

/-- With CSN HIGH there is no rising edge of it (log entry 5). -/
theorem State.frameEnd_high (hc : s.port.csn = .high) : s.frameEnd = s :=
  if_neg (by rw [hc]; nofun)

end Wires

/-- A bit that leaves its byte incomplete (R180). -/
theorem Port.takeBit_partial {p : Port} (h : p.bits.length < 7) (bit : Bool) :
    p.takeBit bit = { p with bits := p.bits ++ [bit] } :=
  if_neg (Nat.ne_of_lt h)

/-- A bit that completes its byte (R180). -/
theorem Port.takeBit_complete {p : Port} (h : p.bits.length = 7) (bit : Bool) :
    p.takeBit bit = { p with buffer := p.buffer ++ [byteOfBits (p.bits ++ [bit])], bits := [] } :=
  if_pos h

/-- Settles O42: each edge from its case. -/
theorem frameWiresMoveBits : Obligations.FrameWiresMoveBits := by
  refine ⟨fun r k => rfl, rfl, fun s => ⟨fun hs hc => ?_, fun hs hc => ?_, fun hs ho hsck mosi => ⟨fun hb => ?_, fun hb => ?_⟩,
    fun hs ho hsck mosi => ?_, fun sck mosi h => ?_, fun h hc => ?_, fun hc => ?_, fun hc => ?_⟩⟩
  · rw [exec_frameOpen, State.frameOpen_opens hs hc]
    rfl
  · rw [exec_frameOpen, State.frameOpen_held hs hc]
  · rw [exec_sckEdge, State.sckEdge_clocks hs ho (by rw [hsck]; nofun), Port.clockEdge,
      Port.takeBit_partial (p := { s.port with sck := .high, mosi := mosi }) hb]
  · rw [exec_sckEdge, State.sckEdge_clocks hs ho (by rw [hsck]; nofun), Port.clockEdge,
      Port.takeBit_complete (p := { s.port with sck := .high, mosi := mosi }) hb]
  · rw [exec_sckEdge, State.sckEdge_clocks hs ho (by rw [hsck]; nofun), Port.clockEdge, Port.shift]
  · rw [exec_sckEdge, State.sckEdge_wires h]
  · rw [exec_frameEnd, State.frameEnd_ignored h hc, State.closeFrame]
  · rw [exec_frameOpen, State.frameOpen_low hc]
  · rw [exec_frameEnd, State.frameEnd_high hc]

/-- Every request fits the request buffer (R180). -/
theorem request_fits {c : Instr} {command : Byte} {payload : List Byte} (h : requestOf c = some (command, payload)) :
    payload.length ≤ 120 := by
  cases c with
  | nop => exact Laws.PortRequest.nop _ _ h
  | readStatus => exact Laws.PortRequest.readStatus _ _ h
  | softReset => exact Laws.PortRequest.softReset _ _ h
  | writeSettings a => exact Laws.PortRequest.writeSettings a _ _ h
  | writeRound a => exact Laws.PortRequest.writeRound a _ _ h
  | clearRound n => exact Laws.PortRequest.clearRound n _ _ h
  | writeSlot a => exact Laws.PortRequest.writeSlot a _ _ h
  | writeTripRule a => exact Laws.PortRequest.writeTripRule a _ _ h
  | commit => exact Laws.PortRequest.commit _ _ h
  | readResults n => exact Laws.PortRequest.readResults n _ _ h
  | readLatest n => exact Laws.PortRequest.readLatest n _ _ h
  | readPeers a n => exact Laws.PortRequest.readPeers a n _ _ h
  | readSlots a n => exact Laws.PortRequest.readSlots a n _ _ h
  | readTrips => exact Laws.PortRequest.readTrips _ _ h
  | postRound n => exact Laws.PortRequest.postRound n _ _ h
  | startScan => exact Laws.PortRequest.startScan _ _ h
  | stopScan => exact Laws.PortRequest.stopScan _ _ h
  | resumeScan => exact Laws.PortRequest.resumeScan _ _ h
  | inject n raw => exact Laws.PortRequest.inject n raw _ _ h
  | setUserValue v => exact Laws.PortRequest.setUserValue v _ _ h
  | setUserFlags f => exact Laws.PortRequest.setUserFlags f _ _ h
  | clearFlags m => exact Laws.PortRequest.clearFlags m _ _ h
  | clearTrip n => exact Laws.PortRequest.clearTrip n _ _ h
  | clearAlerts m => exact Laws.PortRequest.clearAlerts m _ _ h
  | _ => cases h

/-- A good buffer is its request taken, whatever follows the check byte (R181). -/
theorem State.judgeFrame_frame (s : State) (command : Byte) {payload : List Byte} (extra : List Byte)
    (h : payload.length ≤ 120) :
    s.judgeFrame (frameBytes command payload ++ extra) = s.takeRequest command payload := by
  rw [State.judgeFrame, judgeRequest_frame command payload extra h]

/-- A buffer that begins with no request's frame is bad (R181). -/
theorem State.judgeFrame_bad (s : State) {buffer : List Byte}
    (h : ∀ command payload extra, payload.length ≤ 120 → buffer ≠ frameBytes command payload ++ extra) :
    s.judgeFrame buffer = s.respond .badFrame := by
  have hbad : judgeRequest buffer = none := Option.eq_none_iff_forall_ne_some.2 fun ⟨command, payload⟩ hr => by
    obtain ⟨hl, extra, hb⟩ := frame_of_judgeRequest hr
    exact h command payload extra hl hb
  rw [State.judgeFrame, hbad]

section Lengths

variable {l : List Byte}

theorem noPayload_length (h : l.length ≠ 0) : noPayload l = none := by
  unfold noPayload
  split
  · exact absurd rfl h
  · rfl

theorem oneByte_length (h : l.length ≠ 1) : oneByte l = none := by
  unfold oneByte
  split
  · exact absurd rfl h
  · rfl

theorem twoBytes_length (h : l.length ≠ 2) : twoBytes l = none := by
  unfold twoBytes
  split
  · exact absurd rfl h
  · rfl

theorem oneWord_length (h : l.length ≠ 2) : oneWord l = none := by
  unfold oneWord
  split
  · exact absurd rfl h
  · rfl

theorem slotAndWord_length (h : l.length ≠ 3) : slotAndWord l = none := by
  unfold slotAndWord
  split
  · exact absurd rfl h
  · rfl

theorem splitSettings_length (h : l.length ≠ 14) : splitSettings l = none := by
  unfold splitSettings
  split
  · exact absurd rfl h
  · rfl

theorem splitRound_length (h : l.length ≠ 6) : splitRound l = none := by
  unfold splitRound
  split
  · exact absurd rfl h
  · rfl

theorem splitSlot_length (h : l.length ≠ 15) : splitSlot l = none := by
  unfold splitSlot
  split
  · exact absurd rfl h
  · rfl

theorem splitTrip_length (h : l.length ≠ 12) : splitTrip l = none := by
  unfold splitTrip
  split
  · exact absurd rfl h
  · rfl

end Lengths

/-- The gate of a port command (R187). -/
def gateOf (c : Instr) : Gate := if configCommand c then .config else if runCommand c then .run else .always

theorem gateOf_configCommand {c : Instr} (h : configCommand c = true) : gateOf c = .config := if_pos h

theorem gateOf_runCommand {c : Instr} (h : runCommand c = true) : gateOf c = .run := by
  have hc : configCommand c = false := by cases c <;> first | rfl | cases h
  rw [gateOf, hc, h]
  rfl

theorem gateOf_everyStateCommand {c : Instr} (h : everyStateCommand c = true) : gateOf c = .always := by
  cases c <;> first | rfl | cases h

/-- A payload of another length than the command's leaves it without an argument, behind its gate (R186, R187). -/
theorem takeRequest_wrongLength {c : Instr} {command : Byte} {p payload : List Byte} (h : requestOf c = some (command, p))
    (hl : payload.length ≠ p.length) (s : State) :
    ∃ (α : Type) (act : α → State → State), s.takeRequest command payload = s.take (gateOf c) none act := by
  cases c with
  | nop => cases h; exact ⟨_, _, congrArg s.takeNop (noPayload_length hl)⟩
  | readStatus => cases h; exact ⟨_, _, congrArg s.takeReadStatus (noPayload_length hl)⟩
  | softReset => cases h; exact ⟨_, _, congrArg s.takeSoftReset (noPayload_length hl)⟩
  | writeSettings _ => cases h; exact ⟨_, _, congrArg s.takeWriteSettings (splitSettings_length hl)⟩
  | writeRound _ => cases h; exact ⟨_, _, congrArg s.takeWriteRound (splitRound_length hl)⟩
  | clearRound _ => cases h; exact ⟨_, _, congrArg s.takeClearRound (oneByte_length hl)⟩
  | writeSlot _ => cases h; exact ⟨_, _, congrArg s.takeWriteSlot (splitSlot_length hl)⟩
  | writeTripRule _ => cases h; exact ⟨_, _, congrArg s.takeWriteTripRule (splitTrip_length hl)⟩
  | commit => cases h; exact ⟨_, _, congrArg s.takeCommit (noPayload_length hl)⟩
  | readResults _ => cases h; exact ⟨_, _, congrArg s.takeReadResults (oneByte_length hl)⟩
  | readLatest _ => cases h; exact ⟨_, _, congrArg s.takeReadLatest (oneByte_length hl)⟩
  | readPeers _ _ => cases h; exact ⟨_, _, congrArg s.takeReadPeers (twoBytes_length hl)⟩
  | readSlots _ _ => cases h; exact ⟨_, _, congrArg s.takeReadSlots (twoBytes_length hl)⟩
  | readTrips => cases h; exact ⟨_, _, congrArg s.takeReadTrips (noPayload_length hl)⟩
  | postRound _ => cases h; exact ⟨_, _, congrArg s.takePostRound (oneByte_length hl)⟩
  | startScan => cases h; exact ⟨_, _, congrArg s.takeStartScan (noPayload_length hl)⟩
  | stopScan => cases h; exact ⟨_, _, congrArg s.takeStopScan (noPayload_length hl)⟩
  | resumeScan => cases h; exact ⟨_, _, congrArg s.takeResumeScan (noPayload_length hl)⟩
  | inject _ _ => cases h; exact ⟨_, _, congrArg s.takeInject (slotAndWord_length hl)⟩
  | setUserValue _ => cases h; exact ⟨_, _, congrArg s.takeSetUserValue (oneWord_length hl)⟩
  | setUserFlags _ => cases h; exact ⟨_, _, congrArg s.takeSetUserFlags (oneByte_length hl)⟩
  | clearFlags _ => cases h; exact ⟨_, _, congrArg s.takeClearFlags (oneWord_length hl)⟩
  | clearTrip _ => cases h; exact ⟨_, _, congrArg s.takeClearTrip (oneByte_length hl)⟩
  | clearAlerts _ => cases h; exact ⟨_, _, congrArg s.takeClearAlerts (oneWord_length hl)⟩
  | _ => cases h

/-- A command byte that no command has (R186). -/
theorem takeRequest_unknown {command : Byte} (h : ∀ c p, requestOf c ≠ some (command, p)) (s : State) (payload : List Byte) :
    s.takeRequest command payload = s.respond .unknownCommand := by
  have unnamed : ∀ (c : Instr) {b : Byte} {p : List Byte}, requestOf c = some (b, p) → command.toNat ≠ b.toNat :=
    fun c _ p hc hb => h c p (by rw [hc, BitVec.eq_of_toNat_eq hb])
  unfold State.takeRequest
  split
  · exact absurd ‹_› (unnamed .nop rfl)
  · exact absurd ‹_› (unnamed .readStatus rfl)
  · exact absurd ‹_› (unnamed .softReset rfl)
  · exact absurd ‹_› (unnamed (.writeSettings ⟨0, 0, 0, 0, 0, 0, 0, 0, 0, 0⟩) rfl)
  · exact absurd ‹_› (unnamed (.writeRound ⟨0, 0, 0, 0, 0, 0⟩) rfl)
  · exact absurd ‹_› (unnamed (.clearRound 0) rfl)
  · exact absurd ‹_› (unnamed (.writeSlot ⟨0, 0, 0, 0, 0, 0, 0, 0, 0, 0, 0, 0⟩) rfl)
  · exact absurd ‹_› (unnamed (.writeTripRule ⟨0, 0, 0, 0, 0, 0, 0, 0, 0, 0⟩) rfl)
  · exact absurd ‹_› (unnamed .commit rfl)
  · exact absurd ‹_› (unnamed (.readResults 0) rfl)
  · exact absurd ‹_› (unnamed (.readLatest 0) rfl)
  · exact absurd ‹_› (unnamed (.readPeers 0 0) rfl)
  · exact absurd ‹_› (unnamed (.readSlots 0 0) rfl)
  · exact absurd ‹_› (unnamed .readTrips rfl)
  · exact absurd ‹_› (unnamed (.postRound 0) rfl)
  · exact absurd ‹_› (unnamed .startScan rfl)
  · exact absurd ‹_› (unnamed .stopScan rfl)
  · exact absurd ‹_› (unnamed .resumeScan rfl)
  · exact absurd ‹_› (unnamed (.inject 0 0) rfl)
  · exact absurd ‹_› (unnamed (.setUserValue 0) rfl)
  · exact absurd ‹_› (unnamed (.setUserFlags 0) rfl)
  · exact absurd ‹_› (unnamed (.clearFlags 0) rfl)
  · exact absurd ‹_› (unnamed (.clearTrip 0) rfl)
  · exact absurd ‹_› (unnamed (.clearAlerts 0) rfl)
  · rfl

/-- The end of a frame with a good request in the buffer is its command taken (R181, R186). -/
theorem exec_frameEnd_request {s : State} (hs : s.held = false) (hc : s.port.csn = .low) (ho : s.port.frameOpen = true)
    {c : Instr} {command : Byte} {payload extra : List Byte} (hr : requestOf c = some (command, payload))
    (hb : s.port.buffer = frameBytes command payload ++ extra) : exec .frameEnd s = exec c s.closeFrame := by
  rw [exec_frameEnd, State.frameEnd_judges hs hc ho, hb, State.judgeFrame_frame _ _ _ (request_fits hr),
    takeRequest_of_request hr]

/-- Settles O43: the buffer judged, and the request taken behind its gate. -/
theorem frameEndTakesTheRequest : Obligations.FrameEndTakesTheRequest := by
  intro s hs hc ho
  refine ⟨fun c command payload extra hr hb => exec_frameEnd_request hs hc ho hr hb, ?_⟩
  rw [exec_frameEnd, State.frameEnd_judges hs hc ho]
  refine ⟨fun hb => ?_, fun command payload extra hl hb hn => ?_,
    fun c command p payload extra hr hne hl hb => ?_⟩
  · rw [State.judgeFrame_bad _ hb, State.respond, State.closeFrame]
  · rw [hb, State.judgeFrame_frame _ _ _ hl, takeRequest_unknown hn, State.respond, State.closeFrame]
  · obtain ⟨_, act, htake⟩ := takeRequest_wrongLength hr hne s.closeFrame
    have hclosed : s.closeFrame.held = false := hs
    have bad : (gateOf c).refusal s.control.station = none →
        s.closeFrame.judgeFrame s.port.buffer = s.closeFrame.respond .badArgument := fun hg => by
      rw [hb, State.judgeFrame_frame _ _ _ hl, htake, State.take_bad hclosed hg]
    have refused : ∀ {st : Status}, (gateOf c).refusal s.control.station = some st →
        s.closeFrame.judgeFrame s.port.buffer = s.closeFrame.respond st := fun hg => by
      rw [hb, State.judgeFrame_frame _ _ _ hl, htake, State.take_refused hclosed hg]
    refine ⟨fun h => ?_, fun h => ?_, fun h hst => ?_⟩
    · refine congrArg Host.Outcome.next (bad ?_)
      rcases h with h | ⟨h, hst⟩ | ⟨h, hst⟩
      · rw [gateOf_everyStateCommand h]; rfl
      · rw [gateOf_configCommand h, hst]; rfl
      · rw [gateOf_runCommand h, Gate.refusal_run hst]
    · refine congrArg Host.Outcome.next (refused ?_)
      rcases h with ⟨h, hst⟩ | ⟨h, hst⟩
      · rw [gateOf_configCommand h, Gate.refusal_config_running hst]
      · rw [gateOf_runCommand h, hst]; rfl
    · refine congrArg Host.Outcome.next (refused ?_)
      rcases h with h | h
      · rw [gateOf_configCommand h, hst]; rfl
      · rw [gateOf_runCommand h, hst]; rfl

/-- The edges of a frame's bytes bring these bytes into the empty buffer (R180). -/
theorem runEvents_bytes (bytes : List Byte) {s : State} (h : s.takesBits) (hbuffer : s.port.buffer = [])
    (hbits : s.port.bits = []) :
    ∃ mosi miso shifted, runEvents (byteEdges bytes) (.next s) = .next { s with port := { s.port with
      mosi := mosi, miso := miso, shifted := shifted, buffer := bytes, bits := [] } } := by
  obtain ⟨mosi, miso, shifted, hrun⟩ := runEvents_bits (bytes.flatMap byteBits) h
  rw [hbuffer, hbits, bufferAfter_bytes] at hrun
  exact ⟨mosi, miso, shifted, hrun⟩

/-- Settles O44: the frame opens, its bytes come into the buffer, and its end takes the request. -/
theorem wholeFrameTakesTheCommand : Obligations.WholeFrameTakesTheCommand := by
  intro s c command payload hs hc hsck hr
  generalize ht : ({ s with port := Port.openFrame { s.port with csn := .low } } : State) = t
  have htakes : t.takesBits := by
    subst ht
    exact ⟨hs, rfl, hsck⟩
  obtain ⟨mosi, miso, shifted, hrun⟩ :=
    runEvents_bytes (frameBytes command payload) htakes (by rw [← ht]; rfl) (by rw [← ht]; rfl)
  generalize hu : ({ t with port := { t.port with
    mosi := mosi, miso := miso, shifted := shifted, buffer := frameBytes command payload, bits := [] } } : State) = u at hrun
  have hend : exec .frameEnd u = exec c u.closeFrame := by
    refine exec_frameEnd_request (extra := []) ?_ ?_ ?_ hr ?_ <;> subst hu ht
    · exact hs
    · rfl
    · rfl
    · exact (List.append_nil _).symm
  have hclosed : u.closeFrame = { s with port := { s.port with
      mosi := mosi, miso := miso, shifted := shifted, frameOpen := false, buffer := [], bits := [] } } := by
    subst hu ht
    refine congrArg (fun p => ({ s with port := p } : State)) ?_
    show ({ s.port with csn := .high, mosi := mosi, miso := miso, shifted := shifted, frameOpen := false, buffer := []
                        bits := [] } : Port) = _
    rw [← hc]
  refine ⟨mosi, miso, shifted, ?_⟩
  calc runEvents (frameEvents (frameBytes command payload)) (.next s)
      = runEvents [.frameEnd] (runEvents (byteEdges (frameBytes command payload)) (exec .frameOpen s)) := by
        rw [frameEvents, runEvents, List.foldl_append, List.foldl_append]
        rfl
    _ = exec .frameEnd u := by
        rw [exec_frameOpen, State.frameOpen_opens hs hc, ht, hrun]
        rfl
    _ = _ := by rw [hend, hclosed]

end Sys2Proof.Machine
end

section
/-! The queue: a step takes the command at its front (log entry 7), and no command changes what waits behind it. -/

namespace Sys2Proof.Machine

/-- A step with a command waiting takes it from the front of the queue (log entry 7). -/
theorem step_of_pending_cons {s : State} {c : Instr} {rest : List Instr} (h : s.pending = c :: rest) :
    step s = exec c { s with pending := rest } := by
  unfold step
  rw [h]

/-- Settles O1: the queue that is put in place has the command at its front. -/
theorem stepRunsFrontCommand : Obligations.StepRunsFrontCommand := by
  intro c rest s
  exact step_of_pending_cons (s := { s with pending := c :: rest }) rfl

theorem RunEffect.keeps_pending {s t : State} (h : RunEffect s t) : t.pending = s.pending := by
  cases h with
  | post c _ => rw [State.post_only]
  | begin _ => rw [State.beginScan_only]
  | resume _ => rw [State.resume_only]
  | inject n raw _ =>
    obtain ⟨_, _, _, _, hx⟩ := s.writeSample_changes n raw true
    rw [hx]
  | _ => rfl

theorem PortEffect.keeps_pending {s t : State} (h : PortEffect s t) : t.pending = s.pending := by
  cases h with
  | run t _ _ he => exact he.keeps_pending
  | _ => rfl

/-- Every effect of a command leaves the queue, the resets' as well: what waits is outside the machine's blocks. -/
theorem Effect.keeps_pending {s t : State} (h : Effect s t) : t.pending = s.pending := by
  cases h with
  | port t p hp _ => exact hp.keeps_pending
  | hardReset => rfl
  | release _ => rfl
  | complete _ _ =>
    rw [State.resume_only]
    rfl
  | sample lv _ =>
    obtain ⟨_, _, _, _, _, _, _, _, _, _, _, _, _, _, _, _, _, _, _, hx⟩ := s.sample_changes lv
    rw [hx]
  | boundary line _ =>
    obtain ⟨_, _, _, _, _, _, _, _, hx⟩ := s.boundary_changes line
    rw [hx]
  | expire hs hr =>
    obtain ⟨_, _, _, _, _, _, _, _, _, _, hx⟩ := s.expire_changes
    rw [← State.expire_runs hs hr, hx]
  | settle _ _ _ _ _ => rfl
  | conversion _ _ _ _ _ _ =>
    obtain ⟨_, _, _, _, _, hx⟩ := s.completeConversion_changes
    rw [hx]

/-- Settles O3: every command comes to one of the effects, and each of them keeps the queue. -/
theorem execKeepsTheQueue : Obligations.ExecKeepsTheQueue := by
  intro c s t h
  exact (exec_effect h).keeps_pending

end Sys2Proof.Machine
end
